-- ==== Sys2Proof/Word.lean ====
section
/-! DEFINITION. The word types of the block: one 32-bit word is the width of every register, port and memory
cell (`00_scope.md` R8, R9; `20_memory.md` R70, R75). -/

namespace Sys2Proof

/-- One 32-bit word: a buffer word, a ring cell, an operand word, a status register (R70). -/
abbrev Word := BitVec 32

/-- An IEEE-754 binary32 value held in one word: bit 31 the sign, bits 30:23 the exponent, bits 22:0 the
fraction (R9). -/
abbrev F32 := Word

/-- An 8-bit field of a head word: an opcode, an instance index, a buffer index (R101). -/
abbrev Byte := BitVec 8

end Sys2Proof
end

