-- ==== Sys2Proof/Machine/Float.lean ====
section
/-! DEFINITION. IEEE-754 binary32 arithmetic on words, as `00_scope.md` R9 to R12 give it: one operation rounded
to nearest, ties to even, subnormals kept, no fused operation. A finite word is read as an exact dyadic number,
the operation is computed exactly on integers, and `roundPack` rounds once at the end. -/

namespace Sys2Proof.Machine

/-! ## Constants (R15 and the decimal literals of the pseudocode) -/

/-- +0.0 -/
def fzero : F32 := 0x00000000
/-- −0.0 -/
def fnegZero : F32 := 0x80000000
/-- 0.25 -/
def fquarter : F32 := 0x3E800000
/-- 0.5 -/
def fhalf : F32 := 0x3F000000
/-- 0.75 -/
def fthreeQuarters : F32 := 0x3F400000
/-- 1.0 -/
def fone : F32 := 0x3F800000
/-- −1.0 -/
def fnegOne : F32 := 0xBF800000
/-- 2.0 -/
def ftwo : F32 := 0x40000000
/-- −2.0 -/
def fnegTwo : F32 := 0xC0000000
/-- 3.0 -/
def fthree : F32 := 0x40400000
/-- −3.0 -/
def fnegThree : F32 := 0xC0400000
/-- 4.0 -/
def ffour : F32 := 0x40800000
/-- 6.0 -/
def fsix : F32 := 0x40C00000
/-- 10.0 -/
def ften : F32 := 0x41200000
/-- 15.0 -/
def ffifteen : F32 := 0x41700000
/-- 40.0 -/
def fforty : F32 := 0x42200000
/-- `TWO_PI` (R15). -/
def twoPi : F32 := 0x40C90FDB
/-- `DB2L2` (R15). -/
def db2l2 : F32 := 0x3E2A152D
/-- `MILLI` (R15). -/
def milli : F32 := 0x3A83126F
/-- The word an invalid operation yields. Which NaN it is cannot be observed: a word that is no finite number
never reaches a sample or a state word (R14). -/
def qNaN : F32 := 0x7FC00000
/-- +infinity. -/
def fInf : F32 := 0x7F800000

/-! ## Fields and classes of a word (R9) -/

/-- The sign bit, bit 31. -/
def fsign (x : F32) : Bool := x.msb

/-- The biased exponent, bits 30:23. -/
def fexpo (x : F32) : Nat := x.toNat / 2 ^ 23 % 256

/-- The fraction, bits 22:0. -/
def ffrac (x : F32) : Nat := x.toNat % 2 ^ 23

/-- A finite number: the exponent field is not 255 (R14, R118). -/
def isFinite (x : F32) : Bool := fexpo x != 255

/-- A NaN. -/
def isNaN (x : F32) : Bool := fexpo x == 255 && ffrac x != 0

/-- An infinity. -/
def isInf (x : F32) : Bool := fexpo x == 255 && ffrac x == 0

/-- A zero of either sign. -/
def isZero (x : F32) : Bool := fexpo x == 0 && ffrac x == 0

/-- The integer significand of a finite word; its value is `± fmant x × 2 ^ (fscale x − 150)`. -/
def fmant (x : F32) : Nat := if fexpo x = 0 then ffrac x else 2 ^ 23 + ffrac x

/-- The exponent that goes with `fmant`, offset by 150. -/
def fscale (x : F32) : Nat := if fexpo x = 0 then 1 else fexpo x

/-- The word with the given sign bit and magnitude bits 30:0. -/
def withSign (neg : Bool) (magnitude : Nat) : F32 :=
  BitVec.ofNat 32 (if neg then 2 ^ 31 + magnitude else magnitude)

/-! ## Rounding -/

/-- Round the natural number `m` divided by `2 ^ k` to the nearest integer, ties to even. -/
def roundShift (m k : Nat) : Nat :=
  let q := m / 2 ^ k
  let r := m % 2 ^ k
  if 2 ^ k < 2 * r || (2 ^ k == 2 * r && q % 2 == 1) then q + 1 else q

/-- The binary32 word nearest to `± m × 2 ^ e`, ties to even, with gradual underflow; a magnitude that rounds
past the largest finite number gives an infinity (R12). The unit in the last place of the result is
`2 ^ (max (e + len − 24) (−149))`, `len` the bit length of `m`. -/
def roundPack (neg : Bool) (m : Nat) (e : Int) : F32 :=
  if m = 0 then withSign neg 0
  else
    let ulp : Int := max (e + (Nat.log2 m : Int) - 23) (-149)
    let sig : Nat := if ulp ≤ e then m * 2 ^ (e - ulp).toNat else roundShift m (ulp - e).toNat
    let magnitude : Nat := (ulp + 149).toNat * 2 ^ 23 + sig
    if magnitude < 0x7F800000 then withSign neg magnitude else withSign neg 0x7F800000

/-! ## Sign operations (R12) -/

/-- Unary minus: flips the sign bit. -/
def fneg (x : F32) : F32 := x ^^^ 0x80000000

/-- `|x|`: clears the sign bit. -/
def fabs (x : F32) : F32 := x &&& 0x7FFFFFFF

/-! ## Comparisons (R12): `−0 = +0`, and a NaN is unordered -/

/-- An integer that orders the words other than NaN as their numbers are ordered. -/
def fkey (x : F32) : Int :=
  if fsign x then -((x.toNat % 2 ^ 31 : Nat) : Int) else ((x.toNat % 2 ^ 31 : Nat) : Int)

/-- `a < b` -/
def flt (a b : F32) : Bool := !isNaN a && !isNaN b && decide (fkey a < fkey b)

/-- `a ≤ b` -/
def fle (a b : F32) : Bool := !isNaN a && !isNaN b && decide (fkey a ≤ fkey b)

/-- `a = b` -/
def feq (a b : F32) : Bool := !isNaN a && !isNaN b && decide (fkey a = fkey b)

/-- `a > b` -/
def fgt (a b : F32) : Bool := flt b a

/-- `a ≥ b` -/
def fge (a b : F32) : Bool := fle b a

/-- `a ≠ b` -/
def fne (a b : F32) : Bool := !feq a b

/-! ## Arithmetic (R12) -/

/-- The exact value of a finite word as a multiple of `2 ^ (e − 150)`, for `e ≤ fscale x`. -/
def fintAt (x : F32) (e : Nat) : Int :=
  if fsign x then -((fmant x * 2 ^ (fscale x - e) : Nat) : Int) else ((fmant x * 2 ^ (fscale x - e) : Nat) : Int)

/-- `a + b`. An exact zero sum is `−0` only when both operands are negative. -/
def fadd (a b : F32) : F32 :=
  if isNaN a || isNaN b then qNaN
  else if isInf a then (if isInf b && fsign a != fsign b then qNaN else a)
  else if isInf b then b
  else
    let e := min (fscale a) (fscale b)
    let v := fintAt a e + fintAt b e
    if v = 0 then withSign (fsign a && fsign b) 0
    else roundPack (decide (v < 0)) v.natAbs ((e : Int) - 150)

/-- `a − b`. -/
def fsub (a b : F32) : F32 := fadd a (fneg b)

/-- `a × b`. -/
def fmul (a b : F32) : F32 :=
  let neg := fsign a != fsign b
  if isNaN a || isNaN b then qNaN
  else if isInf a || isInf b then (if isZero a || isZero b then qNaN else withSign neg 0x7F800000)
  else roundPack neg (fmant a * fmant b) ((fscale a : Int) + (fscale b : Int) - 300)

/-- `a ÷ b`. The quotient is taken to 64 more bits than the significands have, with a sticky bit for the
remainder, so that one rounding is exact. -/
def fdiv (a b : F32) : F32 :=
  let neg := fsign a != fsign b
  if isNaN a || isNaN b then qNaN
  else if isInf a then (if isInf b then qNaN else withSign neg 0x7F800000)
  else if isInf b then withSign neg 0
  else if isZero b then (if isZero a then qNaN else withSign neg 0x7F800000)
  else
    let n := fmant a * 2 ^ 64
    let q := n / fmant b
    let sticky := if n % fmant b = 0 then 0 else 1
    roundPack neg (2 * q + sticky) ((fscale a : Int) - (fscale b : Int) - 65)

/-- The integer square root of `m` found bit by bit from bit `bits` down, starting from the root `r` found so
far. -/
def isqrtFrom (m : Nat) : (bits : Nat) → (r : Nat) → Nat
  | 0, r => r
  | b + 1, r => isqrtFrom m b (if (r + 2 ^ b) * (r + 2 ^ b) ≤ m then r + 2 ^ b else r)

/-- `sqrt a`. The square root of a negative number is invalid; `sqrt(−0) = −0`. With `h = ⌊fscale a ÷ 2⌋` the
number is `m × 2 ^ (2 h − 214)`, whose root is taken to an integer with a sticky bit for what is left. -/
def fsqrt (a : F32) : F32 :=
  if isNaN a then qNaN
  else if isZero a then a
  else if fsign a then qNaN
  else if isInf a then a
  else
    let s := fscale a
    let m := (if s % 2 = 0 then fmant a else 2 * fmant a) * 2 ^ 64
    let r := isqrtFrom m 48 0
    let sticky := if r * r = m then 0 else 1
    roundPack false (2 * r + sticky) (((s / 2 : Nat) : Int) - 108)

/-! ## Conversions (R11) -/

/-- `u2f(u)`: a natural number to binary32, exact below `2^24`, otherwise rounded to nearest even. -/
def u2f (u : Nat) : F32 := roundPack false u 0

/-- `trunc(f)`: the integer part. R11 defines it for finite `f ≥ 0` with `f < 2^31` only; elsewhere there is
none. -/
def trunc (f : F32) : Option Nat :=
  if isFinite f && fle fzero f && flt f 0x4F000000 then
    some (fmant f * 2 ^ fscale f / 2 ^ 150)
  else none

/-! ## Helpers of the pseudocode (R17, R146) -/

/-- `clampf(v, lo, hi)` (R17). -/
def clampf (v lo hi : F32) : F32 := if flt v lo then lo else if fgt v hi then hi else v

/-- `lo ≤ v ≤ hi`. -/
def inRange (lo v hi : F32) : Bool := fle lo v && fle v hi

/-- `onepole(c, y, x) = (c × y) + ((1.0 − c) × x)` (R146). -/
def onepole (c y x : F32) : F32 := fadd (fmul c y) (fmul (fsub fone c) x)

/-- `approach(cur, inc, dest)` (R197): a step that never passes the destination. -/
def approach (cur inc dest : F32) : F32 :=
  let v := fadd cur inc
  let v := if fge inc fzero && fgt v dest then dest else v
  if flt inc fzero && flt v dest then dest else v

end Sys2Proof.Machine
end

