-- ==== Sys2Proof/Config.lean ====
section
/-! DEFINITION. The configuration record of the block (`00_scope.md` R8) and the raw configuration functions
(R13). A parameter marked OPEN in R8 is a field; a parameter whose value R8 fixes is a constant below. The
record is plain data and stands in the machine's state, where no step changes it (log 2), so a statement about
every state holds for every configuration. What a legal configuration is: `Sys2Proof.Machine.Config.wf`
(`Safety.lean`). -/

namespace Sys2Proof

/-- The implementation parameters of R8 that the spec leaves open. An instance count of a class with a ring
memory is the length of its list of capacities. -/
structure Config where
  /-- `BLKSZ`: samples per block at the sample boundary. -/
  blksz : Nat
  /-- `BLOCK_MAX`: words in one block buffer. -/
  blockMax : Nat
  /-- `FS`: the sample rate in Hz. -/
  fs : F32
  /-- `NBUF`: block buffers per stage. -/
  nBuf : Nat
  /-- `N_BQ`: biquad instances per stage. -/
  nBq : Nat
  /-- `DL_CAP[k]`, `k < N_DL`. -/
  dlCap : List Nat
  /-- `MT_CAP[k]`, `k < N_MT`. -/
  mtCap : List Nat
  /-- `AP_CAP[k]`, `k < N_AP`. -/
  apCap : List Nat
  /-- `VD_CAP[k]`, `k < N_VD`. -/
  vdCap : List Nat
  /-- `N_CP`. -/
  nCp : Nat
  /-- `N_CL`. -/
  nCl : Nat
  /-- `N_AM`. -/
  nAm : Nat
  /-- `N_SY`. -/
  nSy : Nat
  /-- `N_ZC`. -/
  nZc : Nat
  /-- `N_SM`. -/
  nSm : Nat
  /-- `N_AT`. -/
  nAt : Nat
  /-- `DL_RAMP_STEPS`. -/
  dlRampSteps : Nat
  /-- `MT_MAX_TAPS`. -/
  mtMaxTaps : Nat
  /-- `BQ_GAIN_MIN_DB`. -/
  bqGainMinDb : F32
  /-- `BQ_GAIN_MAX_DB`. -/
  bqGainMaxDb : F32
  /-- `CP_RATIO_MAX`. -/
  cpRatioMax : F32
  /-- `CP_ATT_MIN_MS`. -/
  cpAttMinMs : F32
  /-- `CP_ATT_MAX_MS`. -/
  cpAttMaxMs : F32
  /-- `CP_REL_MIN_MS`. -/
  cpRelMinMs : F32
  /-- `CP_REL_MAX_MS`. -/
  cpRelMaxMs : F32
  /-- `CP_RMS_MIN_MS`. -/
  cpRmsMinMs : F32
  /-- `CP_RMS_MAX_MS`. -/
  cpRmsMaxMs : F32
  /-- `CP_GAIN_MIN`. -/
  cpGainMin : F32
  /-- `CP_GAIN_MAX`. -/
  cpGainMax : F32
  /-- `CL_UP_TAPS`; its length is `CL_NTAPS`. -/
  clUpTaps : List F32
  /-- `CL_DN_TAPS`; its length is `CL_NTAPS`. -/
  clDnTaps : List F32
  /-- `MOD_RATE_MIN`. -/
  modRateMin : F32
  /-- `MOD_RATE_MAX`. -/
  modRateMax : F32
  /-- `SY_FREQ_MIN`. -/
  syFreqMin : F32
  /-- `SY_FREQ_MAX`. -/
  syFreqMax : F32
  /-- `SY_VOL_MAX`. -/
  syVolMax : F32
  /-- `ZC_HP_C` (R336). -/
  zcHpC : F32
  /-- `ZC_LP_C` (R336). -/
  zcLpC : F32
  /-- `ZC_PK_DECAY` (R336). -/
  zcPkDecay : F32
  /-- `ZC_HIST_LEN` (R336). -/
  zcHistLen : Nat
  /-- `ZC_HALF_TOL` (R336). -/
  zcHalfTol : F32
  /-- `ZC_HALF_MIN` (R336). -/
  zcHalfMin : Nat
  /-- `ZC_VAR_THRESH` (R336). -/
  zcVarThresh : F32
  /-- `ZC_GRACE` (R336). -/
  zcGrace : Word
  /-- `ZC_IDLE_RESET` (R336). -/
  zcIdleReset : Word
  /-- `N_EFFECTS`: effect programs per stage. -/
  nEffects : Nat
  /-- `PROG[A][e]`, `e < N_EFFECTS`: the effect programs of stage A, each a list of command words (R376). -/
  progA : List (List Word)
  /-- `PROG[B][e]`, `e < N_EFFECTS`. -/
  progB : List (List Word)
  /-- `CQ_DEPTH`: commands a control queue holds. -/
  cqDepth : Nat
  deriving DecidableEq, Repr

/-! ## Parameters whose value R8 gives -/

/-- `BQ_FREQ_MIN` = 10.0 Hz (R187). -/
def Config.bqFreqMin : F32 := 0x41200000
/-- `BQ_FREQ_MAX` = 20000.0 Hz (R187). -/
def Config.bqFreqMax : F32 := 0x469C4000
/-- `BQ_Q_MIN` = binary32(0.01) (R187). -/
def Config.bqQMin : F32 := 0x3C23D70A
/-- `BQ_Q_MAX` = 100.0 (R187). -/
def Config.bqQMax : F32 := 0x42C80000
/-- `DL_FB_MIN` = −1.0 (R8); also the lower bound of the variable delay's feedback (R257) and of the allpass
gain (R240). -/
def Config.fbMin : F32 := 0xBF800000
/-- `DL_FB_MAX` = 1.0 (R8). -/
def Config.fbMax : F32 := 0x3F800000
/-- `CP_THR_MIN_DB` = −100.0 (R8). -/
def Config.cpThrMinDb : F32 := 0xC2C80000
/-- `CP_THR_MAX_DB` = 30.0 (R8). -/
def Config.cpThrMaxDb : F32 := 0x41F00000
/-- `CP_RATIO_MIN` = 1.0 (R8). -/
def Config.cpRatioMin : F32 := 0x3F800000
/-- `CL_THR_MIN` = binary32(0.001) (R302). -/
def Config.clThrMin : F32 := 0x3A83126F
/-- `CL_THR_MAX` = 1.0 (R302). -/
def Config.clThrMax : F32 := 0x3F800000
/-- `ZC_FMIN` = 70.0 Hz (R336). -/
def Config.zcFmin : F32 := 0x428C0000
/-- `ZC_FMAX` = 700.0 Hz (R336). -/
def Config.zcFmax : F32 := 0x442F0000
/-- The least legal sample rate, 44100.0 Hz (R118, R187). -/
def Config.fsMin : F32 := 0x472C4400
/-- The greatest legal sample rate, 200000.0 Hz (R118, R187). -/
def Config.fsMax : F32 := 0x48435000
/-- `SY_LEN_MAX` = 0x00FFFFFF (R357). -/
def Config.syLenMax : Nat := 0x00FFFFFF

/-! ## The configuration functions before R13's properties are imposed (log 6)

Each stands for any function whatever: it has no body. `Sys2Proof.Machine.fsin` and its like
(`Machine/Numerics.lean`) keep its value wherever R13's properties hold of it. -/

/-- The free function behind `fsin` (R13). -/
opaque Config.fsinRaw : F32 → F32
/-- The free function behind `fcos` (R13). -/
opaque Config.fcosRaw : F32 → F32
/-- The free function behind `fexp` (R13). -/
opaque Config.fexpRaw : F32 → F32
/-- The free function behind `flog2` (R13). -/
opaque Config.flog2Raw : F32 → F32
/-- The free function behind `fexp2` (R13). -/
opaque Config.fexp2Raw : F32 → F32
/-- The free function behind `fpow10` (R13). -/
opaque Config.fpow10Raw : F32 → F32

/-- The configuration that `State.reset` holds (log 2, DESIGN CHOICE): the common configuration of
`95_test_vectors.md` section 3 where that section names a value, and elsewhere a value within R8's
constraint. No statement rests on its values. -/
def Config.reference : Config where
  blksz := 4
  blockMax := 8
  fs := 0x473B8000
  nBuf := 4
  nBq := 1
  dlCap := [8]
  mtCap := [8]
  apCap := [8]
  vdCap := [8]
  nCp := 1
  nCl := 1
  nAm := 1
  nSy := 1
  nZc := 1
  nSm := 1
  nAt := 1
  dlRampSteps := 4
  mtMaxTaps := 8
  bqGainMinDb := 0xC1C00000
  bqGainMaxDb := 0x41C00000
  cpRatioMax := 0x42C80000
  cpAttMinMs := 0x3DCCCCCD
  cpAttMaxMs := 0x447A0000
  cpRelMinMs := 0x3DCCCCCD
  cpRelMaxMs := 0x461C4000
  cpRmsMinMs := 0x3DCCCCCD
  cpRmsMaxMs := 0x447A0000
  cpGainMin := 0x00000000
  cpGainMax := 0x42C80000
  clUpTaps := List.replicate 8 0x3F800000
  clDnTaps := List.replicate 8 0x3E000000
  modRateMin := 0x00000000
  modRateMax := 0x463B8000
  syFreqMin := 0x00000000
  syFreqMax := 0x469C4000
  syVolMax := 0x41200000
  zcHpC := 0x3F800000
  zcLpC := 0x00000000
  zcPkDecay := 0x3F800000
  zcHistLen := 2
  zcHalfTol := 0x3DCCCCCD
  zcHalfMin := 1
  zcVarThresh := 0x3F800000
  zcGrace := 1
  zcIdleReset := 2000
  nEffects := 2
  progA := [[0x00000000], [0x00000000]]
  progB := [[0x00000000], [0x00000000]]
  cqDepth := 4

end Sys2Proof
end

