-- ==== Sys2Proof/Machine/State.lean ====
section
/-! DEFINITION. The state of the block as plain data: everything `10_state.md` gives each of the two stages, the
hand-off between them (`20_memory.md` R80), and the model's own fields that say where the machine stands and what
its environment does next (log 1, log 2, log 9). Reset is `70_reset_and_hazards.md` R451. -/

namespace Sys2Proof.Machine

/-! ## Memory -/

/-- A sparse memory of 32-bit words: pairs of an address and a word, addresses strictly rising. The block has no
byte-addressed space (R70, R73), so the cell is a word (log 8). -/
abbrev Memory := List (Nat × Word)

/-- The addresses strictly rise: the canonical form of a block-buffer file, in which an unlisted word is one
that nothing has written (R24, log 3). -/
def Memory.wf : Memory → Bool
  | [] => true
  | [_] => true
  | (a, _) :: (b, w) :: m => decide (a < b) && Memory.wf ((b, w) :: m)

/-- The canonical form of a ring memory of `cap` cells, in which an unlisted cell holds +0.0: the addresses
strictly rise and lie below `cap`, and no listed cell holds the word +0.0 (R71, log 5). -/
def Memory.ringWf (cap : Nat) (m : Memory) : Bool :=
  Memory.wf m && m.all fun p => decide (p.1 < cap) && p.2 != 0

/-! ## Enumerations (R124) -/

/-- The biquad's filter types, numbered 0 to 6 (R186). -/
inductive FilterType where
  | lpf | hpf | bpf | notch | peak | loShelf | hiShelf
  deriving DecidableEq, Repr

/-- The oscillator types, numbered 0 to 4 (R171). -/
inductive Wave where
  | sine | tri | square | ramp | pulse
  deriving DecidableEq, Repr

/-- The modulation types, numbered 0 to 4 (R256, R321): an oscillator of the bank, or the external modulation
buffer. -/
inductive ModType where
  | sine | tri | square | ramp | ext
  deriving DecidableEq, Repr

/-- The clipper's modes, numbered 0 and 1 (R302). -/
inductive ClipMode where
  | smooth | smoother
  deriving DecidableEq, Repr

/-- The amplitude tracker's modes, numbered 0 and 1 (R150). -/
inductive TrackMode where
  | peak | rms
  deriving DecidableEq, Repr

/-- The states of a stage, numbered 0 to 3 (R29, R30). -/
inductive Fsm where
  | idle | armed | running | overrun
  deriving DecidableEq, Repr

/-- The 34 result codes (R401). -/
inductive ResultCode where
  | ok | invalidInstancePointer | illegalCommand | invalidEffectIndex
  | bqInvalidQ | bqInvalidFreq | bqInvalidGain
  | dlInvalidLength | dlInvalidFeedback | dlInvalidDamping
  | mtInvalidOffset
  | apInvalidLength | apInvalidGain
  | vdInvalidDepth | vdInvalidRate | vdInvalidFeedback
  | cpInvalidThreshold | cpInvalidRatio | cpInvalidAttack | cpInvalidRelease | cpInvalidGain | cpInvalidRms
  | clInvalidThreshold
  | oscInvalidPhase | oscInvalidDuty
  | amInvalidDepth | amInvalidRate
  | syInvalidEnvelope | syInvalidDuty | syInvalidSustainLevel | syInvalidFreq | syInvalidVolume
  | smInvalidCoefficient
  | atInvalidCoefficient
  deriving DecidableEq, Repr

/-! ## Instance files -/

/-- A biquad filter (R36). `w0`, `w1`, `w2` are the 3-word state line. -/
structure Biquad where
  init : Bool
  ty : FilterType
  speed : BitVec 16
  fs : F32
  freq : F32
  q : F32
  gain : F32
  dfreq : F32
  dq : F32
  dgain : F32
  finc : F32
  qinc : F32
  ginc : F32
  count : BitVec 16
  w0 : F32
  w1 : F32
  w2 : F32
  A1 : F32
  A2 : F32
  B1 : F32
  B2 : F32
  scale : F32
  deriving DecidableEq, Repr

/-- A feedback delay (R37). -/
structure FeedbackDelay where
  init : Bool
  ring : Memory
  wp : Word
  tap : Word
  tapf : F32
  target : Word
  tinc : F32
  rem : Word
  fb : F32
  ft : F32
  damp : F32
  lp : F32
  deriving DecidableEq, Repr

/-- A multitap delay (R38). -/
structure Multitap where
  init : Bool
  ring : Memory
  wp : Word
  ntaps : BitVec 16
  off : List Word
  g : List F32
  deriving DecidableEq, Repr

/-- An allpass filter (R39). -/
structure Allpass where
  init : Bool
  ring : Memory
  len : Word
  idx : Word
  gain : F32
  deriving DecidableEq, Repr

/-- A variable delay (R40). -/
structure VariableDelay where
  init : Bool
  ring : Memory
  wp : Word
  ty : ModType
  depth : F32
  rate : F32
  fb : F32
  fs : F32
  pinc : F32
  phase : F32
  deriving DecidableEq, Repr

/-- A compressor (R41). -/
structure Compressor where
  init : Bool
  thr : F32
  ratio : F32
  att : F32
  rel : F32
  rms : F32
  gain : F32
  fs : F32
  thrL2 : F32
  slope : F32
  attC : F32
  relC : F32
  rmsC : F32
  ms : F32
  env : F32
  deriving DecidableEq, Repr

/-- A clipper (R44). `zu` and `zd` are the delay lines of the two FIR filters, newest value first. -/
structure Clipper where
  init : Bool
  thr : F32
  mode : ClipMode
  os : Bool
  zu : List F32
  zd : List F32
  deriving DecidableEq, Repr

/-- An amplitude modulator (R45). -/
structure AmpMod where
  init : Bool
  ty : ModType
  depth : F32
  rate : F32
  fs : F32
  pinc : F32
  phase : F32
  deriving DecidableEq, Repr

/-- A simple synth voice (R46). -/
structure Synth where
  init : Bool
  A : Word
  D : Word
  S : Word
  R : Word
  ty : Wave
  duty : F32
  sl : F32
  fs : F32
  phase : F32
  pinc : F32
  vol : F32
  pos : Word
  playing : Bool
  deriving DecidableEq, Repr

/-- A zero-crossing detector (R47). -/
structure ZeroCross where
  init : Bool
  fs : F32
  hp : F32
  lpf : F32
  ppk : F32
  npk : F32
  pol : Bool
  cnt : Word
  hist : List F32
  hidx : Word
  hcount : Word
  freq : F32
  locked : Bool
  grace : Word
  idle : Word
  deriving DecidableEq, Repr

/-- A one-pole smoother (R48). -/
structure Smoother where
  init : Bool
  c : F32
  y : F32
  deriving DecidableEq, Repr

/-- An amplitude tracker (R49). -/
structure Tracker where
  init : Bool
  mode : TrackMode
  c : F32
  acc : F32
  level : F32
  deriving DecidableEq, Repr

/-! ## Blocks, stages, the machine -/

/-- A block of `NCH` = 2 channels of `BLKSZ` words (R8, R79, R80). -/
structure Block where
  ch0 : List F32
  ch1 : List F32
  deriving DecidableEq, Repr

/-- The state of one stage (R20). `blkIdx` is the block index of its next arrival (R414) and `out` the output
block of its last one. -/
structure Stage where
  buf : Memory
  cp : BitVec 16
  fsm : Fsm
  effect : Byte
  effInit : List Bool
  drops : Word
  res : Word
  oscval : F32
  cq : List (List Word)
  bq : List Biquad
  dl : List FeedbackDelay
  mt : List Multitap
  ap : List Allpass
  vd : List VariableDelay
  cpr : List Compressor
  cl : List Clipper
  am : List AmpMod
  sy : List Synth
  zc : List ZeroCross
  sm : List Smoother
  trk : List Tracker
  blkIdx : Nat
  out : Block
  deriving DecidableEq, Repr

/-- The two stages (R7, R20). -/
inductive StageId where
  | A | B
  deriving DecidableEq, Repr

/-- Where the machine stands (log 1): between two block arrivals; draining the acting stage's control queue,
with a dispatch to follow or not (R411, R415); running the acting stage's effect program at its `cp` (R416); or
about to store the output block of a dispatch (R419). -/
inductive Phase where
  | between
  | drain (dispatch : Bool)
  | program
  | store
  deriving DecidableEq, Repr

/-- What the environment does (log 9): the host presents a command at a stage's control port (R77), a block
arrives at stage A with its input samples or at stage B, each with its `late` draw (R414, R420), or the platform
resets the block (R450). -/
inductive Input where
  | enqueue (st : StageId) (ws : List Word)
  | arrivalA (late : Bool) (block : Block)
  | arrivalB (late : Bool)
  | reset
  deriving DecidableEq, Repr

/-- The machine. `a` and `b` are the two stages, `handoff` the blocks stage A has produced and stage B has not
consumed, oldest first (R80, R424). The other fields are the model's: `cfg` the configuration record (log 2),
`cur` the acting stage and `phase` where it stands (log 1), `latch` the input block of the arrival in progress,
`inputs` what the environment does next (log 9). -/
structure State where
  cfg : Config
  a : Stage
  b : Stage
  handoff : List Block
  cur : StageId
  phase : Phase
  latch : Block
  inputs : List Input
  deriving DecidableEq, Repr

/-- Why the machine stops with a fault. -/
inductive Fault where
  /-- Raised where a NaN or an infinity arises in a sample, a buffer word or an instance field (R14, R406). Safe:
  the spec gives no behaviour and says that the step has no successor. -/
  | nonFinite
  /-- Raised by a read of a buffer word that nothing has written since reset (R24, R465). Safe: the spec says that
  a model faults such a read. -/
  | unwrittenWord
  /-- Raised where a ring index or an argument of `trunc` lies outside the domain R11, R71 and R72 give it; no
  state that the rules can reach does so (R223, R258). Safe. -/
  | outOfDomain
  deriving DecidableEq, Repr

/-- Why the machine has no meaning for what it is asked to do. -/
inductive Refusal where
  /-- Raised by no meaning: an instruction that is not modelled. Safe. -/
  | notModelled (mnemonic : String)
  /-- Raised where an effect program holds no legal command at `cp`, so is not well-formed (R120); a
  well-formed configuration is a launch premise. Safe. -/
  | malformedProgram
  /-- Raised by an arrival at stage B before stage A has produced the block of that index, which R425 rules out.
  Safe. -/
  | handoffNotReady
  /-- Raised by an arrival at stage A whose block has not `BLKSZ` samples in each channel, which R79 rules out.
  Safe. -/
  | malformedBlock
  deriving DecidableEq, Repr

/-- The outcome of a command or of a step. -/
abbrev Result := Host.Outcome State Fault Refusal

/-! ## Reset (R451); values the spec leaves unspecified are those of log 4, log 5 and log 21 -/

/-- A biquad at reset (R36, log 4). -/
def Biquad.reset : Biquad where
  init := false
  ty := .lpf
  speed := 0
  fs := 0
  freq := 0
  q := 0
  gain := 0
  dfreq := 0
  dq := 0
  dgain := 0
  finc := 0
  qinc := 0
  ginc := 0
  count := 0
  w0 := 0
  w1 := 0
  w2 := 0
  A1 := 0
  A2 := 0
  B1 := 0
  B2 := 0
  scale := 0

/-- A feedback delay at reset (R37, log 4, log 5). -/
def FeedbackDelay.reset : FeedbackDelay where
  init := false
  ring := []
  wp := 0
  tap := 0
  tapf := 0
  target := 0
  tinc := 0
  rem := 0
  fb := 0
  ft := 0
  damp := 0
  lp := 0

/-- A multitap delay at reset (R38, log 4, log 5). -/
def Multitap.reset (c : Config) : Multitap where
  init := false
  ring := []
  wp := 0
  ntaps := 0
  off := List.replicate c.mtMaxTaps 0
  g := List.replicate c.mtMaxTaps 0

/-- An allpass filter at reset (R39, log 4, log 5). -/
def Allpass.reset : Allpass where
  init := false
  ring := []
  len := 0
  idx := 0
  gain := 0

/-- A variable delay at reset (R40, log 4, log 5). -/
def VariableDelay.reset : VariableDelay where
  init := false
  ring := []
  wp := 0
  ty := .sine
  depth := 0
  rate := 0
  fb := 0
  fs := 0
  pinc := 0
  phase := 0

/-- A compressor at reset (R41, log 4). -/
def Compressor.reset : Compressor where
  init := false
  thr := 0
  ratio := 0
  att := 0
  rel := 0
  rms := 0
  gain := 0
  fs := 0
  thrL2 := 0
  slope := 0
  attC := 0
  relC := 0
  rmsC := 0
  ms := 0
  env := 0

/-- A clipper at reset (R44, log 4). -/
def Clipper.reset (c : Config) : Clipper where
  init := false
  thr := 0
  mode := .smooth
  os := false
  zu := List.replicate c.clUpTaps.length 0
  zd := List.replicate c.clDnTaps.length 0

/-- An amplitude modulator at reset (R45, log 4). -/
def AmpMod.reset : AmpMod where
  init := false
  ty := .sine
  depth := 0
  rate := 0
  fs := 0
  pinc := 0
  phase := 0

/-- A synth voice at reset (R46; `playing` is 0 by R451, the rest log 4). -/
def Synth.reset : Synth where
  init := false
  A := 0
  D := 0
  S := 0
  R := 0
  ty := .sine
  duty := 0
  sl := 0
  fs := 0
  phase := 0
  pinc := 0
  vol := 0
  pos := 0
  playing := false

/-- A zero-crossing detector at reset (R47; `freq` and `locked` are 0 by R451, the rest log 4). -/
def ZeroCross.reset (c : Config) : ZeroCross where
  init := false
  fs := 0
  hp := 0
  lpf := 0
  ppk := 0
  npk := 0
  pol := false
  cnt := 0
  hist := List.replicate c.zcHistLen 0
  hidx := 0
  hcount := 0
  freq := 0
  locked := false
  grace := 0
  idle := 0

/-- A smoother at reset (R48, log 4). -/
def Smoother.reset : Smoother where
  init := false
  c := 0
  y := 0

/-- A tracker at reset (R49; `level` is +0.0 by R451, the rest log 4). -/
def Tracker.reset : Tracker where
  init := false
  mode := .peak
  c := 0
  acc := 0
  level := 0

/-- One stage after reset (R451), for the configuration `c`: every buffer word is unwritten, the queue is empty,
every instance is uninitialized. -/
def Stage.reset (c : Config) : Stage where
  buf := []
  cp := 0
  fsm := .idle
  effect := 0
  effInit := List.replicate c.nEffects false
  drops := 0
  res := 0
  oscval := 0
  cq := []
  bq := List.replicate c.nBq Biquad.reset
  dl := List.replicate c.dlCap.length FeedbackDelay.reset
  mt := List.replicate c.mtCap.length (Multitap.reset c)
  ap := List.replicate c.apCap.length Allpass.reset
  vd := List.replicate c.vdCap.length VariableDelay.reset
  cpr := List.replicate c.nCp Compressor.reset
  cl := List.replicate c.nCl (Clipper.reset c)
  am := List.replicate c.nAm AmpMod.reset
  sy := List.replicate c.nSy Synth.reset
  zc := List.replicate c.nZc (ZeroCross.reset c)
  sm := List.replicate c.nSm Smoother.reset
  trk := List.replicate c.nAt Tracker.reset
  blkIdx := 0
  out := ⟨[], []⟩

/-- The machine right after reset, for the configuration `c` (R450, R451). -/
def State.resetWith (c : Config) : State where
  cfg := c
  a := Stage.reset c
  b := Stage.reset c
  handoff := []
  cur := .A
  phase := .between
  latch := ⟨[], []⟩
  inputs := []

/-- The machine right after reset, with the reference configuration (log 2). -/
def State.reset : State := State.resetWith Config.reference

end Sys2Proof.Machine
end

