-- ==== Sys2Proof/Syntax.lean ====
section
/-! DEFINITION. The commands of the block, one constructor per row of the opcode table
(`30_encoding.md` R104). An operand stands as the encoding gives it: an index is its 8-bit field, `n` its
16-bit field, an operand word the whole word, so that every value the encoding admits can be written. -/

namespace Sys2Proof

/-- A command (R104). `inst` is the instance index, `bs`, `bs2` and `bd` are buffer indices, `n` is the block
size, `e` is an effect index; the other operands are operand words in the order of R104. -/
inductive Instr where
  /-- `END` (R135). -/
  | endProgram
  /-- `COPY bs, bd, n` (R136). -/
  | copy (bs bd : Byte) (n : BitVec 16)
  /-- `CLEAR bd, n` (R137). -/
  | clear (bd : Byte) (n : BitVec 16)
  /-- `MIX2 bs, bs2, bd, n` (R138). -/
  | mix2 (bs bs2 bd : Byte) (n : BitVec 16)
  /-- `GAIN bs, bd, n, g` (R139). -/
  | gain (bs bd : Byte) (n : BitVec 16) (g : F32)
  /-- `BQ.SETUP inst, type, T, freq, Q, gainDb, fs` (R189). -/
  | bqSetup (inst : Byte) (ty speed : Word) (freq q gainDb fs : F32)
  /-- `BQ.MODFREQ inst, freq` (R194). -/
  | bqModFreq (inst : Byte) (freq : F32)
  /-- `BQ.MODQ inst, Q` (R195). -/
  | bqModQ (inst : Byte) (q : F32)
  /-- `BQ.MODGAIN inst, gainDb` (R196). -/
  | bqModGain (inst : Byte) (gainDb : F32)
  /-- `BQ.READ inst, bs, bd, n` (R198). -/
  | bqRead (inst bs bd : Byte) (n : BitVec 16)
  /-- `DL.SETUP inst, length, feedback, feedthrough, damping` (R216). -/
  | dlSetup (inst : Byte) (length : Word) (feedback feedthrough damping : F32)
  /-- `DL.MODLEN inst, length` (R218). -/
  | dlModLen (inst : Byte) (length : Word)
  /-- `DL.MODFB inst, feedback` (R219). -/
  | dlModFb (inst : Byte) (feedback : F32)
  /-- `DL.MODFT inst, feedthrough` (R220). -/
  | dlModFt (inst : Byte) (feedthrough : F32)
  /-- `DL.MODDAMP inst, damping` (R221). -/
  | dlModDamp (inst : Byte) (damping : F32)
  /-- `DL.READ inst, bs, bd, n` (R217). -/
  | dlRead (inst bs bd : Byte) (n : BitVec 16)
  /-- `MT.SETUP inst, ntaps` (R230). -/
  | mtSetup (inst : Byte) (ntaps : Word)
  /-- `MT.SETTAP inst, tap, offset, gain` (R231). -/
  | mtSetTap (inst : Byte) (tap offset : Word) (gain : F32)
  /-- `MT.READ inst, bs, bd, n` (R232). -/
  | mtRead (inst bs bd : Byte) (n : BitVec 16)
  /-- `AP.SETUP inst, length, gain` (R240). -/
  | apSetup (inst : Byte) (length : Word) (gain : F32)
  /-- `AP.READ inst, bs, bd, n` (R241). -/
  | apRead (inst bs bd : Byte) (n : BitVec 16)
  /-- `VD.SETUP inst, type, depth, rate, feedback, fs` (R257). -/
  | vdSetup (inst : Byte) (ty : Word) (depth rate feedback fs : F32)
  /-- `VD.MODDEPTH inst, depth` (R259). -/
  | vdModDepth (inst : Byte) (depth : F32)
  /-- `VD.MODRATE inst, rate` (R260). -/
  | vdModRate (inst : Byte) (rate : F32)
  /-- `VD.MODFB inst, feedback` (R261). -/
  | vdModFb (inst : Byte) (feedback : F32)
  /-- `VD.MODTYPE inst, type` (R262). -/
  | vdModType (inst : Byte) (ty : Word)
  /-- `VD.READ inst, bs, bs2, bd, n` (R258). -/
  | vdRead (inst bs bs2 bd : Byte) (n : BitVec 16)
  /-- `CP.SETUP inst, thresholdDb, ratio, attackMs, releaseMs, gain, rmsMs, fs` (R277). -/
  | cpSetup (inst : Byte) (thresholdDb ratio attackMs releaseMs gain rmsMs fs : F32)
  /-- `CP.MODTHR inst, thresholdDb` (R279). -/
  | cpModThr (inst : Byte) (thresholdDb : F32)
  /-- `CP.MODRATIO inst, ratio` (R280). -/
  | cpModRatio (inst : Byte) (ratio : F32)
  /-- `CP.MODATT inst, attackMs` (R281). -/
  | cpModAtt (inst : Byte) (attackMs : F32)
  /-- `CP.MODREL inst, releaseMs` (R282). -/
  | cpModRel (inst : Byte) (releaseMs : F32)
  /-- `CP.MODGAIN inst, gain` (R283). -/
  | cpModGain (inst : Byte) (gain : F32)
  /-- `CP.READ inst, bs, bd, n` (R278). -/
  | cpRead (inst bs bd : Byte) (n : BitVec 16)
  /-- `CL.SETUP inst, threshold, mode, oversample` (R302). -/
  | clSetup (inst : Byte) (threshold : F32) (mode oversample : Word)
  /-- `CL.MODTHR inst, threshold` (R303). -/
  | clModThr (inst : Byte) (threshold : F32)
  /-- `CL.READ inst, bs, bd, n` (R306). -/
  | clRead (inst bs bd : Byte) (n : BitVec 16)
  /-- `OSC.EVAL type, phase, duty` (R173). -/
  | oscEval (ty : Word) (phase duty : F32)
  /-- `AM.SETUP inst, type, depth, rate, fs` (R322). -/
  | amSetup (inst : Byte) (ty : Word) (depth rate fs : F32)
  /-- `AM.MODDEPTH inst, depth` (R324). -/
  | amModDepth (inst : Byte) (depth : F32)
  /-- `AM.MODRATE inst, rate` (R325). -/
  | amModRate (inst : Byte) (rate : F32)
  /-- `AM.READ inst, bs, bs2, bd, n` (R323). -/
  | amRead (inst bs bs2 bd : Byte) (n : BitVec 16)
  /-- `SY.SETUP inst, attack, decay, sustain, release, type, duty, sustainLevel, fs` (R357). -/
  | sySetup (inst : Byte) (attack decay sustain release ty : Word) (duty sustainLevel fs : F32)
  /-- `SY.PLAY inst, freq, volume` (R358). -/
  | syPlay (inst : Byte) (freq volume : F32)
  /-- `SY.STOP inst` (R359). -/
  | syStop (inst : Byte)
  /-- `SY.READ inst, bs, bd, n` (R361). -/
  | syRead (inst bs bd : Byte) (n : BitVec 16)
  /-- `ZC.SETUP inst, fs` (R337). -/
  | zcSetup (inst : Byte) (fs : F32)
  /-- `ZC.READ inst, bs, n` (R338). -/
  | zcRead (inst bs : Byte) (n : BitVec 16)
  /-- `SM.SETUP inst, c` (R147). -/
  | smSetup (inst : Byte) (c : F32)
  /-- `SM.READ inst, bs, bd, n` (R148). -/
  | smRead (inst bs bd : Byte) (n : BitVec 16)
  /-- `AT.SETUP inst, mode, c` (R150). -/
  | atSetup (inst : Byte) (mode : Word) (c : F32)
  /-- `AT.READ inst, bs, n` (R151). -/
  | atRead (inst bs : Byte) (n : BitVec 16)
  /-- `ST.ARM` (R156). -/
  | stArm
  /-- `ST.SELECT e` (R157). -/
  | stSelect (e : Byte)
  /-- `EF.SETUP e` (R158). -/
  | efSetup (e : Byte)
  deriving DecidableEq, Repr

end Sys2Proof
end

