-- ==== Sys2Proof/Machine/Operands.lean ====
section
/-! DEFINITION. What the operands of a command mean before it runs: the enumerations (`30_encoding.md` R124), the
legality of operands (R107, R117, R118), the source a command is legal from (R119), and the parameter checks of
the setup and modify contracts (`40_control_and_buffer.md` R133, R134). -/

namespace Sys2Proof.Machine

/-! ## Enumerations (R124). A word above the last number is no legal operand; `legal` refuses it before one of
these functions is asked. -/

/-- The filter type with a number (R186). -/
def filterType : Nat → FilterType
  | 0 => .lpf
  | 1 => .hpf
  | 2 => .bpf
  | 3 => .notch
  | 4 => .peak
  | 5 => .loShelf
  | _ => .hiShelf

/-- The oscillator type with a number (R171). -/
def waveType : Nat → Wave
  | 0 => .sine
  | 1 => .tri
  | 2 => .square
  | 3 => .ramp
  | _ => .pulse

/-- The modulation type with a number (R256, R321). -/
def modType : Nat → ModType
  | 0 => .sine
  | 1 => .tri
  | 2 => .square
  | 3 => .ramp
  | _ => .ext

/-- The clipper mode with a number (R302). -/
def clipMode : Nat → ClipMode
  | 0 => .smooth
  | _ => .smoother

/-- The tracker mode with a number (R150). -/
def trackMode : Nat → TrackMode
  | 0 => .peak
  | _ => .rms

/-! ## Legality of operands -/

/-- A buffer index below `NBUF` (R117). -/
def bufferOk (c : Config) (b : Byte) : Bool := decide (b.toNat < c.nBuf)

/-- A block size `1 ≤ n ≤ BLOCK_MAX` (R102, R117). -/
def sizeOk (c : Config) (n : BitVec 16) : Bool := decide (1 ≤ n.toNat) && decide (n.toNat ≤ c.blockMax)

/-- A sample rate `44100.0 ≤ fs ≤ 200000.0` (R118). -/
def fsOk (fs : F32) : Bool := isFinite fs && inRange Config.fsMin fs Config.fsMax

/-- An enumeration operand whose largest number is `top` (R103, R118). -/
def enumOk (top : Nat) (w : Word) : Bool := decide (w.toNat ≤ top)

/-- The fields of a block command with one source and one destination. -/
def blockOk (c : Config) (bs bd : Byte) (n : BitVec 16) : Bool := bufferOk c bs && bufferOk c bd && sizeOk c n

/-- Whether the operands of a command are legal for a configuration (R107, R117, R118). An instance index is not
checked: one that names no instance is the null instance (R117, R404). -/
def legal (c : Config) : Instr → Bool
  | .endProgram => true
  | .copy bs bd n => blockOk c bs bd n
  | .clear bd n => bufferOk c bd && sizeOk c n
  | .mix2 bs bs2 bd n => blockOk c bs bd n && bufferOk c bs2
  | .gain bs bd n g => blockOk c bs bd n && isFinite g
  | .bqSetup _ ty speed freq q gainDb fs =>
    enumOk 6 ty && decide (1 ≤ speed.toNat) && decide (speed.toNat ≤ 65535) && isFinite freq && isFinite q
      && isFinite gainDb && fsOk fs
  | .bqModFreq _ freq => isFinite freq
  | .bqModQ _ q => isFinite q
  | .bqModGain _ gainDb => isFinite gainDb
  | .bqRead _ bs bd n => blockOk c bs bd n
  | .dlSetup _ _ feedback feedthrough damping => isFinite feedback && isFinite feedthrough && isFinite damping
  | .dlModLen _ _ => true
  | .dlModFb _ feedback => isFinite feedback
  | .dlModFt _ feedthrough => isFinite feedthrough
  | .dlModDamp _ damping => isFinite damping
  | .dlRead _ bs bd n => blockOk c bs bd n
  | .mtSetup _ ntaps => decide (ntaps.toNat ≤ c.mtMaxTaps)
  | .mtSetTap _ tap _ gain => decide (tap.toNat < c.mtMaxTaps) && isFinite gain
  | .mtRead _ bs bd n => blockOk c bs bd n
  | .apSetup _ _ gain => isFinite gain
  | .apRead _ bs bd n => blockOk c bs bd n
  | .vdSetup _ ty depth rate feedback fs =>
    enumOk 4 ty && isFinite depth && isFinite rate && isFinite feedback && fsOk fs
  | .vdModDepth _ depth => isFinite depth
  | .vdModRate _ rate => isFinite rate
  | .vdModFb _ feedback => isFinite feedback
  | .vdModType _ ty => enumOk 4 ty
  | .vdRead _ bs bs2 bd n => blockOk c bs bd n && bufferOk c bs2
  | .cpSetup _ thresholdDb ratio attackMs releaseMs gain rmsMs fs =>
    isFinite thresholdDb && isFinite ratio && isFinite attackMs && isFinite releaseMs && isFinite gain
      && isFinite rmsMs && fsOk fs
  | .cpModThr _ thresholdDb => isFinite thresholdDb
  | .cpModRatio _ ratio => isFinite ratio
  | .cpModAtt _ attackMs => isFinite attackMs
  | .cpModRel _ releaseMs => isFinite releaseMs
  | .cpModGain _ gain => isFinite gain
  | .cpRead _ bs bd n => blockOk c bs bd n
  | .clSetup _ threshold mode oversample => isFinite threshold && enumOk 1 mode && enumOk 1 oversample
  | .clModThr _ threshold => isFinite threshold
  | .clRead _ bs bd n => blockOk c bs bd n
  | .oscEval ty phase duty => enumOk 4 ty && isFinite phase && isFinite duty
  | .amSetup _ ty depth rate fs => enumOk 4 ty && isFinite depth && isFinite rate && fsOk fs
  | .amModDepth _ depth => isFinite depth
  | .amModRate _ rate => isFinite rate
  | .amRead _ bs bs2 bd n => blockOk c bs bd n && bufferOk c bs2
  | .sySetup _ _ _ _ _ ty duty sustainLevel fs =>
    enumOk 4 ty && isFinite duty && isFinite sustainLevel && fsOk fs
  | .syPlay _ freq volume => isFinite freq && isFinite volume
  | .syStop _ => true
  | .syRead _ bs bd n => blockOk c bs bd n
  | .zcSetup _ fs => fsOk fs
  | .zcRead _ bs n => bufferOk c bs && sizeOk c n
  | .smSetup _ coef => isFinite coef
  | .smRead _ bs bd n => blockOk c bs bd n
  | .atSetup _ mode coef => enumOk 1 mode && isFinite coef
  | .atRead _ bs n => bufferOk c bs && sizeOk c n
  | .stArm => true
  | .stSelect _ => true
  | .efSetup _ => true

/-! ## Command source (R104 column `where`, R119) -/

/-- The commands legal in an effect program: the block commands and `END`. -/
def programCommand : Instr → Bool
  | .endProgram | .copy .. | .clear .. | .mix2 .. | .gain .. => true
  | .bqRead .. | .dlRead .. | .mtRead .. | .apRead .. | .vdRead .. | .cpRead .. | .clRead .. => true
  | .amRead .. | .syRead .. | .zcRead .. | .smRead .. | .atRead .. => true
  | .bqSetup .. | .bqModFreq .. | .bqModQ .. | .bqModGain .. => false
  | .dlSetup .. | .dlModLen .. | .dlModFb .. | .dlModFt .. | .dlModDamp .. => false
  | .mtSetup .. | .mtSetTap .. | .apSetup .. => false
  | .vdSetup .. | .vdModDepth .. | .vdModRate .. | .vdModFb .. | .vdModType .. => false
  | .cpSetup .. | .cpModThr .. | .cpModRatio .. | .cpModAtt .. | .cpModRel .. | .cpModGain .. => false
  | .clSetup .. | .clModThr .. | .oscEval .. | .amSetup .. | .amModDepth .. | .amModRate .. => false
  | .sySetup .. | .syPlay .. | .syStop .. | .zcSetup .. | .smSetup .. | .atSetup .. => false
  | .stArm | .stSelect .. | .efSetup .. => false

/-- The commands legal at the control port: all but `END`. -/
def portCommand (i : Instr) : Bool := i != .endProgram

/-! ## Parameter checks -/

/-- The code of the first check that fails, in the order listed (R133, R403). -/
def firstFailure : List (Bool × ResultCode) → Option ResultCode
  | [] => none
  | (good, code) :: rest => if good then firstFailure rest else some code

/-- The clamp of the modify contract (R134): the value to apply and the code to report. -/
def clampReport (lo v hi : F32) (code : ResultCode) : F32 × ResultCode :=
  if flt v lo then (lo, code) else if fgt v hi then (hi, code) else (v, .ok)

/-- The clamp of the modify contract for an integer parameter with bounds `1 … hi` (R218, R231). -/
def clampLength (v hi : Nat) (code : ResultCode) : Nat × ResultCode :=
  if v < 1 then (1, code) else if hi < v then (hi, code) else (v, .ok)

end Sys2Proof.Machine
end

