-- ==== Sys2Proof/WellFormed.lean ====
section
/-! DEFINITION. A well-formed command: its operands are legal for a configuration (`30_encoding.md` R107, R117,
R118). A decoded command that is not well-formed is illegal at the control port and cannot stand in an effect
program (R120, R122). The smoke test with an ill-formed command for each check is in `Tests/Slice0.lean`. -/

namespace Sys2Proof

/-- The operands of `i` are legal for the configuration `c` (R107, R117, R118). -/
abbrev Instr.WellFormed (c : Config) (i : Instr) : Prop := Machine.legal c i = true

end Sys2Proof
end

