-- ==== Sys2Proof/Decode.lean ====
section
/-! DEFINITION. The decoder and the encoder of command words (`30_encoding.md` R100 to R106, R116, R117). The
decoder checks what the words alone decide: the opcode, the fields that must be zero, and that the operand words
are there; the operands' legality, which needs the configuration, is `Instr.WellFormed` (log 15). -/

namespace Sys2Proof

/-- Why a list of words is no command. -/
inductive DecodeError where
  /-- There is no head word. -/
  | noWords
  /-- The opcode is not in the table (R116). -/
  | unknownOpcode
  /-- A field that must be zero is not zero (R102, R117). -/
  | reservedField
  /-- An operand word is missing (R100). -/
  | missingOperand
  /-- There are more words than the command has (R77, log 11). -/
  | surplusWords
  deriving DecidableEq, Repr

/-! ## Fields (R101, R102) -/

/-- `W0[31:24]`, the opcode. -/
def headOp (w : Word) : Byte := w.extractLsb' 24 8
/-- `W0[23:16]`, the instance index or the effect index. -/
def headInst (w : Word) : Byte := w.extractLsb' 16 8
/-- `W0[15:8]`, the source buffer. -/
def headBs (w : Word) : Byte := w.extractLsb' 8 8
/-- `W0[7:0]`, the destination buffer. -/
def headBd (w : Word) : Byte := w.extractLsb' 0 8
/-- `W1[31:24]` of a block command, the second source buffer. -/
def sizeBs2 (w : Word) : Byte := w.extractLsb' 24 8
/-- `W1[23:16]` of a block command, which must be zero. -/
def sizeZero (w : Word) : Byte := w.extractLsb' 16 8
/-- `W1[15:0]` of a block command, the block size. -/
def sizeN (w : Word) : BitVec 16 := w.extractLsb' 0 16

/-- A head word from its fields (R101). -/
def headWord (op inst bs bd : Byte) : Word := op ++ inst ++ bs ++ bd

/-- `W1` of a block command from its fields (R102). -/
def sizeWord (bs2 : Byte) (n : BitVec 16) : Word := bs2 ++ (0 : Byte) ++ n

/-! ## Decoding -/

/-- The command, if the fields that must be zero are zero (R102, R117). -/
def ifZero (zero : Bool) (i : Instr) : Except DecodeError Instr := if zero then .ok i else .error .reservedField

/-- Read `W1` of a block command whose head has its zero fields zero, and that takes no second source. -/
def oneSource (zero : Bool) (ops : List Word) (k : BitVec 16 → Instr) : Except DecodeError Instr :=
  match ops with
  | w1 :: _ => ifZero (zero && sizeZero w1 == 0 && sizeBs2 w1 == 0) (k (sizeN w1))
  | [] => .error .missingOperand

/-- Read `W1` of a block command that takes a second source. -/
def twoSources (zero : Bool) (ops : List Word) (k : Byte → BitVec 16 → Instr) : Except DecodeError Instr :=
  match ops with
  | w1 :: _ => ifZero (zero && sizeZero w1 == 0) (k (sizeBs2 w1) (sizeN w1))
  | [] => .error .missingOperand

/-- Read one operand word. -/
def operands1 (zero : Bool) (ops : List Word) (k : Word → Instr) : Except DecodeError Instr :=
  match ops with
  | a :: _ => ifZero zero (k a)
  | _ => .error .missingOperand

/-- Read two operand words. -/
def operands2 (zero : Bool) (ops : List Word) (k : Word → Word → Instr) : Except DecodeError Instr :=
  match ops with
  | a :: b :: _ => ifZero zero (k a b)
  | _ => .error .missingOperand

/-- Read three operand words. -/
def operands3 (zero : Bool) (ops : List Word) (k : Word → Word → Word → Instr) : Except DecodeError Instr :=
  match ops with
  | a :: b :: c :: _ => ifZero zero (k a b c)
  | _ => .error .missingOperand

/-- Read four operand words. -/
def operands4 (zero : Bool) (ops : List Word) (k : Word → Word → Word → Word → Instr) : Except DecodeError Instr :=
  match ops with
  | a :: b :: c :: d :: _ => ifZero zero (k a b c d)
  | _ => .error .missingOperand

/-- Read five operand words. -/
def operands5 (zero : Bool) (ops : List Word) (k : Word → Word → Word → Word → Word → Instr) :
    Except DecodeError Instr :=
  match ops with
  | a :: b :: c :: d :: e :: _ => ifZero zero (k a b c d e)
  | _ => .error .missingOperand

/-- Read six operand words. -/
def operands6 (zero : Bool) (ops : List Word) (k : Word → Word → Word → Word → Word → Word → Instr) :
    Except DecodeError Instr :=
  match ops with
  | a :: b :: c :: d :: e :: f :: _ => ifZero zero (k a b c d e f)
  | _ => .error .missingOperand

/-- Read seven operand words. -/
def operands7 (zero : Bool) (ops : List Word) (k : Word → Word → Word → Word → Word → Word → Word → Instr) :
    Except DecodeError Instr :=
  match ops with
  | a :: b :: c :: d :: e :: f :: g :: _ => ifZero zero (k a b c d e f g)
  | _ => .error .missingOperand

/-- Read eight operand words. -/
def operands8 (zero : Bool) (ops : List Word)
    (k : Word → Word → Word → Word → Word → Word → Word → Word → Instr) : Except DecodeError Instr :=
  match ops with
  | a :: b :: c :: d :: e :: f :: g :: h :: _ => ifZero zero (k a b c d e f g h)
  | _ => .error .missingOperand

/-- Decode a command from its head word and the words after it, by the opcode table (R104). Words beyond the
command's own are not looked at. -/
def decodeHead (w : Word) (ops : List Word) : Except DecodeError Instr :=
  let i := headInst w
  let bs := headBs w
  let bd := headBd w
  let bare := bs == 0 && bd == 0
  match (headOp w).toNat with
  | 0x00 => ifZero (i == 0 && bare) .endProgram
  | 0x01 => oneSource (i == 0) ops (.copy bs bd)
  | 0x02 => oneSource (i == 0 && bs == 0) ops (.clear bd)
  | 0x03 => twoSources (i == 0) ops fun bs2 n => .mix2 bs bs2 bd n
  | 0x04 =>
    match ops with
    | _ :: g :: _ => oneSource (i == 0) ops fun n => .gain bs bd n g
    | _ => .error .missingOperand
  | 0x10 => operands6 bare ops (.bqSetup i)
  | 0x11 => operands1 bare ops (.bqModFreq i)
  | 0x12 => operands1 bare ops (.bqModQ i)
  | 0x13 => operands1 bare ops (.bqModGain i)
  | 0x1F => oneSource true ops (.bqRead i bs bd)
  | 0x20 => operands4 bare ops (.dlSetup i)
  | 0x21 => operands1 bare ops (.dlModLen i)
  | 0x22 => operands1 bare ops (.dlModFb i)
  | 0x23 => operands1 bare ops (.dlModFt i)
  | 0x24 => operands1 bare ops (.dlModDamp i)
  | 0x2F => oneSource true ops (.dlRead i bs bd)
  | 0x30 => operands1 bare ops (.mtSetup i)
  | 0x31 => operands3 bare ops (.mtSetTap i)
  | 0x3F => oneSource true ops (.mtRead i bs bd)
  | 0x40 => operands2 bare ops (.apSetup i)
  | 0x4F => oneSource true ops (.apRead i bs bd)
  | 0x50 => operands5 bare ops (.vdSetup i)
  | 0x51 => operands1 bare ops (.vdModDepth i)
  | 0x52 => operands1 bare ops (.vdModRate i)
  | 0x53 => operands1 bare ops (.vdModFb i)
  | 0x54 => operands1 bare ops (.vdModType i)
  | 0x5F => twoSources true ops fun bs2 n => .vdRead i bs bs2 bd n
  | 0x60 => operands7 bare ops (.cpSetup i)
  | 0x61 => operands1 bare ops (.cpModThr i)
  | 0x62 => operands1 bare ops (.cpModRatio i)
  | 0x63 => operands1 bare ops (.cpModAtt i)
  | 0x64 => operands1 bare ops (.cpModRel i)
  | 0x65 => operands1 bare ops (.cpModGain i)
  | 0x6F => oneSource true ops (.cpRead i bs bd)
  | 0x70 => operands3 bare ops (.clSetup i)
  | 0x71 => operands1 bare ops (.clModThr i)
  | 0x7F => oneSource true ops (.clRead i bs bd)
  | 0x80 => operands3 (i == 0 && bare) ops .oscEval
  | 0x90 => operands4 bare ops (.amSetup i)
  | 0x91 => operands1 bare ops (.amModDepth i)
  | 0x92 => operands1 bare ops (.amModRate i)
  | 0x9F => twoSources true ops fun bs2 n => .amRead i bs bs2 bd n
  | 0xA0 => operands8 bare ops (.sySetup i)
  | 0xA1 => operands2 bare ops (.syPlay i)
  | 0xA2 => ifZero bare (.syStop i)
  | 0xAF => oneSource true ops (.syRead i bs bd)
  | 0xB0 => operands1 bare ops (.zcSetup i)
  | 0xBF => oneSource (bd == 0) ops (.zcRead i bs)
  | 0xC0 => operands1 bare ops (.smSetup i)
  | 0xCF => oneSource true ops (.smRead i bs bd)
  | 0xD0 => operands2 bare ops (.atSetup i)
  | 0xDF => oneSource (bd == 0) ops (.atRead i bs)
  | 0xE0 => ifZero (i == 0 && bare) .stArm
  | 0xE1 => ifZero bare (.stSelect i)
  | 0xE2 => ifZero bare (.efSetup i)
  | _ => .error .unknownOpcode

/-- Decode the command at the front of a list of words (R100). -/
def decode : List Word → Except DecodeError Instr
  | [] => .error .noWords
  | w :: ops => decodeHead w ops

/-! ## Encoding -/

/-- The opcode of a command (R104). -/
def Instr.opcode : Instr → Byte
  | .endProgram => 0x00
  | .copy .. => 0x01
  | .clear .. => 0x02
  | .mix2 .. => 0x03
  | .gain .. => 0x04
  | .bqSetup .. => 0x10
  | .bqModFreq .. => 0x11
  | .bqModQ .. => 0x12
  | .bqModGain .. => 0x13
  | .bqRead .. => 0x1F
  | .dlSetup .. => 0x20
  | .dlModLen .. => 0x21
  | .dlModFb .. => 0x22
  | .dlModFt .. => 0x23
  | .dlModDamp .. => 0x24
  | .dlRead .. => 0x2F
  | .mtSetup .. => 0x30
  | .mtSetTap .. => 0x31
  | .mtRead .. => 0x3F
  | .apSetup .. => 0x40
  | .apRead .. => 0x4F
  | .vdSetup .. => 0x50
  | .vdModDepth .. => 0x51
  | .vdModRate .. => 0x52
  | .vdModFb .. => 0x53
  | .vdModType .. => 0x54
  | .vdRead .. => 0x5F
  | .cpSetup .. => 0x60
  | .cpModThr .. => 0x61
  | .cpModRatio .. => 0x62
  | .cpModAtt .. => 0x63
  | .cpModRel .. => 0x64
  | .cpModGain .. => 0x65
  | .cpRead .. => 0x6F
  | .clSetup .. => 0x70
  | .clModThr .. => 0x71
  | .clRead .. => 0x7F
  | .oscEval .. => 0x80
  | .amSetup .. => 0x90
  | .amModDepth .. => 0x91
  | .amModRate .. => 0x92
  | .amRead .. => 0x9F
  | .sySetup .. => 0xA0
  | .syPlay .. => 0xA1
  | .syStop .. => 0xA2
  | .syRead .. => 0xAF
  | .zcSetup .. => 0xB0
  | .zcRead .. => 0xBF
  | .smSetup .. => 0xC0
  | .smRead .. => 0xCF
  | .atSetup .. => 0xD0
  | .atRead .. => 0xDF
  | .stArm => 0xE0
  | .stSelect .. => 0xE1
  | .efSetup .. => 0xE2

/-- The number of words `L` of a command (R100, R104). -/
def Instr.length : Instr → Nat
  | .endProgram | .stArm | .stSelect .. | .efSetup .. | .syStop .. => 1
  | .copy .. | .clear .. | .mix2 .. => 2
  | .bqRead .. | .dlRead .. | .mtRead .. | .apRead .. | .vdRead .. | .cpRead .. | .clRead .. => 2
  | .amRead .. | .syRead .. | .zcRead .. | .smRead .. | .atRead .. => 2
  | .bqModFreq .. | .bqModQ .. | .bqModGain .. => 2
  | .dlModLen .. | .dlModFb .. | .dlModFt .. | .dlModDamp .. => 2
  | .vdModDepth .. | .vdModRate .. | .vdModFb .. | .vdModType .. => 2
  | .cpModThr .. | .cpModRatio .. | .cpModAtt .. | .cpModRel .. | .cpModGain .. => 2
  | .clModThr .. | .amModDepth .. | .amModRate .. => 2
  | .mtSetup .. | .zcSetup .. | .smSetup .. => 2
  | .gain .. | .apSetup .. | .syPlay .. | .atSetup .. => 3
  | .mtSetTap .. | .clSetup .. | .oscEval .. => 4
  | .dlSetup .. | .amSetup .. => 5
  | .vdSetup .. => 6
  | .bqSetup .. => 7
  | .cpSetup .. => 8
  | .sySetup .. => 9

/-- The words of a command (R101 to R104, R106). -/
def encode (i : Instr) : List Word :=
  let op := i.opcode
  match i with
  | .endProgram => [headWord op 0 0 0]
  | .copy bs bd n => [headWord op 0 bs bd, sizeWord 0 n]
  | .clear bd n => [headWord op 0 0 bd, sizeWord 0 n]
  | .mix2 bs bs2 bd n => [headWord op 0 bs bd, sizeWord bs2 n]
  | .gain bs bd n g => [headWord op 0 bs bd, sizeWord 0 n, g]
  | .bqSetup inst ty speed freq q gainDb fs => [headWord op inst 0 0, ty, speed, freq, q, gainDb, fs]
  | .bqModFreq inst freq => [headWord op inst 0 0, freq]
  | .bqModQ inst q => [headWord op inst 0 0, q]
  | .bqModGain inst gainDb => [headWord op inst 0 0, gainDb]
  | .bqRead inst bs bd n => [headWord op inst bs bd, sizeWord 0 n]
  | .dlSetup inst len fb ft damp => [headWord op inst 0 0, len, fb, ft, damp]
  | .dlModLen inst len => [headWord op inst 0 0, len]
  | .dlModFb inst fb => [headWord op inst 0 0, fb]
  | .dlModFt inst ft => [headWord op inst 0 0, ft]
  | .dlModDamp inst damp => [headWord op inst 0 0, damp]
  | .dlRead inst bs bd n => [headWord op inst bs bd, sizeWord 0 n]
  | .mtSetup inst ntaps => [headWord op inst 0 0, ntaps]
  | .mtSetTap inst tap off gain => [headWord op inst 0 0, tap, off, gain]
  | .mtRead inst bs bd n => [headWord op inst bs bd, sizeWord 0 n]
  | .apSetup inst len gain => [headWord op inst 0 0, len, gain]
  | .apRead inst bs bd n => [headWord op inst bs bd, sizeWord 0 n]
  | .vdSetup inst ty depth rate fb fs => [headWord op inst 0 0, ty, depth, rate, fb, fs]
  | .vdModDepth inst depth => [headWord op inst 0 0, depth]
  | .vdModRate inst rate => [headWord op inst 0 0, rate]
  | .vdModFb inst fb => [headWord op inst 0 0, fb]
  | .vdModType inst ty => [headWord op inst 0 0, ty]
  | .vdRead inst bs bs2 bd n => [headWord op inst bs bd, sizeWord bs2 n]
  | .cpSetup inst thr ratio att rel gain rms fs => [headWord op inst 0 0, thr, ratio, att, rel, gain, rms, fs]
  | .cpModThr inst thr => [headWord op inst 0 0, thr]
  | .cpModRatio inst ratio => [headWord op inst 0 0, ratio]
  | .cpModAtt inst att => [headWord op inst 0 0, att]
  | .cpModRel inst rel => [headWord op inst 0 0, rel]
  | .cpModGain inst gain => [headWord op inst 0 0, gain]
  | .cpRead inst bs bd n => [headWord op inst bs bd, sizeWord 0 n]
  | .clSetup inst thr mode os => [headWord op inst 0 0, thr, mode, os]
  | .clModThr inst thr => [headWord op inst 0 0, thr]
  | .clRead inst bs bd n => [headWord op inst bs bd, sizeWord 0 n]
  | .oscEval ty phase duty => [headWord op 0 0 0, ty, phase, duty]
  | .amSetup inst ty depth rate fs => [headWord op inst 0 0, ty, depth, rate, fs]
  | .amModDepth inst depth => [headWord op inst 0 0, depth]
  | .amModRate inst rate => [headWord op inst 0 0, rate]
  | .amRead inst bs bs2 bd n => [headWord op inst bs bd, sizeWord bs2 n]
  | .sySetup inst a d s r ty duty sl fs => [headWord op inst 0 0, a, d, s, r, ty, duty, sl, fs]
  | .syPlay inst freq vol => [headWord op inst 0 0, freq, vol]
  | .syStop inst => [headWord op inst 0 0]
  | .syRead inst bs bd n => [headWord op inst bs bd, sizeWord 0 n]
  | .zcSetup inst fs => [headWord op inst 0 0, fs]
  | .zcRead inst bs n => [headWord op inst bs 0, sizeWord 0 n]
  | .smSetup inst c => [headWord op inst 0 0, c]
  | .smRead inst bs bd n => [headWord op inst bs bd, sizeWord 0 n]
  | .atSetup inst mode c => [headWord op inst 0 0, mode, c]
  | .atRead inst bs n => [headWord op inst bs 0, sizeWord 0 n]
  | .stArm => [headWord op 0 0 0]
  | .stSelect e => [headWord op e 0 0]
  | .efSetup e => [headWord op e 0 0]

/-! ## The control port and the opcode table -/

/-- Decode what the host presented at the control port: exactly one whole command (R77, log 11). -/
def decodePort (ws : List Word) : Except DecodeError Instr :=
  match decode ws with
  | .error e => .error e
  | .ok i => if ws.length = i.length then .ok i else .error .surplusWords

/-- The `count` words of 32 bits of a number, its low word first. -/
def wordsOf (count w : Nat) : List Word :=
  match count with
  | 0 => []
  | k + 1 => BitVec.ofNat 32 w :: wordsOf k (w / 2 ^ 32)

/-- The nine words, the length of the longest command, of an instruction numbered as the opcode table numbers its
bits; the bits from `nbits` on are zero. -/
def tableWords (nbits w : Nat) : List Word := wordsOf 9 (w % 2 ^ nbits)

/-- The command the decoder reads from an instruction numbered as the opcode table numbers its bits. -/
def decodeTableWord (nbits w : Nat) : Option Instr :=
  match decode (tableWords nbits w) with
  | .ok i => some i
  | .error _ => none

end Sys2Proof
end

