-- ==== Sys2Proof/Machine/Numerics.lean ====
section
/-! DEFINITION. The six configuration functions of `00_scope.md` R13 (log 6), total functions of a word. Each takes
the value of its free function wherever R13's properties hold of that value, and a fixed value with those properties
elsewhere; so a function can stand here exactly if it has the properties R13 names, and nothing else is known of it.
The bounds R13 puts on `fsin`, `fcos` and `fexp` hold of every argument it names, infinities among them; what it says
of a result being finite holds of finite arguments. -/

namespace Sys2Proof.Machine

/-- `y` if it is a finite number, else `d`. -/
def finiteOr (y d : F32) : F32 := if isFinite y then y else d

/-- `y` if it lies in `[−1, 1]`, else `d`. -/
def unitOr (y d : F32) : F32 := if inRange fnegOne y fone then y else d

/-- `fsin(x)`: `fsin(+0) = +0`, `−1 ≤ fsin(x) ≤ 1` (R13). -/
def fsin (x : F32) : F32 := if x = fzero then fzero else unitOr (Config.fsinRaw x) fzero

/-- `fcos(x)`: `fcos(+0) = 1.0`, `−1 ≤ fcos(x) ≤ 1` (R13). -/
def fcos (x : F32) : F32 := if x = fzero then fone else unitOr (Config.fcosRaw x) fzero

/-- `fexp(x)`, e^x: `0 < fexp(x) ≤ 1` for `x ≤ 0`, −infinity among them (R13); the rules use no other argument
(R276; log 27). -/
def fexp (x : F32) : F32 :=
  if fle x fzero && !(flt fzero (Config.fexpRaw x) && fle (Config.fexpRaw x) fone) then fone else Config.fexpRaw x

/-- `flog2(x)`: finite for finite `x > 0` (R13); the rules use no other argument (R278). -/
def flog2 (x : F32) : F32 :=
  if isFinite x && flt fzero x then finiteOr (Config.flog2Raw x) fzero else Config.flog2Raw x

/-- `fexp2(x)`, 2^x: `fexp2(±0) = 1.0`, finite for finite `x ≤ 0` (R13); the rules use no other argument (R284). -/
def fexp2 (x : F32) : F32 :=
  if isZero x then fone
  else if isFinite x && flt x fzero then finiteOr (Config.fexp2Raw x) fone
  else Config.fexp2Raw x

/-- `fpow10(x)`, 10^x: `fpow10(±0) = 1.0`, finite for `−3 ≤ x ≤ 3`, which holds every argument the rules use
(R13, R187: a gain of at most 120 dB divided by 40). -/
def fpow10 (x : F32) : F32 :=
  if isZero x then fone
  else if inRange fnegThree x fthree then finiteOr (Config.fpow10Raw x) fone
  else Config.fpow10Raw x

end Sys2Proof.Machine
end

