-- ==== Sys2Proof/Machine/Flags.lean ====
section
/-! DEFINITION. The block has no arithmetic flags (`10_state.md` R28). This file holds what it has in their
place: the numbers of the result codes and of the stage states, the saturating counters, the `EFF_INIT` bits, and
the status port through which the host reads them (R29, R78). -/

namespace Sys2Proof.Machine

/-- The 8-bit number of a result code (R401). -/
def ResultCode.number : ResultCode → Byte
  | .ok => 0x00
  | .invalidInstancePointer => 0x01
  | .illegalCommand => 0x02
  | .invalidEffectIndex => 0x03
  | .bqInvalidQ => 0x11
  | .bqInvalidFreq => 0x12
  | .bqInvalidGain => 0x13
  | .dlInvalidLength => 0x21
  | .dlInvalidFeedback => 0x22
  | .dlInvalidDamping => 0x23
  | .mtInvalidOffset => 0x31
  | .apInvalidLength => 0x41
  | .apInvalidGain => 0x42
  | .vdInvalidDepth => 0x51
  | .vdInvalidRate => 0x52
  | .vdInvalidFeedback => 0x53
  | .cpInvalidThreshold => 0x61
  | .cpInvalidRatio => 0x62
  | .cpInvalidAttack => 0x63
  | .cpInvalidRelease => 0x64
  | .cpInvalidGain => 0x65
  | .cpInvalidRms => 0x66
  | .clInvalidThreshold => 0x71
  | .oscInvalidPhase => 0x81
  | .oscInvalidDuty => 0x82
  | .amInvalidDepth => 0x91
  | .amInvalidRate => 0x92
  | .syInvalidEnvelope => 0xA1
  | .syInvalidDuty => 0xA2
  | .syInvalidSustainLevel => 0xA3
  | .syInvalidFreq => 0xA4
  | .syInvalidVolume => 0xA5
  | .smInvalidCoefficient => 0xC1
  | .atInvalidCoefficient => 0xD1

/-- The word `RES` holds for a code: bits 7:0 the code, bits 31:8 zero (R29). -/
def ResultCode.word (c : ResultCode) : Word := c.number.setWidth 32

/-- The 2-bit number of a stage state (R29). -/
def Fsm.number : Fsm → BitVec 2
  | .idle => 0
  | .armed => 1
  | .running => 2
  | .overrun => 3

/-- `sat_inc(d)` (R431), also the saturating counters of R338. -/
def satInc (d : Word) : Word := if d = 0xFFFFFFFF then d else d + 1

/-- `CQ_FREE`: the free command slots of the control queue (R29, R77). -/
def cqFree (c : Config) (st : Stage) : Nat := c.cqDepth - st.cq.length

/-- The number whose bit `i` is the `i`-th entry of a list of flags. -/
def packFlags : List Bool → Nat
  | [] => 0
  | b :: bs => (if b then 1 else 0) + 2 * packFlags bs

/-- `EFF_INIT_W[j]`: bit `i` is `EFF_INIT[32 j + i]`, and the bits for `e ≥ N_EFFECTS` read 0 (R29). -/
def effInitWord (st : Stage) (j : Nat) : Word := BitVec.ofNat 32 (packFlags ((st.effInit.drop (32 * j)).take 32))

/-- A flag read as a status word: bit 0 the flag, bits 31:1 zero (R29). -/
def flagWord (b : Bool) : Word := if b then 1 else 0

/-- The word the host reads at status number `n` of a stage (R29, R78). R8 gives `CQ_DEPTH` no upper bound while
`CQ_FREE` is a word of 32 bits: of a queue with 2^32 free slots or more the word shows the count modulo 2^32 (DESIGN
CHOICE, log 29). A number not in the table, or one whose instance does not exist, reads 0. Reading changes nothing
(R75). -/
def statusRead (c : Config) (st : Stage) (n : Nat) : Word :=
  if n = 0x000 then st.fsm.number.setWidth 32
  else if n = 0x001 then st.effect.setWidth 32
  else if n = 0x002 then st.drops
  else if n = 0x003 then st.res
  else if n = 0x004 then st.oscval
  else if n = 0x005 then BitVec.ofNat 32 (cqFree c st)
  else if 0x008 ≤ n ∧ n < 0x010 then effInitWord st (n - 0x008)
  else if 0x100 ≤ n ∧ n < 0x200 then
    match st.trk[n - 0x100]? with
    | some t => t.level
    | none => 0
  else if 0x200 ≤ n ∧ n < 0x400 then
    match st.zc[(n - 0x200) / 2]? with
    | some z => if n % 2 = 0 then z.freq else flagWord z.locked
    | none => 0
  else if 0x400 ≤ n then
    match st.sy[n - 0x400]? with
    | some y => flagWord y.playing
    | none => 0
  else 0

end Sys2Proof.Machine
end

