-- ==== Sys2Proof/Machine/Ops.lean ====
section
/-! DEFINITION. The named operations every meaning is written over: cells of the sparse memories, buffer words,
ring cells, the acting stage, finishing a command with its result code, the command-source check, and the three
contracts of `40_control_and_buffer.md` (read R132, setup R133, modify R134).

The block takes no exception (R400): there is no vector, no saved register and no return. What stands in their
place is `complete`, which finishes a command with a code (R17, R18), and the overrun (`Machine/Sequencer.lean`). -/

namespace Sys2Proof.Machine

/-! ## Cells -/

/-- The word listed at an address. -/
def cellRead : Memory → Nat → Option Word
  | [], _ => none
  | (a, v) :: m, k => if a = k then some v else cellRead m k

/-- List a word at an address, keeping the addresses rising. -/
def cellWrite : Memory → Nat → Word → Memory
  | [], k, v => [(k, v)]
  | (a, w) :: m, k, v =>
    if k < a then (k, v) :: (a, w) :: m else if k = a then (k, v) :: m else (a, w) :: cellWrite m k v

/-- Remove the entry of an address. -/
def cellErase : Memory → Nat → Memory
  | [], _ => []
  | (a, w) :: m, k => if a = k then m else (a, w) :: cellErase m k

/-! ## Block buffers (R22 to R24): an unlisted word is one that nothing has written -/

/-- The address of word `i` of buffer `b`; `i < 65536` because `BLOCK_MAX ≤ 65535` (R8). -/
def bufAddr (b : Byte) (i : Nat) : Nat := b.toNat * 65536 + i

/-- Read `BUF[b][i]`; there is no value if nothing has written it (R24). -/
def bufRead (m : Memory) (b : Byte) (i : Nat) : Option Word := cellRead m (bufAddr b i)

/-- Write `BUF[b][i]`. -/
def bufWrite (m : Memory) (b : Byte) (i : Nat) (v : Word) : Memory := cellWrite m (bufAddr b i) v

/-! ## Ring memories (R71, R72): an unlisted cell holds +0.0 (log 5) -/

/-- `MemRead(ring, j)` (R71). -/
def ringRead (m : Memory) (j : Nat) : F32 := (cellRead m j).getD 0

/-- `MemWrite(ring, j, v)` (R71). Writing +0.0 removes the entry, so that equal rings are equal data. -/
def ringWrite (m : Memory) (j : Nat) (v : F32) : Memory := if v = 0 then cellErase m j else cellWrite m j v

/-- A ring with +0.0 in every cell, as every setup of a delay class leaves it (R71). -/
def ringZero : Memory := []

/-- The cell `t` samples behind the write pointer, `(wp + cap − t) mod cap` (R72). There is none unless
`1 ≤ t ≤ cap` and `wp < cap`. -/
def ringBack (cap wp t : Nat) : Option Nat :=
  if 1 ≤ t ∧ t ≤ cap ∧ wp < cap then some ((wp + cap - t) % cap) else none

/-- The write pointer's advance, `(wp + 1) mod cap` (R72). -/
def ringNext (cap : Nat) (wp : Word) : Word := BitVec.ofNat 32 ((wp.toNat + 1) % cap)

/-- The ring capacity of instance `inst`, from a list of capacities (R8). -/
def capOf (caps : List Nat) (inst : Byte) : Nat := caps[inst.toNat]?.getD 0

/-! ## Finite values (R14) -/

/-- The value `a`, if the words given, the sample and state words it writes, are finite numbers; else the stage
fault (R14, R406). -/
def guardFinite {α : Type} (ws : List F32) (a : α) : Except Fault α :=
  if ws.all isFinite then .ok a else .error .nonFinite

/-! ## The acting stage (R21: a command reads and writes the state of the stage that executes it) -/

/-- The stage that acts. -/
def State.stage (s : State) : Stage :=
  match s.cur with
  | .A => s.a
  | .B => s.b

/-- The state with the acting stage replaced. -/
def State.setStage (s : State) (st : Stage) : State :=
  match s.cur with
  | .A => { s with a := st }
  | .B => { s with b := st }

/-- The other stage. -/
def State.other (s : State) : Stage :=
  match s.cur with
  | .A => s.b
  | .B => s.a

/-- The effect programs of the acting stage (R376). -/
def State.programs (s : State) : List (List Word) :=
  match s.cur with
  | .A => s.cfg.progA
  | .B => s.cfg.progB

/-- A command is being executed from the effect program, not from the control port (R18, R119; log 19). -/
def State.inProgram (s : State) : Bool := s.phase == .program

/-- The state standing elsewhere in the answer to a block arrival (log 1). -/
def State.setPhase (s : State) (p : Phase) : State := { s with phase := p }

/-- The state with another input block latched. -/
def State.setLatch (s : State) (b : Block) : State := { s with latch := b }

/-- The state with another hand-off queue (R80). -/
def State.setHandoff (s : State) (l : List Block) : State := { s with handoff := l }

/-- The state with the acting stage's buffers replaced. -/
def State.setBuf (s : State) (m : Memory) : State := s.setStage { s.stage with buf := m }

/-! ## Finishing a command -/

/-- Finish a command with its result code (R17, R18, R400): a control-port command leaves it in `RES`, a program
command discards it. -/
def complete (code : ResultCode) (s : State) : Result :=
  .next (if s.inProgram then s else s.setStage { s.stage with res := code.word })

/-- Finish a command that computed a new state of the acting stage, or stop with the fault it met. -/
def completeWith (code : ResultCode) (s : State) : Except Fault Stage → Result
  | .ok st => complete code (s.setStage st)
  | .error e => .fault e

/-- Issue a command. A command whose operands are illegal or that its source may not give is `IllegalCommand` at
the control port and changes nothing else (R122, R403); in an effect program it means that the program is not
well-formed (R119, R120; log 14). Any other command runs. -/
def issue (i : Instr) (s : State) (body : Result) : Result :=
  if s.inProgram then
    (if programCommand i && legal s.cfg i then body else .refused .malformedProgram)
  else if portCommand i && legal s.cfg i then body
  else complete .illegalCommand s

/-! ## Loops over the samples of a block (R131): ascending index, `in[i]` read before `out[i]` is written -/

/-- Run `body` for the sample indices `i, i + 1, …, i + count − 1`. -/
def forSamples {α : Type} (body : Nat → α → Except Fault α) : (count i : Nat) → α → Except Fault α
  | 0, _, x => .ok x
  | k + 1, i, x =>
    match body i x with
    | .ok x' => forSamples body k (i + 1) x'
    | .error e => .error e

/-- One sample of a command with one source: read `BUF[bs][i]`, compute, write `BUF[bd][i]`. -/
def sampleThrough {α : Type} (bs bd : Byte) (f : F32 → α → Except Fault (α × F32)) (i : Nat) (p : Memory × α) :
    Except Fault (Memory × α) :=
  match bufRead p.1 bs i with
  | none => .error .unwrittenWord
  | some x =>
    match f x p.2 with
    | .ok (a, y) => guardFinite [y] (bufWrite p.1 bd i y, a)
    | .error e => .error e

/-- One sample of a command with two sources. `f` is given what `BUF[bs2][i]` holds, if anything: a command that
does not read its second source does not need it to be written (R256). -/
def sampleThrough2 {α : Type} (bs bs2 bd : Byte) (f : F32 → Option F32 → α → Except Fault (α × F32)) (i : Nat)
    (p : Memory × α) : Except Fault (Memory × α) :=
  match bufRead p.1 bs i with
  | none => .error .unwrittenWord
  | some x =>
    match f x (bufRead p.1 bs2 i) p.2 with
    | .ok (a, y) => guardFinite [y] (bufWrite p.1 bd i y, a)
    | .error e => .error e

/-- One sample of a command that reads a source and writes no buffer (R25). -/
def sampleInto {α : Type} (m : Memory) (bs : Byte) (f : F32 → α → Except Fault α) (i : Nat) (a : α) :
    Except Fault α :=
  match bufRead m bs i with
  | none => .error .unwrittenWord
  | some x => f x a

/-- One sample of a command that writes a destination and reads no buffer. -/
def sampleFrom {α : Type} (bd : Byte) (f : α → Except Fault (α × F32)) (i : Nat) (p : Memory × α) :
    Except Fault (Memory × α) :=
  match f p.2 with
  | .ok (a, y) => guardFinite [y] (bufWrite p.1 bd i y, a)
  | .error e => .error e

/-- One sample of a copy: the 32-bit pattern is moved, no arithmetic touches it (R132, R136). -/
def sampleCopy (bs bd : Byte) (i : Nat) (m : Memory) : Except Fault Memory :=
  match bufRead m bs i with
  | none => .error .unwrittenWord
  | some x => .ok (bufWrite m bd i x)

/-- Copy `n` words from buffer `bs` to buffer `bd` (R132, R136). -/
def copyBlock (bs bd : Byte) (n : BitVec 16) (m : Memory) : Except Fault Memory :=
  forSamples (sampleCopy bs bd) n.toNat 0 m

/-- Write the words of a list to `BUF[b][i], BUF[b][i + 1], …` (R418). -/
def bufLoad (b : Byte) : (i : Nat) → List F32 → Memory → Memory
  | _, [], m => m
  | i, v :: vs, m => bufLoad b (i + 1) vs (bufWrite m b i v)

/-- Read `BUF[b][i], …, BUF[b][i + count − 1]` (R419). -/
def bufStore (m : Memory) (b : Byte) : (count i : Nat) → Except Fault (List F32)
  | 0, _ => .ok []
  | k + 1, i =>
    match bufRead m b i with
    | none => .error .unwrittenWord
    | some v =>
      match bufStore m b k (i + 1) with
      | .ok vs => .ok (v :: vs)
      | .error e => .error e

/-- Run a per-sample function with one source and one destination over a block of `n` samples. -/
def runThrough {α : Type} (bs bd : Byte) (n : BitVec 16) (f : F32 → α → Except Fault (α × F32)) (a : α) (m : Memory) :
    Except Fault (Memory × α) :=
  forSamples (sampleThrough bs bd f) n.toNat 0 (m, a)

/-- Run a per-sample function with two sources and one destination over a block of `n` samples. -/
def runThrough2 {α : Type} (bs bs2 bd : Byte) (n : BitVec 16) (f : F32 → Option F32 → α → Except Fault (α × F32))
    (a : α) (m : Memory) : Except Fault (Memory × α) :=
  forSamples (sampleThrough2 bs bs2 bd f) n.toNat 0 (m, a)

/-- Run a per-sample function with one source and no destination over a block of `n` samples. -/
def runInto {α : Type} (bs : Byte) (n : BitVec 16) (f : F32 → α → Except Fault α) (a : α) (m : Memory) :
    Except Fault α :=
  forSamples (sampleInto m bs f) n.toNat 0 a

/-- Run a per-sample generator with one destination over a block of `n` samples. -/
def runFrom {α : Type} (bd : Byte) (n : BitVec 16) (f : α → Except Fault (α × F32)) (a : α) (m : Memory) :
    Except Fault (Memory × α) :=
  forSamples (sampleFrom bd f) n.toNat 0 (m, a)

/-- A stage with its buffers replaced by what a buffer command computed. -/
def withBuffers (st : Stage) : Except Fault Memory → Except Fault Stage
  | .ok m => .ok { st with buf := m }
  | .error e => .error e

/-- The buffers that a per-sample function without instance state computed. -/
def buffersOf : Except Fault (Memory × Unit) → Except Fault Memory
  | .ok p => .ok p.1
  | .error e => .error e

/-! ## Instance files -/

/-- How a class's instance file is reached in a stage: the file, the file replaced, the `init` bit, and the
instance with `init` cleared (R33, R34). -/
structure Slot (α : Type) where
  file : Stage → List α
  setFile : Stage → List α → Stage
  ready : α → Bool
  clear : α → α

/-- `bq` (R36). -/
def bqSlot : Slot Biquad := ⟨fun st => st.bq, fun st l => { st with bq := l }, fun x => x.init, fun x => { x with init := false }⟩
/-- `dl` (R37). -/
def dlSlot : Slot FeedbackDelay := ⟨fun st => st.dl, fun st l => { st with dl := l }, fun x => x.init, fun x => { x with init := false }⟩
/-- `mt` (R38). -/
def mtSlot : Slot Multitap := ⟨fun st => st.mt, fun st l => { st with mt := l }, fun x => x.init, fun x => { x with init := false }⟩
/-- `ap` (R39). -/
def apSlot : Slot Allpass := ⟨fun st => st.ap, fun st l => { st with ap := l }, fun x => x.init, fun x => { x with init := false }⟩
/-- `vd` (R40). -/
def vdSlot : Slot VariableDelay := ⟨fun st => st.vd, fun st l => { st with vd := l }, fun x => x.init, fun x => { x with init := false }⟩
/-- `cp_` (R41). -/
def cpSlot : Slot Compressor := ⟨fun st => st.cpr, fun st l => { st with cpr := l }, fun x => x.init, fun x => { x with init := false }⟩
/-- `cl` (R44). -/
def clSlot : Slot Clipper := ⟨fun st => st.cl, fun st l => { st with cl := l }, fun x => x.init, fun x => { x with init := false }⟩
/-- `am` (R45). -/
def amSlot : Slot AmpMod := ⟨fun st => st.am, fun st l => { st with am := l }, fun x => x.init, fun x => { x with init := false }⟩
/-- `sy` (R46). -/
def sySlot : Slot Synth := ⟨fun st => st.sy, fun st l => { st with sy := l }, fun x => x.init, fun x => { x with init := false }⟩
/-- `zc` (R47). -/
def zcSlot : Slot ZeroCross := ⟨fun st => st.zc, fun st l => { st with zc := l }, fun x => x.init, fun x => { x with init := false }⟩
/-- `sm` (R48). -/
def smSlot : Slot Smoother := ⟨fun st => st.sm, fun st l => { st with sm := l }, fun x => x.init, fun x => { x with init := false }⟩
/-- `at` (R49). -/
def atSlot : Slot Tracker := ⟨fun st => st.trk, fun st l => { st with trk := l }, fun x => x.init, fun x => { x with init := false }⟩

/-- The instance an index names, if it names one (R34). -/
def Slot.get {α : Type} (sl : Slot α) (st : Stage) (inst : Byte) : Option α := (sl.file st)[inst.toNat]?

/-- The stage with instance `inst` replaced. -/
def Slot.put {α : Type} (sl : Slot α) (st : Stage) (inst : Byte) (x : α) : Stage :=
  sl.setFile st ((sl.file st).set inst.toNat x)

/-! ## The three contracts -/

/-- The read contract (R132): the null instance and an uninitialized instance pass through (`pass`), an
initialized one runs. -/
def readElement {α : Type} (sl : Slot α) (inst : Byte) (pass : Memory → Except Fault Memory)
    (run : α → Memory → Except Fault (Memory × α)) (s : State) : Result :=
  let st := s.stage
  let through (code : ResultCode) : Result :=
    completeWith code s (withBuffers st (pass st.buf))
  match sl.get st inst with
  | none => through .invalidInstancePointer
  | some x =>
    if sl.ready x then
      completeWith .ok s
        (match run x st.buf with | .ok (m, x') => .ok (sl.put { st with buf := m } inst x') | .error e => .error e)
    else through .ok

/-- The setup contract (R133): the null instance changes nothing; else `init` is cleared, the first operand out of
range decides the code and nothing else is written; else every field is written as `build` says. -/
def setupElement {α : Type} (sl : Slot α) (inst : Byte) (checks : List (Bool × ResultCode))
    (build : α → Except Fault α) (s : State) : Result :=
  let st := s.stage
  match sl.get st inst with
  | none => complete .invalidInstancePointer s
  | some x =>
    match firstFailure checks with
    | some code => complete code (s.setStage (sl.put st inst (sl.clear x)))
    | none =>
      completeWith .ok s (match build x with | .ok x' => .ok (sl.put st inst x') | .error e => .error e)

/-- The modify contract (R134), after the clamp: the null instance changes nothing; an uninitialized instance only
reports the code; else `apply` is done and the code reported. -/
def modifyElement {α : Type} (sl : Slot α) (inst : Byte) (code : ResultCode) (apply : α → Except Fault α)
    (s : State) : Result :=
  let st := s.stage
  match sl.get st inst with
  | none => complete .invalidInstancePointer s
  | some x =>
    if sl.ready x then
      completeWith code s (match apply x with | .ok x' => .ok (sl.put st inst x') | .error e => .error e)
    else complete code s

/-- Pass-through of a read command with a destination: a bit-exact copy (R132). -/
def passCopy (bs bd : Byte) (n : BitVec 16) : Memory → Except Fault Memory := copyBlock bs bd n

/-- Pass-through of a read command without a destination: nothing is written (R132). -/
def passNothing (m : Memory) : Except Fault Memory := .ok m

end Sys2Proof.Machine
end

