-- ==== Sys2Proof/Machine/BiquadFilter.lean ====
section
/-! DEFINITION. The biquad filter with coefficient ramping (`42_biquad.md`). -/

namespace Sys2Proof.Machine

/-- The raw transfer-function coefficients of R188. -/
structure RawCoeffs where
  b0 : F32
  b1 : F32
  b2 : F32
  a0 : F32
  a1 : F32
  a2 : F32
  deriving DecidableEq, Repr

/-- The normalised coefficients of R190. -/
structure Coeffs where
  A1 : F32
  A2 : F32
  B1 : F32
  B2 : F32
  scale : F32
  deriving DecidableEq, Repr

/-- `w0`, the normalised angular frequency (R188). -/
def bqOmega (freq fs : F32) : F32 := fdiv (fmul twoPi freq) fs

/-- `al`, the half-bandwidth (R188). -/
def bqAlpha (freq q fs : F32) : F32 := fdiv (fsin (bqOmega freq fs)) (fmul ftwo q)

/-- The numerator of types 0 to 3 over their common denominator (R188). -/
def bqPlain (b0 b1 b2 cs al : F32) : RawCoeffs :=
  { b0 := b0, b1 := b1, b2 := b2, a0 := fadd fone al, a1 := fmul fnegTwo cs, a2 := fsub fone al }

/-- `bq_raw(type, freq, q, gain, fs)` (R188), each operation one rounded operation in the order written there. -/
def bqRaw (ty : FilterType) (freq q gain fs : F32) : RawCoeffs :=
  let cs := fcos (bqOmega freq fs)
  let al := bqAlpha freq q fs
  let A := fpow10 (fdiv gain fforty)
  let beta := fmul (fmul ftwo (fsqrt A)) al
  let Ap1 := fadd A fone
  let Am1 := fsub A fone
  let Ap1c := fmul Ap1 cs
  let Am1c := fmul Am1 cs
  match ty with
  | .lpf =>
    let b1 := fsub fone cs
    bqPlain (fmul b1 fhalf) b1 (fmul b1 fhalf) cs al
  | .hpf =>
    let t1 := fadd fone cs
    bqPlain (fmul t1 fhalf) (fneg t1) (fmul t1 fhalf) cs al
  | .bpf => bqPlain al fzero (fneg al) cs al
  | .notch => bqPlain fone (fmul fnegTwo cs) fone cs al
  | .peak =>
    { b0 := fadd fone (fmul al A), b1 := fmul fnegTwo cs, b2 := fsub fone (fmul al A),
      a0 := fadd fone (fdiv al A), a1 := fmul fnegTwo cs, a2 := fsub fone (fdiv al A) }
  | .loShelf =>
    { b0 := fmul A (fadd (fsub Ap1 Am1c) beta),
      b1 := fmul (fmul ftwo A) (fsub Am1 Ap1c),
      b2 := fmul A (fsub (fsub Ap1 Am1c) beta),
      a0 := fadd (fadd Ap1 Am1c) beta,
      a1 := fmul fnegTwo (fadd Am1 Ap1c),
      a2 := fsub (fadd Ap1 Am1c) beta }
  | .hiShelf =>
    { b0 := fmul A (fadd (fadd Ap1 Am1c) beta),
      b1 := fmul (fmul fnegTwo A) (fadd Am1 Ap1c),
      b2 := fmul A (fsub (fadd Ap1 Am1c) beta),
      a0 := fadd (fsub Ap1 Am1c) beta,
      a1 := fmul ftwo (fsub Am1 Ap1c),
      a2 := fsub (fsub Ap1 Am1c) beta }

/-- The normalisation of R190. -/
def bqNormalise (r : RawCoeffs) : Coeffs :=
  { A1 := fdiv r.a1 r.a0, A2 := fdiv r.a2 r.a0, B1 := fdiv r.b1 r.b0, B2 := fdiv r.b2 r.b0,
    scale := fdiv r.b0 r.a0 }

/-- `bq_coeffs(type, freq, q, gain, fs)` (R190). -/
def bqCoeffs (ty : FilterType) (freq q gain fs : F32) : Coeffs := bqNormalise (bqRaw ty freq q gain fs)

/-- The words of a coefficient set. -/
def coeffWords (k : Coeffs) : List F32 := [k.A1, k.A2, k.B1, k.B2, k.scale]

/-- The filter with its five coefficients replaced. -/
def withCoeffs (x : Biquad) (k : Coeffs) : Biquad :=
  { x with A1 := k.A1, A2 := k.A2, B1 := k.B1, B2 := k.B2, scale := k.scale }

/-- The filter as a successful `BQ.SETUP` leaves it (R189). -/
def bqFresh (ty : FilterType) (speed : BitVec 16) (freq q gain fs : F32) : Biquad :=
  let k := bqCoeffs ty freq q gain fs
  { init := true, ty := ty, speed := speed, fs := fs
    freq := freq, q := q, gain := gain, dfreq := freq, dq := q, dgain := gain
    finc := fzero, qinc := fzero, ginc := fzero, count := 0
    w0 := fzero, w1 := fzero, w2 := fzero
    A1 := k.A1, A2 := k.A2, B1 := k.B1, B2 := k.B2, scale := k.scale }

/-- `BQ.SETUP` (R189). -/
def execBqSetup (inst : Byte) (ty speed : Word) (freq q gainDb fs : F32) (s : State) : Result :=
  issue (.bqSetup inst ty speed freq q gainDb fs) s <|
    setupElement bqSlot inst
      [(inRange Config.bqQMin q Config.bqQMax, .bqInvalidQ),
       (inRange Config.bqFreqMin freq Config.bqFreqMax, .bqInvalidFreq),
       (inRange s.cfg.bqGainMinDb gainDb s.cfg.bqGainMaxDb, .bqInvalidGain)]
      (fun _ =>
        let x := bqFresh (filterType ty.toNat) (speed.setWidth 16) freq q gainDb fs
        guardFinite [x.A1, x.A2, x.B1, x.B2, x.scale] x) s

/-- Retarget (R193): all three increments from the current values, and the counter restarted. -/
def bqRetarget (x : Biquad) : Except Fault Biquad :=
  let t := u2f x.speed.toNat
  let y := { x with
    finc := fdiv (fsub x.dfreq x.freq) t
    qinc := fdiv (fsub x.dq x.q) t
    ginc := fdiv (fsub x.dgain x.gain) t
    count := x.speed }
  guardFinite [y.finc, y.qinc, y.ginc] y

/-- `BQ.MODFREQ` (R194). -/
def execBqModFreq (inst : Byte) (freq : F32) (s : State) : Result :=
  issue (.bqModFreq inst freq) s <|
    let r := clampReport Config.bqFreqMin freq Config.bqFreqMax .bqInvalidFreq
    modifyElement bqSlot inst r.2 (fun x => bqRetarget { x with dfreq := r.1 }) s

/-- `BQ.MODQ` (R195). -/
def execBqModQ (inst : Byte) (q : F32) (s : State) : Result :=
  issue (.bqModQ inst q) s <|
    let r := clampReport Config.bqQMin q Config.bqQMax .bqInvalidQ
    modifyElement bqSlot inst r.2 (fun x => bqRetarget { x with dq := r.1 }) s

/-- `BQ.MODGAIN` (R196). -/
def execBqModGain (inst : Byte) (gainDb : F32) (s : State) : Result :=
  issue (.bqModGain inst gainDb) s <|
    let r := clampReport s.cfg.bqGainMinDb gainDb s.cfg.bqGainMaxDb .bqInvalidGain
    modifyElement bqSlot inst r.2 (fun x => bqRetarget { x with dgain := r.1 }) s

/-- The current frequency, Q and gain after one transition step (R197): the last step lands exactly. -/
def bqGlide (x : Biquad) : Biquad :=
  let c := x.count - 1
  if c = 0 then { x with count := c, freq := x.dfreq, q := x.dq, gain := x.dgain }
  else { x with
    count := c
    freq := approach x.freq x.finc x.dfreq
    q := approach x.q x.qinc x.dq
    gain := approach x.gain x.ginc x.dgain }

/-- The transition step (R197), once at the start of a read. -/
def bqTransition (x : Biquad) : Except Fault Biquad :=
  if x.count = 0 then .ok x
  else
    let y := bqGlide x
    let k := bqCoeffs y.ty y.freq y.q y.gain y.fs
    guardFinite ([y.freq, y.q, y.gain] ++ coeffWords k) (withCoeffs y k)

/-- The new state word `w` of the section for an input sample (R191). -/
def bqState (b : Biquad) (x : F32) : F32 := fsub (fsub x (fmul b.A1 b.w0)) (fmul b.A2 b.w1)

/-- The output of the section for an input sample (R191). -/
def bqOut (b : Biquad) (x : F32) : F32 :=
  fmul (fadd (fadd (bqState b x) (fmul b.B1 b.w0)) (fmul b.B2 b.w1)) b.scale

/-- One sample of the section, direct form II (R191). -/
def bqSample (x : F32) (b : Biquad) : Except Fault (Biquad × F32) :=
  guardFinite [bqState b x, bqOut b x] ({ b with w1 := b.w0, w0 := bqState b x }, bqOut b x)

/-- The transition step and then the samples of a read (R198). -/
def bqRun (bs bd : Byte) (n : BitVec 16) (x : Biquad) (m : Memory) : Except Fault (Memory × Biquad) :=
  match bqTransition x with
  | .ok y => runThrough bs bd n bqSample y m
  | .error e => .error e

/-- `BQ.READ` (R198). -/
def execBqRead (inst bs bd : Byte) (n : BitVec 16) (s : State) : Result :=
  issue (.bqRead inst bs bd n) s <| readElement bqSlot inst (passCopy bs bd n) (bqRun bs bd n) s

end Sys2Proof.Machine
end

