-- ==== Sys2Proof/Machine/Buffer.lean ====
section
/-! DEFINITION. `END` and the buffer utilities (`40_control_and_buffer.md` sections 2 and 3). -/

namespace Sys2Proof.Machine

/-- `END` (R135): stop the dispatch; `cp` stays at this word. What is left of the dispatch is the store (R416). -/
def execEndProgram (s : State) : Result :=
  issue .endProgram s <| .next (s.setPhase .store)

/-- `COPY` (R136). -/
def execCopy (bs bd : Byte) (n : BitVec 16) (s : State) : Result :=
  issue (.copy bs bd n) s <| completeWith .ok s (withBuffers s.stage (copyBlock bs bd n s.stage.buf))

/-- `CLEAR` (R137). -/
def execClear (bd : Byte) (n : BitVec 16) (s : State) : Result :=
  issue (.clear bd n) s <|
    completeWith .ok s (withBuffers s.stage (buffersOf (runFrom bd n (fun u => .ok (u, fzero)) () s.stage.buf)))

/-- One sample of `MIX2` (R138): one rounded addition. -/
def mixSample (x : F32) (x2 : Option F32) (u : Unit) : Except Fault (Unit × F32) :=
  match x2 with
  | some y => .ok (u, fadd x y)
  | none => .error .unwrittenWord

/-- `MIX2` (R138). -/
def execMix2 (bs bs2 bd : Byte) (n : BitVec 16) (s : State) : Result :=
  issue (.mix2 bs bs2 bd n) s <|
    completeWith .ok s (withBuffers s.stage (buffersOf (runThrough2 bs bs2 bd n mixSample () s.stage.buf)))

/-- One sample of `GAIN` (R139): one rounded multiplication. -/
def gainSample (g x : F32) (u : Unit) : Except Fault (Unit × F32) := .ok (u, fmul x g)

/-- `GAIN` (R139). -/
def execGain (bs bd : Byte) (n : BitVec 16) (g : F32) (s : State) : Result :=
  issue (.gain bs bd n g) s <|
    completeWith .ok s (withBuffers s.stage (buffersOf (runThrough bs bd n (gainSample g) () s.stage.buf)))

end Sys2Proof.Machine
end

