-- ==== Sys2Proof/Machine/Delay.lean ====
section
/-! DEFINITION. The feedback delay, the multitap delay and the allpass filter (`43_delay.md`). -/

namespace Sys2Proof.Machine

/-! ## Feedback delay (R215 to R225) -/

/-- The feedback delay as a successful `DL.SETUP` leaves it (R216). -/
def dlFresh (length : Word) (feedback feedthrough damping : F32) : FeedbackDelay :=
  { init := true, ring := ringZero, wp := 0
    tap := length, tapf := u2f length.toNat, target := length
    tinc := fzero, rem := 0
    fb := feedback, ft := feedthrough, damp := damping, lp := fzero }

/-- `DL.SETUP` (R216). -/
def execDlSetup (inst : Byte) (length : Word) (feedback feedthrough damping : F32) (s : State) : Result :=
  issue (.dlSetup inst length feedback feedthrough damping) s <|
    setupElement dlSlot inst
      [(decide (1 ≤ length.toNat ∧ length.toNat ≤ capOf s.cfg.dlCap inst), .dlInvalidLength),
       (inRange Config.fbMin feedback Config.fbMax, .dlInvalidFeedback),
       (inRange fzero damping fone, .dlInvalidDamping)]
      (fun _ => .ok (dlFresh length feedback feedthrough damping)) s

/-- The ramp set up for a new length (R218). -/
def dlRetarget (steps length : Nat) (x : FeedbackDelay) : Except Fault FeedbackDelay :=
  let y := { x with
    target := BitVec.ofNat 32 length
    tinc := fdiv (fsub (u2f length) x.tapf) (u2f steps)
    rem := BitVec.ofNat 32 steps }
  guardFinite [y.tinc] y

/-- `DL.MODLEN` (R218). -/
def execDlModLen (inst : Byte) (length : Word) (s : State) : Result :=
  issue (.dlModLen inst length) s <|
    let r := clampLength length.toNat (capOf s.cfg.dlCap inst) .dlInvalidLength
    modifyElement dlSlot inst r.2 (dlRetarget s.cfg.dlRampSteps r.1) s

/-- `DL.MODFB` (R219). -/
def execDlModFb (inst : Byte) (feedback : F32) (s : State) : Result :=
  issue (.dlModFb inst feedback) s <|
    let r := clampReport Config.fbMin feedback Config.fbMax .dlInvalidFeedback
    modifyElement dlSlot inst r.2 (fun x => .ok { x with fb := r.1 }) s

/-- `DL.MODFT` (R220): no bounds, so no clamp to report. -/
def execDlModFt (inst : Byte) (feedthrough : F32) (s : State) : Result :=
  issue (.dlModFt inst feedthrough) s <|
    modifyElement dlSlot inst .ok (fun x => .ok { x with ft := feedthrough }) s

/-- `DL.MODDAMP` (R221). -/
def execDlModDamp (inst : Byte) (damping : F32) (s : State) : Result :=
  issue (.dlModDamp inst damping) s <|
    let r := clampReport fzero damping fone .dlInvalidDamping
    modifyElement dlSlot inst r.2 (fun x => .ok { x with damp := r.1 }) s

/-- The fractional tap after one ramp step with `rem'` samples left (R222): the last step lands exactly. -/
def dlRampTap (x : FeedbackDelay) (rem' : Word) : F32 :=
  if rem' = 0 then u2f x.target.toNat else approach x.tapf x.tinc (u2f x.target.toNat)

/-- The ramp step (R222), once per sample. -/
def dlRamp (x : FeedbackDelay) : Except Fault FeedbackDelay :=
  if x.rem = 0 then .ok x
  else
    let tapf := dlRampTap x (x.rem - 1)
    match trunc tapf with
    | some tap => .ok { x with rem := x.rem - 1, tapf := tapf, tap := BitVec.ofNat 32 tap }
    | none => .error .outOfDomain

/-- The sample after the ramp step, the delayed value `d` having been read (R217): what is written to the line,
the state of the damping filter, and the output. -/
def dlFeed (x : FeedbackDelay) (v d : F32) : F32 × F32 × F32 :=
  let line := fmul (fadd v d) x.fb
  let y := fadd (fmul x.ft v) d
  if fne x.damp fzero then
    let lp := onepole x.damp x.lp line
    (lp, lp, y)
  else (line, x.lp, y)

/-- One sample of `DL.READ` (R217) on a ring of `cap` cells: ramp, read the delayed cell, form the output, write the
cell at `wp`, advance. -/
def dlSample (cap : Nat) (v : F32) (x : FeedbackDelay) : Except Fault (FeedbackDelay × F32) :=
  match dlRamp x with
  | .error e => .error e
  | .ok x =>
    match ringBack cap x.wp.toNat x.tap.toNat with
    | none => .error .outOfDomain
    | some j =>
      let r := dlFeed x v (ringRead x.ring j)
      guardFinite [r.1, r.2.1, r.2.2]
        ({ x with ring := ringWrite x.ring x.wp.toNat r.1, lp := r.2.1, wp := ringNext cap x.wp }, r.2.2)

/-- `DL.READ` (R217). -/
def execDlRead (inst bs bd : Byte) (n : BitVec 16) (s : State) : Result :=
  issue (.dlRead inst bs bd n) s <|
    readElement dlSlot inst (passCopy bs bd n) (runThrough bs bd n (dlSample (capOf s.cfg.dlCap inst))) s

/-! ## Multitap delay (R229 to R232) -/

/-- `MT.SETUP` (R230). -/
def execMtSetup (inst : Byte) (ntaps : Word) (s : State) : Result :=
  issue (.mtSetup inst ntaps) s <|
    setupElement mtSlot inst []
      (fun _ => .ok
        { init := true, ring := ringZero, wp := 0, ntaps := ntaps.setWidth 16
          off := List.replicate s.cfg.mtMaxTaps 1, g := List.replicate s.cfg.mtMaxTaps fzero }) s

/-- `MT.SETTAP` (R231), which follows the modify contract. -/
def execMtSetTap (inst : Byte) (tap offset : Word) (gain : F32) (s : State) : Result :=
  issue (.mtSetTap inst tap offset gain) s <|
    let r := clampLength offset.toNat (capOf s.cfg.mtCap inst) .mtInvalidOffset
    modifyElement mtSlot inst r.2
      (fun x => .ok { x with off := x.off.set tap.toNat (BitVec.ofNat 32 r.1), g := x.g.set tap.toNat gain }) s

/-- The sum over the taps in ascending order (R232), starting from `acc`. -/
def mtSum (cap wp : Nat) (ring : Memory) : List (Word × F32) → F32 → Except Fault F32
  | [], acc => .ok acc
  | (off, g) :: taps, acc =>
    match ringBack cap wp off.toNat with
    | none => .error .outOfDomain
    | some j => mtSum cap wp ring taps (fadd acc (fmul g (ringRead ring j)))

/-- One sample of `MT.READ` (R232): the present input is never part of the output. -/
def mtSample (cap : Nat) (v : F32) (x : Multitap) : Except Fault (Multitap × F32) :=
  match mtSum cap x.wp.toNat x.ring ((x.off.zip x.g).take x.ntaps.toNat) fzero with
  | .error e => .error e
  | .ok y =>
    if x.wp.toNat < cap then
      guardFinite [v, y] ({ x with ring := ringWrite x.ring x.wp.toNat v, wp := ringNext cap x.wp }, y)
    else .error .outOfDomain

/-- `MT.READ` (R232). -/
def execMtRead (inst bs bd : Byte) (n : BitVec 16) (s : State) : Result :=
  issue (.mtRead inst bs bd n) s <|
    readElement mtSlot inst (passCopy bs bd n) (runThrough bs bd n (mtSample (capOf s.cfg.mtCap inst))) s

/-! ## Allpass filter (R239 to R241) -/

/-- `AP.SETUP` (R240). -/
def execApSetup (inst : Byte) (length : Word) (gain : F32) (s : State) : Result :=
  issue (.apSetup inst length gain) s <|
    setupElement apSlot inst
      [(decide (1 ≤ length.toNat ∧ length.toNat ≤ capOf s.cfg.apCap inst), .apInvalidLength),
       (inRange Config.fbMin gain Config.fbMax, .apInvalidGain)]
      (fun _ => .ok { init := true, ring := ringZero, len := length, idx := 0, gain := gain }) s

/-- One sample of `AP.READ` (R241), the recurrence as the document writes it (conflict C9): the index wraps at
`len`, not at the ring's capacity. -/
def apSample (cap : Nat) (v : F32) (x : Allpass) : Except Fault (Allpass × F32) :=
  if x.idx.toNat < x.len.toNat ∧ x.len.toNat ≤ cap then
    let b := ringRead x.ring x.idx.toNat
    let y := fadd (fmul (fneg x.gain) v) b
    let line := fadd v (fmul x.gain b)
    guardFinite [line, y] ({ x with ring := ringWrite x.ring x.idx.toNat line, idx := ringNext x.len.toNat x.idx }, y)
  else .error .outOfDomain

/-- `AP.READ` (R241). -/
def execApRead (inst bs bd : Byte) (n : BitVec 16) (s : State) : Result :=
  issue (.apRead inst bs bd n) s <|
    readElement apSlot inst (passCopy bs bd n) (runThrough bs bd n (apSample (capOf s.cfg.apCap inst))) s

end Sys2Proof.Machine
end

