-- ==== Sys2Proof/Machine/Dynamics.lean ====
section
/-! DEFINITION. The dynamics element: RMS detector, attack/release smoothing, gain computer
(`45_compressor.md`). -/

namespace Sys2Proof.Machine

/-- The coefficient law `tc(t, fs) = fexp(−1.0 ÷ ((t × MILLI) × fs))` (R276). -/
def timeCoeff (t fs : F32) : F32 := fexp (fdiv fnegOne (fmul (fmul t milli) fs))

/-- The threshold in the log2 domain, `thr × DB2L2` (R277). -/
def cpThrL2 (thr : F32) : F32 := fmul thr db2l2

/-- The slope `1 − (1 ÷ ratio)` (R277). -/
def cpSlope (ratio : F32) : F32 := fsub fone (fdiv fone ratio)

/-- The compressor as a successful `CP.SETUP` leaves it (R277). -/
def cpFresh (thr ratio att rel gain rms fs : F32) : Compressor :=
  { init := true, thr := thr, ratio := ratio, att := att, rel := rel, rms := rms, gain := gain, fs := fs
    thrL2 := cpThrL2 thr, slope := cpSlope ratio
    attC := timeCoeff att fs, relC := timeCoeff rel fs, rmsC := timeCoeff rms fs
    ms := fzero, env := fzero }

/-- `CP.SETUP` (R277). -/
def execCpSetup (inst : Byte) (thresholdDb ratio attackMs releaseMs gain rmsMs fs : F32) (s : State) : Result :=
  issue (.cpSetup inst thresholdDb ratio attackMs releaseMs gain rmsMs fs) s <|
    setupElement cpSlot inst
      [(inRange Config.cpThrMinDb thresholdDb Config.cpThrMaxDb, .cpInvalidThreshold),
       (inRange Config.cpRatioMin ratio s.cfg.cpRatioMax, .cpInvalidRatio),
       (inRange s.cfg.cpAttMinMs attackMs s.cfg.cpAttMaxMs, .cpInvalidAttack),
       (inRange s.cfg.cpRelMinMs releaseMs s.cfg.cpRelMaxMs, .cpInvalidRelease),
       (inRange s.cfg.cpGainMin gain s.cfg.cpGainMax, .cpInvalidGain),
       (inRange s.cfg.cpRmsMinMs rmsMs s.cfg.cpRmsMaxMs, .cpInvalidRms)]
      (fun _ =>
        let x := cpFresh thresholdDb ratio attackMs releaseMs gain rmsMs fs
        guardFinite [x.thrL2, x.slope, x.attC, x.relC, x.rmsC] x) s

/-- `CP.MODTHR` (R279). -/
def execCpModThr (inst : Byte) (thresholdDb : F32) (s : State) : Result :=
  issue (.cpModThr inst thresholdDb) s <|
    let r := clampReport Config.cpThrMinDb thresholdDb Config.cpThrMaxDb .cpInvalidThreshold
    modifyElement cpSlot inst r.2 (fun x => guardFinite [cpThrL2 r.1] { x with thr := r.1, thrL2 := cpThrL2 r.1 }) s

/-- `CP.MODRATIO` (R280). -/
def execCpModRatio (inst : Byte) (ratio : F32) (s : State) : Result :=
  issue (.cpModRatio inst ratio) s <|
    let r := clampReport Config.cpRatioMin ratio s.cfg.cpRatioMax .cpInvalidRatio
    modifyElement cpSlot inst r.2 (fun x => guardFinite [cpSlope r.1] { x with ratio := r.1, slope := cpSlope r.1 }) s

/-- `CP.MODATT` (R281). -/
def execCpModAtt (inst : Byte) (attackMs : F32) (s : State) : Result :=
  issue (.cpModAtt inst attackMs) s <|
    let r := clampReport s.cfg.cpAttMinMs attackMs s.cfg.cpAttMaxMs .cpInvalidAttack
    modifyElement cpSlot inst r.2
      (fun x => guardFinite [timeCoeff r.1 x.fs] { x with att := r.1, attC := timeCoeff r.1 x.fs }) s

/-- `CP.MODREL` (R282). -/
def execCpModRel (inst : Byte) (releaseMs : F32) (s : State) : Result :=
  issue (.cpModRel inst releaseMs) s <|
    let r := clampReport s.cfg.cpRelMinMs releaseMs s.cfg.cpRelMaxMs .cpInvalidRelease
    modifyElement cpSlot inst r.2
      (fun x => guardFinite [timeCoeff r.1 x.fs] { x with rel := r.1, relC := timeCoeff r.1 x.fs }) s

/-- `CP.MODGAIN` (R283). -/
def execCpModGain (inst : Byte) (gain : F32) (s : State) : Result :=
  issue (.cpModGain inst gain) s <|
    let r := clampReport s.cfg.cpGainMin gain s.cfg.cpGainMax .cpInvalidGain
    modifyElement cpSlot inst r.2 (fun x => .ok { x with gain := r.1 }) s

/-- How far the level stands over the threshold, in the log2 domain, clamped to at most 0; silence asks for no
reduction (R278). -/
def cpOver (thrL2 ms : F32) : F32 :=
  if fgt ms fzero then
    let d := fsub thrL2 (fmul fhalf (flog2 ms))
    if fgt d fzero then fzero else d
  else fzero

/-- The smoothed gain reduction after one sample with target `tgt` (R278): attack while the reduction grows, else
release. -/
def cpEnvelope (x : Compressor) (tgt : F32) : F32 :=
  if flt tgt x.env then onepole x.attC x.env tgt else onepole x.relC x.env tgt

/-- One sample of `CP.READ` (R278). -/
def cpSample (v : F32) (x : Compressor) : Except Fault (Compressor × F32) :=
  let ms := onepole x.rmsC x.ms (fmul v v)
  let env := cpEnvelope x (fmul (cpOver x.thrL2 ms) x.slope)
  let y := fmul v (fmul (fexp2 env) x.gain)
  guardFinite [ms, env, y] ({ x with ms := ms, env := env }, y)

/-- `CP.READ` (R278). -/
def execCpRead (inst bs bd : Byte) (n : BitVec 16) (s : State) : Result :=
  issue (.cpRead inst bs bd n) s <|
    readElement cpSlot inst (passCopy bs bd n) (runThrough bs bd n cpSample) s

end Sys2Proof.Machine
end

