-- ==== Sys2Proof/Machine/Oscillator.lean ====
section
/-! DEFINITION. The oscillator bank (`41_oscillator.md`): the waveforms, the phase advance, `OSC.EVAL`. -/

namespace Sys2Proof.Machine

/-- The oscillator function `osc(t, p, w)` (R171). -/
def osc (t : Wave) (p w : F32) : F32 :=
  match t with
  | .sine => fsin (fmul twoPi p)
  | .tri =>
    if flt p fquarter then fmul ffour p
    else if flt p fthreeQuarters then fsub ftwo (fmul ffour p)
    else fsub (fmul ffour p) ffour
  | .square => if flt p fhalf then fone else fnegOne
  | .ramp => fsub (fmul ftwo p) fone
  | .pulse => if flt p w then fone else fnegOne

/-- The phase advance `phase_adv(p, inc)` (R172). -/
def phaseAdv (p inc : F32) : F32 :=
  let p' := fadd p inc
  if fge p' fone then fsub p' fone else p'

/-- The modulator value of a modulation type (R256, R321): an oscillator of the bank at duty 0.5, or the word of
the external modulation buffer clamped to `[−1, 1]`. -/
def modulator (t : ModType) (phase : F32) (ext : Option F32) : Except Fault F32 :=
  match t with
  | .sine => .ok (osc .sine phase fhalf)
  | .tri => .ok (osc .tri phase fhalf)
  | .square => .ok (osc .square phase fhalf)
  | .ramp => .ok (osc .ramp phase fhalf)
  | .ext =>
    match ext with
    | some v => .ok (clampf v fnegOne fone)
    | none => .error .unwrittenWord

/-- The phase after one sample: `EXT` does not advance it (R256, R258, R323). -/
def modPhase (t : ModType) (phase pinc : F32) : F32 :=
  match t with
  | .ext => phase
  | _ => phaseAdv phase pinc

/-- The phase at which `OSC.EVAL` evaluates a waveform: every waveform but the sine treats `−0.0` as `+0.0` (R173,
log 30). -/
def evalPhase (t : Wave) (phase : F32) : F32 := if t != .sine && isZero phase then fzero else phase

/-- `OSC.EVAL` (R173). -/
def execOscEval (ty : Word) (phase duty : F32) (s : State) : Result :=
  issue (.oscEval ty phase duty) s <|
    if flt phase fzero || fge phase fone then complete .oscInvalidPhase s
    else if waveType ty.toNat == .pulse && (fle duty fzero || fge duty fone) then complete .oscInvalidDuty s
    else
      let v := osc (waveType ty.toNat) (evalPhase (waveType ty.toNat) phase) duty
      completeWith .ok s (guardFinite [v] { s.stage with oscval := v })

end Sys2Proof.Machine
end

