-- ==== Sys2Proof/Machine/Modulation.lean ====
section
/-! DEFINITION. The modulation elements: amplitude modulation and the zero-crossing pitch detector
(`47_modulation.md`). -/

namespace Sys2Proof.Machine

/-! ## Amplitude modulation (R320 to R325) -/

/-- `AM.SETUP` (R322). -/
def execAmSetup (inst : Byte) (ty : Word) (depth rate fs : F32) (s : State) : Result :=
  issue (.amSetup inst ty depth rate fs) s <|
    setupElement amSlot inst
      [(inRange fzero depth fone, .amInvalidDepth),
       (inRange s.cfg.modRateMin rate s.cfg.modRateMax, .amInvalidRate)]
      (fun _ => guardFinite [fdiv rate fs]
        { init := true, ty := modType ty.toNat, depth := depth, rate := rate, fs := fs
          pinc := fdiv rate fs, phase := fzero }) s

/-- `AM.MODDEPTH` (R324). -/
def execAmModDepth (inst : Byte) (depth : F32) (s : State) : Result :=
  issue (.amModDepth inst depth) s <|
    let r := clampReport fzero depth fone .amInvalidDepth
    modifyElement amSlot inst r.2 (fun x => .ok { x with depth := r.1 }) s

/-- `AM.MODRATE` (R325): the phase is kept. -/
def execAmModRate (inst : Byte) (rate : F32) (s : State) : Result :=
  issue (.amModRate inst rate) s <|
    let r := clampReport s.cfg.modRateMin rate s.cfg.modRateMax .amInvalidRate
    modifyElement amSlot inst r.2
      (fun x => guardFinite [fdiv r.1 x.fs] { x with rate := r.1, pinc := fdiv r.1 x.fs }) s

/-- The gain `1.0 − ((depth × 0.5) × (1.0 − m))` of a modulator value (R323). -/
def amGain (depth m : F32) : F32 := fsub fone (fmul (fmul depth fhalf) (fsub fone m))

/-- One sample of `AM.READ` (R323). -/
def amSample (v : F32) (ext : Option F32) (x : AmpMod) : Except Fault (AmpMod × F32) :=
  match modulator x.ty x.phase ext with
  | .error e => .error e
  | .ok m =>
    let y := fmul v (amGain x.depth m)
    let phase := modPhase x.ty x.phase x.pinc
    guardFinite [y, phase] ({ x with phase := phase }, y)

/-- `AM.READ` (R323). -/
def execAmRead (inst bs bs2 bd : Byte) (n : BitVec 16) (s : State) : Result :=
  issue (.amRead inst bs bs2 bd n) s <|
    readElement amSlot inst (passCopy bs bd n) (runThrough2 bs bs2 bd n amSample) s

/-! ## Zero-crossing detector (R335 to R341) -/

/-- `ZC.SETUP` (R337). -/
def execZcSetup (inst : Byte) (fs : F32) (s : State) : Result :=
  issue (.zcSetup inst fs) s <|
    setupElement zcSlot inst []
      (fun _ => .ok
        { init := true, fs := fs, hp := fzero, lpf := fzero, ppk := fzero, npk := fzero
          pol := false, cnt := 0xFFFFFFFF, hist := List.replicate s.cfg.zcHistLen fzero
          hidx := 0, hcount := 0, freq := fzero, locked := false, grace := 0, idle := 0 }) s

/-- `loss()` (R339). -/
def zcLoss (z : ZeroCross) : ZeroCross :=
  if z.grace = 0 then { z with locked := false } else { z with grace := z.grace - 1 }

/-- How many of the history entries given lie near `hf` (R339). -/
def zcNear (tol hf : F32) (hist : List F32) : Nat :=
  (hist.filter fun h => fle (fabs (fsub h hf)) (fmul tol hf)).length

/-- The half-frequency correction of a candidate (R339). -/
def zcCorrect (c : Config) (z : ZeroCross) (f : F32) : F32 :=
  let hf := fmul fhalf f
  if fge hf Config.zcFmin && decide (c.zcHalfMin ≤ zcNear c.zcHalfTol hf (z.hist.take z.hcount.toNat)) then hf else f

/-- The sum of a list in ascending order from +0.0 (R339). -/
def zcSum (l : List F32) : F32 := l.foldl fadd fzero

/-- The mean of the full history (R339). -/
def zcMean (c : Config) (hist : List F32) : F32 := fdiv (zcSum hist) (u2f c.zcHistLen)

/-- The population variance of the full history (R339). -/
def zcVar (c : Config) (hist : List F32) : F32 :=
  let mean := zcMean c hist
  fdiv (zcSum (hist.map fun h => fmul (fsub h mean) (fsub h mean))) (u2f c.zcHistLen)

/-- The detector with an accepted frequency recorded (R339): a valid event. -/
def zcRecord (c : Config) (z : ZeroCross) (f : F32) : ZeroCross :=
  { z with
    hist := z.hist.set z.hidx.toNat f
    hidx := ringNext c.zcHistLen z.hidx
    hcount := if z.hcount.toNat < c.zcHistLen then z.hcount + 1 else z.hcount
    freq := f
    idle := 0 }

/-- The lock decision, made once the history is full (R339). -/
def zcLock (c : Config) (z : ZeroCross) : ZeroCross :=
  if z.hcount.toNat = c.zcHistLen then
    (if flt (zcVar c z.hist) c.zcVarThresh then { z with locked := true, grace := c.zcGrace } else zcLoss z)
  else z

/-- `candidate(f)` (R339). -/
def zcCandidate (c : Config) (z : ZeroCross) (f : F32) : ZeroCross :=
  if flt f Config.zcFmin || fgt f Config.zcFmax then zcLoss z
  else zcLock c (zcRecord c z (zcCorrect c z f))

/-- Steps 1 to 4 of `ZC.READ` (R338): the pre-filters, the peak trackers, the counters. -/
def zcTrack (c : Config) (v : F32) (z : ZeroCross) : ZeroCross :=
  let hp := onepole c.zcHpC z.hp v
  let lpf := onepole c.zcLpC z.lpf (fsub v hp)
  let tp := fmul z.ppk c.zcPkDecay
  let tn := fmul z.npk c.zcPkDecay
  { z with
    hp := hp, lpf := lpf
    ppk := if fgt lpf tp then lpf else tp
    npk := if flt lpf tn then lpf else tn
    cnt := satInc z.cnt, idle := satInc z.idle }

/-- Step 5 of `ZC.READ` (R338): the hysteresis comparison at half the tracked peak. -/
def zcCompare (c : Config) (z : ZeroCross) : ZeroCross :=
  if !z.pol && fgt z.lpf (fmul fhalf z.ppk) then
    zcCandidate c { z with pol := true, cnt := 0 } (fdiv z.fs (u2f z.cnt.toNat))
  else if z.pol && flt z.lpf (fmul fhalf z.npk) then { z with pol := false }
  else z

/-- Step 6 of `ZC.READ` (R338): the idle reset, which keeps `freq`. -/
def zcIdle (c : Config) (z : ZeroCross) : ZeroCross :=
  if c.zcIdleReset.toNat ≤ z.idle.toNat then
    { z with hcount := 0, hidx := 0, locked := false, grace := 0, idle := 0 }
  else z

/-- One sample of `ZC.READ` (R338). -/
def zcSample (c : Config) (v : F32) (z : ZeroCross) : Except Fault ZeroCross :=
  let z' := zcIdle c (zcCompare c (zcTrack c v z))
  guardFinite [z'.hp, z'.lpf, z'.ppk, z'.npk, z'.freq] z'

/-- The samples of `ZC.READ` (R338); no buffer is written. -/
def zcRun (c : Config) (bs : Byte) (n : BitVec 16) (z : ZeroCross) (m : Memory) : Except Fault (Memory × ZeroCross) :=
  match runInto bs n (zcSample c) z m with
  | .ok z' => .ok (m, z')
  | .error e => .error e

/-- `ZC.READ` (R338). -/
def execZcRead (inst bs : Byte) (n : BitVec 16) (s : State) : Result :=
  issue (.zcRead inst bs n) s <| readElement zcSlot inst passNothing (zcRun s.cfg bs n) s

end Sys2Proof.Machine
end

