-- ==== Sys2Proof/Machine/Pipeline.lean ====
section
/-! DEFINITION. The pipeline commands `ST.ARM`, `ST.SELECT`, `EF.SETUP` (`40_control_and_buffer.md` section 6). -/

namespace Sys2Proof.Machine

/-- `ST.ARM` (R156): Idle becomes Armed, any other state stays. -/
def execStArm (s : State) : Result :=
  issue .stArm s <|
    match s.stage.fsm with
    | .idle => complete .ok (s.setStage { s.stage with fsm := .armed })
    | .armed | .running | .overrun => complete .ok s

/-- `ST.SELECT` (R157): an index out of range is clamped and reported. -/
def execStSelect (e : Byte) (s : State) : Result :=
  issue (.stSelect e) s <|
    if s.cfg.nEffects ≤ e.toNat then
      complete .invalidEffectIndex (s.setStage { s.stage with effect := BitVec.ofNat 8 (s.cfg.nEffects - 1) })
    else complete .ok (s.setStage { s.stage with effect := e })

/-- `EF.SETUP` (R158). -/
def execEfSetup (e : Byte) (s : State) : Result :=
  issue (.efSetup e) s <|
    if s.cfg.nEffects ≤ e.toNat then complete .invalidEffectIndex s
    else complete .ok (s.setStage { s.stage with effInit := s.stage.effInit.set e.toNat true })

end Sys2Proof.Machine
end

