-- ==== Sys2Proof/Machine/Smoother.lean ====
section
/-! DEFINITION. The one-pole smoother and the amplitude tracker (`40_control_and_buffer.md` sections 4 and 5). -/

namespace Sys2Proof.Machine

/-- `SM.SETUP` (R147). -/
def execSmSetup (inst : Byte) (c : F32) (s : State) : Result :=
  issue (.smSetup inst c) s <|
    setupElement smSlot inst [(inRange fzero c fone, .smInvalidCoefficient)]
      (fun _ => .ok { init := true, c := c, y := fzero }) s

/-- One sample of the smoother (R148). -/
def smSample (x : F32) (k : Smoother) : Except Fault (Smoother × F32) :=
  let y := onepole k.c k.y x
  guardFinite [y] ({ k with y := y }, y)

/-- `SM.READ` (R148). -/
def execSmRead (inst bs bd : Byte) (n : BitVec 16) (s : State) : Result :=
  issue (.smRead inst bs bd n) s <|
    readElement smSlot inst (passCopy bs bd n) (runThrough bs bd n smSample) s

/-- `AT.SETUP` (R150). -/
def execAtSetup (inst : Byte) (mode : Word) (c : F32) (s : State) : Result :=
  issue (.atSetup inst mode c) s <|
    setupElement atSlot inst [(inRange fzero c fone, .atInvalidCoefficient)]
      (fun _ => .ok { init := true, mode := trackMode mode.toNat, c := c, acc := fzero, level := fzero }) s

/-- One sample of the tracker (R151): a decaying peak, or a running mean-square. -/
def atSample (x : F32) (k : Tracker) : Except Fault Tracker :=
  let acc :=
    match k.mode with
    | .peak => if fgt (fabs x) (fmul k.c k.acc) then fabs x else fmul k.c k.acc
    | .rms => onepole k.c k.acc (fmul x x)
  guardFinite [acc] { k with acc := acc }

/-- The tracker's level, written once per command after the last sample (R151). -/
def atLevel (k : Tracker) : F32 :=
  match k.mode with
  | .peak => k.acc
  | .rms => fsqrt k.acc

/-- The samples of `AT.READ` and then its level (R151). -/
def atRun (bs : Byte) (n : BitVec 16) (k : Tracker) (m : Memory) : Except Fault (Memory × Tracker) :=
  match runInto bs n atSample k m with
  | .ok k' => guardFinite [atLevel k'] (m, { k' with level := atLevel k' })
  | .error e => .error e

/-- `AT.READ` (R151). -/
def execAtRead (inst bs : Byte) (n : BitVec 16) (s : State) : Result :=
  issue (.atRead inst bs n) s <| readElement atSlot inst passNothing (atRun bs n) s

end Sys2Proof.Machine
end

