-- ==== Sys2Proof/Machine/SynthVoice.lean ====
section
/-! DEFINITION. The simple synth voice: oscillator × volume × ADSR envelope (`48_synth.md`). -/

namespace Sys2Proof.Machine

/-- The breakpoint `b1 = A` (R356). -/
def syB1 (y : Synth) : Nat := y.A.toNat
/-- The breakpoint `b2 = A + D` (R356). -/
def syB2 (y : Synth) : Nat := y.A.toNat + y.D.toNat
/-- The breakpoint `b3 = A + D + S` (R356). -/
def syB3 (y : Synth) : Nat := y.A.toNat + y.D.toNat + y.S.toNat
/-- The breakpoint `b4 = A + D + S + R` (R356). -/
def syB4 (y : Synth) : Nat := y.A.toNat + y.D.toNat + y.S.toNat + y.R.toNat

/-- The envelope `env(p)` (R356): a division is evaluated only inside its own segment. -/
def syEnv (y : Synth) (p : Nat) : F32 :=
  if p < syB1 y then fdiv (u2f p) (u2f y.A.toNat)
  else if p < syB2 y then fsub fone (fmul (fsub fone y.sl) (fdiv (u2f (p - syB1 y)) (u2f y.D.toNat)))
  else if p < syB3 y then y.sl
  else if p < syB4 y then fmul y.sl (fsub fone (fdiv (u2f (p - syB3 y)) (u2f y.R.toNat)))
  else fzero

/-- `SY.SETUP` (R357). -/
def execSySetup (inst : Byte) (attack decay sustain release ty : Word) (duty sustainLevel fs : F32) (s : State) :
    Result :=
  issue (.sySetup inst attack decay sustain release ty duty sustainLevel fs) s <|
    setupElement sySlot inst
      [(decide (attack.toNat ≤ Config.syLenMax ∧ decay.toNat ≤ Config.syLenMax ∧ sustain.toNat ≤ Config.syLenMax
          ∧ release.toNat ≤ Config.syLenMax), .syInvalidEnvelope),
       (waveType ty.toNat != .pulse || (flt fzero duty && flt duty fone), .syInvalidDuty),
       (inRange fzero sustainLevel fone, .syInvalidSustainLevel)]
      (fun _ => .ok
        { init := true, A := attack, D := decay, S := sustain, R := release, ty := waveType ty.toNat
          duty := duty, sl := sustainLevel, fs := fs
          phase := fzero, pinc := fzero, vol := fzero, pos := 0, playing := false }) s

/-- The code of `SY.PLAY` (R358): a clamped frequency is reported first. -/
def syPlayCode (freq freq' vol vol' : F32) : ResultCode :=
  if fne freq' freq then .syInvalidFreq else if fne vol' vol then .syInvalidVolume else .ok

/-- `SY.PLAY` (R358), note-on and retrigger. -/
def execSyPlay (inst : Byte) (freq volume : F32) (s : State) : Result :=
  issue (.syPlay inst freq volume) s <|
    let freq' := clampf freq s.cfg.syFreqMin s.cfg.syFreqMax
    let vol' := clampf volume fzero s.cfg.syVolMax
    modifyElement sySlot inst (syPlayCode freq freq' volume vol')
      (fun y => guardFinite [fdiv freq' y.fs]
        { y with pinc := fdiv freq' y.fs, vol := vol', phase := fzero, pos := 0, playing := true }) s

/-- The voice after a note-off (R359): the position jumps forward to the release breakpoint. -/
def syStopped (y : Synth) : Synth :=
  if y.playing && decide (y.pos.toNat < syB3 y) then { y with pos := BitVec.ofNat 32 (syB3 y) } else y

/-- `SY.STOP` (R359), note-off. -/
def execSyStop (inst : Byte) (s : State) : Result :=
  issue (.syStop inst) s <| modifyElement sySlot inst .ok (fun y => .ok (syStopped y)) s

/-- The output of a sounding voice at its present position (R361). -/
def syOut (y : Synth) : F32 := fmul (fmul (osc y.ty y.phase y.duty) y.vol) (syEnv y y.pos.toNat)

/-- One sample of `SY.READ` (R361): the voice is a generator and reads no source. -/
def sySample (y : Synth) : Except Fault (Synth × F32) :=
  if y.playing then
    let phase := phaseAdv y.phase y.pinc
    guardFinite [syOut y, phase]
      ({ y with phase := phase, pos := y.pos + 1, playing := decide (y.pos.toNat + 1 < syB4 y) }, syOut y)
  else .ok (y, fzero)

/-- `SY.READ` (R361). -/
def execSyRead (inst bs bd : Byte) (n : BitVec 16) (s : State) : Result :=
  issue (.syRead inst bs bd n) s <|
    readElement sySlot inst (passCopy bs bd n) (runFrom bd n sySample) s

end Sys2Proof.Machine
end

