-- ==== Sys2Proof/Machine/VariableDelayLine.lean ====
section
/-! DEFINITION. The modulated variable delay with interpolated read (`44_variable_delay.md`). -/

namespace Sys2Proof.Machine

/-- `VD.SETUP` (R257). -/
def execVdSetup (inst : Byte) (ty : Word) (depth rate feedback fs : F32) (s : State) : Result :=
  issue (.vdSetup inst ty depth rate feedback fs) s <|
    setupElement vdSlot inst
      [(inRange fzero depth fone, .vdInvalidDepth),
       (inRange s.cfg.modRateMin rate s.cfg.modRateMax, .vdInvalidRate),
       (inRange Config.fbMin feedback Config.fbMax, .vdInvalidFeedback)]
      (fun _ => guardFinite [fdiv rate fs]
        { init := true, ring := ringZero, wp := 0, ty := modType ty.toNat, depth := depth, rate := rate
          fb := feedback, fs := fs, pinc := fdiv rate fs, phase := fzero }) s

/-- `VD.MODDEPTH` (R259). -/
def execVdModDepth (inst : Byte) (depth : F32) (s : State) : Result :=
  issue (.vdModDepth inst depth) s <|
    let r := clampReport fzero depth fone .vdInvalidDepth
    modifyElement vdSlot inst r.2 (fun x => .ok { x with depth := r.1 }) s

/-- `VD.MODRATE` (R260): the phase is kept. -/
def execVdModRate (inst : Byte) (rate : F32) (s : State) : Result :=
  issue (.vdModRate inst rate) s <|
    let r := clampReport s.cfg.modRateMin rate s.cfg.modRateMax .vdInvalidRate
    modifyElement vdSlot inst r.2
      (fun x => guardFinite [fdiv r.1 x.fs] { x with rate := r.1, pinc := fdiv r.1 x.fs }) s

/-- `VD.MODFB` (R261). -/
def execVdModFb (inst : Byte) (feedback : F32) (s : State) : Result :=
  issue (.vdModFb inst feedback) s <|
    let r := clampReport Config.fbMin feedback Config.fbMax .vdInvalidFeedback
    modifyElement vdSlot inst r.2 (fun x => .ok { x with fb := r.1 }) s

/-- `VD.MODTYPE` (R262): the phase is kept. -/
def execVdModType (inst : Byte) (ty : Word) (s : State) : Result :=
  issue (.vdModType inst ty) s <|
    modifyElement vdSlot inst .ok (fun x => .ok { x with ty := modType ty.toNat }) s

/-- The delay in samples for a modulator value, clamped to `[1, cap − 1]` (R258). -/
def vdDelay (cap : Nat) (depth m : F32) : F32 :=
  clampf (fmul (fmul (u2f cap) fhalf) (fadd fone (fmul depth m))) fone (u2f (cap - 1))

/-- The fractional read position for a write pointer and a delay (R258). -/
def vdPosition (cap wp : Nat) (d : F32) : F32 :=
  let r := fsub (u2f wp) d
  if flt r fzero then fadd r (u2f cap) else r

/-- The two adjacent cells and the weight of the second one for a read position (R258): the interpolated read index
always wraps into the ring. -/
def vdCells (cap : Nat) (r : F32) : Option (Nat × Nat × F32) :=
  match trunc r with
  | none => none
  | some k =>
    let i0 := if cap ≤ k then k - cap else k
    if i0 < cap then some (i0, (i0 + 1) % cap, fsub r (u2f k)) else none

/-- The interpolated value of a ring (R258). -/
def vdInterpolate (ring : Memory) (i0 i1 : Nat) (fr : F32) : F32 :=
  fadd (fmul (ringRead ring i0) (fsub fone fr)) (fmul (ringRead ring i1) fr)

/-- One sample of `VD.READ` (R258) on a ring of `cap` cells. -/
def vdSample (cap : Nat) (v : F32) (ext : Option F32) (x : VariableDelay) : Except Fault (VariableDelay × F32) :=
  match modulator x.ty x.phase ext with
  | .error e => .error e
  | .ok m =>
    match vdCells cap (vdPosition cap x.wp.toNat (vdDelay cap x.depth m)) with
    | none => .error .outOfDomain
    | some (i0, i1, fr) =>
      if x.wp.toNat < cap then
        let y := vdInterpolate x.ring i0 i1 fr
        let line := fadd v (fmul x.fb y)
        let phase := modPhase x.ty x.phase x.pinc
        guardFinite [line, y, phase]
          ({ x with ring := ringWrite x.ring x.wp.toNat line, wp := ringNext cap x.wp, phase := phase }, y)
      else .error .outOfDomain

/-- `VD.READ` (R258). -/
def execVdRead (inst bs bs2 bd : Byte) (n : BitVec 16) (s : State) : Result :=
  issue (.vdRead inst bs bs2 bd n) s <|
    readElement vdSlot inst (passCopy bs bd n) (runThrough2 bs bs2 bd n (vdSample (capOf s.cfg.vdCap inst))) s

end Sys2Proof.Machine
end

