-- ==== Sys2Proof/Machine/Waveshaper.lean ====
section
/-! DEFINITION. The waveshaping element: polynomial clipper with the optional 8× oversampling path
(`46_clipper.md`). -/

namespace Sys2Proof.Machine

/-- The polynomial of a mode on `[0, 1]`, in the factored form of R301: smoothstep `3u² − 2u³`, smootherstep
`6u⁵ − 15u⁴ + 10u³`. -/
def clipPoly (mode : ClipMode) (u : F32) : F32 :=
  match mode with
  | .smooth => fmul (fmul u u) (fsub fthree (fmul ftwo u))
  | .smoother => fmul (fmul (fmul u u) u) (fadd (fmul u (fsub (fmul u fsix) ffifteen)) ften)

/-- The shaping function `shape(x, thr, mode)` (R301). A quotient `x ÷ thr` that overflows is a stage fault (R307),
so it is handed on as it is. -/
def shape (x thr : F32) (mode : ClipMode) : F32 :=
  let v := fdiv x thr
  if !isFinite v then v
  else
    let u := clampf (fmul (fadd v fone) fhalf) fzero fone
    fmul thr (fsub (fmul ftwo (clipPoly mode u)) fone)

/-- `CL.SETUP` (R302). -/
def execClSetup (inst : Byte) (threshold : F32) (mode oversample : Word) (s : State) : Result :=
  issue (.clSetup inst threshold mode oversample) s <|
    setupElement clSlot inst [(inRange Config.clThrMin threshold Config.clThrMax, .clInvalidThreshold)]
      (fun _ => .ok
        { init := true, thr := threshold, mode := clipMode mode.toNat, os := oversample != 0
          zu := List.replicate s.cfg.clUpTaps.length fzero, zd := List.replicate s.cfg.clDnTaps.length fzero }) s

/-- `CL.MODTHR` (R303): the FIR state is kept. -/
def execClModThr (inst : Byte) (threshold : F32) (s : State) : Result :=
  issue (.clModThr inst threshold) s <|
    let r := clampReport Config.clThrMin threshold Config.clThrMax .clInvalidThreshold
    modifyElement clSlot inst r.2 (fun x => .ok { x with thr := r.1 }) s

/-- A delay line with a new value in front and its oldest value dropped (R304). -/
def firShift (z : List F32) (v : F32) : List F32 := v :: z.dropLast

/-- The sum of tap times delayed value in ascending order, starting from `acc` (R304). -/
def firSum : List F32 → List F32 → F32 → F32
  | h :: hs, z :: zs, acc => firSum hs zs (fadd acc (fmul h z))
  | _, _, acc => acc

/-- One sub-sample of the oversampled path (R305): interpolation low-pass, nonlinearity, decimation low-pass. -/
def clSub (up dn : List F32) (v : F32) (x : Clipper) : Except Fault (Clipper × F32) :=
  let zu := firShift x.zu v
  let b := shape (firSum up zu fzero) x.thr x.mode
  let zd := firShift x.zd b
  guardFinite [v, b] ({ x with zu := zu, zd := zd }, firSum dn zd fzero)

/-- The stuffed zeros after the real sample (R305), `count` of them; the value of the last one is kept. -/
def clZeros (up dn : List F32) : (count : Nat) → Clipper × F32 → Except Fault (Clipper × F32)
  | 0, p => .ok p
  | k + 1, p =>
    match clSub up dn fzero p.1 with
    | .ok p' => clZeros up dn k p'
    | .error e => .error e

/-- The oversampled path for one input sample (R305): the sample, then seven zeros. -/
def clOversampled (up dn : List F32) (v : F32) (x : Clipper) : Except Fault (Clipper × F32) :=
  match clSub up dn v x with
  | .ok p => clZeros up dn 7 p
  | .error e => .error e

/-- One sample of `CL.READ` (R306). -/
def clSample (up dn : List F32) (v : F32) (x : Clipper) : Except Fault (Clipper × F32) :=
  if x.os then clOversampled up dn v x else .ok (x, shape v x.thr x.mode)

/-- `CL.READ` (R306). -/
def execClRead (inst bs bd : Byte) (n : BitVec 16) (s : State) : Result :=
  issue (.clRead inst bs bd n) s <|
    readElement clSlot inst (passCopy bs bd n) (runThrough bs bd n (clSample s.cfg.clUpTaps s.cfg.clDnTaps)) s

end Sys2Proof.Machine
end

