-- ==== Sys2Proof/Machine/Dispatch.lean ====
section
/-! DEFINITION. The meaning of every command of the opcode table (`30_encoding.md` R104), one arm per constructor. -/

namespace Sys2Proof.Machine
open Sys2Proof

def exec (i : Instr) (s : State) : Host.Outcome State Fault Refusal :=
  match i with
  | .endProgram => Sys2Proof.Machine.execEndProgram s
  | .copy bs bd n => Sys2Proof.Machine.execCopy bs bd n s
  | .clear bd n => Sys2Proof.Machine.execClear bd n s
  | .mix2 bs bs2 bd n => Sys2Proof.Machine.execMix2 bs bs2 bd n s
  | .gain bs bd n g => Sys2Proof.Machine.execGain bs bd n g s
  | .bqSetup inst ty speed freq q gainDb fs => Sys2Proof.Machine.execBqSetup inst ty speed freq q gainDb fs s
  | .bqModFreq inst freq => Sys2Proof.Machine.execBqModFreq inst freq s
  | .bqModQ inst q => Sys2Proof.Machine.execBqModQ inst q s
  | .bqModGain inst gainDb => Sys2Proof.Machine.execBqModGain inst gainDb s
  | .bqRead inst bs bd n => Sys2Proof.Machine.execBqRead inst bs bd n s
  | .dlSetup inst length feedback feedthrough damping => Sys2Proof.Machine.execDlSetup inst length feedback feedthrough damping s
  | .dlModLen inst length => Sys2Proof.Machine.execDlModLen inst length s
  | .dlModFb inst feedback => Sys2Proof.Machine.execDlModFb inst feedback s
  | .dlModFt inst feedthrough => Sys2Proof.Machine.execDlModFt inst feedthrough s
  | .dlModDamp inst damping => Sys2Proof.Machine.execDlModDamp inst damping s
  | .dlRead inst bs bd n => Sys2Proof.Machine.execDlRead inst bs bd n s
  | .mtSetup inst ntaps => Sys2Proof.Machine.execMtSetup inst ntaps s
  | .mtSetTap inst tap offset gain => Sys2Proof.Machine.execMtSetTap inst tap offset gain s
  | .mtRead inst bs bd n => Sys2Proof.Machine.execMtRead inst bs bd n s
  | .apSetup inst length gain => Sys2Proof.Machine.execApSetup inst length gain s
  | .apRead inst bs bd n => Sys2Proof.Machine.execApRead inst bs bd n s
  | .vdSetup inst ty depth rate feedback fs => Sys2Proof.Machine.execVdSetup inst ty depth rate feedback fs s
  | .vdModDepth inst depth => Sys2Proof.Machine.execVdModDepth inst depth s
  | .vdModRate inst rate => Sys2Proof.Machine.execVdModRate inst rate s
  | .vdModFb inst feedback => Sys2Proof.Machine.execVdModFb inst feedback s
  | .vdModType inst ty => Sys2Proof.Machine.execVdModType inst ty s
  | .vdRead inst bs bs2 bd n => Sys2Proof.Machine.execVdRead inst bs bs2 bd n s
  | .cpSetup inst thresholdDb ratio attackMs releaseMs gain rmsMs fs => Sys2Proof.Machine.execCpSetup inst thresholdDb ratio attackMs releaseMs gain rmsMs fs s
  | .cpModThr inst thresholdDb => Sys2Proof.Machine.execCpModThr inst thresholdDb s
  | .cpModRatio inst ratio => Sys2Proof.Machine.execCpModRatio inst ratio s
  | .cpModAtt inst attackMs => Sys2Proof.Machine.execCpModAtt inst attackMs s
  | .cpModRel inst releaseMs => Sys2Proof.Machine.execCpModRel inst releaseMs s
  | .cpModGain inst gain => Sys2Proof.Machine.execCpModGain inst gain s
  | .cpRead inst bs bd n => Sys2Proof.Machine.execCpRead inst bs bd n s
  | .clSetup inst threshold mode oversample => Sys2Proof.Machine.execClSetup inst threshold mode oversample s
  | .clModThr inst threshold => Sys2Proof.Machine.execClModThr inst threshold s
  | .clRead inst bs bd n => Sys2Proof.Machine.execClRead inst bs bd n s
  | .oscEval ty phase duty => Sys2Proof.Machine.execOscEval ty phase duty s
  | .amSetup inst ty depth rate fs => Sys2Proof.Machine.execAmSetup inst ty depth rate fs s
  | .amModDepth inst depth => Sys2Proof.Machine.execAmModDepth inst depth s
  | .amModRate inst rate => Sys2Proof.Machine.execAmModRate inst rate s
  | .amRead inst bs bs2 bd n => Sys2Proof.Machine.execAmRead inst bs bs2 bd n s
  | .sySetup inst attack decay sustain release ty duty sustainLevel fs => Sys2Proof.Machine.execSySetup inst attack decay sustain release ty duty sustainLevel fs s
  | .syPlay inst freq volume => Sys2Proof.Machine.execSyPlay inst freq volume s
  | .syStop inst => Sys2Proof.Machine.execSyStop inst s
  | .syRead inst bs bd n => Sys2Proof.Machine.execSyRead inst bs bd n s
  | .zcSetup inst fs => Sys2Proof.Machine.execZcSetup inst fs s
  | .zcRead inst bs n => Sys2Proof.Machine.execZcRead inst bs n s
  | .smSetup inst c => Sys2Proof.Machine.execSmSetup inst c s
  | .smRead inst bs bd n => Sys2Proof.Machine.execSmRead inst bs bd n s
  | .atSetup inst mode c => Sys2Proof.Machine.execAtSetup inst mode c s
  | .atRead inst bs n => Sys2Proof.Machine.execAtRead inst bs n s
  | .stArm => Sys2Proof.Machine.execStArm s
  | .stSelect e => Sys2Proof.Machine.execStSelect e s
  | .efSetup e => Sys2Proof.Machine.execEfSetup e s

end Sys2Proof.Machine
end

