-- ==== Sys2Proof/Machine/Sequencer.lean ====
section
/-! DEFINITION. What surrounds the commands (`60_exceptions.md`): the environment's events, the block arrival, the
overrun (which stands in the place of an exception here), the drain of the control queue, the dispatch of an effect
program, the store, the hand-off; and the placing of a command where the next step fetches it (log 10). -/

namespace Sys2Proof.Machine

/-! ## Stages by name -/

/-- A stage by its name. -/
def State.stageAt (s : State) : StageId → Stage
  | .A => s.a
  | .B => s.b

/-- The state with a named stage replaced. -/
def State.setStageAt (s : State) (st : Stage) : StageId → State
  | .A => { s with a := st }
  | .B => { s with b := st }

/-! ## The environment (log 9) -/

/-- The first event that is not an enqueue, and the events without it. -/
def nextEvent : List Input → Option (Input × List Input)
  | [] => none
  | .enqueue st ws :: rest =>
    match nextEvent rest with
    | some (i, rest') => some (i, .enqueue st ws :: rest')
    | none => none
  | i :: rest => some (i, rest)

/-- The event to be taken next, and the events that stay. An enqueue at a port that is not ready does not happen: the
host holds that command, and what it wanted to do after it, while the other agents go on (R77). -/
def nextInput (ready : StageId → Bool) : List Input → Option (Input × List Input)
  | [] => none
  | .enqueue st ws :: rest => if ready st then some (.enqueue st ws, rest) else nextEvent (.enqueue st ws :: rest)
  | i :: rest => some (i, rest)

/-- The control port of a stage is ready: `CQ_FREE > 0` (R77). -/
def portReady (s : State) (st : StageId) : Bool := decide (0 < cqFree s.cfg (s.stageAt st))

/-- Append a command to a stage's control queue (R77, R410). -/
def enqueue (st : StageId) (ws : List Word) (s : State) : State :=
  s.setStageAt { s.stageAt st with cq := (s.stageAt st).cq ++ [ws] } st

/-- A block of `NCH` channels of `BLKSZ` samples (R79). -/
def blockShaped (c : Config) (b : Block) : Bool := b.ch0.length == c.blksz && b.ch1.length == c.blksz

/-- Every sample of a block is a finite number (R14, R79). -/
def blockFinite (b : Block) : Bool := b.ch0.all isFinite && b.ch1.all isFinite

/-! ## The end of a step for a block arrival -/

/-- A block of silence: +0.0 in every sample (R415, R421). -/
def silence (c : Config) : Block := ⟨List.replicate c.blksz fzero, List.replicate c.blksz fzero⟩

/-- The acting stage puts out its output block and its answer to the arrival ends; stage A's block goes to the
hand-off (R80, R414, R424). -/
def finish (out : Block) (s : State) : State :=
  let t := (s.setStage { s.stage with out := out }).setPhase .between
  match s.cur with
  | .A => t.setHandoff (t.handoff ++ [out])
  | .B => t

/-! ## Block arrival and overrun (R415, R421) -/

/-- The overrun: silence, one more drop, `FSM` is Overrun, and nothing else (R415, R421). -/
def overrun (s : State) : State :=
  finish (silence s.cfg) (s.setStage { s.stage with fsm := .overrun, drops := satInc s.stage.drops })

/-- Begin the answer of the acting stage to a block arrival (R415). `late` is ignored in Idle and Armed. -/
def arrive (late : Bool) (block : Block) (s : State) : State :=
  let t := s.setStage { s.stage with blkIdx := s.stage.blkIdx + 1 }
  match s.stage.fsm with
  | .idle => t.setPhase (.drain false)
  | .armed => (t.setPhase (.drain true)).setLatch block
  | .running | .overrun => if late then overrun t else (t.setPhase (.drain true)).setLatch block

/-- The arrival of an input block at stage A (R79, R414, log 13). -/
def arriveA (late : Bool) (block : Block) (s : State) : Result :=
  if blockShaped s.cfg block then
    (if blockFinite block then .next (arrive late block { s with cur := .A }) else .fault .nonFinite)
  else .refused .malformedBlock

/-- The arrival at stage B of the oldest block stage A has produced and B has not consumed (R414, R424, R425). -/
def arriveB (late : Bool) (s : State) : Result :=
  match s.handoff with
  | [] => .refused .handoffNotReady
  | block :: rest => .next (arrive late block { s with cur := .B, handoff := rest })

/-- Reset (R450, R451): both stages, the hand-off and the block indices. The configuration is no state, and what the
environment does next is not the block's (log 20). -/
def resetAll (s : State) : State := { State.resetWith s.cfg with inputs := s.inputs }

/-- Between two answers: take the next event. With none that can be taken the machine waits (log 9). -/
def inputStep (s : State) : Result :=
  match nextInput (portReady s) s.inputs with
  | none => .next s
  | some (i, rest) =>
    let t := { s with inputs := rest }
    match i with
    | .enqueue st ws => .next (enqueue st ws t)
    | .arrivalA late block => arriveA late block t
    | .arrivalB late => arriveB late t
    | .reset => .next (resetAll t)

/-! ## Drain, dispatch, store -/

/-- Load the input block into `BUF[0]` and `BUF[1]` (R418). -/
def loadBlock (b : Block) (m : Memory) : Memory := bufLoad 1 0 b.ch1 (bufLoad 0 0 b.ch0 m)

/-- The flag `EFF_INIT[EFFECT]` of a stage (R31). -/
def effectReady (st : Stage) : Bool := (st.effInit[st.effect.toNat]?).getD false

/-- Begin the dispatch once the queue is empty (R416): load; then the program from its first word if the selected
effect is initialized, else nothing but the store (R417). -/
def beginDispatch (s : State) : State :=
  let t := s.setBuf (loadBlock s.latch s.stage.buf)
  if effectReady s.stage then (t.setStage { t.stage with cp := 0 }).setPhase .program else t.setPhase .store

/-- One step of the drain (R412): the front command is removed and executed, an illegal one being `IllegalCommand`
(R122). Once the queue is empty the dispatch begins, or an Idle stage puts out silence (R415). -/
def drainStep (dispatch : Bool) (s : State) : Result :=
  match s.stage.cq with
  | [] => .next (if dispatch then beginDispatch s else finish (silence s.cfg) s)
  | ws :: rest =>
    let t := s.setStage { s.stage with cq := rest }
    match decodePort ws with
    | .ok i => exec i t
    | .error _ => complete .illegalCommand t

/-- The words of the selected effect program from `cp` on (R26, R376). -/
def programWords (s : State) : List Word :=
  ((s.programs[s.stage.effect.toNat]?).getD []).drop s.stage.cp.toNat

/-- `cp <- cp + L` (R27). -/
def advance (words : Nat) (s : State) : State :=
  s.setStage { s.stage with cp := s.stage.cp + BitVec.ofNat 16 words }

/-- After a program command `cp` moves past its words; `END` has stopped the dispatch and leaves `cp` (R27, R416). -/
def advanceIfRunning (words : Nat) : Result → Result
  | .next s => .next (if s.inProgram then advance words s else s)
  | .fault f => .fault f
  | .refused r => .refused r

/-- One step of a dispatch (R416): decode the command at `cp`, execute it, move `cp`. -/
def programStep (s : State) : Result :=
  match decode (programWords s) with
  | .ok i => advanceIfRunning i.length (exec i s)
  | .error _ => .refused .malformedProgram

/-- The output block of a dispatch (R419). -/
def storeBlock (c : Config) (m : Memory) : Except Fault Block :=
  match bufStore m 0 c.blksz 0 with
  | .error e => .error e
  | .ok l0 =>
    match bufStore m 1 c.blksz 0 with
    | .error e => .error e
    | .ok l1 => .ok ⟨l0, l1⟩

/-- The store, and `FSM` is Running (R415, R419). -/
def storeStep (s : State) : Result :=
  match storeBlock s.cfg s.stage.buf with
  | .ok out => .next (finish out (s.setStage { s.stage with fsm := .running }))
  | .error e => .fault e

/-! ## Placing a command where the next step fetches it (log 10) -/

/-- A list with the words from `k` on replaced, as far as there are new ones. -/
def overwriteAt (k : Nat) (ws old : List Word) : List Word := old.take k ++ ws ++ old.drop (k + ws.length)

/-- The words of the one command at the front of a list of words; a head word that is no command is one word
(R116). -/
def frontCommand (ws : List Word) : List Word :=
  match decode ws with
  | .ok i => ws.take i.length
  | .error _ => ws.take 1

/-- The configuration with one effect program of a stage replaced. -/
def Config.withProgram (c : Config) (st : StageId) (e : Nat) (p : List Word) : Config :=
  match st with
  | .A => { c with progA := c.progA.set e p }
  | .B => { c with progB := c.progB.set e p }

/-- A command placed at `cp` of the acting stage's selected effect program, which is being dispatched. -/
def placeInProgram (ws : List Word) (s : State) : State :=
  let e := s.stage.effect.toNat
  let p := overwriteAt s.stage.cp.toNat ws ((s.programs[e]?).getD [])
  { s.setPhase .program with cfg := Config.withProgram s.cfg s.cur e p }

/-- A command placed at the front of the acting stage's control queue, which is being drained. -/
def placeInQueue (ws : List Word) (s : State) : State :=
  let dispatch :=
    match s.phase with
    | .drain d => d
    | .between | .program | .store => s.stage.fsm != .idle
  (s.setStage { s.stage with cq := ws :: s.stage.cq.tail }).setPhase (.drain dispatch)

/-- A command placed where the next step fetches it: in the effect program if one is being dispatched or if the
command is `END`, which only a program may hold (R119); else in the control queue. -/
def placeCommand (ws : List Word) (s : State) : State :=
  if s.inProgram || decide (ws.head?.map headOp = some 0) then placeInProgram ws s else placeInQueue ws s

end Sys2Proof.Machine
end

