-- ==== Sys2Proof/Machine/Step.lean ====
section
/-! DEFINITION. One step of the machine: one event, one command, or one phase of the answer to a block arrival
(`60_exceptions.md` R414 to R419; log 1). -/

namespace Sys2Proof.Machine

/-- One step (log 1). -/
def step (s : State) : Host.Outcome State Fault Refusal :=
  match s.phase with
  | .between => inputStep s
  | .drain dispatch => drainStep dispatch s
  | .program => programStep s
  | .store => storeStep s

/-- The state with the instruction, numbered as the opcode table numbers its bits, where the next step fetches its
command (log 10). -/
def State.withFetchWord (s : State) (nbits w : Nat) : State := placeCommand (frontCommand (tableWords nbits w)) s

end Sys2Proof.Machine
end

