-- ==== Sys2Proof/Safety.lean ====
section
/-! DEFINITION. The terms in which claims are stated: which configurations are legal (`00_scope.md` R8, R336,
`30_encoding.md` R120), when a command is accepted, which result code it has and how it is answered, the formulas and
the recurrences of the rules written out again apart from the machine's own functions and without faults, and the
invariants of the machine. -/

namespace Sys2Proof.Machine
open Sys2Proof

/-! ## Legal configurations (R8, R120, R336) -/

/-- A power of two. -/
def isPow2 (n : Nat) : Bool := decide (2 ^ Nat.log2 n = n)

/-- The words from here on decode into commands that are legal in an effect program, the last of them, and no
earlier one, `END` (R120). `fuel` bounds the number of commands. -/
def programFrom (c : Config) : (fuel : Nat) → List Word → Bool
  | 0, _ => false
  | k + 1, ws =>
    match decode ws with
    | .error _ => false
    | .ok i =>
      programCommand i && legal c i
        && (if i = .endProgram then decide (ws.length = 1) else programFrom c k (ws.drop i.length))

/-- A well-formed effect program (R120); its `END` stands at an index of at most 65534. -/
def programOk (c : Config) (ws : List Word) : Bool := programFrom c ws.length ws && decide (ws.length ≤ 65535)

/-- Finite bounds in order. -/
def boundsOk (lo hi : F32) : Bool := isFinite lo && isFinite hi && fle lo hi

/-- The sizes and counts of a legal configuration (R8, R336). `CQ_DEPTH` has no upper bound, as R8 gives it none
(DESIGN CHOICE, log 29). -/
def Config.sizesOk (c : Config) : Bool :=
  isPow2 c.blksz && isPow2 c.blockMax && decide (c.blksz ≤ c.blockMax) && decide (c.blockMax ≤ 65535)
    && decide (4 ≤ c.nBuf) && decide (c.nBuf ≤ 256)
    && decide (c.nBq ≤ 256) && decide (c.dlCap.length ≤ 256) && decide (c.mtCap.length ≤ 256)
    && decide (c.apCap.length ≤ 256) && decide (c.vdCap.length ≤ 256) && decide (c.nCp ≤ 256)
    && decide (c.nCl ≤ 256) && decide (c.nAm ≤ 256) && decide (c.nSy ≤ 256) && decide (c.nZc ≤ 256)
    && decide (c.nSm ≤ 256) && decide (c.nAt ≤ 256)
    && (c.dlCap ++ c.mtCap ++ c.apCap ++ c.vdCap).all (fun k => decide (2 ≤ k) && decide (k < 2 ^ 23))
    && c.vdCap.all (fun k => decide (4 ≤ k))
    && decide (1 ≤ c.dlRampSteps) && decide (c.dlRampSteps < 2 ^ 24)
    && decide (1 ≤ c.mtMaxTaps) && decide (c.mtMaxTaps ≤ 256)
    && decide (1 ≤ c.clUpTaps.length) && decide (c.clUpTaps.length = c.clDnTaps.length)
    && decide (2 ≤ c.zcHistLen) && decide (c.zcHistLen ≤ 64)
    && decide (1 ≤ c.zcHalfMin) && decide (c.zcHalfMin ≤ c.zcHistLen) && decide (1 ≤ c.zcIdleReset.toNat)
    && decide (1 ≤ c.nEffects) && decide (c.nEffects ≤ 256) && decide (1 ≤ c.cqDepth)

/-- The real-valued parameters of a legal configuration (R8, R336). `0xC2F00000` is −120.0, `0x42F00000` 120.0. -/
def Config.valuesOk (c : Config) : Bool :=
  fsOk c.fs
    && boundsOk c.bqGainMinDb c.bqGainMaxDb && inRange 0xC2F00000 c.bqGainMinDb fzero
    && inRange fzero c.bqGainMaxDb 0x42F00000
    && boundsOk Config.cpRatioMin c.cpRatioMax
    && boundsOk c.cpAttMinMs c.cpAttMaxMs && flt fzero c.cpAttMinMs
    && boundsOk c.cpRelMinMs c.cpRelMaxMs && flt fzero c.cpRelMinMs
    && boundsOk c.cpRmsMinMs c.cpRmsMaxMs && flt fzero c.cpRmsMinMs
    && boundsOk c.cpGainMin c.cpGainMax && inRange fzero c.cpGainMin fone && fle fone c.cpGainMax
    && (c.clUpTaps ++ c.clDnTaps).all isFinite
    && boundsOk c.modRateMin c.modRateMax && fle fzero c.modRateMin && flt c.modRateMax Config.fsMin
    && boundsOk c.syFreqMin c.syFreqMax && fle fzero c.syFreqMin && flt c.syFreqMax Config.fsMin
    && isFinite c.syVolMax && flt fzero c.syVolMax
    && inRange fzero c.zcHpC fone && inRange fzero c.zcLpC fone && inRange fzero c.zcPkDecay fone
    && flt fzero c.zcHalfTol && flt c.zcHalfTol fhalf && isFinite c.zcVarThresh && flt fzero c.zcVarThresh

/-- The effect programs of a legal configuration (R8, R120, R376). -/
def Config.programsOk (c : Config) : Bool :=
  decide (c.progA.length = c.nEffects) && decide (c.progB.length = c.nEffects)
    && c.progA.all (programOk c) && c.progB.all (programOk c)

/-- A legal configuration (R8, R120, R336). -/
def Config.wf (c : Config) : Bool := Config.sizesOk c && Config.valuesOk c && Config.programsOk c

/-! ## Accepted commands and their answers -/

/-- The command is legal and its source may give it (R117 to R119). -/
def accepted (i : Instr) (s : State) : Bool :=
  legal s.cfg i && (if s.inProgram then programCommand i else portCommand i)

/-- The state in which a command has been answered with a code (R18): `RES` holds it if the command came from the
control port. -/
def answered (code : ResultCode) (s : State) : State :=
  if s.inProgram then s else s.setStage { s.stage with res := code.word }

/-- A block of silence: +0.0 in every sample of both channels (R415, R421). -/
def quiet (c : Config) : Block := ⟨List.replicate c.blksz 0x00000000, List.replicate c.blksz 0x00000000⟩

/-- The answer of the acting stage to a block arrival ends: the stage, which was `st`, has put out `out`; stage A's
block stands last in the hand-off; the machine waits for the next event; nothing else has changed (R80, R414, R424). -/
def AnswerEnds (s : State) (st : Stage) (out : Block) (t : State) : Prop :=
  t.stage = { st with out := out } ∧ t.other = s.other
    ∧ t.handoff = (match s.cur with | .A => s.handoff ++ [out] | .B => s.handoff)
    ∧ t.phase = .between ∧ t.cur = s.cur ∧ t.latch = s.latch ∧ t.inputs = s.inputs ∧ t.cfg = s.cfg

/-- The words a command may write in the block buffers: its destination buffer and how many words (R25, R131). -/
def destination : Instr → Option (Byte × Nat)
  | .copy _ bd n | .clear bd n | .mix2 _ _ bd n | .gain _ bd n _ => some (bd, n.toNat)
  | .bqRead _ _ bd n | .dlRead _ _ bd n | .mtRead _ _ bd n | .apRead _ _ bd n | .vdRead _ _ _ bd n => some (bd, n.toNat)
  | .cpRead _ _ bd n | .clRead _ _ bd n | .amRead _ _ _ bd n | .syRead _ _ bd n | .smRead _ _ bd n => some (bd, n.toNat)
  | .endProgram | .bqSetup .. | .bqModFreq .. | .bqModQ .. | .bqModGain .. => none
  | .dlSetup .. | .dlModLen .. | .dlModFb .. | .dlModFt .. | .dlModDamp .. => none
  | .mtSetup .. | .mtSetTap .. | .apSetup .. => none
  | .vdSetup .. | .vdModDepth .. | .vdModRate .. | .vdModFb .. | .vdModType .. => none
  | .cpSetup .. | .cpModThr .. | .cpModRatio .. | .cpModAtt .. | .cpModRel .. | .cpModGain .. => none
  | .clSetup .. | .clModThr .. | .oscEval .. | .amSetup .. | .amModDepth .. | .amModRate .. => none
  | .sySetup .. | .syPlay .. | .syStop .. | .zcSetup .. | .zcRead .. | .smSetup .. | .atSetup .. | .atRead .. => none
  | .stArm | .stSelect .. | .efSetup .. => none

/-- The source buffer and the block size of a reading command, which a pass-through copies (R132). -/
def source : Instr → Option (Byte × BitVec 16)
  | .bqRead _ bs _ n | .dlRead _ bs _ n | .mtRead _ bs _ n | .apRead _ bs _ n | .vdRead _ bs _ _ n => some (bs, n)
  | .cpRead _ bs _ n | .clRead _ bs _ n | .amRead _ bs _ _ n | .syRead _ bs _ n | .smRead _ bs _ n => some (bs, n)
  | .zcRead _ bs n | .atRead _ bs n => some (bs, n)
  | .endProgram | .copy .. | .clear .. | .mix2 .. | .gain .. => none
  | .bqSetup .. | .bqModFreq .. | .bqModQ .. | .bqModGain .. => none
  | .dlSetup .. | .dlModLen .. | .dlModFb .. | .dlModFt .. | .dlModDamp .. => none
  | .mtSetup .. | .mtSetTap .. | .apSetup .. => none
  | .vdSetup .. | .vdModDepth .. | .vdModRate .. | .vdModFb .. | .vdModType .. => none
  | .cpSetup .. | .cpModThr .. | .cpModRatio .. | .cpModAtt .. | .cpModRel .. | .cpModGain .. => none
  | .clSetup .. | .clModThr .. | .oscEval .. | .amSetup .. | .amModDepth .. | .amModRate .. => none
  | .sySetup .. | .syPlay .. | .syStop .. | .zcSetup .. | .smSetup .. | .atSetup .. => none
  | .stArm | .stSelect .. | .efSetup .. => none

/-- The instance index of a command that has one (R34, R101). -/
def instanceOf : Instr → Option Byte
  | .endProgram | .copy .. | .clear .. | .mix2 .. | .gain .. | .oscEval .. | .stArm | .stSelect .. | .efSetup .. => none
  | .bqSetup i .. | .bqModFreq i _ | .bqModQ i _ | .bqModGain i _ | .bqRead i .. => some i
  | .dlSetup i .. | .dlModLen i _ | .dlModFb i _ | .dlModFt i _ | .dlModDamp i _ | .dlRead i .. => some i
  | .mtSetup i _ | .mtSetTap i .. | .mtRead i .. | .apSetup i .. | .apRead i .. => some i
  | .vdSetup i .. | .vdModDepth i _ | .vdModRate i _ | .vdModFb i _ | .vdModType i _ | .vdRead i .. => some i
  | .cpSetup i .. | .cpModThr i _ | .cpModRatio i _ | .cpModAtt i _ | .cpModRel i _ | .cpModGain i _
  | .cpRead i .. => some i
  | .clSetup i .. | .clModThr i _ | .clRead i .. | .amSetup i .. | .amModDepth i _ | .amModRate i _
  | .amRead i .. => some i
  | .sySetup i .. | .syPlay i .. | .syStop i | .syRead i .. | .zcSetup i _ | .zcRead i .. => some i
  | .smSetup i _ | .smRead i .. | .atSetup i .. | .atRead i .. => some i

/-- The class of a command, the high nibble of its opcode (R105). -/
def classOf (i : Instr) : Nat := i.opcode.toNat / 16

/-- The `init` bits of the instance file of a class (R33, R105); the classes without instances have none. -/
def initBits (st : Stage) (cls : Nat) : List Bool :=
  if cls = 1 then st.bq.map Biquad.init
  else if cls = 2 then st.dl.map FeedbackDelay.init
  else if cls = 3 then st.mt.map Multitap.init
  else if cls = 4 then st.ap.map Allpass.init
  else if cls = 5 then st.vd.map VariableDelay.init
  else if cls = 6 then st.cpr.map Compressor.init
  else if cls = 7 then st.cl.map Clipper.init
  else if cls = 9 then st.am.map AmpMod.init
  else if cls = 10 then st.sy.map Synth.init
  else if cls = 11 then st.zc.map ZeroCross.init
  else if cls = 12 then st.sm.map Smoother.init
  else if cls = 13 then st.trk.map Tracker.init
  else []

/-- The `init` bit of the instance a command names; none for a command without an instance index and for the null
instance (R34, R404). -/
def namedInit (st : Stage) (i : Instr) : Option Bool :=
  match instanceOf i with
  | some inst => (initBits st (classOf i))[inst.toNat]?
  | none => none

/-- How many instances a class has in a stage (R8, R404). -/
def classCount (c : Config) (cls : Nat) : Nat :=
  if cls = 1 then c.nBq
  else if cls = 2 then c.dlCap.length
  else if cls = 3 then c.mtCap.length
  else if cls = 4 then c.apCap.length
  else if cls = 5 then c.vdCap.length
  else if cls = 6 then c.nCp
  else if cls = 7 then c.nCl
  else if cls = 9 then c.nAm
  else if cls = 10 then c.nSy
  else if cls = 11 then c.nZc
  else if cls = 12 then c.nSm
  else if cls = 13 then c.nAt
  else 0

/-- A command names instance `k` of class `cls`. -/
def names (i : Instr) (cls k : Nat) : Prop := classOf i = cls ∧ ∃ inst, instanceOf i = some inst ∧ inst.toNat = k

/-- The instance file of a class (R33, R34): its instances are those of the stage's field `file`; what is put at an index
the class has is what is read back there; an index it has not changes nothing; no other index and no other field of the
stage changes. -/
def IsFile {α : Type} (sl : Slot α) (file : Stage → List α) (withFile : Stage → List α → Stage) : Prop :=
  ∀ (st : Stage) (k : Byte) (x : α),
    sl.get st k = (file st)[k.toNat]?
      ∧ sl.put st k x = withFile st (file (sl.put st k x))
      ∧ (file (sl.put st k x)).length = (file st).length
      ∧ ∀ j : Nat, (file (sl.put st k x))[j]? = if j = k.toNat ∧ j < (file st).length then some x else (file st)[j]?

/-- A command is a setup: operation nibble 0 of a class with instances (R105, R133). -/
def isSetup (i : Instr) : Bool := decide (i.opcode.toNat % 16 = 0) && (instanceOf i).isSome

/-! ## The enumerations by their numbers, and the waveforms (R124, R171) -/

/-- The modulation type with a number. -/
def modTypeOf (ty : Word) : ModType :=
  if ty = 0 then .sine else if ty = 1 then .tri else if ty = 2 then .square else if ty = 3 then .ramp else .ext

/-- The oscillator type with a number. -/
def waveTypeOf (ty : Word) : Wave :=
  if ty = 0 then .sine else if ty = 1 then .tri else if ty = 2 then .square else if ty = 3 then .ramp else .pulse

/-- The filter type with a number. -/
def filterTypeOf (ty : Word) : FilterType :=
  if ty = 0 then .lpf else if ty = 1 then .hpf else if ty = 2 then .bpf else if ty = 3 then .notch
  else if ty = 4 then .peak else if ty = 5 then .loShelf else .hiShelf

/-! ## The formulas of the rules, each operation one rounded operation (R12), constants as bit patterns -/

/-- `onepole(c, y, x)` (R146). -/
def smoothed (c y x : F32) : F32 := fadd (fmul c y) (fmul (fsub 0x3F800000 c) x)

/-- `clampf(v, lo, hi)` (R17). -/
def clamped (v lo hi : F32) : F32 := if flt v lo then lo else if flt hi v then hi else v

/-- `approach(cur, inc, dest)` (R197). -/
def glided (cur inc dest : F32) : F32 :=
  let v := fadd cur inc
  if fle 0x00000000 inc && flt dest v then dest
  else if flt inc 0x00000000 && flt v dest then dest
  else v

/-- `phase_adv(p, inc)` (R172). -/
def advanced (p inc : F32) : F32 :=
  if fle 0x3F800000 (fadd p inc) then fsub (fadd p inc) 0x3F800000 else fadd p inc

/-- `osc(t, p, w)` (R171). -/
def oscOf (t : Wave) (p w : F32) : F32 :=
  match t with
  | .sine => fsin (fmul 0x40C90FDB p)
  | .tri =>
    if flt p 0x3E800000 then fmul 0x40800000 p
    else if flt p 0x3F400000 then fsub 0x40000000 (fmul 0x40800000 p)
    else fsub (fmul 0x40800000 p) 0x40800000
  | .square => if flt p 0x3F000000 then 0x3F800000 else 0xBF800000
  | .ramp => fsub (fmul 0x40000000 p) 0x3F800000
  | .pulse => if flt p w then 0x3F800000 else 0xBF800000

/-- What `OSC.EVAL` puts in `OSCVAL` (R173): the waveform with a type number; every waveform but the sine treats a
phase of −0.0 as +0.0. -/
def waveform (ty : Word) (phase duty : F32) : F32 :=
  oscOf (waveTypeOf ty) (if ty ≠ 0 ∧ phase = 0x80000000 then 0x00000000 else phase) duty

/-- `bq_coeffs(type, freq, q, gain, fs)` (R188, R190): the raw coefficients of the type, `b1`, `b2` over `b0` and
`a1`, `a2`, `b0` over `a0`. -/
def coeffsOf (ty : FilterType) (freq q gain fs : F32) : Coeffs :=
  let w0 := fdiv (fmul 0x40C90FDB freq) fs
  let cs := fcos w0
  let sn := fsin w0
  let al := fdiv sn (fmul 0x40000000 q)
  let A := fpow10 (fdiv gain 0x42200000)
  let sq := fsqrt A
  let beta := fmul (fmul 0x40000000 sq) al
  let Ap1c := fmul (fadd A 0x3F800000) cs
  let Am1c := fmul (fsub A 0x3F800000) cs
  let ratios (b0 b1 b2 a0 a1 a2 : F32) : Coeffs :=
    { A1 := fdiv a1 a0, A2 := fdiv a2 a0, B1 := fdiv b1 b0, B2 := fdiv b2 b0, scale := fdiv b0 a0 }
  match ty with
  | .lpf =>
    ratios (fmul (fsub 0x3F800000 cs) 0x3F000000) (fsub 0x3F800000 cs) (fmul (fsub 0x3F800000 cs) 0x3F000000)
      (fadd 0x3F800000 al) (fmul 0xC0000000 cs) (fsub 0x3F800000 al)
  | .hpf =>
    ratios (fmul (fadd 0x3F800000 cs) 0x3F000000) (fneg (fadd 0x3F800000 cs)) (fmul (fadd 0x3F800000 cs) 0x3F000000)
      (fadd 0x3F800000 al) (fmul 0xC0000000 cs) (fsub 0x3F800000 al)
  | .bpf => ratios al 0x00000000 (fneg al) (fadd 0x3F800000 al) (fmul 0xC0000000 cs) (fsub 0x3F800000 al)
  | .notch =>
    ratios 0x3F800000 (fmul 0xC0000000 cs) 0x3F800000 (fadd 0x3F800000 al) (fmul 0xC0000000 cs) (fsub 0x3F800000 al)
  | .peak =>
    ratios (fadd 0x3F800000 (fmul al A)) (fmul 0xC0000000 cs) (fsub 0x3F800000 (fmul al A))
      (fadd 0x3F800000 (fdiv al A)) (fmul 0xC0000000 cs) (fsub 0x3F800000 (fdiv al A))
  | .loShelf =>
    ratios (fmul A (fadd (fsub (fadd A 0x3F800000) Am1c) beta))
      (fmul (fmul 0x40000000 A) (fsub (fsub A 0x3F800000) Ap1c))
      (fmul A (fsub (fsub (fadd A 0x3F800000) Am1c) beta))
      (fadd (fadd (fadd A 0x3F800000) Am1c) beta)
      (fmul 0xC0000000 (fadd (fsub A 0x3F800000) Ap1c))
      (fsub (fadd (fadd A 0x3F800000) Am1c) beta)
  | .hiShelf =>
    ratios (fmul A (fadd (fadd (fadd A 0x3F800000) Am1c) beta))
      (fmul (fmul 0xC0000000 A) (fadd (fsub A 0x3F800000) Ap1c))
      (fmul A (fsub (fadd (fadd A 0x3F800000) Am1c) beta))
      (fadd (fsub (fadd A 0x3F800000) Am1c) beta)
      (fmul 0x40000000 (fsub (fsub A 0x3F800000) Ap1c))
      (fsub (fsub (fadd A 0x3F800000) Am1c) beta)

/-- The coefficient law `tc(t, fs)` (R276). -/
def tcOf (t fs : F32) : F32 := fexp (fdiv 0xBF800000 (fmul (fmul t 0x3A83126F) fs))

/-- `shape(x, thr, mode)` (R301). -/
def shapeOf (x thr : F32) (mode : ClipMode) : F32 :=
  let u := clamped (fmul (fadd (fdiv x thr) 0x3F800000) 0x3F000000) 0x00000000 0x3F800000
  let p :=
    match mode with
    | .smooth => fmul (fmul u u) (fsub 0x40400000 (fmul 0x40000000 u))
    | .smoother => fmul (fmul (fmul u u) u) (fadd (fmul u (fsub (fmul u 0x40C00000) 0x41700000)) 0x41200000)
  fmul thr (fsub (fmul 0x40000000 p) 0x3F800000)

/-- `env(p)` (R356), by the breakpoints `A`, `A + D`, `A + D + S`, `A + D + S + R`. -/
def envOf (y : Synth) (p : Nat) : F32 :=
  let b1 := y.A.toNat
  let b2 := b1 + y.D.toNat
  let b3 := b2 + y.S.toNat
  let b4 := b3 + y.R.toNat
  if p < b1 then fdiv (u2f p) (u2f y.A.toNat)
  else if p < b2 then fsub 0x3F800000 (fmul (fsub 0x3F800000 y.sl) (fdiv (u2f (p - b1)) (u2f y.D.toNat)))
  else if p < b3 then y.sl
  else if p < b4 then fmul y.sl (fsub 0x3F800000 (fdiv (u2f (p - b3)) (u2f y.R.toNat)))
  else 0x00000000

/-! ## Result codes (R18, R401, R403) -/

/-- The result codes and their numbers (R401). -/
def codeTable : List (ResultCode × Byte) :=
  [(.ok, 0x00), (.invalidInstancePointer, 0x01), (.illegalCommand, 0x02), (.invalidEffectIndex, 0x03),
   (.bqInvalidQ, 0x11), (.bqInvalidFreq, 0x12), (.bqInvalidGain, 0x13),
   (.dlInvalidLength, 0x21), (.dlInvalidFeedback, 0x22), (.dlInvalidDamping, 0x23), (.mtInvalidOffset, 0x31),
   (.apInvalidLength, 0x41), (.apInvalidGain, 0x42),
   (.vdInvalidDepth, 0x51), (.vdInvalidRate, 0x52), (.vdInvalidFeedback, 0x53)]
  ++ [(.cpInvalidThreshold, 0x61), (.cpInvalidRatio, 0x62), (.cpInvalidAttack, 0x63), (.cpInvalidRelease, 0x64),
   (.cpInvalidGain, 0x65), (.cpInvalidRms, 0x66), (.clInvalidThreshold, 0x71),
   (.oscInvalidPhase, 0x81), (.oscInvalidDuty, 0x82), (.amInvalidDepth, 0x91), (.amInvalidRate, 0x92),
   (.syInvalidEnvelope, 0xA1), (.syInvalidDuty, 0xA2), (.syInvalidSustainLevel, 0xA3), (.syInvalidFreq, 0xA4),
   (.syInvalidVolume, 0xA5), (.smInvalidCoefficient, 0xC1), (.atInvalidCoefficient, 0xD1)]

/-- The code of a modify or play parameter that is clamped to `[lo, hi]`: its own code if the clamp changes it, else
what the parameters after it give. -/
def outside (lo v hi : F32) (code rest : ResultCode) : ResultCode := if flt v lo || flt hi v then code else rest

/-- The code of a setup operand that is to satisfy `lo ≤ v ≤ hi`: its own code if it does not, else what the checks
after it give. -/
def unlessIn (lo v hi : F32) (code rest : ResultCode) : ResultCode := if fle lo v && fle v hi then rest else code

/-- The code of a length with the bounds `1` and `cap`. -/
def outsideLength (v : Word) (cap : Nat) (code rest : ResultCode) : ResultCode :=
  if v.toNat < 1 ∨ cap < v.toNat then code else rest

/-- The code a legal command has from its parameters, the first one out of range in the order of its rule (R133, R134,
R401, R403). -/
def parameterCode (c : Config) : Instr → ResultCode
  | .bqSetup _ _ _ freq q gain _ =>
    unlessIn 0x3C23D70A q 0x42C80000 .bqInvalidQ <| unlessIn 0x41200000 freq 0x469C4000 .bqInvalidFreq <|
      unlessIn c.bqGainMinDb gain c.bqGainMaxDb .bqInvalidGain .ok
  | .bqModFreq _ v => outside 0x41200000 v 0x469C4000 .bqInvalidFreq .ok
  | .bqModQ _ v => outside 0x3C23D70A v 0x42C80000 .bqInvalidQ .ok
  | .bqModGain _ v => outside c.bqGainMinDb v c.bqGainMaxDb .bqInvalidGain .ok
  | .dlSetup inst len fb _ damp =>
    outsideLength len (capOf c.dlCap inst) .dlInvalidLength <| unlessIn 0xBF800000 fb 0x3F800000 .dlInvalidFeedback <|
      unlessIn 0x00000000 damp 0x3F800000 .dlInvalidDamping .ok
  | .dlModLen inst len => outsideLength len (capOf c.dlCap inst) .dlInvalidLength .ok
  | .dlModFb _ v => outside 0xBF800000 v 0x3F800000 .dlInvalidFeedback .ok
  | .dlModDamp _ v => outside 0x00000000 v 0x3F800000 .dlInvalidDamping .ok
  | .mtSetTap inst _ off _ => outsideLength off (capOf c.mtCap inst) .mtInvalidOffset .ok
  | .apSetup inst len gain =>
    outsideLength len (capOf c.apCap inst) .apInvalidLength <| unlessIn 0xBF800000 gain 0x3F800000 .apInvalidGain .ok
  | .vdSetup _ _ depth rate fb _ =>
    unlessIn 0x00000000 depth 0x3F800000 .vdInvalidDepth <| unlessIn c.modRateMin rate c.modRateMax .vdInvalidRate <|
      unlessIn 0xBF800000 fb 0x3F800000 .vdInvalidFeedback .ok
  | .vdModDepth _ v => outside 0x00000000 v 0x3F800000 .vdInvalidDepth .ok
  | .vdModRate _ v => outside c.modRateMin v c.modRateMax .vdInvalidRate .ok
  | .vdModFb _ v => outside 0xBF800000 v 0x3F800000 .vdInvalidFeedback .ok
  | .cpSetup _ thr ratio att rel gain rms _ =>
    unlessIn 0xC2C80000 thr 0x41F00000 .cpInvalidThreshold <| unlessIn 0x3F800000 ratio c.cpRatioMax .cpInvalidRatio <|
      unlessIn c.cpAttMinMs att c.cpAttMaxMs .cpInvalidAttack <|
      unlessIn c.cpRelMinMs rel c.cpRelMaxMs .cpInvalidRelease <| unlessIn c.cpGainMin gain c.cpGainMax .cpInvalidGain <|
      unlessIn c.cpRmsMinMs rms c.cpRmsMaxMs .cpInvalidRms .ok
  | .cpModThr _ v => outside 0xC2C80000 v 0x41F00000 .cpInvalidThreshold .ok
  | .cpModRatio _ v => outside 0x3F800000 v c.cpRatioMax .cpInvalidRatio .ok
  | .cpModAtt _ v => outside c.cpAttMinMs v c.cpAttMaxMs .cpInvalidAttack .ok
  | .cpModRel _ v => outside c.cpRelMinMs v c.cpRelMaxMs .cpInvalidRelease .ok
  | .cpModGain _ v => outside c.cpGainMin v c.cpGainMax .cpInvalidGain .ok
  | .clSetup _ v _ _ => unlessIn 0x3A83126F v 0x3F800000 .clInvalidThreshold .ok
  | .clModThr _ v => outside 0x3A83126F v 0x3F800000 .clInvalidThreshold .ok
  | .oscEval ty phase duty =>
    if flt phase 0x00000000 || fle 0x3F800000 phase then .oscInvalidPhase
    else if ty = 4 ∧ (fle duty 0x00000000 || fle 0x3F800000 duty) then .oscInvalidDuty
    else .ok
  | .amSetup _ _ depth rate _ =>
    unlessIn 0x00000000 depth 0x3F800000 .amInvalidDepth <| unlessIn c.modRateMin rate c.modRateMax .amInvalidRate .ok
  | .amModDepth _ v => outside 0x00000000 v 0x3F800000 .amInvalidDepth .ok
  | .amModRate _ v => outside c.modRateMin v c.modRateMax .amInvalidRate .ok
  | .sySetup _ a d su r ty duty sl _ =>
    if 0xFFFFFF < a.toNat ∨ 0xFFFFFF < d.toNat ∨ 0xFFFFFF < su.toNat ∨ 0xFFFFFF < r.toNat then .syInvalidEnvelope
    else if ty = 4 ∧ ¬ (flt 0x00000000 duty = true ∧ flt duty 0x3F800000 = true) then .syInvalidDuty
    else unlessIn 0x00000000 sl 0x3F800000 .syInvalidSustainLevel .ok
  | .syPlay _ freq vol =>
    outside c.syFreqMin freq c.syFreqMax .syInvalidFreq <| outside 0x00000000 vol c.syVolMax .syInvalidVolume .ok
  | .smSetup _ v => unlessIn 0x00000000 v 0x3F800000 .smInvalidCoefficient .ok
  | .atSetup _ _ v => unlessIn 0x00000000 v 0x3F800000 .atInvalidCoefficient .ok
  | .stSelect e | .efSetup e => if c.nEffects ≤ e.toNat then .invalidEffectIndex else .ok
  | .endProgram | .copy .. | .clear .. | .mix2 .. | .gain .. | .bqRead .. | .dlModFt .. | .dlRead .. | .mtSetup ..
  | .mtRead .. | .apRead .. | .vdModType .. | .vdRead .. | .cpRead .. | .clRead .. | .amRead .. | .syStop .. | .syRead ..
  | .zcSetup .. | .zcRead .. | .smRead .. | .atRead .. | .stArm => .ok

/-- The result code of a command in a state, in the order of R403: illegal, the null instance, the parameters. -/
def resultOf (i : Instr) (s : State) : ResultCode :=
  if accepted i s = false then .illegalCommand
  else if (instanceOf i).isSome && (namedInit s.stage i).isNone then .invalidInstancePointer
  else parameterCode s.cfg i

/-- A biquad retargeted (R193): all three increments from the current values over `T` steps, the counter at `T`. -/
def retargeted (x : Biquad) : Biquad :=
  { x with
    finc := fdiv (fsub x.dfreq x.freq) (u2f x.speed.toNat)
    qinc := fdiv (fsub x.dq x.q) (u2f x.speed.toNat)
    ginc := fdiv (fsub x.dgain x.gain) (u2f x.speed.toNat)
    count := x.speed }

/-! ## Recurrences: the per-sample rules without their faults -/

/-- Run a per-sample rule over a list of inputs: the instance after the last one, and the outputs in order. -/
def scan {α β : Type} (f : β → α → α × F32) : List β → α → α × List F32
  | [], a => (a, [])
  | x :: xs, a => ((scan f xs (f x a).1).1, (f x a).2 :: (scan f xs (f x a).1).2)

/-- A condition on input and instance holds at every sample of a run. -/
def always {α β : Type} (f : β → α → α × F32) (ok : β → α → Bool) : List β → α → Bool
  | [], _ => true
  | x :: xs, a => ok x a && always f ok xs (f x a).1

/-- The smoother (R148). -/
def smRule (x : F32) (k : Smoother) : Smoother × F32 :=
  ({ k with y := smoothed k.c k.y x }, smoothed k.c k.y x)

/-- The tracker's accumulator (R151); it has no output. -/
def atRule (x : F32) (k : Tracker) : Tracker × F32 :=
  match k.mode with
  | .peak =>
    let t := fmul k.c k.acc
    ({ k with acc := if fgt (fabs x) t then fabs x else t }, fzero)
  | .rms => ({ k with acc := smoothed k.c k.acc (fmul x x) }, fzero)

/-- The biquad section (R191). -/
def bqRule (x : F32) (b : Biquad) : Biquad × F32 :=
  let w := fsub (fsub x (fmul b.A1 b.w0)) (fmul b.A2 b.w1)
  let y := fadd (fadd w (fmul b.B1 b.w0)) (fmul b.B2 b.w1)
  ({ b with w1 := b.w0, w0 := w }, fmul y b.scale)

/-- The biquad's transition step (R197), which a read runs once. -/
def bqStep (b : Biquad) : Biquad :=
  if b.count = 0 then b
  else
    let count := b.count - 1
    let freq := if count = 0 then b.dfreq else glided b.freq b.finc b.dfreq
    let q := if count = 0 then b.dq else glided b.q b.qinc b.dq
    let gain := if count = 0 then b.dgain else glided b.gain b.ginc b.dgain
    let k := coeffsOf b.ty freq q gain b.fs
    { b with count := count, freq := freq, q := q, gain := gain
             A1 := k.A1, A2 := k.A2, B1 := k.B1, B2 := k.B2, scale := k.scale }

/-- The feedback delay's ramp step (R222). -/
def dlStep (x : FeedbackDelay) : FeedbackDelay :=
  if x.rem = 0 then x
  else
    let rem := x.rem - 1
    let tapf := if rem = 0 then u2f x.target.toNat else glided x.tapf x.tinc (u2f x.target.toNat)
    { x with rem := rem, tapf := tapf, tap := BitVec.ofNat 32 ((trunc tapf).getD 0) }

/-- The feedback delay (R217) on a ring of `cap` cells. -/
def dlRule (cap : Nat) (v : F32) (x : FeedbackDelay) : FeedbackDelay × F32 :=
  let x := dlStep x
  let d := ringRead x.ring ((x.wp.toNat + cap - x.tap.toNat) % cap)
  let line := fmul (fadd v d) x.fb
  let lp := if fne x.damp fzero then smoothed x.damp x.lp line else x.lp
  let stored := if fne x.damp fzero then lp else line
  ({ x with ring := ringWrite x.ring x.wp.toNat stored, lp := lp
            wp := BitVec.ofNat 32 ((x.wp.toNat + 1) % cap) },
   fadd (fmul x.ft v) d)

/-- The sum over a multitap delay's taps (R232). -/
def mtTotal (cap : Nat) (x : Multitap) : F32 :=
  ((x.off.zip x.g).take x.ntaps.toNat).foldl
    (fun acc t => fadd acc (fmul t.2 (ringRead x.ring ((x.wp.toNat + cap - t.1.toNat) % cap)))) fzero

/-- The multitap delay (R232) on a ring of `cap` cells. -/
def mtRule (cap : Nat) (v : F32) (x : Multitap) : Multitap × F32 :=
  ({ x with ring := ringWrite x.ring x.wp.toNat v, wp := BitVec.ofNat 32 ((x.wp.toNat + 1) % cap) }, mtTotal cap x)

/-- The allpass filter (R241). -/
def apRule (v : F32) (x : Allpass) : Allpass × F32 :=
  let b := ringRead x.ring x.idx.toNat
  ({ x with ring := ringWrite x.ring x.idx.toNat (fadd v (fmul x.gain b))
            idx := BitVec.ofNat 32 ((x.idx.toNat + 1) % x.len.toNat) },
   fadd (fmul (fneg x.gain) v) b)

/-- The modulator value (R256) when the word of the modulation buffer is `w`. -/
def modValue (t : ModType) (phase w : F32) : F32 :=
  match t with
  | .sine => oscOf .sine phase fhalf
  | .tri => oscOf .tri phase fhalf
  | .square => oscOf .square phase fhalf
  | .ramp => oscOf .ramp phase fhalf
  | .ext => clamped w fnegOne fone

/-- The variable delay's fractional read position for a modulator value (R258). -/
def vdRead (cap : Nat) (x : VariableDelay) (m : F32) : F32 :=
  let d := clamped (fmul (fmul (u2f cap) fhalf) (fadd fone (fmul x.depth m))) fone (u2f (cap - 1))
  let r := fsub (u2f x.wp.toNat) d
  if flt r fzero then fadd r (u2f cap) else r

/-- The variable delay's interpolated value at a fractional read position (R258). -/
def vdValue (cap : Nat) (ring : Memory) (r : F32) : F32 :=
  let k := (trunc r).getD 0
  let i0 := if cap ≤ k then k - cap else k
  let fr := fsub r (u2f k)
  fadd (fmul (ringRead ring i0) (fsub fone fr)) (fmul (ringRead ring ((i0 + 1) % cap)) fr)

/-- The variable delay (R258) on a ring of `cap` cells; the input is a sample and the word of the modulation
buffer. -/
def vdRule (cap : Nat) (v : F32 × F32) (x : VariableDelay) : VariableDelay × F32 :=
  let y := vdValue cap x.ring (vdRead cap x (modValue x.ty x.phase v.2))
  ({ x with ring := ringWrite x.ring x.wp.toNat (fadd v.1 (fmul x.fb y))
            wp := BitVec.ofNat 32 ((x.wp.toNat + 1) % cap)
            phase := if x.ty = .ext then x.phase else advanced x.phase x.pinc }, y)

/-- The compressor (R278). -/
def cpRule (v : F32) (x : Compressor) : Compressor × F32 :=
  let ms := smoothed x.rmsC x.ms (fmul v v)
  let level := fsub x.thrL2 (fmul fhalf (flog2 ms))
  let reduction := if fgt ms fzero then (if fgt level fzero then fzero else level) else fzero
  let tgt := fmul reduction x.slope
  let env := if flt tgt x.env then smoothed x.attC x.env tgt else smoothed x.relC x.env tgt
  ({ x with ms := ms, env := env }, fmul v (fmul (fexp2 env) x.gain))

/-- The FIR step of a delay line (R304): the line after the push and the sum. -/
def push (taps z : List F32) (v : F32) : List F32 × F32 :=
  let z := v :: z.dropLast
  (z, (taps.zip z).foldl (fun acc t => fadd acc (fmul t.1 t.2)) fzero)

/-- One sub-sample of the oversampled clipper (R305). -/
def clSubRule (up dn : List F32) (v : F32) (x : Clipper) : Clipper × F32 :=
  let u := push up x.zu v
  let d := push dn x.zd (shapeOf u.2 x.thr x.mode)
  ({ x with zu := u.1, zd := d.1 }, d.2)

/-- The eight sub-samples of an input sample (R305): the sample, then seven zeros. -/
def clStuffed (v : F32) : List F32 := [v, fzero, fzero, fzero, fzero, fzero, fzero, fzero]

/-- The clipper (R305, R306): in the oversampled path the last of the eight outputs is kept. -/
def clRule (up dn : List F32) (v : F32) (x : Clipper) : Clipper × F32 :=
  if x.os then
    let p := scan (clSubRule up dn) (clStuffed v) x
    (p.1, p.2.getLastD fzero)
  else (x, shapeOf v x.thr x.mode)

/-- The amplitude modulator (R323); the input is a sample and the word of the modulation buffer. -/
def amRule (v : F32 × F32) (x : AmpMod) : AmpMod × F32 :=
  let g := fsub fone (fmul (fmul x.depth fhalf) (fsub fone (modValue x.ty x.phase v.2)))
  ({ x with phase := if x.ty = .ext then x.phase else advanced x.phase x.pinc }, fmul v.1 g)

/-- The synth voice (R361), which has no input. -/
def syRule (_ : Unit) (y : Synth) : Synth × F32 :=
  if y.playing then
    ({ y with
        phase := advanced y.phase y.pinc, pos := y.pos + 1
        playing := decide (y.pos.toNat + 1 < y.A.toNat + y.D.toNat + y.S.toNat + y.R.toNat) },
     fmul (fmul (oscOf y.ty y.phase y.duty) y.vol) (envOf y y.pos.toNat))
  else (y, fzero)

/-- `loss()` (R339). -/
def zcLost (z : ZeroCross) : ZeroCross :=
  if 0 < z.grace.toNat then { z with grace := z.grace - 1 } else { z with locked := false }

/-- `candidate(f)` (R339): a frequency outside `[70, 700]` Hz is a loss; else it is halved if enough of the history
lies near its half, recorded in the history, and, once the history is full, the variance decides the lock. -/
def zcHeard (c : Config) (f : F32) (z : ZeroCross) : ZeroCross :=
  if flt f 0x428C0000 || flt 0x442F0000 f then zcLost z
  else
    let hf := fmul 0x3F000000 f
    let near := (z.hist.take z.hcount.toNat).countP fun h => fle (fabs (fsub h hf)) (fmul c.zcHalfTol hf)
    let f := if fle 0x428C0000 hf = true ∧ c.zcHalfMin ≤ near then hf else f
    let hist := z.hist.set z.hidx.toNat f
    let hcount := if z.hcount.toNat < c.zcHistLen then z.hcount + 1 else z.hcount
    let z := { z with
      hist := hist, hidx := BitVec.ofNat 32 ((z.hidx.toNat + 1) % c.zcHistLen), hcount := hcount, freq := f, idle := 0 }
    if hcount.toNat = c.zcHistLen then
      let mean := fdiv (hist.foldl (fun s h => fadd s h) 0x00000000) (u2f c.zcHistLen)
      let q := hist.foldl (fun q h => fadd q (fmul (fsub h mean) (fsub h mean))) 0x00000000
      if flt (fdiv q (u2f c.zcHistLen)) c.zcVarThresh then { z with locked := true, grace := c.zcGrace } else zcLost z
    else z

/-- The pitch detector (R338), which has no output: the two pre-filters, the two peaks, the two counters, the
comparison at half the peak, the idle reset. -/
def zcRule (c : Config) (x : F32) (z : ZeroCross) : ZeroCross × F32 :=
  let hp := smoothed c.zcHpC z.hp x
  let v := smoothed c.zcLpC z.lpf (fsub x hp)
  let tp := fmul z.ppk c.zcPkDecay
  let ppk := if flt tp v then v else tp
  let tn := fmul z.npk c.zcPkDecay
  let npk := if flt v tn then v else tn
  let cnt := if z.cnt.toNat < 0xFFFFFFFF then z.cnt + 1 else z.cnt
  let idle := if z.idle.toNat < 0xFFFFFFFF then z.idle + 1 else z.idle
  let z1 := { z with hp := hp, lpf := v, ppk := ppk, npk := npk, cnt := cnt, idle := idle }
  let z2 :=
    if z.pol = false ∧ flt (fmul 0x3F000000 ppk) v = true then
      zcHeard c (fdiv z.fs (u2f cnt.toNat)) { z1 with pol := true, cnt := 0 }
    else if z.pol = true ∧ flt v (fmul 0x3F000000 npk) = true then { z1 with pol := false }
    else z1
  (if c.zcIdleReset.toNat ≤ z2.idle.toNat then
      { z2 with hcount := 0, hidx := 0, locked := false, grace := 0, idle := 0 }
    else z2, 0x00000000)

/-! ### Conditions under which a sample of a recurrence faults nowhere -/

/-- The next instance and output of the smoother are finite. -/
def smFine (x : F32) (k : Smoother) : Bool := isFinite (smRule x k).2

/-- The tracker's next accumulator is finite. -/
def atFine (x : F32) (k : Tracker) : Bool := isFinite (atRule x k).1.acc

/-- The biquad section's next state word and output are finite. -/
def bqFine (x : F32) (b : Biquad) : Bool := isFinite (bqRule x b).1.w0 && isFinite (bqRule x b).2

/-- The tap lies in `1 … cap`, the write pointer below `cap`, and what is stored and put out is finite. -/
def dlFine (cap : Nat) (v : F32) (x : FeedbackDelay) : Bool :=
  (decide (x.rem = 0) || (trunc (dlStep x).tapf).isSome)
    && decide (1 ≤ (dlStep x).tap.toNat) && decide ((dlStep x).tap.toNat ≤ cap) && decide (x.wp.toNat < cap)
    && isFinite (ringRead (dlRule cap v x).1.ring x.wp.toNat) && isFinite (dlRule cap v x).1.lp
    && isFinite (dlRule cap v x).2

/-- The offsets in use lie in `1 … cap`, the write pointer below `cap`, and what is stored and put out is finite. -/
def mtFine (cap : Nat) (v : F32) (x : Multitap) : Bool :=
  ((x.off.zip x.g).take x.ntaps.toNat).all (fun t => decide (1 ≤ t.1.toNat) && decide (t.1.toNat ≤ cap))
    && decide (x.wp.toNat < cap) && isFinite v && isFinite (mtTotal cap x)

/-- The index lies below the length, the length in the ring, and what is stored and put out is finite. -/
def apFine (cap : Nat) (v : F32) (x : Allpass) : Bool :=
  decide (x.idx.toNat < x.len.toNat) && decide (x.len.toNat ≤ cap)
    && isFinite (fadd v (fmul x.gain (ringRead x.ring x.idx.toNat))) && isFinite (apRule v x).2

/-- The read position is a position of the ring and what is stored and put out is finite. -/
def vdFine (cap : Nat) (v : F32 × F32) (x : VariableDelay) : Bool :=
  (match trunc (vdRead cap x (modValue x.ty x.phase v.2)) with
    | some k => decide (k < 2 * cap)
    | none => false)
    && decide (x.wp.toNat < cap) && isFinite (fadd v.1 (fmul x.fb (vdRule cap v x).2))
    && isFinite (vdRule cap v x).2 && isFinite (vdRule cap v x).1.phase

/-- The compressor's next mean-square, reduction and output are finite. -/
def cpFine (v : F32) (x : Compressor) : Bool :=
  isFinite (cpRule v x).1.ms && isFinite (cpRule v x).1.env && isFinite (cpRule v x).2

/-- What the two delay lines of the oversampled path take in, and the quotient the shaping function forms (R307), are
finite. -/
def clSubFine (up : List F32) (v : F32) (x : Clipper) : Bool :=
  isFinite v && isFinite (fdiv (push up x.zu v).2 x.thr) && isFinite (shapeOf (push up x.zu v).2 x.thr x.mode)

/-- Every sub-sample of the oversampled path, or the quotient of the direct one (R307), and the output are finite. -/
def clFine (up dn : List F32) (v : F32) (x : Clipper) : Bool :=
  (if x.os then always (clSubRule up dn) (clSubFine up) (clStuffed v) x else isFinite (fdiv v x.thr))
    && isFinite (clRule up dn v x).2

/-- The modulator's next phase and output are finite. -/
def amFine (v : F32 × F32) (x : AmpMod) : Bool := isFinite (amRule v x).2 && isFinite (amRule v x).1.phase

/-- The voice's next phase and output are finite. -/
def syFine (u : Unit) (y : Synth) : Bool :=
  !y.playing || (isFinite (syRule u y).2 && isFinite (syRule u y).1.phase)

/-- The detector's next real-valued fields are finite. -/
def zcFine (c : Config) (v : F32) (z : ZeroCross) : Bool :=
  let z' := (zcRule c v z).1
  isFinite z'.hp && isFinite z'.lpf && isFinite z'.ppk && isFinite z'.npk && isFinite z'.freq

/-! ## Invariants -/

/-- The finite words of an instance. -/
def Biquad.finite (x : Biquad) : Bool :=
  [x.fs, x.freq, x.q, x.gain, x.dfreq, x.dq, x.dgain, x.finc, x.qinc, x.ginc, x.w0, x.w1, x.w2,
   x.A1, x.A2, x.B1, x.B2, x.scale].all isFinite
/-- The finite words of an instance. -/
def FeedbackDelay.finite (x : FeedbackDelay) : Bool :=
  [x.tapf, x.tinc, x.fb, x.ft, x.damp, x.lp].all isFinite && x.ring.all fun p => isFinite p.2
/-- The finite words of an instance. -/
def Multitap.finite (x : Multitap) : Bool := x.g.all isFinite && x.ring.all fun p => isFinite p.2
/-- The finite words of an instance. -/
def Allpass.finite (x : Allpass) : Bool := isFinite x.gain && x.ring.all fun p => isFinite p.2
/-- The finite words of an instance. -/
def VariableDelay.finite (x : VariableDelay) : Bool :=
  [x.depth, x.rate, x.fb, x.fs, x.pinc, x.phase].all isFinite && x.ring.all fun p => isFinite p.2
/-- The finite words of an instance. -/
def Compressor.finite (x : Compressor) : Bool :=
  [x.thr, x.ratio, x.att, x.rel, x.rms, x.gain, x.fs, x.thrL2, x.slope, x.attC, x.relC, x.rmsC, x.ms,
   x.env].all isFinite
/-- The finite words of an instance. -/
def Clipper.finite (x : Clipper) : Bool := isFinite x.thr && (x.zu ++ x.zd).all isFinite
/-- The finite words of an instance. -/
def AmpMod.finite (x : AmpMod) : Bool := [x.depth, x.rate, x.fs, x.pinc, x.phase].all isFinite
/-- The finite words of an instance. -/
def Synth.finite (x : Synth) : Bool := [x.duty, x.sl, x.fs, x.phase, x.pinc, x.vol].all isFinite
/-- The finite words of an instance. -/
def ZeroCross.finite (x : ZeroCross) : Bool :=
  [x.fs, x.hp, x.lpf, x.ppk, x.npk, x.freq].all isFinite && x.hist.all isFinite
/-- The finite words of an instance. -/
def Smoother.finite (x : Smoother) : Bool := [x.c, x.y].all isFinite
/-- The finite words of an instance. -/
def Tracker.finite (x : Tracker) : Bool := [x.c, x.acc, x.level].all isFinite

/-- Every real-valued word of a stage is a finite number (R14). -/
def Stage.finite (st : Stage) : Bool :=
  st.buf.all (fun p => isFinite p.2) && isFinite st.oscval && blockFinite st.out
    && st.bq.all Biquad.finite && st.dl.all FeedbackDelay.finite && st.mt.all Multitap.finite
    && st.ap.all Allpass.finite && st.vd.all VariableDelay.finite && st.cpr.all Compressor.finite
    && st.cl.all Clipper.finite && st.am.all AmpMod.finite && st.sy.all Synth.finite
    && st.zc.all ZeroCross.finite && st.sm.all Smoother.finite && st.trk.all Tracker.finite

/-- Every real-valued word of the machine is a finite number (R14), in a legal configuration. -/
def State.finite (s : State) : Bool :=
  Config.wf s.cfg && Stage.finite s.a && Stage.finite s.b && blockFinite s.latch && s.handoff.all blockFinite

/-- Whether every instance of a file with ring memories has its ring in canonical form, in its capacity. -/
def ringsOk {α : Type} (ring : α → Memory) : List Nat → List α → Bool
  | [], [] => true
  | cap :: caps, x :: xs => Memory.ringWf cap (ring x) && ringsOk ring caps xs
  | _, _ => false

/-- The form of a stage (R20 to R32, R70, R71): memories canonical, every file of the size the configuration
gives it, the selected effect one of the stage's, the queue no longer than `CQ_DEPTH`. -/
def Stage.formed (c : Config) (st : Stage) : Bool :=
  Memory.wf st.buf && decide (st.effect.toNat < c.nEffects) && decide (st.effInit.length = c.nEffects)
    && decide (st.cq.length ≤ c.cqDepth)
    && decide (st.bq.length = c.nBq) && ringsOk FeedbackDelay.ring c.dlCap st.dl && ringsOk Multitap.ring c.mtCap st.mt
    && ringsOk Allpass.ring c.apCap st.ap && ringsOk VariableDelay.ring c.vdCap st.vd
    && decide (st.cpr.length = c.nCp) && decide (st.cl.length = c.nCl) && decide (st.am.length = c.nAm)
    && decide (st.sy.length = c.nSy) && decide (st.zc.length = c.nZc) && decide (st.sm.length = c.nSm)
    && decide (st.trk.length = c.nAt)

/-- The form of the machine, in a legal configuration. -/
def State.formed (s : State) : Bool :=
  Config.wf s.cfg && Stage.formed s.cfg s.a && Stage.formed s.cfg s.b

/-- Counters and pointers of a biquad: `count ≤ T`, and the third word of the state line is `+0.0` (R192, R199). -/
def Biquad.pointersOk (x : Biquad) : Bool := !x.init || (decide (x.count.toNat ≤ x.speed.toNat) && decide (x.w2 = fzero))
/-- Counters, pointers and taps of a feedback delay with a ring of `cap` cells (R223): `wp`, `tap`, `tapf`, `target`,
`rem`, and `rem = 0` implies `tap = target`. -/
def FeedbackDelay.pointersOk (c : Config) (cap : Nat) (x : FeedbackDelay) : Bool :=
  !x.init || (decide (x.wp.toNat < cap) && decide (1 ≤ x.tap.toNat) && decide (x.tap.toNat ≤ cap)
    && fle fone x.tapf && fle x.tapf (u2f cap) && decide (1 ≤ x.target.toNat) && decide (x.target.toNat ≤ cap)
    && decide (x.rem.toNat ≤ c.dlRampSteps) && (x.rem != 0 || x.tap == x.target))
/-- Counters and pointers of a multitap delay with a ring of `cap` cells (R38, R72). -/
def Multitap.pointersOk (c : Config) (cap : Nat) (x : Multitap) : Bool :=
  !x.init || (decide (x.wp.toNat < cap) && decide (x.ntaps.toNat ≤ c.mtMaxTaps) && decide (x.off.length = c.mtMaxTaps)
    && x.off.all fun t => decide (1 ≤ t.toNat) && decide (t.toNat ≤ cap))
/-- Counters and pointers of an allpass filter with a ring of `cap` cells (R39). -/
def Allpass.pointersOk (cap : Nat) (x : Allpass) : Bool :=
  !x.init || (decide (x.idx.toNat < x.len.toNat) && decide (x.len.toNat ≤ cap))
/-- The write pointer of a variable delay with a ring of `cap` cells (R72). -/
def VariableDelay.pointersOk (cap : Nat) (x : VariableDelay) : Bool := !x.init || decide (x.wp.toNat < cap)
/-- A synth voice: segment lengths at most `SY_LEN_MAX`; while playing the position has not passed the end of the
release, and lies before it if there is a release (R357, R360). R360 says `pos < b4` or `b4 = 0`; a note-off of a
voice whose release has length 0 lands on `b3 = b4` (R359), which R360 overlooks. -/
def Synth.pointersOk (y : Synth) : Bool :=
  !y.init || (decide (y.A.toNat ≤ Config.syLenMax) && decide (y.D.toNat ≤ Config.syLenMax)
    && decide (y.S.toNat ≤ Config.syLenMax) && decide (y.R.toNat ≤ Config.syLenMax)
    && (!y.playing || (decide (y.pos.toNat ≤ syB4 y) && (decide (y.R.toNat = 0) || decide (y.pos.toNat < syB4 y)))))
/-- The history of a pitch detector (R340). -/
def ZeroCross.pointersOk (c : Config) (z : ZeroCross) : Bool :=
  !z.init || (decide (z.hist.length = c.zcHistLen) && decide (z.hidx.toNat < c.zcHistLen)
    && decide (z.hcount.toNat ≤ c.zcHistLen) && decide (z.grace.toNat ≤ c.zcGrace.toNat))
/-- The delay lines of a clipper have `CL_NTAPS` words (R44). -/
def Clipper.pointersOk (c : Config) (x : Clipper) : Bool :=
  decide (x.zu.length = c.clUpTaps.length) && decide (x.zd.length = c.clDnTaps.length)

/-- A condition on every instance of a file with ring memories and its capacity. -/
def allWithCap {α : Type} (ok : Nat → α → Bool) : List Nat → List α → Bool
  | cap :: caps, x :: xs => ok cap x && allWithCap ok caps xs
  | _, _ => true

/-- The counters and pointers of every instance of a stage. -/
def Stage.pointersOk (c : Config) (st : Stage) : Bool :=
  st.bq.all Biquad.pointersOk
    && allWithCap (FeedbackDelay.pointersOk c) c.dlCap st.dl && allWithCap (Multitap.pointersOk c) c.mtCap st.mt
    && allWithCap Allpass.pointersOk c.apCap st.ap && allWithCap VariableDelay.pointersOk c.vdCap st.vd
    && st.sy.all Synth.pointersOk && st.zc.all (ZeroCross.pointersOk c) && st.cl.all (Clipper.pointersOk c)

/-- The counters and pointers of every instance, in a legal configuration. -/
def State.pointersOk (s : State) : Bool :=
  Config.wf s.cfg && Stage.pointersOk s.cfg s.a && Stage.pointersOk s.cfg s.b

/-- The words of the block in `BUF[0]` and `BUF[1]` have been written (R418, R419). -/
def blockWritten (c : Config) (m : Memory) : Bool :=
  (List.range c.blksz).all fun i => (bufRead m 0 i).isSome && (bufRead m 1 i).isSome

/-- Where the machine stands makes sense (R416, R418, R419, R424): an input block that will be loaded has the shape
of a block, a program is at a command of its own, the words of the block are written until the store, and only an
armed stage dispatches. -/
def State.onCourse (s : State) : Bool :=
  Config.wf s.cfg && decide (s.stage.effect.toNat < s.cfg.nEffects) && decide (s.other.effect.toNat < s.cfg.nEffects)
    && s.handoff.all (blockShaped s.cfg)
    && (match s.phase with
      | .between => true
      | .drain false => s.stage.fsm = .idle || s.stage.fsm = .armed
      | .drain true => blockShaped s.cfg s.latch && s.stage.fsm != .idle
      | .program =>
        s.stage.fsm != .idle && programFrom s.cfg (programWords s).length (programWords s) && blockWritten s.cfg s.stage.buf
          && decide (s.stage.cp.toNat + (programWords s).length ≤ 65535)
      | .store => s.stage.fsm != .idle && blockWritten s.cfg s.stage.buf)

end Sys2Proof.Machine
end

