-- ==== Sys2Proof/Certificates/Slice0/Obligations.lean ====
section
/-! DEFINITION. The statements about the model. A state `s` is any state whatever, reachable or not, with any
configuration and any stage acting, at the control port or in a program, unless a hypothesis says otherwise. The
answer of a command is `answered code s`: `RES` holds the code at the control port and is untouched in a program
(R18). Where a conclusion is an equation `exec i s = .next t`, everything that `t` does not mention is unchanged. -/

open Sys2Proof Sys2Proof.Machine

/-! ## Encoding (R100 to R106, R116, R125) -/

/-- Every command decodes from its own words, whatever its operands and whatever words follow it in a program; at the
control port its words alone are the command (R100 to R104, R106). That exactly one whole command is presented at the
port is log 11. -/
def Obligations.EveryCommandDecodesFromItsEncoding : Prop :=
  ∀ (i : Instr) (rest : List Word), decode (encode i ++ rest) = .ok i ∧ decodePort (encode i) = .ok i

/-- A command has one encoding: what the control port decodes to `i` is `encode i`, so no bit is ignored and every
field that must be zero is zero (R102, R104, R117). -/
def Obligations.EveryCommandHasOneEncoding : Prop :=
  ∀ (ws : List Word) (i : Instr), decodePort ws = .ok i → ws = encode i

/-- An opcode that no command has decodes to nothing, class F among them (R116). -/
def Obligations.UnknownOpcodesDecodeToNothing : Prop :=
  (∀ (w : Word) (ops : List Word), (∀ i : Instr, i.opcode ≠ headOp w) → decode (w :: ops) = .error .unknownOpcode)
    ∧ ∀ (i : Instr), i.opcode.toNat < 0xF0

/-- The worked encodings of R125. -/
def Obligations.WorkedEncodingsDecode : Prop :=
  decodePort [0x00000000] = .ok .endProgram
    ∧ decodePort [0x01000001, 0x00000020] = .ok (.copy 0 1 32)
    ∧ decodePort [0x03000001, 0x02000020] = .ok (.mix2 0 2 1 32)
    ∧ decodePort [0x04000000, 0x00000008, 0x3F000000] = .ok (.gain 0 0 8 0x3F000000)
    ∧ decodePort [0x1F030001, 0x00000020] = .ok (.bqRead 3 0 1 32)
    ∧ decodePort [0x10000000, 0x00000000, 0x0000000A, 0x447A0000, 0x3F000000, 0x00000000, 0x473B8000]
        = .ok (.bqSetup 0 0 10 0x447A0000 0x3F000000 0 0x473B8000)
    ∧ decodePort [0x11000000, 0x44FA0000] = .ok (.bqModFreq 0 0x44FA0000)
    ∧ decodePort [0x20010000, 0x00000004, 0x3F000000, 0x3F800000, 0x00000000]
        = .ok (.dlSetup 1 4 0x3F000000 0x3F800000 0)
    ∧ decodePort [0xE1020000] = .ok (.stSelect 2)
    ∧ decodePort [0xA2000000] = .ok (.syStop 0)

/-! ## Steps -/

/-- A step runs the decoded command: in a drain the front command of the queue, which leaves the queue; in a dispatch
the command at `cp`, after which `cp` has moved past its words unless the command was `END` (R27, R412, R416). That a
step is one command is the model's granularity (log 1). -/
def Obligations.StepRunsTheDecodedCommand : Prop :=
  (∀ (s : State) (d : Bool) (ws : List Word) (rest : List (List Word)) (i : Instr),
      s.phase = .drain d → s.stage.cq = ws :: rest → decodePort ws = .ok i →
      step s = exec i (s.setStage { s.stage with cq := rest }))
    ∧ (∀ (s t : State) (i : Instr),
      s.phase = .program → decode (programWords s) = .ok i → exec i s = .next t →
      step s = .next (if i = .endProgram then t
        else t.setStage { t.stage with cp := t.stage.cp + BitVec.ofNat 16 i.length }))

/-- At the control port, words that are no command, and a command whose operands are illegal or that its source may
not give, leave `IllegalCommand` in `RES` and change nothing else (R116 to R119, R122). That words which are not exactly
one whole command, too few or too many, are answered so as well is the model's choice (log 11). -/
def Obligations.IllegalCommandChangesOnlyRes : Prop :=
  (∀ (s : State) (d : Bool) (ws : List Word) (rest : List (List Word)) (e : DecodeError),
      s.phase = .drain d → s.stage.cq = ws :: rest → decodePort ws = .error e →
      step s = .next (s.setStage { s.stage with cq := rest, res := 0x02 }))
    ∧ (∀ (i : Instr) (s : State), s.inProgram = false → accepted i s = false →
      exec i s = .next (s.setStage { s.stage with res := 0x02 }))

/-- The control queue. A drain step that goes on removes exactly the front command, stays in the drain, and leaves that
command's own result code in `RES`, `IllegalCommand` for words that are no command; with the queue empty `RES` stays as
it is (R412). A command the host presents at a port that is ready is appended to the queue and takes one free slot, and
nothing else changes; at a full queue the host holds it, no queue changes but by reset, and if the host has nothing else
to do, nothing at all (R77, R410). That a step is one command, that the host waits while other agents go on, and the
answer to words that are not one command are the model's choices (log 1, log 9, log 11). -/
def Obligations.DrainTakesOneCommand : Prop :=
  (∀ (s t : State) (d : Bool) (ws : List Word) (rest : List (List Word)),
      s.phase = .drain d → s.stage.cq = ws :: rest → step s = .next t →
      t.phase = .drain d ∧ t.stage.cq = rest ∧ t.cur = s.cur
        ∧ t.stage.res = match decodePort ws with
          | .ok i => (resultOf i s).word
          | .error _ => 0x00000002)
    ∧ (∀ (s : State) (d : Bool), s.phase = .drain d → s.stage.cq = [] →
      ∃ t, step s = .next t ∧ t.a.res = s.a.res ∧ t.b.res = s.b.res ∧ t.phase ≠ .drain d)
    ∧ (∀ (s : State) (id : StageId) (ws : List Word) (rest : List Input),
      s.phase = .between → s.inputs = .enqueue id ws :: rest → (s.stageAt id).cq.length < s.cfg.cqDepth →
      ∃ t, step s = .next t
        ∧ t.stageAt id = { s.stageAt id with cq := (s.stageAt id).cq ++ [ws] }
        ∧ cqFree t.cfg (t.stageAt id) + 1 = cqFree s.cfg (s.stageAt id)
        ∧ (∀ id', id' ≠ id → t.stageAt id' = s.stageAt id') ∧ t.inputs = rest ∧ t.phase = .between
        ∧ t.cur = s.cur ∧ t.handoff = s.handoff ∧ t.latch = s.latch ∧ t.cfg = s.cfg)
    ∧ (∀ (s : State) (id : StageId) (ws : List Word) (rest : List Input),
      s.phase = .between → s.inputs = .enqueue id ws :: rest → s.cfg.cqDepth ≤ (s.stageAt id).cq.length →
      ((∀ x ∈ rest, ∃ id' ws', x = .enqueue id' ws') → step s = .next s)
        ∧ ∀ t : State, step s = .next t →
          (∃ rest', t.inputs = .enqueue id ws :: rest')
            ∧ ((∀ id', (t.stageAt id').cq = (s.stageAt id').cq) ∨ ∃ rest', nextEvent s.inputs = some (.reset, rest')))

/-- A dispatch ends: from a command of a well-formed program, after at most as many steps as there are words left, the
machine is at the store or a command has faulted (R385, R416). Steps are the model's (log 1); a fault is that of R14
or R24. -/
def Obligations.DispatchTerminates : Prop :=
  ∀ s : State, s.onCourse = true → s.phase = .program →
    ∃ k ≤ (programWords s).length,
      (∃ t, Host.Core.run core k s = .next t ∧ t.phase = .store) ∨ ∃ f, Host.Core.run core k s = .fault f

/-- Nothing refuses a step but the environment: on course, only an arrival can be refused, never a command of the
queue or of a program (R120, R122, R400). The two refusals are the model's choice for inputs that R79 and R425 rule
out (log 12, log 13). -/
def Obligations.OnlyArrivalsAreRefused : Prop :=
  ∀ (s : State) (r : Refusal), s.onCourse = true → step s = .refused r →
    s.phase = .between ∧ (r = .handoffNotReady ∨ r = .malformedBlock)

/-- A dispatch begins, once the queue is empty, with the load of the latched block; if the selected effect is
initialized `cp` becomes 0 and the program runs, if not the store follows (R416, R417, R418). The dispatch of an effect
that is not set up, or whose program is `END` alone, passes the block through bit for bit: two steps, or three, put out
the input block, stage A's also at the end of the hand-off; the load's words, `FSM`, `cp` and the output are all that
changes (R80, R135, R385, R416 to R419). The number of steps is the model's (log 1). -/
def Obligations.EffectPassThrough : Prop :=
  (∀ s : State, s.phase = .drain true → s.stage.cq = [] →
    step s = .next
      (if s.stage.effInit[s.stage.effect.toNat]? = some true then
        { s.setStage { s.stage with buf := loadBlock s.latch s.stage.buf, cp := 0 } with phase := .program }
      else { s.setStage { s.stage with buf := loadBlock s.latch s.stage.buf } with phase := .store }))
  ∧ ∀ s : State, Config.wf s.cfg = true → s.phase = .drain true → s.stage.cq = [] → blockShaped s.cfg s.latch = true →
    (effectReady s.stage = false →
      ∃ t, Host.Core.run core 2 s = .next t
        ∧ AnswerEnds s { s.stage with buf := loadBlock s.latch s.stage.buf, fsm := .running } s.latch t)
    ∧ (effectReady s.stage = true → s.programs[s.stage.effect.toNat]? = some [0x00000000] →
      ∃ t, Host.Core.run core 3 s = .next t
        ∧ AnswerEnds s { s.stage with buf := loadBlock s.latch s.stage.buf, fsm := .running, cp := 0 } s.latch t)

/-- The load writes the words `0 … BLKSZ−1` of the two I/O buffers and no other word (R418). -/
def Obligations.LoadWritesOnlyTheBlock : Prop :=
  ∀ (c : Config) (blk : Block) (m : Memory), Config.wf c = true → blockShaped c blk = true →
    ∀ (b : Byte) (i : Nat), i < 65536 →
      bufRead (loadBlock blk m) b i =
        if b = 0 ∧ i < c.blksz then blk.ch0[i]? else if b = 1 ∧ i < c.blksz then blk.ch1[i]? else bufRead m b i

/-! ## Block arrival, overrun, hand-off, reset -/

/-- The answer to a block arrival, for either stage. An overrun puts out silence, counts one drop, sets `FSM` to
Overrun, and does nothing else: no drain, no dispatch, no load; the input block of that index is lost (R415, R421,
R431). Any other arrival begins the drain: of an Idle stage without a dispatch to come, of any other stage with the
block latched for it; `late` is ignored in Idle and Armed (R411, R415). An Idle stage puts out silence after its drain
(R415). The block index advances with the arrival (R414). That drain, dispatch and store are steps of their own is the
model's (log 1). -/
def Obligations.OverrunIsSilenceAndOneDrop : Prop :=
  (∀ (s : State) (late : Bool) (block : Block) (rest : List Input),
      s.phase = .between → s.inputs = .arrivalA late block :: rest →
      blockShaped s.cfg block = true → blockFinite block = true →
      let a := { s.a with blkIdx := s.a.blkIdx + 1 }
      (late = true → (s.a.fsm = .running ∨ s.a.fsm = .overrun) →
        step s = .next { s with
          a := { a with
            out := quiet s.cfg, fsm := .overrun
            drops := if s.a.drops = 0xFFFFFFFF then 0xFFFFFFFF else s.a.drops + 1 }
          handoff := s.handoff ++ [quiet s.cfg], cur := .A, inputs := rest })
      ∧ (s.a.fsm = .idle →
        step s = .next { s with a := a, cur := .A, inputs := rest, phase := .drain false })
      ∧ (s.a.fsm = .armed ∨ (late = false ∧ (s.a.fsm = .running ∨ s.a.fsm = .overrun)) →
        step s = .next { s with a := a, cur := .A, inputs := rest, phase := .drain true, latch := block }))
    ∧ (∀ (s : State) (late : Bool) (block : Block) (blocks : List Block) (rest : List Input),
      s.phase = .between → s.inputs = .arrivalB late :: rest → s.handoff = block :: blocks →
      let b := { s.b with blkIdx := s.b.blkIdx + 1 }
      (late = true → (s.b.fsm = .running ∨ s.b.fsm = .overrun) →
        step s = .next { s with
          b := { b with
            out := quiet s.cfg, fsm := .overrun
            drops := if s.b.drops = 0xFFFFFFFF then 0xFFFFFFFF else s.b.drops + 1 }
          handoff := blocks, cur := .B, inputs := rest })
      ∧ (s.b.fsm = .idle →
        step s = .next { s with b := b, handoff := blocks, cur := .B, inputs := rest, phase := .drain false })
      ∧ (s.b.fsm = .armed ∨ (late = false ∧ (s.b.fsm = .running ∨ s.b.fsm = .overrun)) →
        step s = .next { s with
          b := b, handoff := blocks, cur := .B, inputs := rest, phase := .drain true, latch := block }))
    ∧ (∀ s : State, s.phase = .drain false → s.stage.cq = [] →
      ∃ t, step s = .next t ∧ AnswerEnds s s.stage (quiet s.cfg) t)

/-- The transitions of `FSM` of either stage: no others exist, and only reset leads to Idle (R423). The drain, the
store and the arrival are steps of their own in the model (log 1). -/
def Obligations.FsmTransitions : Prop :=
  ∀ s t : State, s.onCourse = true → step s = .next t →
    ∀ id : StageId,
      let x := s.stageAt id
      let y := t.stageAt id
      y.fsm = x.fsm
      ∨ (x.fsm = .idle ∧ y.fsm = .armed ∧ s.cur = id ∧ ∃ d, s.phase = .drain d)
      ∨ (x.fsm = .armed ∧ y.fsm = .running ∧ s.cur = id ∧ s.phase = .store)
      ∨ (x.fsm = .running ∧ y.fsm = .overrun ∧ y.out = silence s.cfg ∧ y.drops = satInc x.drops)
      ∨ (x.fsm = .overrun ∧ y.fsm = .running ∧ s.cur = id ∧ s.phase = .store)
      ∨ (y.fsm = .idle ∧ ∃ rest, nextInput (portReady s) s.inputs = some (.reset, rest))

/-- `DROPS` of either stage changes only by the overrun, by one or not at all at saturation, and by reset; so it never
falls but by reset (R431). -/
def Obligations.DropsAreMonotonic : Prop :=
  ∀ s t : State, step s = .next t →
    (∃ rest, nextInput (portReady s) s.inputs = some (.reset, rest)
      ∧ s.phase = .between ∧ t.a.drops = 0 ∧ t.b.drops = 0)
    ∨ ∀ id : StageId,
        ((t.stageAt id).drops = (s.stageAt id).drops
          ∨ ((t.stageAt id).drops = satInc (s.stageAt id).drops ∧ (t.stageAt id).fsm = .overrun))
        ∧ (s.stageAt id).drops.toNat ≤ (t.stageAt id).drops.toNat

/-- Stage B consumes stage A's output blocks in order, each once, and stage A appends each of its output blocks once
(R80, R424): a B arrival that is taken removes the oldest block and latches it, unless stage B is Idle or overrun; an
answer of stage A that ends appends `OUT`; reset empties the hand-off; no other step changes it. That the hand-off is a
queue of blocks is the model's choice (log 12). -/
def Obligations.HandoffIsInOrder : Prop :=
  ∀ s t : State, step s = .next t →
    (s.phase = .between →
      match nextInput (portReady s) s.inputs with
      | some (.arrivalB _, _) =>
        t.cur = .B ∧ ∃ block, s.handoff = block :: t.handoff
          ∧ ((t.phase = .drain true ∧ t.latch = block) ∨ (t.phase = .drain false ∧ s.b.fsm = .idle)
            ∨ (t.phase = .between ∧ t.b.fsm = .overrun ∧ t.b.out = quiet s.cfg))
      | some (.arrivalA _ _, _) =>
        t.cur = .A ∧ t.handoff = if t.phase = .between then s.handoff ++ [t.a.out] else s.handoff
      | some (.reset, _) => t.handoff = []
      | some (.enqueue _ _, _) => t.handoff = s.handoff
      | none => t.handoff = s.handoff)
    ∧ (s.phase ≠ .between →
      t.handoff = if s.cur = .A ∧ t.phase = .between then s.handoff ++ [t.a.out] else s.handoff)

/-- What reset leaves in each stage, for every configuration: the values R451 gives. -/
def Obligations.ResetValues : Prop :=
  ∀ (c : Config) (st : Stage), (st = (State.resetWith c).a ∨ st = (State.resetWith c).b) →
    st.fsm = .idle ∧ st.effect = 0 ∧ st.drops = 0 ∧ st.res = 0x00000000 ∧ st.oscval = 0x00000000
      ∧ st.cq = [] ∧ cqFree c st = c.cqDepth
      ∧ st.effInit.length = c.nEffects ∧ (∀ e ∈ st.effInit, e = false) ∧ st.cp = 0 ∧ st.blkIdx = 0
      ∧ (∀ cls : Nat, ∀ b ∈ initBits st cls, b = false)
      ∧ (∀ x ∈ st.trk, x.level = 0x00000000) ∧ (∀ x ∈ st.zc, x.freq = 0x00000000 ∧ x.locked = false)
      ∧ (∀ x ∈ st.sy, x.playing = false)

/-- Reset is one step from between two answers to the state after reset, both stages and the hand-off at once; the
configuration stays (R450). In that state the fields R451 names have its values (`ResetValues`); what R451 leaves
unspecified, the fields of the instances, the ring cells, `OUT`, the hand-off and the latched block, has the values the
model chose (log 4, log 5, log 21). What the environment does afterwards stays too: the model's own field (log 9,
log 20). -/
def Obligations.ResetIsOneStep : Prop :=
  ∀ (s : State) (rest : List Input), s.phase = .between → s.inputs = .reset :: rest →
    step s = .next { State.resetWith s.cfg with inputs := rest }

/-! ## Invariants -/

/-- The four invariants hold after reset, for every legal configuration (R8, R14, R451). What R451 leaves unspecified
has the values the model chose (log 4, log 5, log 21). -/
def Obligations.InvariantsHoldAtReset : Prop :=
  ∀ c : Config, Config.wf c = true →
    (State.resetWith c).formed = true ∧ (State.resetWith c).finite = true ∧ (State.resetWith c).pointersOk = true
      ∧ (State.resetWith c).onCourse = true

/-- Every step keeps the form of the machine: memories canonical and in their capacities, files of their sizes, the
selected effect an effect, the queues within `CQ_DEPTH` (R8, R22, R29, R32, R71). The canonical form of the memories
is the model's (log 3, log 5). -/
def Obligations.StepKeepsTheForm : Prop :=
  ∀ s t : State, s.formed = true → step s = .next t → t.formed = true

/-- Every step keeps every sample and every real-valued state word a finite number (R14, R406). Where a non-finite
number arises the step is a fault, so there is no next state (log 7). -/
def Obligations.StepKeepsValuesFinite : Prop :=
  ∀ s t : State, s.finite = true → step s = .next t → t.finite = true

/-- Every step keeps the counters, pointers and taps of every instance within their bounds: of R199 the transition
counter, of R223 `wp`, `tap`, `tapf`, `target`, `rem` and that `tap` is `target` when the ramp is over, of R340 the
indices and counters, of R360 the position, and the index bounds of R10, R38, R39, R44 and R72; the third word of a
biquad's state line stays +0.0 (R192). The bounds these rules put on other real-valued fields are not part of it
(log 26). Of a position R360 says `pos < b4` or `b4 = 0`; where a note-off meets a release of length 0 the rules
themselves give `pos = b4` (R359), so the bound is `pos ≤ b4`, strict if the release is not empty (log 26). -/
def Obligations.StepKeepsPointersInBounds : Prop :=
  ∀ s t : State, s.pointersOk = true → step s = .next t → t.pointersOk = true

/-- Every step keeps the machine on course: a program stays at a command of its own, the words of the block stay
written until the store (R120, R416, R419). -/
def Obligations.StepKeepsTheCourse : Prop :=
  ∀ s t : State, s.onCourse = true → step s = .next t → t.onCourse = true

/-- On course the store never meets an unwritten word: it puts out the two I/O buffers, the block of stage A stands last
in the hand-off, `FSM` is Running and the answer ends (R80, R415, R419, R424). -/
def Obligations.StoreAlwaysSucceeds : Prop :=
  ∀ s : State, s.onCourse = true → s.phase = .store →
    ∃ (out : Block) (t : State), step s = .next t ∧ AnswerEnds s { s.stage with fsm := .running } out t
      ∧ out.ch0.length = s.cfg.blksz ∧ out.ch1.length = s.cfg.blksz
      ∧ ∀ i < s.cfg.blksz, out.ch0[i]? = bufRead s.stage.buf 0 i ∧ out.ch1[i]? = bufRead s.stage.buf 1 i

/-! ## Frames of every command -/

/-- A command changes nothing outside the acting stage, but for `END`, which ends the program; in the acting stage each
pipeline register changes only by the commands R29 names (R21, R29, R87). -/
def Obligations.CommandChangesOnlyItsRegisters : Prop :=
  ∀ (i : Instr) (s t : State), exec i s = .next t →
    t.other = s.other ∧ t.cfg = s.cfg ∧ t.cur = s.cur ∧ t.handoff = s.handoff ∧ t.latch = s.latch
      ∧ t.inputs = s.inputs ∧ (i ≠ .endProgram → t.phase = s.phase)
      ∧ t.stage.cp = s.stage.cp ∧ t.stage.drops = s.stage.drops ∧ t.stage.cq = s.stage.cq
      ∧ t.stage.blkIdx = s.stage.blkIdx ∧ t.stage.out = s.stage.out
      ∧ (i ≠ .stArm → t.stage.fsm = s.stage.fsm)
      ∧ ((∀ e, i ≠ .stSelect e) → t.stage.effect = s.stage.effect)
      ∧ ((∀ e, i ≠ .efSetup e) → t.stage.effInit = s.stage.effInit)
      ∧ ((∀ ty p d, i ≠ .oscEval ty p d) → t.stage.oscval = s.stage.oscval)

/-- Every command produces one result code, the one the checks of R403 give it: from the control port it is left in
`RES`, from a program it is discarded (R18, R401). The codes have the numbers of R401, no two the same, and `OK` is code
0. -/
def Obligations.ResultCodeGoesToRes : Prop :=
  (∀ (i : Instr) (s t : State), exec i s = .next t →
      t.stage.res = if s.inProgram then s.stage.res else (resultOf i s).word)
    ∧ (∀ code : ResultCode, (code, code.number) ∈ codeTable ∧ code.word = code.number.setWidth 32)
    ∧ (codeTable.map Prod.snd).Nodup ∧ ResultCode.ok.number = 0

/-- A command writes no word of a block buffer but the first `n` words of its destination (R25, R131). -/
def Obligations.CommandWritesOnlyItsDestination : Prop :=
  ∀ (i : Instr) (s t : State), exec i s = .next t →
    ∀ (b : Byte) (j : Nat), j < 65536 → (∀ bd n, destination i = some (bd, n) → ¬ (b = bd ∧ j < n)) →
      bufRead t.stage.buf b j = bufRead s.stage.buf b j

/-- A command changes no instance but the one it names, of its own class (R21, R34, R71). The instances are files: what
is put at an index of a class is what is read back there, and nothing else of the stage changes (R33, R34). -/
def Obligations.CommandChangesOnlyItsInstance : Prop :=
  (∀ (i : Instr) (s t : State) (k : Nat), exec i s = .next t →
    (¬ names i 1 k → t.stage.bq[k]? = s.stage.bq[k]?) ∧ (¬ names i 2 k → t.stage.dl[k]? = s.stage.dl[k]?)
      ∧ (¬ names i 3 k → t.stage.mt[k]? = s.stage.mt[k]?) ∧ (¬ names i 4 k → t.stage.ap[k]? = s.stage.ap[k]?)
      ∧ (¬ names i 5 k → t.stage.vd[k]? = s.stage.vd[k]?) ∧ (¬ names i 6 k → t.stage.cpr[k]? = s.stage.cpr[k]?)
      ∧ (¬ names i 7 k → t.stage.cl[k]? = s.stage.cl[k]?) ∧ (¬ names i 9 k → t.stage.am[k]? = s.stage.am[k]?)
      ∧ (¬ names i 10 k → t.stage.sy[k]? = s.stage.sy[k]?) ∧ (¬ names i 11 k → t.stage.zc[k]? = s.stage.zc[k]?)
      ∧ (¬ names i 12 k → t.stage.sm[k]? = s.stage.sm[k]?) ∧ (¬ names i 13 k → t.stage.trk[k]? = s.stage.trk[k]?))
    ∧ IsFile bqSlot Stage.bq (fun st l => { st with bq := l })
    ∧ IsFile dlSlot Stage.dl (fun st l => { st with dl := l })
    ∧ IsFile mtSlot Stage.mt (fun st l => { st with mt := l })
    ∧ IsFile apSlot Stage.ap (fun st l => { st with ap := l })
    ∧ IsFile vdSlot Stage.vd (fun st l => { st with vd := l })
    ∧ IsFile cpSlot Stage.cpr (fun st l => { st with cpr := l })
    ∧ IsFile clSlot Stage.cl (fun st l => { st with cl := l })
    ∧ IsFile amSlot Stage.am (fun st l => { st with am := l })
    ∧ IsFile sySlot Stage.sy (fun st l => { st with sy := l })
    ∧ IsFile zcSlot Stage.zc (fun st l => { st with zc := l })
    ∧ IsFile smSlot Stage.sm (fun st l => { st with sm := l })
    ∧ IsFile atSlot Stage.trk (fun st l => { st with trk := l })

/-! ## The null instance and the uninitialized instance -/

/-- The null instance: an index not below the class's count names none, so a class of 256 has no null instance. A
setup, modify, note or tap command, and a reading command without a destination, finishes with
`InvalidInstancePointer` and changes nothing; a reading command with a destination copies its source to it bit for bit
and finishes with `InvalidInstancePointer` (R132, R404). -/
def Obligations.NullInstance : Prop :=
  (∀ (c : Config) (st : Stage) (i : Instr) (inst : Byte), Stage.formed c st = true → instanceOf i = some inst →
      (namedInit st i = none ↔ classCount c (classOf i) ≤ inst.toNat)
        ∧ (classCount c (classOf i) = 256 → namedInit st i ≠ none))
    ∧ ∀ (i : Instr) (s : State) (inst : Byte), accepted i s = true → instanceOf i = some inst →
      namedInit s.stage i = none →
      (destination i = none → exec i s = .next (answered .invalidInstancePointer s))
      ∧ (∀ (bs bd : Byte) (n : BitVec 16) (k : Nat) (xs : List F32), source i = some (bs, n) →
          destination i = some (bd, k) → bufStore s.stage.buf bs n.toNat 0 = .ok xs →
          exec i s = .next (answered .invalidInstancePointer (s.setBuf (bufLoad bd 0 xs s.stage.buf))))

/-- An instance never successfully set up: a reading command with a destination copies its source to it bit for bit and
answers `OK`; one without writes nothing; a modify, note or tap command writes nothing and only answers the code its
parameters have, that of the clamp or `OK`; no instance state changes (R132, R134, R401). -/
def Obligations.UninitializedInstance : Prop :=
  ∀ (i : Instr) (s : State), accepted i s = true → namedInit s.stage i = some false → isSetup i = false →
    (source i = none → exec i s = .next (answered (parameterCode s.cfg i) s))
    ∧ (∀ bs n, source i = some (bs, n) → destination i = none → exec i s = .next (answered .ok s))
    ∧ (∀ (bs bd : Byte) (n : BitVec 16) (k : Nat) (xs : List F32), source i = some (bs, n) →
        destination i = some (bd, k) → bufStore s.stage.buf bs n.toNat 0 = .ok xs →
        exec i s = .next (answered .ok (s.setBuf (bufLoad bd 0 xs s.stage.buf))))

/-! ## `END`, the buffer utilities, the pipeline commands, the oscillator -/

/-- `END` completes in every program: the dispatch stops, what follows is the store, `cp` and everything else stay
(R135, R416). -/
def Obligations.EndStopsTheDispatch : Prop :=
  ∀ s : State, s.inProgram = true → exec .endProgram s = .next (s.setPhase .store)

/-- `COPY` moves `n` words bit for bit, `CLEAR` writes +0.0 to `n` words, `MIX2` writes the rounded sums and `GAIN`
the rounded products of `n` words, whatever of the buffers are the same; no other word and nothing else changes (R131,
R136 to R139). The premise that sums and products are finite is R14's. -/
def Obligations.BufferUtilities : Prop :=
  (∀ (bs bd : Byte) (n : BitVec 16) (s : State) (xs : List F32), accepted (.copy bs bd n) s = true →
      bufStore s.stage.buf bs n.toNat 0 = .ok xs →
      exec (.copy bs bd n) s = .next (answered .ok (s.setBuf (bufLoad bd 0 xs s.stage.buf))))
    ∧ (∀ (bd : Byte) (n : BitVec 16) (s : State), accepted (.clear bd n) s = true →
      exec (.clear bd n) s =
        .next (answered .ok (s.setBuf (bufLoad bd 0 (List.replicate n.toNat 0x00000000) s.stage.buf))))
    ∧ (∀ (bs bs2 bd : Byte) (n : BitVec 16) (s : State) (xs ys : List F32), accepted (.mix2 bs bs2 bd n) s = true →
      bufStore s.stage.buf bs n.toNat 0 = .ok xs → bufStore s.stage.buf bs2 n.toNat 0 = .ok ys →
      (List.zipWith fadd xs ys).all isFinite = true →
      exec (.mix2 bs bs2 bd n) s =
        .next (answered .ok (s.setBuf (bufLoad bd 0 (List.zipWith fadd xs ys) s.stage.buf))))
    ∧ (∀ (bs bd : Byte) (n : BitVec 16) (g : F32) (s : State) (xs : List F32), accepted (.gain bs bd n g) s = true →
      bufStore s.stage.buf bs n.toNat 0 = .ok xs → (xs.map fun x => fmul x g).all isFinite = true →
      exec (.gain bs bd n g) s =
        .next (answered .ok (s.setBuf (bufLoad bd 0 (xs.map fun x => fmul x g) s.stage.buf))))

/-- `GAIN` by 1.0 leaves every finite sample bit-identical, −0.0 and subnormals included (R139, R140). -/
def Obligations.GainByOneIsACopy : Prop :=
  ∀ (bs bd : Byte) (n : BitVec 16) (s : State) (xs : List F32), accepted (.gain bs bd n 0x3F800000) s = true →
    bufStore s.stage.buf bs n.toNat 0 = .ok xs → xs.all isFinite = true →
    exec (.gain bs bd n 0x3F800000) s = .next (answered .ok (s.setBuf (bufLoad bd 0 xs s.stage.buf)))

/-- `ST.ARM`: Idle becomes Armed, any other state stays. `ST.SELECT`: the effect is selected; an index `≥ N_EFFECTS`
selects the last effect and answers `InvalidEffectIndex`. `EF.SETUP`: the effect's flag is set; an index `≥ N_EFFECTS`
changes no flag and answers `InvalidEffectIndex`. Nothing else changes (R156, R157, R158). -/
def Obligations.PipelineCommands : Prop :=
  ∀ (e : Byte) (s : State), s.inProgram = false →
    exec .stArm s =
        .next (s.setStage { s.stage with fsm := (if s.stage.fsm = .idle then .armed else s.stage.fsm), res := 0x00 })
      ∧ exec (.stSelect e) s =
        .next (s.setStage
          (if s.cfg.nEffects ≤ e.toNat then { s.stage with effect := BitVec.ofNat 8 (s.cfg.nEffects - 1), res := 0x03 }
           else { s.stage with effect := e, res := 0x00 }))
      ∧ exec (.efSetup e) s =
        .next (s.setStage
          (if s.cfg.nEffects ≤ e.toNat then { s.stage with res := 0x03 }
           else { s.stage with effInit := s.stage.effInit.set e.toNat true, res := 0x00 }))

/-- `OSC.EVAL` (R171, R173): the waveform's value is put in `OSCVAL`; a phase outside `[0, 1)`, or for the pulse a
duty outside `(0, 1)`, answers its code and keeps `OSCVAL`. Every waveform but the sine treats a phase of −0.0 as +0.0
(R173, log 30). For a legal phase and duty the value is always finite: the command never faults. -/
def Obligations.OscEvalIsTheWaveform : Prop :=
  ∀ (ty : Word) (phase duty : F32) (s : State), accepted (.oscEval ty phase duty) s = true →
    (flt phase fzero = true ∨ fge phase fone = true →
        exec (.oscEval ty phase duty) s = .next (answered .oscInvalidPhase s))
    ∧ (flt phase fzero = false → fge phase fone = false → ty = 4 → (fle duty fzero = true ∨ fge duty fone = true) →
        exec (.oscEval ty phase duty) s = .next (answered .oscInvalidDuty s))
    ∧ (flt phase fzero = false → fge phase fone = false → (ty = 4 → fle duty fzero = false ∧ fge duty fone = false) →
        exec (.oscEval ty phase duty) s =
          .next (answered .ok (s.setStage { s.stage with oscval := waveform ty phase duty })))

/-! ## Setups: the success and every failing check, in the order of the checks (R133, R403, R405) -/

/-- `SM.SETUP`, `AT.SETUP`, `CL.SETUP`, `ZC.SETUP` on an instance the stage has: with the parameter in range every
field is written and the state zeroed; with it out of range only `init` is cleared and the code is answered (R133,
R147, R150, R302, R337, R405). -/
def Obligations.SetupsWithAtMostOneCheck : Prop :=
  (∀ (inst : Byte) (c : F32) (s : State) (x : Smoother), accepted (.smSetup inst c) s = true →
      s.stage.sm[inst.toNat]? = some x →
      exec (.smSetup inst c) s =
        if inRange 0x00000000 c 0x3F800000 then
          .next (answered .ok (s.setStage (smSlot.put s.stage inst { init := true, c := c, y := 0 })))
        else
          .next (answered .smInvalidCoefficient (s.setStage (smSlot.put s.stage inst { x with init := false }))))
    ∧ (∀ (inst : Byte) (mode : Word) (c : F32) (s : State) (x : Tracker), accepted (.atSetup inst mode c) s = true →
      s.stage.trk[inst.toNat]? = some x →
      exec (.atSetup inst mode c) s =
        if inRange 0x00000000 c 0x3F800000 then
          .next (answered .ok (s.setStage (atSlot.put s.stage inst
            { init := true, mode := if mode = 0 then .peak else .rms, c := c, acc := 0, level := 0 })))
        else
          .next (answered .atInvalidCoefficient (s.setStage (atSlot.put s.stage inst { x with init := false }))))
    ∧ (∀ (inst : Byte) (thr : F32) (mode os : Word) (s : State) (x : Clipper),
      accepted (.clSetup inst thr mode os) s = true → s.stage.cl[inst.toNat]? = some x →
      exec (.clSetup inst thr mode os) s =
        if inRange 0x3A83126F thr 0x3F800000 then
          .next (answered .ok (s.setStage (clSlot.put s.stage inst
            { init := true, thr := thr, mode := if mode = 0 then .smooth else .smoother, os := decide (os = 1)
              zu := List.replicate s.cfg.clUpTaps.length 0, zd := List.replicate s.cfg.clDnTaps.length 0 })))
        else
          .next (answered .clInvalidThreshold (s.setStage (clSlot.put s.stage inst { x with init := false }))))
    ∧ (∀ (inst : Byte) (fs : F32) (s : State) (x : ZeroCross), accepted (.zcSetup inst fs) s = true →
      s.stage.zc[inst.toNat]? = some x →
      exec (.zcSetup inst fs) s =
        .next (answered .ok (s.setStage (zcSlot.put s.stage inst
          { init := true, fs := fs, hp := 0, lpf := 0, ppk := 0, npk := 0, pol := false, cnt := 0xFFFFFFFF
            hist := List.replicate s.cfg.zcHistLen 0, hidx := 0, hcount := 0, freq := 0, locked := false
            grace := 0, idle := 0 }))))

/-- `DL.SETUP`, `MT.SETUP`, `AP.SETUP` on an instance the stage has (R216, R230, R240): the checks in their order,
then every field, the ring zeroed. A ring without entries holds +0.0 in every cell (log 5). -/
def Obligations.DelaySetups : Prop :=
  (∀ (inst : Byte) (len : Word) (fb ft damp : F32) (s : State) (x : FeedbackDelay),
      accepted (.dlSetup inst len fb ft damp) s = true → s.stage.dl[inst.toNat]? = some x →
      exec (.dlSetup inst len fb ft damp) s =
        if ¬ (1 ≤ len.toNat ∧ len.toNat ≤ capOf s.cfg.dlCap inst) then
          .next (answered .dlInvalidLength (s.setStage (dlSlot.put s.stage inst { x with init := false })))
        else if ¬ inRange 0xBF800000 fb 0x3F800000 then
          .next (answered .dlInvalidFeedback (s.setStage (dlSlot.put s.stage inst { x with init := false })))
        else if ¬ inRange 0x00000000 damp 0x3F800000 then
          .next (answered .dlInvalidDamping (s.setStage (dlSlot.put s.stage inst { x with init := false })))
        else
          .next (answered .ok (s.setStage (dlSlot.put s.stage inst
            { init := true, ring := [], wp := 0, tap := len, tapf := u2f len.toNat, target := len, tinc := 0
              rem := 0, fb := fb, ft := ft, damp := damp, lp := 0 }))))
    ∧ (∀ (inst : Byte) (ntaps : Word) (s : State) (x : Multitap), accepted (.mtSetup inst ntaps) s = true →
      s.stage.mt[inst.toNat]? = some x →
      exec (.mtSetup inst ntaps) s =
        .next (answered .ok (s.setStage (mtSlot.put s.stage inst
          { init := true, ring := [], wp := 0, ntaps := ntaps.setWidth 16
            off := List.replicate s.cfg.mtMaxTaps 1, g := List.replicate s.cfg.mtMaxTaps 0 }))))
    ∧ (∀ (inst : Byte) (len : Word) (gain : F32) (s : State) (x : Allpass), accepted (.apSetup inst len gain) s = true →
      s.stage.ap[inst.toNat]? = some x →
      exec (.apSetup inst len gain) s =
        if ¬ (1 ≤ len.toNat ∧ len.toNat ≤ capOf s.cfg.apCap inst) then
          .next (answered .apInvalidLength (s.setStage (apSlot.put s.stage inst { x with init := false })))
        else if ¬ inRange 0xBF800000 gain 0x3F800000 then
          .next (answered .apInvalidGain (s.setStage (apSlot.put s.stage inst { x with init := false })))
        else
          .next (answered .ok (s.setStage (apSlot.put s.stage inst
            { init := true, ring := [], len := len, idx := 0, gain := gain }))))

/-- `VD.SETUP` and `AM.SETUP` on an instance the stage has (R257, R322): the checks in their order, then every field,
the ring and the phase zeroed. That the phase increment of a rate in range is finite is R14's premise. A ring without
entries holds +0.0 in every cell (log 5). -/
def Obligations.ModulatedSetups : Prop :=
  (∀ (inst : Byte) (ty : Word) (depth rate fb fs : F32) (s : State) (x : VariableDelay),
      accepted (.vdSetup inst ty depth rate fb fs) s = true → s.stage.vd[inst.toNat]? = some x →
      (inRange s.cfg.modRateMin rate s.cfg.modRateMax = true → isFinite (fdiv rate fs) = true) →
      exec (.vdSetup inst ty depth rate fb fs) s =
        if ¬ inRange 0x00000000 depth 0x3F800000 then
          .next (answered .vdInvalidDepth (s.setStage (vdSlot.put s.stage inst { x with init := false })))
        else if ¬ inRange s.cfg.modRateMin rate s.cfg.modRateMax then
          .next (answered .vdInvalidRate (s.setStage (vdSlot.put s.stage inst { x with init := false })))
        else if ¬ inRange 0xBF800000 fb 0x3F800000 then
          .next (answered .vdInvalidFeedback (s.setStage (vdSlot.put s.stage inst { x with init := false })))
        else
          .next (answered .ok (s.setStage (vdSlot.put s.stage inst
            { init := true, ring := [], wp := 0, ty := modTypeOf ty, depth := depth, rate := rate, fb := fb, fs := fs
              pinc := fdiv rate fs, phase := 0 }))))
    ∧ (∀ (inst : Byte) (ty : Word) (depth rate fs : F32) (s : State) (x : AmpMod),
      accepted (.amSetup inst ty depth rate fs) s = true → s.stage.am[inst.toNat]? = some x →
      (inRange s.cfg.modRateMin rate s.cfg.modRateMax = true → isFinite (fdiv rate fs) = true) →
      exec (.amSetup inst ty depth rate fs) s =
        if ¬ inRange 0x00000000 depth 0x3F800000 then
          .next (answered .amInvalidDepth (s.setStage (amSlot.put s.stage inst { x with init := false })))
        else if ¬ inRange s.cfg.modRateMin rate s.cfg.modRateMax then
          .next (answered .amInvalidRate (s.setStage (amSlot.put s.stage inst { x with init := false })))
        else
          .next (answered .ok (s.setStage (amSlot.put s.stage inst
            { init := true, ty := modTypeOf ty, depth := depth, rate := rate, fs := fs, pinc := fdiv rate fs
              phase := 0 }))))

/-- `BQ.SETUP` on an instance the stage has (R189, R190): Q, then frequency, then gain are checked; then every field,
with the coefficients of the parameters, no transition and a zero state line. That the coefficients of parameters in
range are finite is R14's premise. -/
def Obligations.BqSetupChecksThenWrites : Prop :=
  ∀ (inst : Byte) (ty speed : Word) (freq q gainDb fs : F32) (s : State) (x : Biquad),
    accepted (.bqSetup inst ty speed freq q gainDb fs) s = true → s.stage.bq[inst.toNat]? = some x →
    let k := coeffsOf (filterTypeOf ty) freq q gainDb fs
    (inRange 0x3C23D70A q 0x42C80000 = true → inRange 0x41200000 freq 0x469C4000 = true →
      inRange s.cfg.bqGainMinDb gainDb s.cfg.bqGainMaxDb = true → [k.A1, k.A2, k.B1, k.B2, k.scale].all isFinite = true) →
    exec (.bqSetup inst ty speed freq q gainDb fs) s =
      if ¬ inRange 0x3C23D70A q 0x42C80000 then
        .next (answered .bqInvalidQ (s.setStage (bqSlot.put s.stage inst { x with init := false })))
      else if ¬ inRange 0x41200000 freq 0x469C4000 then
        .next (answered .bqInvalidFreq (s.setStage (bqSlot.put s.stage inst { x with init := false })))
      else if ¬ inRange s.cfg.bqGainMinDb gainDb s.cfg.bqGainMaxDb then
        .next (answered .bqInvalidGain (s.setStage (bqSlot.put s.stage inst { x with init := false })))
      else
        .next (answered .ok (s.setStage (bqSlot.put s.stage inst
          { init := true, ty := filterTypeOf ty, speed := speed.setWidth 16, fs := fs
            freq := freq, q := q, gain := gainDb, dfreq := freq, dq := q, dgain := gainDb
            finc := 0, qinc := 0, ginc := 0, count := 0, w0 := 0, w1 := 0, w2 := 0
            A1 := k.A1, A2 := k.A2, B1 := k.B1, B2 := k.B2, scale := k.scale })))

/-- The coefficient law gives `0 < tc ≤ 1` for every time above zero and every legal sample rate (R13, R276). `CP.SETUP`
on an instance the stage has (R276, R277): the six checks in their order, then every field, the derived ones computed
from their parameters. In a legal configuration there is no further premise, for the derived fields are then finite; in
any other, that they are is R14's premise. -/
def Obligations.CpSetupChecksThenWrites : Prop :=
  (∀ t fs : F32, isFinite t = true → flt 0x00000000 t = true → isFinite fs = true →
      inRange 0x472C4400 fs 0x48435000 = true → flt 0x00000000 (tcOf t fs) = true ∧ fle (tcOf t fs) 0x3F800000 = true)
  ∧ ∀ (inst : Byte) (thr ratio att rel gain rms fs : F32) (s : State) (x : Compressor),
    accepted (.cpSetup inst thr ratio att rel gain rms fs) s = true → s.stage.cpr[inst.toNat]? = some x →
    (Config.wf s.cfg = true ∨
      (inRange 0xC2C80000 thr 0x41F00000 = true → inRange 0x3F800000 ratio s.cfg.cpRatioMax = true →
      inRange s.cfg.cpAttMinMs att s.cfg.cpAttMaxMs = true → inRange s.cfg.cpRelMinMs rel s.cfg.cpRelMaxMs = true →
      inRange s.cfg.cpGainMin gain s.cfg.cpGainMax = true → inRange s.cfg.cpRmsMinMs rms s.cfg.cpRmsMaxMs = true →
      [fmul thr 0x3E2A152D, fsub 0x3F800000 (fdiv 0x3F800000 ratio), tcOf att fs, tcOf rel fs,
        tcOf rms fs].all isFinite = true)) →
    exec (.cpSetup inst thr ratio att rel gain rms fs) s =
      if ¬ inRange 0xC2C80000 thr 0x41F00000 then
        .next (answered .cpInvalidThreshold (s.setStage (cpSlot.put s.stage inst { x with init := false })))
      else if ¬ inRange 0x3F800000 ratio s.cfg.cpRatioMax then
        .next (answered .cpInvalidRatio (s.setStage (cpSlot.put s.stage inst { x with init := false })))
      else if ¬ inRange s.cfg.cpAttMinMs att s.cfg.cpAttMaxMs then
        .next (answered .cpInvalidAttack (s.setStage (cpSlot.put s.stage inst { x with init := false })))
      else if ¬ inRange s.cfg.cpRelMinMs rel s.cfg.cpRelMaxMs then
        .next (answered .cpInvalidRelease (s.setStage (cpSlot.put s.stage inst { x with init := false })))
      else if ¬ inRange s.cfg.cpGainMin gain s.cfg.cpGainMax then
        .next (answered .cpInvalidGain (s.setStage (cpSlot.put s.stage inst { x with init := false })))
      else if ¬ inRange s.cfg.cpRmsMinMs rms s.cfg.cpRmsMaxMs then
        .next (answered .cpInvalidRms (s.setStage (cpSlot.put s.stage inst { x with init := false })))
      else
        .next (answered .ok (s.setStage (cpSlot.put s.stage inst
          { init := true, thr := thr, ratio := ratio, att := att, rel := rel, rms := rms, gain := gain, fs := fs
            thrL2 := fmul thr 0x3E2A152D, slope := fsub 0x3F800000 (fdiv 0x3F800000 ratio)
            attC := tcOf att fs, relC := tcOf rel fs, rmsC := tcOf rms fs, ms := 0, env := 0 })))

/-- `SY.SETUP` on an instance the stage has (R357): the segment lengths, the duty of a pulse and the sustain level are
checked in that order; then every field, and the voice comes up silent. -/
def Obligations.SySetupChecksThenWrites : Prop :=
  ∀ (inst : Byte) (a d su r ty : Word) (duty sl fs : F32) (s : State) (x : Synth),
    accepted (.sySetup inst a d su r ty duty sl fs) s = true → s.stage.sy[inst.toNat]? = some x →
    exec (.sySetup inst a d su r ty duty sl fs) s =
      if ¬ (a.toNat ≤ 0xFFFFFF ∧ d.toNat ≤ 0xFFFFFF ∧ su.toNat ≤ 0xFFFFFF ∧ r.toNat ≤ 0xFFFFFF) then
        .next (answered .syInvalidEnvelope (s.setStage (sySlot.put s.stage inst { x with init := false })))
      else if ty = 4 ∧ ¬ (flt 0x00000000 duty ∧ flt duty 0x3F800000) then
        .next (answered .syInvalidDuty (s.setStage (sySlot.put s.stage inst { x with init := false })))
      else if ¬ inRange 0x00000000 sl 0x3F800000 then
        .next (answered .syInvalidSustainLevel (s.setStage (sySlot.put s.stage inst { x with init := false })))
      else
        .next (answered .ok (s.setStage (sySlot.put s.stage inst
          { init := true, A := a, D := d, S := su, R := r, ty := waveTypeOf ty, duty := duty, sl := sl, fs := fs
            phase := 0, pinc := 0, vol := 0, pos := 0, playing := false })))

/-! ## Modifies on an instance that is set up: the clamped value is applied and the clamp reported (R134) -/

/-- `BQ.MODFREQ`, `BQ.MODQ`, `BQ.MODGAIN` (R193 to R196): the destination is set, all three increments are recomputed
from the current values and the counter restarts; the running values and coefficients stay. -/
def Obligations.BiquadModifiesRetarget : Prop :=
  ∀ (inst : Byte) (v : F32) (s : State) (x : Biquad), s.inProgram = false → isFinite v = true →
    s.stage.bq[inst.toNat]? = some x → x.init = true →
    (let y := retargeted { x with dfreq := clamped v 0x41200000 0x469C4000 };
      [y.finc, y.qinc, y.ginc].all isFinite = true →
      exec (.bqModFreq inst v) s =
        .next (answered (if flt v 0x41200000 || fgt v 0x469C4000 then .bqInvalidFreq else .ok)
          (s.setStage (bqSlot.put s.stage inst y))))
    ∧ (let y := retargeted { x with dq := clamped v 0x3C23D70A 0x42C80000 };
      [y.finc, y.qinc, y.ginc].all isFinite = true →
      exec (.bqModQ inst v) s =
        .next (answered (if flt v 0x3C23D70A || fgt v 0x42C80000 then .bqInvalidQ else .ok)
          (s.setStage (bqSlot.put s.stage inst y))))
    ∧ (let y := retargeted { x with dgain := clamped v s.cfg.bqGainMinDb s.cfg.bqGainMaxDb };
      [y.finc, y.qinc, y.ginc].all isFinite = true →
      exec (.bqModGain inst v) s =
        .next (answered (if flt v s.cfg.bqGainMinDb || fgt v s.cfg.bqGainMaxDb then .bqInvalidGain else .ok)
          (s.setStage (bqSlot.put s.stage inst y))))

/-- `DL.MODLEN`, `DL.MODFB`, `DL.MODFT`, `DL.MODDAMP` and `MT.SETTAP` (R218 to R221, R231). A length ramps from the
present tap over `DL_RAMP_STEPS` samples; the others take effect whole; the feedthrough has no bounds. -/
def Obligations.DelayModifies : Prop :=
  (∀ (inst : Byte) (len : Word) (s : State) (x : FeedbackDelay), s.inProgram = false →
      s.stage.dl[inst.toNat]? = some x → x.init = true →
      let cap := capOf s.cfg.dlCap inst
      let len' := if len.toNat < 1 then 1 else if cap < len.toNat then cap else len.toNat
      let tinc := fdiv (fsub (u2f len') x.tapf) (u2f s.cfg.dlRampSteps)
      isFinite tinc = true →
      exec (.dlModLen inst len) s =
        .next (answered (if len.toNat < 1 ∨ cap < len.toNat then .dlInvalidLength else .ok)
          (s.setStage (dlSlot.put s.stage inst
            { x with target := BitVec.ofNat 32 len', tinc := tinc, rem := BitVec.ofNat 32 s.cfg.dlRampSteps }))))
    ∧ (∀ (inst : Byte) (v : F32) (s : State) (x : FeedbackDelay), s.inProgram = false → isFinite v = true →
      s.stage.dl[inst.toNat]? = some x → x.init = true →
      exec (.dlModFb inst v) s =
          .next (answered (if flt v 0xBF800000 || fgt v 0x3F800000 then .dlInvalidFeedback else .ok)
            (s.setStage (dlSlot.put s.stage inst { x with fb := clamped v 0xBF800000 0x3F800000 })))
        ∧ exec (.dlModFt inst v) s =
          .next (answered .ok (s.setStage (dlSlot.put s.stage inst { x with ft := v })))
        ∧ exec (.dlModDamp inst v) s =
          .next (answered (if flt v 0x00000000 || fgt v 0x3F800000 then .dlInvalidDamping else .ok)
            (s.setStage (dlSlot.put s.stage inst { x with damp := clamped v 0x00000000 0x3F800000 }))))
    ∧ (∀ (inst : Byte) (tap off : Word) (gain : F32) (s : State) (x : Multitap),
      accepted (.mtSetTap inst tap off gain) s = true → s.stage.mt[inst.toNat]? = some x → x.init = true →
      let cap := capOf s.cfg.mtCap inst
      let off' := if off.toNat < 1 then 1 else if cap < off.toNat then cap else off.toNat
      exec (.mtSetTap inst tap off gain) s =
        .next (answered (if off.toNat < 1 ∨ cap < off.toNat then .mtInvalidOffset else .ok)
          (s.setStage (mtSlot.put s.stage inst
            { x with off := x.off.set tap.toNat (BitVec.ofNat 32 off'), g := x.g.set tap.toNat gain }))))

/-- `VD.MODDEPTH`, `VD.MODRATE`, `VD.MODFB`, `VD.MODTYPE` (R259 to R262); the phase is kept. -/
def Obligations.VariableDelayModifies : Prop :=
  (∀ (inst : Byte) (v : F32) (s : State) (x : VariableDelay), s.inProgram = false → isFinite v = true →
      s.stage.vd[inst.toNat]? = some x → x.init = true →
      exec (.vdModDepth inst v) s =
          .next (answered (if flt v 0x00000000 || fgt v 0x3F800000 then .vdInvalidDepth else .ok)
            (s.setStage (vdSlot.put s.stage inst { x with depth := clamped v 0x00000000 0x3F800000 })))
        ∧ (let rate := clamped v s.cfg.modRateMin s.cfg.modRateMax;
          isFinite (fdiv rate x.fs) = true →
          exec (.vdModRate inst v) s =
            .next (answered (if flt v s.cfg.modRateMin || fgt v s.cfg.modRateMax then .vdInvalidRate else .ok)
              (s.setStage (vdSlot.put s.stage inst { x with rate := rate, pinc := fdiv rate x.fs }))))
        ∧ exec (.vdModFb inst v) s =
          .next (answered (if flt v 0xBF800000 || fgt v 0x3F800000 then .vdInvalidFeedback else .ok)
            (s.setStage (vdSlot.put s.stage inst { x with fb := clamped v 0xBF800000 0x3F800000 }))))
    ∧ (∀ (inst : Byte) (ty : Word) (s : State) (x : VariableDelay), s.inProgram = false → ty.toNat ≤ 4 →
      s.stage.vd[inst.toNat]? = some x → x.init = true →
      exec (.vdModType inst ty) s =
        .next (answered .ok (s.setStage (vdSlot.put s.stage inst { x with ty := modTypeOf ty }))))

/-- `CP.MODTHR`, `CP.MODRATIO`, `CP.MODATT`, `CP.MODREL`, `CP.MODGAIN` (R279 to R283): each rewrites its parameter and
the field derived from it, and nothing else of the instance (R42). In a legal configuration the derived field is finite,
a time coefficient if the instance's sample rate is legal, as every setup leaves it (R276); elsewhere that is R14's
premise. -/
def Obligations.CompressorModifies : Prop :=
  ∀ (inst : Byte) (v : F32) (s : State) (x : Compressor), s.inProgram = false → isFinite v = true →
    s.stage.cpr[inst.toNat]? = some x → x.init = true →
    (let thr := clamped v 0xC2C80000 0x41F00000;
      exec (.cpModThr inst v) s =
        .next (answered (if flt v 0xC2C80000 || fgt v 0x41F00000 then .cpInvalidThreshold else .ok)
          (s.setStage (cpSlot.put s.stage inst { x with thr := thr, thrL2 := fmul thr 0x3E2A152D }))))
    ∧ (let ratio := clamped v 0x3F800000 s.cfg.cpRatioMax;
      Config.wf s.cfg = true ∨ isFinite (fsub 0x3F800000 (fdiv 0x3F800000 ratio)) = true →
      exec (.cpModRatio inst v) s =
        .next (answered (if flt v 0x3F800000 || fgt v s.cfg.cpRatioMax then .cpInvalidRatio else .ok)
          (s.setStage (cpSlot.put s.stage inst
            { x with ratio := ratio, slope := fsub 0x3F800000 (fdiv 0x3F800000 ratio) }))))
    ∧ (let att := clamped v s.cfg.cpAttMinMs s.cfg.cpAttMaxMs;
      (Config.wf s.cfg = true ∧ isFinite x.fs = true ∧ inRange 0x472C4400 x.fs 0x48435000 = true)
          ∨ isFinite (tcOf att x.fs) = true →
      exec (.cpModAtt inst v) s =
        .next (answered (if flt v s.cfg.cpAttMinMs || fgt v s.cfg.cpAttMaxMs then .cpInvalidAttack else .ok)
          (s.setStage (cpSlot.put s.stage inst { x with att := att, attC := tcOf att x.fs }))))
    ∧ (let rel := clamped v s.cfg.cpRelMinMs s.cfg.cpRelMaxMs;
      (Config.wf s.cfg = true ∧ isFinite x.fs = true ∧ inRange 0x472C4400 x.fs 0x48435000 = true)
          ∨ isFinite (tcOf rel x.fs) = true →
      exec (.cpModRel inst v) s =
        .next (answered (if flt v s.cfg.cpRelMinMs || fgt v s.cfg.cpRelMaxMs then .cpInvalidRelease else .ok)
          (s.setStage (cpSlot.put s.stage inst { x with rel := rel, relC := tcOf rel x.fs }))))
    ∧ exec (.cpModGain inst v) s =
        .next (answered (if flt v s.cfg.cpGainMin || fgt v s.cfg.cpGainMax then .cpInvalidGain else .ok)
          (s.setStage (cpSlot.put s.stage inst { x with gain := clamped v s.cfg.cpGainMin s.cfg.cpGainMax })))

/-- `CL.MODTHR`, `AM.MODDEPTH`, `AM.MODRATE` (R303, R324, R325). -/
def Obligations.ClipperAndModulatorModifies : Prop :=
  (∀ (inst : Byte) (v : F32) (s : State) (x : Clipper), s.inProgram = false → isFinite v = true →
      s.stage.cl[inst.toNat]? = some x → x.init = true →
      exec (.clModThr inst v) s =
        .next (answered (if flt v 0x3A83126F || fgt v 0x3F800000 then .clInvalidThreshold else .ok)
          (s.setStage (clSlot.put s.stage inst { x with thr := clamped v 0x3A83126F 0x3F800000 }))))
    ∧ (∀ (inst : Byte) (v : F32) (s : State) (x : AmpMod), s.inProgram = false → isFinite v = true →
      s.stage.am[inst.toNat]? = some x → x.init = true →
      exec (.amModDepth inst v) s =
          .next (answered (if flt v 0x00000000 || fgt v 0x3F800000 then .amInvalidDepth else .ok)
            (s.setStage (amSlot.put s.stage inst { x with depth := clamped v 0x00000000 0x3F800000 })))
        ∧ (let rate := clamped v s.cfg.modRateMin s.cfg.modRateMax;
          isFinite (fdiv rate x.fs) = true →
          exec (.amModRate inst v) s =
            .next (answered (if flt v s.cfg.modRateMin || fgt v s.cfg.modRateMax then .amInvalidRate else .ok)
              (s.setStage (amSlot.put s.stage inst { x with rate := rate, pinc := fdiv rate x.fs })))))

/-- `SY.PLAY` on a voice that is set up (R358): frequency and volume are clamped, a clamped frequency being reported
first; the note starts at phase and position 0, also on a sounding voice. `SY.STOP` (R359): a sounding voice before its
release jumps to the release breakpoint `A + D + S`; a silent one, or one already there, does not change; so the
position never falls. The segment lengths are within `SY_LEN_MAX`, as every setup leaves them (R357). -/
def Obligations.NoteOnAndNoteOff : Prop :=
  (∀ (inst : Byte) (freq vol : F32) (s : State) (y : Synth), accepted (.syPlay inst freq vol) s = true →
      s.stage.sy[inst.toNat]? = some y → y.init = true →
      let freq' := clamped freq s.cfg.syFreqMin s.cfg.syFreqMax
      let vol' := clamped vol 0x00000000 s.cfg.syVolMax
      isFinite (fdiv freq' y.fs) = true →
      exec (.syPlay inst freq vol) s =
        .next (answered (if fne freq' freq then .syInvalidFreq else if fne vol' vol then .syInvalidVolume else .ok)
          (s.setStage (sySlot.put s.stage inst
            { y with pinc := fdiv freq' y.fs, vol := vol', phase := 0, pos := 0, playing := true }))))
    ∧ (∀ (inst : Byte) (s : State) (y : Synth), s.inProgram = false → s.stage.sy[inst.toNat]? = some y →
      y.init = true → y.A.toNat ≤ 0xFFFFFF → y.D.toNat ≤ 0xFFFFFF → y.S.toNat ≤ 0xFFFFFF →
      ∃ y' : Synth, exec (.syStop inst) s = .next (answered .ok (s.setStage (sySlot.put s.stage inst y')))
        ∧ y' = { y with pos := y'.pos } ∧ y.pos.toNat ≤ y'.pos.toNat
        ∧ y'.pos.toNat =
          if y.playing = true ∧ y.pos.toNat < y.A.toNat + y.D.toNat + y.S.toNat then
            y.A.toNat + y.D.toNat + y.S.toNat
          else y.pos.toNat)

/-! ## Reads on an instance that is set up: the recurrence of the class over the words of the source (R131) -/

/-- `SM.READ` (R146, R148). -/
def Obligations.SmReadSmooths : Prop :=
  ∀ (inst bs bd : Byte) (n : BitVec 16) (s : State) (x : Smoother) (xs : List F32),
    accepted (.smRead inst bs bd n) s = true → s.stage.sm[inst.toNat]? = some x → x.init = true →
    bufStore s.stage.buf bs n.toNat 0 = .ok xs → always smRule smFine xs x = true →
    exec (.smRead inst bs bd n) s =
      .next (answered .ok (s.setStage (smSlot.put
        { s.stage with buf := bufLoad bd 0 (scan smRule xs x).2 s.stage.buf } inst (scan smRule xs x).1)))

/-- `AT.READ` (R151): no buffer is written, and the level is written once, after the last sample. -/
def Obligations.AtReadTracks : Prop :=
  ∀ (inst bs : Byte) (n : BitVec 16) (s : State) (x : Tracker) (xs : List F32),
    accepted (.atRead inst bs n) s = true → s.stage.trk[inst.toNat]? = some x → x.init = true →
    bufStore s.stage.buf bs n.toNat 0 = .ok xs → always atRule atFine xs x = true →
    let y := (scan atRule xs x).1
    let level := if x.mode = .peak then y.acc else fsqrt y.acc
    isFinite level = true →
    exec (.atRead inst bs n) s = .next (answered .ok (s.setStage (atSlot.put s.stage inst { y with level := level })))

/-- `BQ.READ` (R191, R197, R198): one transition step, then the section over the block with one coefficient set. -/
def Obligations.BqReadFilters : Prop :=
  ∀ (inst bs bd : Byte) (n : BitVec 16) (s : State) (x : Biquad) (xs : List F32),
    accepted (.bqRead inst bs bd n) s = true → s.stage.bq[inst.toNat]? = some x → x.init = true →
    bufStore s.stage.buf bs n.toNat 0 = .ok xs →
    let y := bqStep x
    (x.count = 0 ∨ [y.freq, y.q, y.gain, y.A1, y.A2, y.B1, y.B2, y.scale].all isFinite = true) →
    always bqRule bqFine xs y = true →
    exec (.bqRead inst bs bd n) s =
      .next (answered .ok (s.setStage (bqSlot.put
        { s.stage with buf := bufLoad bd 0 (scan bqRule xs y).2 s.stage.buf } inst (scan bqRule xs y).1)))

/-- `DL.READ` (R217, R222). -/
def Obligations.DlReadDelays : Prop :=
  ∀ (inst bs bd : Byte) (n : BitVec 16) (s : State) (x : FeedbackDelay) (xs : List F32),
    accepted (.dlRead inst bs bd n) s = true → s.stage.dl[inst.toNat]? = some x → x.init = true →
    bufStore s.stage.buf bs n.toNat 0 = .ok xs →
    let rule := dlRule (capOf s.cfg.dlCap inst)
    Memory.ringWf (capOf s.cfg.dlCap inst) x.ring = true → always rule (dlFine (capOf s.cfg.dlCap inst)) xs x = true →
    exec (.dlRead inst bs bd n) s =
      .next (answered .ok (s.setStage (dlSlot.put
        { s.stage with buf := bufLoad bd 0 (scan rule xs x).2 s.stage.buf } inst (scan rule xs x).1)))

/-- `MT.READ` (R232). -/
def Obligations.MtReadSumsTheTaps : Prop :=
  ∀ (inst bs bd : Byte) (n : BitVec 16) (s : State) (x : Multitap) (xs : List F32),
    accepted (.mtRead inst bs bd n) s = true → s.stage.mt[inst.toNat]? = some x → x.init = true →
    bufStore s.stage.buf bs n.toNat 0 = .ok xs →
    let rule := mtRule (capOf s.cfg.mtCap inst)
    always rule (mtFine (capOf s.cfg.mtCap inst)) xs x = true →
    exec (.mtRead inst bs bd n) s =
      .next (answered .ok (s.setStage (mtSlot.put
        { s.stage with buf := bufLoad bd 0 (scan rule xs x).2 s.stage.buf } inst (scan rule xs x).1)))

/-- `AP.READ` (R239, R241). -/
def Obligations.ApReadIsTheRecurrence : Prop :=
  ∀ (inst bs bd : Byte) (n : BitVec 16) (s : State) (x : Allpass) (xs : List F32),
    accepted (.apRead inst bs bd n) s = true → s.stage.ap[inst.toNat]? = some x → x.init = true →
    bufStore s.stage.buf bs n.toNat 0 = .ok xs → always apRule (apFine (capOf s.cfg.apCap inst)) xs x = true →
    exec (.apRead inst bs bd n) s =
      .next (answered .ok (s.setStage (apSlot.put
        { s.stage with buf := bufLoad bd 0 (scan apRule xs x).2 s.stage.buf } inst (scan apRule xs x).1)))

/-- `VD.READ` (R256, R258): `ms` are the words of the modulation buffer, which only the external type reads. -/
def Obligations.VdReadInterpolates : Prop :=
  ∀ (inst bs bs2 bd : Byte) (n : BitVec 16) (s : State) (x : VariableDelay) (xs ms : List F32),
    accepted (.vdRead inst bs bs2 bd n) s = true → s.stage.vd[inst.toNat]? = some x → x.init = true →
    bufStore s.stage.buf bs n.toNat 0 = .ok xs → ms.length = n.toNat →
    (x.ty = .ext → bufStore s.stage.buf bs2 n.toNat 0 = .ok ms) →
    let rule := vdRule (capOf s.cfg.vdCap inst)
    always rule (vdFine (capOf s.cfg.vdCap inst)) (xs.zip ms) x = true →
    exec (.vdRead inst bs bs2 bd n) s =
      .next (answered .ok (s.setStage (vdSlot.put
        { s.stage with buf := bufLoad bd 0 (scan rule (xs.zip ms) x).2 s.stage.buf } inst
        (scan rule (xs.zip ms) x).1)))

/-- `CP.READ` (R278). -/
def Obligations.CpReadCompresses : Prop :=
  ∀ (inst bs bd : Byte) (n : BitVec 16) (s : State) (x : Compressor) (xs : List F32),
    accepted (.cpRead inst bs bd n) s = true → s.stage.cpr[inst.toNat]? = some x → x.init = true →
    bufStore s.stage.buf bs n.toNat 0 = .ok xs → always cpRule cpFine xs x = true →
    exec (.cpRead inst bs bd n) s =
      .next (answered .ok (s.setStage (cpSlot.put
        { s.stage with buf := bufLoad bd 0 (scan cpRule xs x).2 s.stage.buf } inst (scan cpRule xs x).1)))

/-- `CL.READ` (R301, R304 to R306), both paths. -/
def Obligations.ClReadClips : Prop :=
  ∀ (inst bs bd : Byte) (n : BitVec 16) (s : State) (x : Clipper) (xs : List F32),
    accepted (.clRead inst bs bd n) s = true → s.stage.cl[inst.toNat]? = some x → x.init = true →
    bufStore s.stage.buf bs n.toNat 0 = .ok xs →
    let rule := clRule s.cfg.clUpTaps s.cfg.clDnTaps
    always rule (clFine s.cfg.clUpTaps s.cfg.clDnTaps) xs x = true →
    exec (.clRead inst bs bd n) s =
      .next (answered .ok (s.setStage (clSlot.put
        { s.stage with buf := bufLoad bd 0 (scan rule xs x).2 s.stage.buf } inst (scan rule xs x).1)))

/-- `AM.READ` (R321, R323): `ms` are the words of the modulation buffer, which only the external type reads. -/
def Obligations.AmReadModulates : Prop :=
  ∀ (inst bs bs2 bd : Byte) (n : BitVec 16) (s : State) (x : AmpMod) (xs ms : List F32),
    accepted (.amRead inst bs bs2 bd n) s = true → s.stage.am[inst.toNat]? = some x → x.init = true →
    bufStore s.stage.buf bs n.toNat 0 = .ok xs → ms.length = n.toNat →
    (x.ty = .ext → bufStore s.stage.buf bs2 n.toNat 0 = .ok ms) → always amRule amFine (xs.zip ms) x = true →
    exec (.amRead inst bs bs2 bd n) s =
      .next (answered .ok (s.setStage (amSlot.put
        { s.stage with buf := bufLoad bd 0 (scan amRule (xs.zip ms) x).2 s.stage.buf } inst
        (scan amRule (xs.zip ms) x).1)))

/-- `SY.READ` (R356, R361): the voice is a generator; its source need not be written. -/
def Obligations.SyReadGenerates : Prop :=
  ∀ (inst bs bd : Byte) (n : BitVec 16) (s : State) (x : Synth),
    accepted (.syRead inst bs bd n) s = true → s.stage.sy[inst.toNat]? = some x → x.init = true →
    always syRule syFine (List.replicate n.toNat ()) x = true →
    let p := scan syRule (List.replicate n.toNat ()) x
    exec (.syRead inst bs bd n) s =
      .next (answered .ok (s.setStage (sySlot.put { s.stage with buf := bufLoad bd 0 p.2 s.stage.buf } inst p.1)))

/-- `ZC.READ` (R338, R339): no buffer is written. -/
def Obligations.ZcReadDetects : Prop :=
  ∀ (inst bs : Byte) (n : BitVec 16) (s : State) (x : ZeroCross) (xs : List F32),
    accepted (.zcRead inst bs n) s = true → s.stage.zc[inst.toNat]? = some x → x.init = true →
    bufStore s.stage.buf bs n.toNat 0 = .ok xs → always (zcRule s.cfg) (zcFine s.cfg) xs x = true →
    exec (.zcRead inst bs n) s =
      .next (answered .ok (s.setStage (zcSlot.put s.stage inst (scan (zcRule s.cfg) xs x).1)))

/-! ## Properties -/

/-- A compressor at ratio 1 multiplies every sample by its gain and nothing else, whatever the configuration functions
are: `slope` is +0.0 and the reduction stays zero. With gain 1.0 the output is bit-identical to the input (R285). -/
def Obligations.CompressorAtRatioOneIsACopy : Prop :=
  ∀ (inst bs bd : Byte) (n : BitVec 16) (s : State) (x : Compressor) (xs : List F32),
    accepted (.cpRead inst bs bd n) s = true → s.stage.cpr[inst.toNat]? = some x → x.init = true →
    x.slope = fsub 0x3F800000 (fdiv 0x3F800000 0x3F800000) → isZero x.env = true →
    bufStore s.stage.buf bs n.toNat 0 = .ok xs → always cpRule cpFine xs x = true →
    ∃ t, exec (.cpRead inst bs bd n) s = .next t
      ∧ t.stage.buf = bufLoad bd 0 (xs.map fun v => fmul v x.gain) s.stage.buf
      ∧ (∀ y, t.stage.cpr[inst.toNat]? = some y → isZero y.env = true)
      ∧ (x.gain = 0x3F800000 → t.stage.buf = bufLoad bd 0 xs s.stage.buf)

/-- What the host reads at the status port (R29, R78): the register, and 0 where there is none. R8 bounds no
`CQ_DEPTH`: that `CQ_FREE` shows its low 32 bits is the model's choice (log 29). -/
def Obligations.StatusPortReads : Prop :=
  ∀ (c : Config) (st : Stage), Stage.formed c st = true → Config.wf c = true →
    statusRead c st 0x000 = BitVec.ofNat 32 (match st.fsm with | .idle => 0 | .armed => 1 | .running => 2 | .overrun => 3)
      ∧ statusRead c st 0x001 = st.effect.setWidth 32 ∧ statusRead c st 0x002 = st.drops
      ∧ statusRead c st 0x003 = st.res ∧ statusRead c st 0x004 = st.oscval
      ∧ statusRead c st 0x005 = BitVec.ofNat 32 (c.cqDepth - st.cq.length)
      ∧ (∀ j i : Nat, j < 8 → i < 32 →
          (statusRead c st (0x008 + j)).getLsbD i = (st.effInit[32 * j + i]?).getD false)
      ∧ (∀ k : Nat, k < 256 → statusRead c st (0x100 + k) = ((st.trk[k]?).map Tracker.level).getD 0)
      ∧ (∀ k : Nat, k < 256 → statusRead c st (0x200 + 2 * k) = ((st.zc[k]?).map ZeroCross.freq).getD 0)
      ∧ (∀ k : Nat, k < 256 →
          statusRead c st (0x201 + 2 * k) = if ((st.zc[k]?).map ZeroCross.locked).getD false then 1 else 0)
      ∧ (∀ k : Nat, statusRead c st (0x400 + k) = if ((st.sy[k]?).map Synth.playing).getD false then 1 else 0)
      ∧ statusRead c st 0x006 = 0 ∧ statusRead c st 0x007 = 0 ∧ ∀ k : Nat, 0x010 ≤ k → k < 0x100 → statusRead c st k = 0
end

