-- ==== Sys2Proof/Laws/Memory.lean ====
section
/-! SUPPORT. The sparse memories: read after write, and the canonical form that every operation keeps. -/

namespace Sys2Proof.Machine

/-! ## Cells -/

theorem cellRead_write (m : Memory) (k j : Nat) (v : Word) :
    cellRead (cellWrite m k v) j = if j = k then some v else cellRead m j := by
  induction m with
  | nil => simp [cellWrite, cellRead, eq_comm]
  | cons p m ih =>
    obtain ⟨a, w⟩ := p
    simp only [cellWrite]
    split
    · simp only [cellRead]; by_cases h : k = j <;> simp [h, eq_comm]
    · split
      · subst_vars; simp only [cellRead]; by_cases h : a = j
        · simp [h]
        · simp [h, show ¬ j = a from fun e => h e.symm]
      · simp only [cellRead, ih]
        by_cases h : a = j
        · subst h; simp [show ¬ a = k by omega]
        · simp [h]

/-- Every address listed is at least `k`. -/
theorem wf_cons {a : Nat} {w : Word} {m : Memory} :
    Memory.wf ((a, w) :: m) = true ↔ (∀ p ∈ m, a < p.1) ∧ Memory.wf m = true := by
  induction m generalizing a w with
  | nil => simp [Memory.wf]
  | cons p m ih =>
    obtain ⟨b, x⟩ := p
    rw [Memory.wf]
    simp only [Bool.and_eq_true, decide_eq_true_eq]
    rw [ih]
    constructor
    · rintro ⟨hab, hb, hm⟩
      refine ⟨fun p hp => ?_, hb, hm⟩
      rcases List.mem_cons.1 hp with rfl | hp
      · exact hab
      · exact Nat.lt_trans hab (hb p hp)
    · rintro ⟨ha, hb, hm⟩
      exact ⟨ha _ (List.mem_cons_self ..), hb, hm⟩

theorem mem_cellWrite {m : Memory} {k : Nat} {v : Word} {p : Nat × Word} (h : p ∈ cellWrite m k v) :
    p = (k, v) ∨ p ∈ m := by
  induction m with
  | nil => simpa [cellWrite] using h
  | cons q m ih =>
    obtain ⟨a, w⟩ := q
    simp only [cellWrite] at h
    split at h
    · simpa using h
    · split at h
      · simp only [List.mem_cons] at h ⊢; tauto
      · simp only [List.mem_cons] at h ⊢
        rcases h with h | h
        · tauto
        · rcases ih h with h | h <;> tauto

theorem mem_cellErase {m : Memory} {k : Nat} {p : Nat × Word} (h : p ∈ cellErase m k) : p ∈ m := by
  induction m with
  | nil => simp [cellErase] at h
  | cons q m ih =>
    obtain ⟨a, w⟩ := q
    simp only [cellErase] at h
    split at h
    · exact List.mem_cons_of_mem _ h
    · rcases List.mem_cons.1 h with h | h
      · exact h ▸ List.mem_cons_self ..
      · exact List.mem_cons_of_mem _ (ih h)

theorem wf_cellWrite {m : Memory} (h : m.wf = true) (k : Nat) (v : Word) : (cellWrite m k v).wf = true := by
  induction m with
  | nil => rfl
  | cons p m ih =>
    obtain ⟨a, w⟩ := p
    obtain ⟨ha, hm⟩ := wf_cons.1 h
    simp only [cellWrite]
    split
    · rename_i hk
      refine wf_cons.2 ⟨fun p hp => ?_, h⟩
      rcases List.mem_cons.1 hp with rfl | hp
      · exact hk
      · exact Nat.lt_trans hk (ha p hp)
    · split
      · subst_vars; exact wf_cons.2 ⟨ha, hm⟩
      · refine wf_cons.2 ⟨fun p hp => ?_, ih hm⟩
        rcases mem_cellWrite hp with rfl | hp
        · show a < k; omega
        · exact ha p hp

theorem wf_cellErase {m : Memory} (h : m.wf = true) (k : Nat) : (cellErase m k).wf = true := by
  induction m with
  | nil => rfl
  | cons p m ih =>
    obtain ⟨a, w⟩ := p
    obtain ⟨ha, hm⟩ := wf_cons.1 h
    simp only [cellErase]
    split
    · exact hm
    · exact wf_cons.2 ⟨fun p hp => ha p (mem_cellErase hp), ih hm⟩

theorem cellRead_of_lt {m : Memory} {k : Nat} (h : ∀ p ∈ m, k < p.1) : cellRead m k = none := by
  induction m with
  | nil => rfl
  | cons p m ih =>
    obtain ⟨a, w⟩ := p
    have : k < a := h (a, w) (List.mem_cons_self ..)
    simp only [cellRead]
    rw [if_neg (by omega)]
    exact ih fun p hp => h p (List.mem_cons_of_mem _ hp)

theorem cellRead_erase {m : Memory} (h : m.wf = true) (k j : Nat) :
    cellRead (cellErase m k) j = if j = k then none else cellRead m j := by
  induction m with
  | nil => simp [cellErase, cellRead]
  | cons p m ih =>
    obtain ⟨a, w⟩ := p
    obtain ⟨ha, hm⟩ := wf_cons.1 h
    simp only [cellErase]
    split
    · subst_vars
      by_cases hj : j = a
      · subst hj; simpa using cellRead_of_lt ha
      · simp [cellRead, hj, show ¬ a = j from fun h => hj h.symm]
    · simp only [cellRead, ih hm]
      by_cases hj : a = j
      · subst hj; simp [show ¬ a = k by assumption]
      · simp [hj]

theorem cellRead_mem {m : Memory} {k : Nat} {v : Word} (h : cellRead m k = some v) : (k, v) ∈ m := by
  induction m with
  | nil => simp [cellRead] at h
  | cons p m ih =>
    obtain ⟨a, w⟩ := p
    simp only [cellRead] at h
    split at h
    · subst_vars; simp at h; subst h; exact List.mem_cons_self ..
    · exact List.mem_cons_of_mem _ (ih h)

/-- Two memories in canonical form that read alike are the same data. -/
theorem wf_ext {m m' : Memory} (h : m.wf = true) (h' : m'.wf = true) (e : ∀ k, cellRead m k = cellRead m' k) :
    m = m' := by
  induction m generalizing m' with
  | nil =>
    cases m' with
    | nil => rfl
    | cons p m' => have := e p.1; simp [cellRead] at this
  | cons p m ih =>
    obtain ⟨a, w⟩ := p
    cases m' with
    | nil => have := e a; simp [cellRead] at this
    | cons q m' =>
      obtain ⟨b, x⟩ := q
      obtain ⟨ha, hm⟩ := wf_cons.1 h
      obtain ⟨hb, hm'⟩ := wf_cons.1 h'
      have hab : a = b := by
        rcases Nat.lt_trichotomy a b with hlt | heq | hlt
        · have := e a
          rw [cellRead_of_lt (m := (b, x) :: m')] at this
          · simp [cellRead] at this
          · intro p hp
            rcases List.mem_cons.1 hp with rfl | hp
            · exact hlt
            · exact Nat.lt_trans hlt (hb p hp)
        · exact heq
        · have := e b
          rw [cellRead_of_lt (m := (a, w) :: m)] at this
          · simp [cellRead] at this
          · intro p hp
            rcases List.mem_cons.1 hp with rfl | hp
            · exact hlt
            · exact Nat.lt_trans hlt (ha p hp)
      subst hab
      have hw : w = x := by have := e a; simpa [cellRead] using this
      subst hw
      congr 1
      refine ih hm hm' fun k => ?_
      by_cases hk : a = k
      · subst hk; rw [cellRead_of_lt ha, cellRead_of_lt hb]
      · have := e k; simpa [cellRead, hk] using this

/-! ## Block buffers -/

theorem bufAddr_inj {b c : Byte} {i j : Nat} (hi : i < 65536) (hj : j < 65536) :
    bufAddr b i = bufAddr c j ↔ b = c ∧ i = j := by
  unfold bufAddr
  constructor
  · intro h
    have : b.toNat = c.toNat := by omega
    exact ⟨BitVec.eq_of_toNat_eq this, by omega⟩
  · rintro ⟨rfl, rfl⟩; rfl

theorem bufRead_write (m : Memory) (b c : Byte) (i j : Nat) (v : Word) (hi : i < 65536) (hj : j < 65536) :
    bufRead (bufWrite m b i v) c j = if c = b ∧ j = i then some v else bufRead m c j := by
  unfold bufRead bufWrite
  rw [cellRead_write]
  simp only [bufAddr_inj hj hi]

theorem wf_bufWrite {m : Memory} (h : m.wf = true) (b : Byte) (i : Nat) (v : Word) : (bufWrite m b i v).wf = true :=
  wf_cellWrite h _ _

theorem wf_bufLoad {m : Memory} (h : m.wf = true) (b : Byte) (i : Nat) (vs : List F32) :
    (bufLoad b i vs m).wf = true := by
  induction vs generalizing i m with
  | nil => exact h
  | cons v vs ih => exact ih (wf_bufWrite h b i v) (i + 1)

/-- What a load leaves at every word: the loaded words where they go, every other word as it was. -/
theorem bufRead_load (b c : Byte) (vs : List F32) (i j : Nat) (m : Memory) (hi : i + vs.length ≤ 65536)
    (hj : j < 65536) :
    bufRead (bufLoad b i vs m) c j =
      if c = b ∧ i ≤ j ∧ j < i + vs.length then vs[j - i]? else bufRead m c j := by
  induction vs generalizing i m with
  | nil => simp [bufLoad]
  | cons v vs ih =>
    simp only [List.length_cons] at hi
    rw [bufLoad, ih (i + 1) (bufWrite m b i v) (by omega), bufRead_write _ _ _ _ _ _ (by omega) hj]
    by_cases hc : c = b
    · subst hc
      rcases Nat.lt_trichotomy j i with h | h | h
      · simp [show ¬ i + 1 ≤ j by omega, show ¬ i ≤ j by omega, show ¬ j = i by omega]
      · subst h; simp
      · by_cases h' : j < i + (vs.length + 1)
        · simp [show i + 1 ≤ j by omega, show j < i + 1 + vs.length by omega, show i ≤ j by omega, h',
            show j - i = (j - (i + 1)) + 1 by omega]
        · simp [show ¬ j < i + 1 + vs.length by omega, h', show ¬ j = i by omega]
    · simp [hc]

theorem mem_bufLoad {b : Byte} {vs : List F32} {i : Nat} {m : Memory} {p : Nat × Word} (h : p ∈ bufLoad b i vs m) :
    p.2 ∈ vs ∨ p ∈ m := by
  induction vs generalizing i m with
  | nil => exact .inr h
  | cons v vs ih =>
    rcases ih h with h | h
    · exact .inl (List.mem_cons_of_mem _ h)
    · rcases mem_cellWrite h with rfl | h
      · exact .inl (List.mem_cons_self ..)
      · exact .inr h

/-- What a successful store read: every word in turn. -/
theorem bufStore_ok {m : Memory} {b : Byte} {n i : Nat} {vs : List F32} (h : bufStore m b n i = .ok vs) :
    vs.length = n ∧ ∀ k < n, bufRead m b (i + k) = vs[k]? := by
  induction n generalizing i vs with
  | zero => simp [bufStore] at h; subst h; simp
  | succ n ih =>
    simp only [bufStore] at h
    split at h
    · cases h
    · rename_i v hv
      split at h
      · rename_i vs' h'
        cases h
        obtain ⟨hl, hr⟩ := ih h'
        refine ⟨by simp [hl], fun k hk => ?_⟩
        cases k with
        | zero => simpa using hv
        | succ k => rw [show i + (k + 1) = i + 1 + k by omega, hr k (by omega)]; simp
      · cases h

/-- A store reads a block in which every word has been written. -/
theorem bufStore_of_written {m : Memory} {b : Byte} {n i : Nat} (h : ∀ k < n, (bufRead m b (i + k)).isSome) :
    ∃ vs, bufStore m b n i = .ok vs := by
  induction n generalizing i with
  | zero => exact ⟨[], rfl⟩
  | succ n ih =>
    have h0 := h 0 (by omega)
    rw [Nat.add_zero] at h0
    obtain ⟨v, hv⟩ := Option.isSome_iff_exists.1 h0
    obtain ⟨vs, hvs⟩ := ih (i := i + 1) fun k hk => by
      have := h (k + 1) (by omega)
      rwa [show i + 1 + k = i + (k + 1) by omega]
    exact ⟨v :: vs, by simp [bufStore, hv, hvs]⟩

/-! ## Ring memories -/

theorem ringWf_iff {cap : Nat} {m : Memory} :
    m.ringWf cap = true ↔ m.wf = true ∧ ∀ p ∈ m, p.1 < cap ∧ p.2 ≠ 0 := by
  simp [Memory.ringWf, List.all_eq_true]

theorem ringRead_write {cap : Nat} {m : Memory} (h : m.ringWf cap = true) (k j : Nat) (v : F32) :
    ringRead (ringWrite m k v) j = if j = k then v else ringRead m j := by
  have hw := (ringWf_iff.1 h).1
  unfold ringRead ringWrite
  by_cases hv : v = 0
  · subst hv
    rw [if_pos rfl, cellRead_erase hw]
    by_cases hj : j = k <;> simp [hj]
  · rw [if_neg hv, cellRead_write]
    by_cases hj : j = k <;> simp [hj]

theorem ringWf_write {cap : Nat} {m : Memory} (h : m.ringWf cap = true) {k : Nat} (hk : k < cap) (v : F32) :
    (ringWrite m k v).ringWf cap = true := by
  obtain ⟨hw, hm⟩ := ringWf_iff.1 h
  unfold ringWrite
  by_cases hv : v = 0
  · rw [if_pos hv]; exact ringWf_iff.2 ⟨wf_cellErase hw _, fun p hp => hm p (mem_cellErase hp)⟩
  · rw [if_neg hv]
    refine ringWf_iff.2 ⟨wf_cellWrite hw _ _, fun p hp => ?_⟩
    rcases mem_cellWrite hp with rfl | hp
    · exact ⟨hk, hv⟩
    · exact hm p hp

@[simp] theorem ringWf_zero (cap : Nat) : Memory.ringWf cap ringZero = true := rfl

@[simp] theorem ringRead_zero (j : Nat) : ringRead ringZero j = 0 := rfl

theorem mem_ringWrite {m : Memory} {k : Nat} {v : F32} {p : Nat × Word} (h : p ∈ ringWrite m k v) :
    p.2 = v ∨ p ∈ m := by
  unfold ringWrite at h
  split at h
  · exact .inr (mem_cellErase h)
  · rcases mem_cellWrite h with rfl | h
    · exact .inl rfl
    · exact .inr h

/-- A cell `t` samples behind the write pointer lies in the ring (R72). -/
theorem ringBack_some {cap wp t j : Nat} (h : ringBack cap wp t = some j) :
    j = (wp + cap - t) % cap ∧ j < cap ∧ wp < cap ∧ 1 ≤ t ∧ t ≤ cap := by
  unfold ringBack at h
  split at h
  · rename_i hc
    simp only [Option.some.injEq] at h
    subst h
    exact ⟨rfl, Nat.mod_lt _ (by omega), hc.2.2, hc.1, hc.2.1⟩
  · cases h

theorem ringNext_lt {cap : Nat} (h : 0 < cap) (h' : cap ≤ 2 ^ 32) (wp : Word) : (ringNext cap wp).toNat < cap := by
  have := Nat.mod_lt (wp.toNat + 1) h
  simp only [ringNext, BitVec.toNat_ofNat]
  rw [Nat.mod_eq_of_lt (by omega)]
  exact this

end Sys2Proof.Machine
end

