-- ==== Sys2Proof/Laws/Loops.lean ====
section
/-! SUPPORT. A loop over the samples of a block is one `scan` of the per-sample rule over the words of the source
block, and one load of its outputs into the destination (R131). -/

namespace Sys2Proof.Machine

@[simp] theorem scan_nil {α β : Type} (f : β → α → α × F32) (a : α) : scan f [] a = (a, []) := rfl

@[simp] theorem scan_cons {α β : Type} (f : β → α → α × F32) (x : β) (xs : List β) (a : α) :
    scan f (x :: xs) a = ((scan f xs (f x a).1).1, (f x a).2 :: (scan f xs (f x a).1).2) := rfl

theorem scan_length {α β : Type} (f : β → α → α × F32) (xs : List β) (a : α) : (scan f xs a).2.length = xs.length := by
  induction xs generalizing a with
  | nil => rfl
  | cons x xs ih => simp [ih]

/-- A block processed in two parts is the block processed at once (R131). -/
theorem scan_append {α β : Type} (f : β → α → α × F32) (xs ys : List β) (a : α) :
    scan f (xs ++ ys) a = ((scan f ys (scan f xs a).1).1, (scan f xs a).2 ++ (scan f ys (scan f xs a).1).2) := by
  induction xs generalizing a with
  | nil => rfl
  | cons x xs ih => simp [ih]

@[simp] theorem guardFinite_ok {α : Type} (ws : List F32) (a : α) (h : ws.all isFinite = true) :
    guardFinite ws a = .ok a := by simp [guardFinite, h]

theorem guardFinite_inv {α : Type} {ws : List F32} {a b : α} (h : guardFinite ws a = .ok b) :
    b = a ∧ ws.all isFinite = true := by
  unfold guardFinite at h
  split at h
  · rename_i hw; cases h; exact ⟨rfl, hw⟩
  · cases h

/-- The loop of `m + n` samples is the loop of `m` samples and then that of the `n` after them (R131). -/
theorem forSamples_add {α : Type} (body : Nat → α → Except Fault α) (m n i : Nat) (x : α) :
    forSamples body (m + n) i x =
      match forSamples body m i x with
      | .ok y => forSamples body n (i + m) y
      | .error e => .error e := by
  induction m generalizing i x with
  | zero => simp [forSamples]
  | succ m ih =>
    rw [show m + 1 + n = (m + n) + 1 by omega]
    simp only [forSamples]
    cases h : body i x with
    | error e => simp
    | ok x' => simp only [ih (i + 1) x']; rw [show i + 1 + m = i + (m + 1) by omega]

/-- A property that every sample keeps holds after the loop. -/
theorem forSamples_inv {α : Type} (P : α → Prop) (body : Nat → α → Except Fault α) (n i : Nat) (x y : α)
    (hx : P x) (hb : ∀ j x y, P x → body j x = .ok y → P y) (h : forSamples body n i x = .ok y) : P y := by
  induction n generalizing i x with
  | zero => simp [forSamples] at h; exact h ▸ hx
  | succ n ih =>
    simp only [forSamples] at h
    split at h
    · rename_i x' hx'; exact ih (i + 1) x' (hb i x x' hx hx') h
    · cases h

/-- As `forSamples_inv`, for a property that depends on the sample index. -/
theorem forSamples_inv_lt {α : Type} (P : α → Prop) (body : Nat → α → Except Fault α) (n i : Nat) (x y : α)
    (hx : P x) (hb : ∀ j x y, i ≤ j → j < i + n → P x → body j x = .ok y → P y)
    (h : forSamples body n i x = .ok y) : P y := by
  induction n generalizing i x with
  | zero => simp [forSamples] at h; exact h ▸ hx
  | succ n ih =>
    simp only [forSamples] at h
    split at h
    · rename_i x' hx'
      exact ih (i + 1) x' (hb i x x' (by omega) (by omega) hx hx')
        (fun j x y h1 h2 => hb j x y (by omega) (by omega)) h
    · cases h

theorem bufStore_cons {m : Memory} {b : Byte} {k i : Nat} {xs : List F32} (h : bufStore m b (k + 1) i = .ok xs) :
    ∃ x xs', xs = x :: xs' ∧ bufRead m b i = some x ∧ bufStore m b k (i + 1) = .ok xs' := by
  simp only [bufStore] at h
  split at h
  · cases h
  · rename_i v hv
    split at h
    · rename_i vs hvs; cases h; exact ⟨v, vs, rfl, hv, hvs⟩
    · cases h

/-- A write at an index below those a store reads does not change what it reads. -/
theorem bufStore_write (m : Memory) (b c : Byte) (n i j : Nat) (v : Word) (hj : j < i) (hn : i + n ≤ 65536) :
    bufStore (bufWrite m b j v) c n i = bufStore m c n i := by
  induction n generalizing i with
  | zero => rfl
  | succ n ih =>
    simp only [bufStore]
    rw [bufRead_write _ _ _ _ _ _ (by omega) (by omega), ih (i + 1) (by omega) (by omega)]
    simp [show ¬ i = j by omega]

/-- One source and one destination. -/
theorem runThrough_loop {α : Type} (bs bd : Byte) (f : F32 → α → Except Fault (α × F32)) (rule : F32 → α → α × F32)
    (ok : F32 → α → Bool) (hf : ∀ x a, ok x a = true → f x a = .ok (rule x a) ∧ isFinite (rule x a).2 = true)
    (n i : Nat) (xs : List F32) (m : Memory) (a : α) (hn : i + n ≤ 65536) (hx : bufStore m bs n i = .ok xs)
    (ha : always rule ok xs a = true) :
    forSamples (sampleThrough bs bd f) n i (m, a) = .ok (bufLoad bd i (scan rule xs a).2 m, (scan rule xs a).1) := by
  induction n generalizing i xs m a with
  | zero => simp [bufStore] at hx; subst hx; rfl
  | succ n ih =>
    obtain ⟨x, xs', rfl, hr, hs⟩ := bufStore_cons hx
    simp only [always, Bool.and_eq_true] at ha
    obtain ⟨h1, h2⟩ := hf x a ha.1
    simp only [forSamples, sampleThrough, hr, h1]
    rw [guardFinite_ok _ _ (by simpa using h2)]
    simp only [scan_cons, bufLoad]
    exact ih (i + 1) xs' _ _ (by omega) (by rw [bufStore_write _ _ _ _ _ _ _ (by omega) (by omega)]; exact hs) ha.2

/-- Two sources and one destination; `needs` says whether an instance reads the second source. -/
theorem runThrough2_loop {α : Type} (bs bs2 bd : Byte) (f : F32 → Option F32 → α → Except Fault (α × F32))
    (rule : F32 × F32 → α → α × F32) (ok : F32 × F32 → α → Bool) (needs : α → Bool)
    (hf : ∀ x w o a, ok (x, w) a = true → (needs a = true → o = some w) →
      f x o a = .ok (rule (x, w) a) ∧ isFinite (rule (x, w) a).2 = true)
    (hneeds : ∀ v a, needs (rule v a).1 = needs a)
    (n i : Nat) (xs ws : List F32) (m : Memory) (a : α) (hn : i + n ≤ 65536) (hx : bufStore m bs n i = .ok xs)
    (hl : ws.length = n) (hw : needs a = true → bufStore m bs2 n i = .ok ws)
    (ha : always rule ok (xs.zip ws) a = true) :
    forSamples (sampleThrough2 bs bs2 bd f) n i (m, a) =
      .ok (bufLoad bd i (scan rule (xs.zip ws) a).2 m, (scan rule (xs.zip ws) a).1) := by
  induction n generalizing i xs ws m a with
  | zero => simp [bufStore] at hx; subst hx; rfl
  | succ n ih =>
    obtain ⟨x, xs', rfl, hr, hs⟩ := bufStore_cons hx
    cases ws with
    | nil => simp at hl
    | cons w ws =>
      simp only [List.zip_cons_cons, always, Bool.and_eq_true] at ha
      have hro : needs a = true → bufRead m bs2 i = some w := by
        intro h
        obtain ⟨w', ws', e, hr', _⟩ := bufStore_cons (hw h)
        cases e; exact hr'
      obtain ⟨h1, h2⟩ := hf x w (bufRead m bs2 i) a ha.1 hro
      simp only [forSamples, sampleThrough2, hr, h1]
      rw [guardFinite_ok _ _ (by simpa using h2)]
      simp only [List.zip_cons_cons, scan_cons, bufLoad]
      refine ih (i + 1) xs' ws _ _ (by omega) (by rw [bufStore_write _ _ _ _ _ _ _ (by omega) (by omega)]; exact hs)
        (by simpa using hl) (fun h => ?_) ha.2
      rw [hneeds] at h
      obtain ⟨w', ws', e, _, hs'⟩ := bufStore_cons (hw h)
      cases e
      rw [bufStore_write _ _ _ _ _ _ _ (by omega) (by omega)]; exact hs'

/-- One source and no destination. -/
theorem runInto_loop {α : Type} (bs : Byte) (f : F32 → α → Except Fault α) (rule : F32 → α → α × F32)
    (ok : F32 → α → Bool) (hf : ∀ x a, ok x a = true → f x a = .ok (rule x a).1)
    (n i : Nat) (xs : List F32) (m : Memory) (a : α) (hx : bufStore m bs n i = .ok xs)
    (ha : always rule ok xs a = true) :
    forSamples (sampleInto m bs f) n i a = .ok (scan rule xs a).1 := by
  induction n generalizing i xs a with
  | zero => simp [bufStore] at hx; subst hx; rfl
  | succ n ih =>
    obtain ⟨x, xs', rfl, hr, hs⟩ := bufStore_cons hx
    simp only [always, Bool.and_eq_true] at ha
    simp only [forSamples, sampleInto, hr, hf x a ha.1, scan_cons]
    exact ih (i + 1) xs' _ hs ha.2

/-- One destination and no source. -/
theorem runFrom_loop {α : Type} (bd : Byte) (f : α → Except Fault (α × F32)) (rule : Unit → α → α × F32)
    (ok : Unit → α → Bool) (hf : ∀ a, ok () a = true → f a = .ok (rule () a) ∧ isFinite (rule () a).2 = true)
    (n i : Nat) (m : Memory) (a : α) (ha : always rule ok (List.replicate n ()) a = true) :
    forSamples (sampleFrom bd f) n i (m, a) =
      .ok (bufLoad bd i (scan rule (List.replicate n ()) a).2 m, (scan rule (List.replicate n ()) a).1) := by
  induction n generalizing i m a with
  | zero => rfl
  | succ n ih =>
    simp only [List.replicate_succ, always, Bool.and_eq_true] at ha
    obtain ⟨h1, h2⟩ := hf a ha.1
    simp only [forSamples, sampleFrom, h1]
    rw [guardFinite_ok _ _ (by simpa using h2)]
    simp only [List.replicate_succ, scan_cons, bufLoad]
    exact ih (i + 1) _ _ ha.2

/-- A copy (R132, R136). -/
theorem copy_loop (bs bd : Byte) (n i : Nat) (xs : List F32) (m : Memory) (hn : i + n ≤ 65536)
    (hx : bufStore m bs n i = .ok xs) : forSamples (sampleCopy bs bd) n i m = .ok (bufLoad bd i xs m) := by
  induction n generalizing i xs m with
  | zero => simp [bufStore] at hx; subst hx; rfl
  | succ n ih =>
    obtain ⟨x, xs', rfl, hr, hs⟩ := bufStore_cons hx
    simp only [forSamples, sampleCopy, hr, bufLoad]
    exact ih (i + 1) xs' _ (by omega) (by rw [bufStore_write _ _ _ _ _ _ _ (by omega) (by omega)]; exact hs)

end Sys2Proof.Machine
end

