-- ==== Sys2Proof/Laws/State.lean ====
section
/-! SUPPORT. What each update of the state leaves in each field, so that no later proof unfolds a record update. -/

namespace Sys2Proof.Machine

/-! ## The acting stage -/

@[simp] theorem stage_setStage (s : State) (st : Stage) : (s.setStage st).stage = st := by
  unfold State.setStage State.stage; cases s.cur <;> rfl

@[simp] theorem other_setStage (s : State) (st : Stage) : (s.setStage st).other = s.other := by
  unfold State.setStage State.other; cases s.cur <;> rfl

@[simp] theorem cfg_setStage (s : State) (st : Stage) : (s.setStage st).cfg = s.cfg := by
  unfold State.setStage; cases s.cur <;> rfl

@[simp] theorem cur_setStage (s : State) (st : Stage) : (s.setStage st).cur = s.cur := by
  unfold State.setStage; cases s.cur <;> simp

@[simp] theorem phase_setStage (s : State) (st : Stage) : (s.setStage st).phase = s.phase := by
  unfold State.setStage; cases s.cur <;> rfl

@[simp] theorem handoff_setStage (s : State) (st : Stage) : (s.setStage st).handoff = s.handoff := by
  unfold State.setStage; cases s.cur <;> rfl

@[simp] theorem latch_setStage (s : State) (st : Stage) : (s.setStage st).latch = s.latch := by
  unfold State.setStage; cases s.cur <;> rfl

@[simp] theorem inputs_setStage (s : State) (st : Stage) : (s.setStage st).inputs = s.inputs := by
  unfold State.setStage; cases s.cur <;> rfl

@[simp] theorem inProgram_setStage (s : State) (st : Stage) : (s.setStage st).inProgram = s.inProgram := by
  simp [State.inProgram]

@[simp] theorem programs_setStage (s : State) (st : Stage) : (s.setStage st).programs = s.programs := by
  simp [State.programs]

@[simp] theorem setStage_setStage (s : State) (x y : Stage) : (s.setStage x).setStage y = s.setStage y := by
  unfold State.setStage; cases s.cur <;> simp

@[simp] theorem setStage_stage (s : State) : s.setStage s.stage = s := by
  cases s with
  | mk cfg a b handoff cur phase latch inputs => cases cur <;> rfl

@[simp] theorem cfg_setPhase (s : State) (p : Phase) : (s.setPhase p).cfg = s.cfg := rfl
@[simp] theorem a_setPhase (s : State) (p : Phase) : (s.setPhase p).a = s.a := rfl
@[simp] theorem b_setPhase (s : State) (p : Phase) : (s.setPhase p).b = s.b := rfl
@[simp] theorem handoff_setPhase (s : State) (p : Phase) : (s.setPhase p).handoff = s.handoff := rfl
@[simp] theorem cur_setPhase (s : State) (p : Phase) : (s.setPhase p).cur = s.cur := rfl
@[simp] theorem latch_setPhase (s : State) (p : Phase) : (s.setPhase p).latch = s.latch := rfl
@[simp] theorem inputs_setPhase (s : State) (p : Phase) : (s.setPhase p).inputs = s.inputs := rfl
@[simp] theorem phase_setPhase (s : State) (p : Phase) : (s.setPhase p).phase = p := rfl
@[simp] theorem stage_setPhase (s : State) (p : Phase) : (s.setPhase p).stage = s.stage := rfl
@[simp] theorem other_setPhase (s : State) (p : Phase) : (s.setPhase p).other = s.other := rfl
@[simp] theorem programs_setPhase (s : State) (p : Phase) : (s.setPhase p).programs = s.programs := rfl
@[simp] theorem setPhase_setPhase (s : State) (p q : Phase) : (s.setPhase p).setPhase q = s.setPhase q := rfl

@[simp] theorem setStage_setPhase (s : State) (p : Phase) (st : Stage) :
    (s.setPhase p).setStage st = (s.setStage st).setPhase p := by
  unfold State.setStage State.setPhase; cases s.cur <;> rfl

@[simp] theorem stage_setBuf (s : State) (m : Memory) : (s.setBuf m).stage = { s.stage with buf := m } := by
  simp [State.setBuf]

@[simp] theorem other_setBuf (s : State) (m : Memory) : (s.setBuf m).other = s.other := by simp [State.setBuf]
@[simp] theorem cfg_setBuf (s : State) (m : Memory) : (s.setBuf m).cfg = s.cfg := by simp [State.setBuf]
@[simp] theorem cur_setBuf (s : State) (m : Memory) : (s.setBuf m).cur = s.cur := by simp [State.setBuf]
@[simp] theorem phase_setBuf (s : State) (m : Memory) : (s.setBuf m).phase = s.phase := by simp [State.setBuf]
@[simp] theorem handoff_setBuf (s : State) (m : Memory) : (s.setBuf m).handoff = s.handoff := by simp [State.setBuf]
@[simp] theorem latch_setBuf (s : State) (m : Memory) : (s.setBuf m).latch = s.latch := by simp [State.setBuf]
@[simp] theorem inputs_setBuf (s : State) (m : Memory) : (s.setBuf m).inputs = s.inputs := by simp [State.setBuf]

/-! ## The input block and the hand-off -/

@[simp] theorem cfg_setLatch (s : State) (x : Block) : (s.setLatch x).cfg = s.cfg := rfl
@[simp] theorem a_setLatch (s : State) (x : Block) : (s.setLatch x).a = s.a := rfl
@[simp] theorem b_setLatch (s : State) (x : Block) : (s.setLatch x).b = s.b := rfl
@[simp] theorem handoff_setLatch (s : State) (x : Block) : (s.setLatch x).handoff = s.handoff := rfl
@[simp] theorem cur_setLatch (s : State) (x : Block) : (s.setLatch x).cur = s.cur := rfl
@[simp] theorem phase_setLatch (s : State) (x : Block) : (s.setLatch x).phase = s.phase := rfl
@[simp] theorem latch_setLatch (s : State) (x : Block) : (s.setLatch x).latch = x := rfl
@[simp] theorem inputs_setLatch (s : State) (x : Block) : (s.setLatch x).inputs = s.inputs := rfl
@[simp] theorem stage_setLatch (s : State) (x : Block) : (s.setLatch x).stage = s.stage := rfl
@[simp] theorem other_setLatch (s : State) (x : Block) : (s.setLatch x).other = s.other := rfl
@[simp] theorem programs_setLatch (s : State) (x : Block) : (s.setLatch x).programs = s.programs := rfl
@[simp] theorem inProgram_setLatch (s : State) (x : Block) : (s.setLatch x).inProgram = s.inProgram := rfl
@[simp] theorem cfg_setHandoff (s : State) (x : List Block) : (s.setHandoff x).cfg = s.cfg := rfl
@[simp] theorem a_setHandoff (s : State) (x : List Block) : (s.setHandoff x).a = s.a := rfl
@[simp] theorem b_setHandoff (s : State) (x : List Block) : (s.setHandoff x).b = s.b := rfl
@[simp] theorem handoff_setHandoff (s : State) (x : List Block) : (s.setHandoff x).handoff = x := rfl
@[simp] theorem cur_setHandoff (s : State) (x : List Block) : (s.setHandoff x).cur = s.cur := rfl
@[simp] theorem phase_setHandoff (s : State) (x : List Block) : (s.setHandoff x).phase = s.phase := rfl
@[simp] theorem latch_setHandoff (s : State) (x : List Block) : (s.setHandoff x).latch = s.latch := rfl
@[simp] theorem inputs_setHandoff (s : State) (x : List Block) : (s.setHandoff x).inputs = s.inputs := rfl
@[simp] theorem stage_setHandoff (s : State) (x : List Block) : (s.setHandoff x).stage = s.stage := rfl
@[simp] theorem other_setHandoff (s : State) (x : List Block) : (s.setHandoff x).other = s.other := rfl
@[simp] theorem programs_setHandoff (s : State) (x : List Block) : (s.setHandoff x).programs = s.programs := rfl
@[simp] theorem inProgram_setHandoff (s : State) (x : List Block) : (s.setHandoff x).inProgram = s.inProgram := rfl

/-! ## A named stage -/

theorem stageAt_cur (s : State) : s.stageAt s.cur = s.stage := by
  unfold State.stageAt State.stage; cases s.cur <;> rfl

@[simp] theorem setStageAt_A_a (s : State) (st : Stage) : (s.setStageAt st .A).a = st := rfl
@[simp] theorem setStageAt_A_b (s : State) (st : Stage) : (s.setStageAt st .A).b = s.b := rfl
@[simp] theorem setStageAt_B_a (s : State) (st : Stage) : (s.setStageAt st .B).a = s.a := rfl
@[simp] theorem setStageAt_B_b (s : State) (st : Stage) : (s.setStageAt st .B).b = st := rfl
@[simp] theorem stageAt_A (s : State) : s.stageAt .A = s.a := rfl
@[simp] theorem stageAt_B (s : State) : s.stageAt .B = s.b := rfl
@[simp] theorem cfg_setStageAt (s : State) (st : Stage) (i : StageId) : (s.setStageAt st i).cfg = s.cfg := by
  cases i <;> rfl
@[simp] theorem phase_setStageAt (s : State) (st : Stage) (i : StageId) : (s.setStageAt st i).phase = s.phase := by
  cases i <;> rfl
@[simp] theorem cur_setStageAt (s : State) (st : Stage) (i : StageId) : (s.setStageAt st i).cur = s.cur := by
  cases i <;> rfl
@[simp] theorem handoff_setStageAt (s : State) (st : Stage) (i : StageId) : (s.setStageAt st i).handoff = s.handoff := by
  cases i <;> rfl
@[simp] theorem latch_setStageAt (s : State) (st : Stage) (i : StageId) : (s.setStageAt st i).latch = s.latch := by
  cases i <;> rfl
@[simp] theorem inputs_setStageAt (s : State) (st : Stage) (i : StageId) : (s.setStageAt st i).inputs = s.inputs := by
  cases i <;> rfl

/-- The two stages are the acting one and the other one, in one order or the other. -/
theorem stages_of_cur (s : State) :
    (s.cur = .A ∧ s.stage = s.a ∧ s.other = s.b) ∨ (s.cur = .B ∧ s.stage = s.b ∧ s.other = s.a) := by
  unfold State.stage State.other
  cases h : s.cur
  · exact .inl ⟨rfl, rfl, rfl⟩
  · exact .inr ⟨rfl, rfl, rfl⟩

/-! ## Answers -/

theorem complete_eq (code : ResultCode) (s : State) : complete code s = .next (answered code s) := rfl

@[simp] theorem answered_program (code : ResultCode) (s : State) (h : s.inProgram = true) : answered code s = s := by
  simp [answered, h]

theorem answered_port (code : ResultCode) (s : State) (h : s.inProgram = false) :
    answered code s = s.setStage { s.stage with res := code.word } := by simp [answered, h]

@[simp] theorem answered_cfg (code : ResultCode) (s : State) : (answered code s).cfg = s.cfg := by
  unfold answered; split <;> simp
@[simp] theorem answered_cur (code : ResultCode) (s : State) : (answered code s).cur = s.cur := by
  unfold answered; split <;> simp
@[simp] theorem answered_phase (code : ResultCode) (s : State) : (answered code s).phase = s.phase := by
  unfold answered; split <;> simp
@[simp] theorem answered_other (code : ResultCode) (s : State) : (answered code s).other = s.other := by
  unfold answered; split <;> simp
@[simp] theorem answered_handoff (code : ResultCode) (s : State) : (answered code s).handoff = s.handoff := by
  unfold answered; split <;> simp
@[simp] theorem answered_latch (code : ResultCode) (s : State) : (answered code s).latch = s.latch := by
  unfold answered; split <;> simp
@[simp] theorem answered_inputs (code : ResultCode) (s : State) : (answered code s).inputs = s.inputs := by
  unfold answered; split <;> simp
@[simp] theorem answered_inProgram (code : ResultCode) (s : State) : (answered code s).inProgram = s.inProgram := by
  simp [State.inProgram]

/-- A stage is answered in `RES` alone. -/
theorem answered_stage (code : ResultCode) (s : State) :
    (answered code s).stage = s.stage ∨ (answered code s).stage = { s.stage with res := code.word } := by
  unfold answered; split
  · exact .inl rfl
  · exact .inr (by simp)

end Sys2Proof.Machine
end

