-- ==== Sys2Proof/Laws/Contracts.lean ====
section
/-! SUPPORT. For each shared operation, once, everything it can do: the command-source check, the answer of a command
that computes a stage, and the read, setup and modify contracts (R132 to R134). -/

namespace Sys2Proof.Machine
open Sys2Proof

/-! ## Issuing -/

/-- An accepted command runs. -/
theorem issue_accepted {i : Instr} {s : State} {body : Result} (h : accepted i s = true) : issue i s body = body := by
  unfold accepted at h
  unfold issue
  simp only [Bool.and_eq_true] at h
  obtain ⟨hl, hs⟩ := h
  cases hp : s.inProgram <;> simp_all

/-- A command that is not accepted is `IllegalCommand` at the control port (R122). -/
theorem issue_illegal {i : Instr} {s : State} {body : Result} (hp : s.inProgram = false) (h : accepted i s = false) :
    issue i s body = .next (answered .illegalCommand s) := by
  unfold accepted at h
  unfold issue
  simp only [hp, complete_eq]
  simp only [hp] at h
  rw [if_neg (by simp), if_neg]
  simpa [Bool.and_comm] using h

/-- What an issued command that answers a next state was. -/
theorem issue_next {i : Instr} {s t : State} {body : Result} (h : issue i s body = .next t) :
    (accepted i s = true ∧ body = .next t) ∨
      (s.inProgram = false ∧ accepted i s = false ∧ t = answered .illegalCommand s) := by
  cases ha : accepted i s
  · right
    cases hp : s.inProgram
    · rw [issue_illegal hp ha] at h
      cases h; exact ⟨rfl, rfl, rfl⟩
    · unfold accepted at ha
      unfold issue at h
      simp only [hp, if_true] at h ha
      rw [if_neg (by simpa [Bool.and_comm] using ha)] at h
      cases h
  · left; rw [issue_accepted ha] at h; exact ⟨rfl, h⟩

/-! ## Answering -/

theorem completeWith_next {code : ResultCode} {s t : State} {r : Except Fault Stage}
    (h : completeWith code s r = .next t) : ∃ st, r = .ok st ∧ t = answered code (s.setStage st) := by
  cases r with
  | ok st => exact ⟨st, rfl, by simpa [completeWith, complete_eq] using h.symm⟩
  | error e => simp [completeWith] at h

@[simp] theorem completeWith_ok (code : ResultCode) (s : State) (st : Stage) :
    completeWith code s (.ok st) = .next (answered code (s.setStage st)) := rfl

@[simp] theorem completeWith_error (code : ResultCode) (s : State) (e : Fault) :
    completeWith code s (.error e) = .fault e := rfl

/-! ## The contracts -/

variable {α : Type} {sl : Slot α} {inst : Byte} {s t : State}

/-- Everything a reading command that answers a next state can have done. -/
theorem readElement_next {pass : Memory → Except Fault Memory} {run : α → Memory → Except Fault (Memory × α)}
    (h : readElement sl inst pass run s = .next t) :
    (∃ m, sl.get s.stage inst = none ∧ pass s.stage.buf = .ok m ∧
        t = answered .invalidInstancePointer (s.setStage { s.stage with buf := m })) ∨
    (∃ x m, sl.get s.stage inst = some x ∧ sl.ready x = false ∧ pass s.stage.buf = .ok m ∧
        t = answered .ok (s.setStage { s.stage with buf := m })) ∨
    (∃ x m x', sl.get s.stage inst = some x ∧ sl.ready x = true ∧ run x s.stage.buf = .ok (m, x') ∧
        t = answered .ok (s.setStage (sl.put { s.stage with buf := m } inst x'))) := by
  simp only [readElement] at h
  cases hg : sl.get s.stage inst with
  | none =>
    rw [hg] at h
    obtain ⟨st, h1, rfl⟩ := completeWith_next h
    cases hp : pass s.stage.buf with
    | ok m => rw [hp] at h1; cases h1; exact .inl ⟨m, rfl, rfl, rfl⟩
    | error e => rw [hp] at h1; cases h1
  | some x =>
    rw [hg] at h
    simp only at h
    cases hr : sl.ready x
    · rw [hr, if_neg (by simp)] at h
      obtain ⟨st, h1, rfl⟩ := completeWith_next h
      cases hp : pass s.stage.buf with
      | ok m => rw [hp] at h1; cases h1; exact .inr (.inl ⟨x, m, rfl, hr, rfl, rfl⟩)
      | error e => rw [hp] at h1; cases h1
    · rw [hr, if_pos rfl] at h
      obtain ⟨st, h1, rfl⟩ := completeWith_next h
      cases hp : run x s.stage.buf with
      | ok p => obtain ⟨m, x'⟩ := p; rw [hp] at h1; cases h1; exact .inr (.inr ⟨x, m, x', rfl, hr, hp, rfl⟩)
      | error e => rw [hp] at h1; cases h1

/-- Everything a setup command that answers a next state can have done. -/
theorem setupElement_next {checks : List (Bool × ResultCode)} {build : α → Except Fault α}
    (h : setupElement sl inst checks build s = .next t) :
    (sl.get s.stage inst = none ∧ t = answered .invalidInstancePointer s) ∨
    (∃ x code, sl.get s.stage inst = some x ∧ firstFailure checks = some code ∧
        t = answered code (s.setStage (sl.put s.stage inst (sl.clear x)))) ∨
    (∃ x x', sl.get s.stage inst = some x ∧ firstFailure checks = none ∧ build x = .ok x' ∧
        t = answered .ok (s.setStage (sl.put s.stage inst x'))) := by
  simp only [setupElement] at h
  cases hg : sl.get s.stage inst with
  | none => rw [hg] at h; simp only [complete_eq] at h; cases h; exact .inl ⟨rfl, rfl⟩
  | some x =>
    rw [hg] at h
    simp only at h
    cases hc : firstFailure checks with
    | some code => rw [hc] at h; simp only [complete_eq] at h; cases h; exact .inr (.inl ⟨x, code, rfl, rfl, rfl⟩)
    | none =>
      rw [hc] at h
      obtain ⟨st, h1, rfl⟩ := completeWith_next h
      cases hb : build x with
      | ok x' => rw [hb] at h1; cases h1; exact .inr (.inr ⟨x, x', rfl, rfl, hb, rfl⟩)
      | error e => rw [hb] at h1; cases h1

/-- Everything a modify command that answers a next state can have done. -/
theorem modifyElement_next {code : ResultCode} {apply : α → Except Fault α}
    (h : modifyElement sl inst code apply s = .next t) :
    (sl.get s.stage inst = none ∧ t = answered .invalidInstancePointer s) ∨
    (∃ x, sl.get s.stage inst = some x ∧ sl.ready x = false ∧ t = answered code s) ∨
    (∃ x x', sl.get s.stage inst = some x ∧ sl.ready x = true ∧ apply x = .ok x' ∧
        t = answered code (s.setStage (sl.put s.stage inst x'))) := by
  simp only [modifyElement] at h
  cases hg : sl.get s.stage inst with
  | none => rw [hg] at h; simp only [complete_eq] at h; cases h; exact .inl ⟨rfl, rfl⟩
  | some x =>
    rw [hg] at h
    simp only at h
    cases hr : sl.ready x
    · rw [hr, if_neg (by simp)] at h; simp only [complete_eq] at h; cases h; exact .inr (.inl ⟨x, rfl, hr, rfl⟩)
    · rw [hr, if_pos rfl] at h
      obtain ⟨st, h1, rfl⟩ := completeWith_next h
      cases hb : apply x with
      | ok x' => rw [hb] at h1; cases h1; exact .inr (.inr ⟨x, x', rfl, hr, hb, rfl⟩)
      | error e => rw [hb] at h1; cases h1

theorem readElement_null {pass : Memory → Except Fault Memory} {run : α → Memory → Except Fault (Memory × α)}
    {m : Memory} (hg : sl.get s.stage inst = none) (hp : pass s.stage.buf = .ok m) :
    readElement sl inst pass run s = .next (answered .invalidInstancePointer (s.setStage { s.stage with buf := m })) := by
  simp [readElement, hg, hp, withBuffers]

theorem readElement_unready {pass : Memory → Except Fault Memory} {run : α → Memory → Except Fault (Memory × α)}
    {m : Memory} {x : α} (hg : sl.get s.stage inst = some x) (hr : sl.ready x = false)
    (hp : pass s.stage.buf = .ok m) :
    readElement sl inst pass run s = .next (answered .ok (s.setStage { s.stage with buf := m })) := by
  simp [readElement, hg, hp, hr, withBuffers]

theorem readElement_run {pass : Memory → Except Fault Memory} {run : α → Memory → Except Fault (Memory × α)}
    {m : Memory} {x x' : α} (hg : sl.get s.stage inst = some x) (hr : sl.ready x = true)
    (hp : run x s.stage.buf = .ok (m, x')) :
    readElement sl inst pass run s = .next (answered .ok (s.setStage (sl.put { s.stage with buf := m } inst x'))) := by
  simp [readElement, hg, hp, hr]

theorem setupElement_null {checks : List (Bool × ResultCode)} {build : α → Except Fault α}
    (hg : sl.get s.stage inst = none) :
    setupElement sl inst checks build s = .next (answered .invalidInstancePointer s) := by
  simp [setupElement, hg, complete_eq]

theorem setupElement_fail {checks : List (Bool × ResultCode)} {build : α → Except Fault α} {x : α} {code : ResultCode}
    (hg : sl.get s.stage inst = some x) (hc : firstFailure checks = some code) :
    setupElement sl inst checks build s = .next (answered code (s.setStage (sl.put s.stage inst (sl.clear x)))) := by
  simp [setupElement, hg, hc, complete_eq]

theorem setupElement_run {checks : List (Bool × ResultCode)} {build : α → Except Fault α} {x x' : α}
    (hg : sl.get s.stage inst = some x) (hc : firstFailure checks = none) (hb : build x = .ok x') :
    setupElement sl inst checks build s = .next (answered .ok (s.setStage (sl.put s.stage inst x'))) := by
  simp [setupElement, hg, hc, hb]

theorem modifyElement_null {code : ResultCode} {apply : α → Except Fault α} (hg : sl.get s.stage inst = none) :
    modifyElement sl inst code apply s = .next (answered .invalidInstancePointer s) := by
  simp [modifyElement, hg, complete_eq]

theorem modifyElement_unready {code : ResultCode} {apply : α → Except Fault α} {x : α}
    (hg : sl.get s.stage inst = some x) (hr : sl.ready x = false) :
    modifyElement sl inst code apply s = .next (answered code s) := by
  simp [modifyElement, hg, hr, complete_eq]

theorem modifyElement_run {code : ResultCode} {apply : α → Except Fault α} {x x' : α}
    (hg : sl.get s.stage inst = some x) (hr : sl.ready x = true) (hb : apply x = .ok x') :
    modifyElement sl inst code apply s = .next (answered code (s.setStage (sl.put s.stage inst x'))) := by
  simp [modifyElement, hg, hr, hb]

/-! ## Checks and clamps -/

@[simp] theorem firstFailure_nil : firstFailure [] = none := rfl

@[simp] theorem firstFailure_cons (good : Bool) (code : ResultCode) (rest : List (Bool × ResultCode)) :
    firstFailure ((good, code) :: rest) = if good then firstFailure rest else some code := rfl

/-- The clamp of a value in range is the value, and nothing is reported (R134). -/
theorem clampReport_inRange {lo v hi : F32} {code : ResultCode} (h1 : flt v lo = false) (h2 : fgt v hi = false) :
    clampReport lo v hi code = (v, .ok) := by simp [clampReport, h1, h2]

/-- The clamp gives one of three values. -/
theorem clampReport_cases (lo v hi : F32) (code : ResultCode) :
    (clampReport lo v hi code).1 = lo ∨ (clampReport lo v hi code).1 = hi ∨ (clampReport lo v hi code).1 = v := by
  unfold clampReport
  split
  · exact .inl rfl
  · split
    · exact .inr (.inl rfl)
    · exact .inr (.inr rfl)

/-! ## Copies -/

theorem passCopy_ok {bs bd : Byte} {n : BitVec 16} {m : Memory} {xs : List F32}
    (h : bufStore m bs n.toNat 0 = .ok xs) : passCopy bs bd n m = .ok (bufLoad bd 0 xs m) := by
  unfold passCopy copyBlock
  exact copy_loop bs bd n.toNat 0 xs m (by have := n.isLt; omega) h

end Sys2Proof.Machine
end

