-- ==== Sys2Proof/Laws/Encoding.lean ====
section
/-! SUPPORT. Taking a head word or a size word apart and putting it together (R101, R102). -/

namespace Sys2Proof

theorem headOp_headWord (a b c d : Byte) : headOp (headWord a b c d) = a := by
  unfold headOp headWord
  apply BitVec.eq_of_getLsbD_eq
  intro i hi
  have : i < 8 := hi
  simp only [BitVec.getLsbD_extractLsb', BitVec.getLsbD_append]
  simp [this, show ¬ 24 + i < 8 by omega, show ¬ 24 + i - 8 < 8 by omega, show ¬ 24 + i - 8 - 8 < 8 by omega,
    show 24 + i - 8 - 8 - 8 = i by omega]

theorem headInst_headWord (a b c d : Byte) : headInst (headWord a b c d) = b := by
  unfold headInst headWord
  apply BitVec.eq_of_getLsbD_eq
  intro i hi
  have : i < 8 := hi
  simp only [BitVec.getLsbD_extractLsb', BitVec.getLsbD_append]
  simp [this, show ¬ 16 + i < 8 by omega, show ¬ 16 + i - 8 < 8 by omega, show 16 + i - 8 - 8 = i by omega]

theorem headBs_headWord (a b c d : Byte) : headBs (headWord a b c d) = c := by
  unfold headBs headWord
  apply BitVec.eq_of_getLsbD_eq
  intro i hi
  have : i < 8 := hi
  simp only [BitVec.getLsbD_extractLsb', BitVec.getLsbD_append]
  simp [this, show 8 + i - 8 = i by omega]

theorem headBd_headWord (a b c d : Byte) : headBd (headWord a b c d) = d := by
  unfold headBd headWord
  apply BitVec.eq_of_getLsbD_eq
  intro i hi
  have : i < 8 := hi
  simp only [BitVec.getLsbD_extractLsb', BitVec.getLsbD_append]
  simp [this]

/-- A word is the head word of its fields. -/
theorem headWord_fields (w : Word) : headWord (headOp w) (headInst w) (headBs w) (headBd w) = w := by
  unfold headOp headInst headBs headBd headWord
  apply BitVec.eq_of_getLsbD_eq
  intro i hi
  simp only [BitVec.getLsbD_extractLsb', BitVec.getLsbD_append]
  by_cases h1 : i < 8
  · simp [h1]
  · by_cases h2 : i < 16
    · simp [h1, show i - 8 < 8 by omega, show 8 + (i - 8) = i by omega]
    · by_cases h3 : i < 24
      · simp [h1, show ¬ i - 8 < 8 by omega, show i - 8 - 8 < 8 by omega, show 16 + (i - 8 - 8) = i by omega]
      · simp [h1, show ¬ i - 8 < 8 by omega, show ¬ i - 8 - 8 < 8 by omega, show i - 8 - 8 - 8 < 8 by omega,
          show 24 + (i - 8 - 8 - 8) = i by omega]

theorem sizeBs2_sizeWord (b : Byte) (n : BitVec 16) : sizeBs2 (sizeWord b n) = b := by
  unfold sizeBs2 sizeWord
  apply BitVec.eq_of_getLsbD_eq
  intro i hi
  have : i < 8 := hi
  simp only [BitVec.getLsbD_extractLsb', BitVec.getLsbD_append]
  simp [this, show ¬ 24 + i < 16 by omega, show ¬ 24 + i - 16 < 8 by omega, show 24 + i - 16 - 8 = i by omega]

theorem sizeZero_sizeWord (b : Byte) (n : BitVec 16) : sizeZero (sizeWord b n) = 0 := by
  unfold sizeZero sizeWord
  apply BitVec.eq_of_getLsbD_eq
  intro i hi
  have : i < 8 := hi
  simp only [BitVec.getLsbD_extractLsb', BitVec.getLsbD_append]
  simp [this]

theorem sizeN_sizeWord (b : Byte) (n : BitVec 16) : sizeN (sizeWord b n) = n := by
  unfold sizeN sizeWord
  apply BitVec.eq_of_getLsbD_eq
  intro i hi
  have : i < 16 := hi
  simp only [BitVec.getLsbD_extractLsb', BitVec.getLsbD_append]
  simp [this]

/-- A word whose zero field is zero is the size word of its other fields. -/
theorem sizeWord_fields (w : Word) (h : sizeZero w = 0) : sizeWord (sizeBs2 w) (sizeN w) = w := by
  unfold sizeWord
  rw [← h]
  unfold sizeBs2 sizeZero sizeN
  apply BitVec.eq_of_getLsbD_eq
  intro i hi
  simp only [BitVec.getLsbD_extractLsb', BitVec.getLsbD_append]
  by_cases h1 : i < 16
  · simp [h1]
  · by_cases h2 : i < 24
    · simp [h1, show i - 16 < 8 by omega, show 16 + (i - 16) = i by omega]
    · simp [h1, show ¬ i - 16 < 8 by omega, show i - 16 - 8 < 8 by omega, show 24 + (i - 16 - 8) = i by omega]

end Sys2Proof
end

