-- ==== Sys2Proof/Laws/Float.lean ====
section
/-! SUPPORT. When a computed word is a finite number (R12, R14), and the configuration functions at the arguments
R13 speaks of. -/

namespace Sys2Proof.Machine
open Sys2Proof

/-- A magnitude below that of infinity is a finite number. -/
theorem isFinite_withSign {neg : Bool} {k : Nat} (h : k < 0x7F800000) : isFinite (withSign neg k) = true := by
  unfold isFinite fexpo withSign
  simp only [BitVec.toNat_ofNat, bne_iff_ne, ne_eq]
  cases neg <;> simp <;> omega

/-- Rounding adds at most one to the quotient. -/
theorem roundShift_le (m k : Nat) : roundShift m k ≤ m / 2 ^ k + 1 := by
  unfold roundShift
  simp only
  split <;> omega

/-- The significand that `roundPack` rounds to has at most 24 bits, or is `2 ^ 24`. -/
theorem significand_le {m : Nat} (hm : m ≠ 0) {e ulp : Int} (hu : e + (Nat.log2 m : Int) - 23 ≤ ulp) :
    (if ulp ≤ e then m * 2 ^ (e - ulp).toNat else roundShift m (ulp - e).toNat) ≤ 2 ^ 24 := by
  have hlt : m < 2 ^ (m.log2 + 1) := (Nat.log2_lt hm).1 (Nat.lt_succ_self _)
  split
  · rename_i h
    have h1 : m.log2 + 1 + (e - ulp).toNat ≤ 24 := by omega
    calc m * 2 ^ (e - ulp).toNat ≤ 2 ^ (m.log2 + 1) * 2 ^ (e - ulp).toNat := Nat.mul_le_mul_right _ hlt.le
      _ = 2 ^ (m.log2 + 1 + (e - ulp).toNat) := (pow_add _ _ _).symm
      _ ≤ 2 ^ 24 := Nat.pow_le_pow_right (by omega) h1
  · rename_i h
    have h1 : m.log2 + 1 ≤ 24 + (ulp - e).toNat := by omega
    have h2 : m < 2 ^ 24 * 2 ^ (ulp - e).toNat := by
      rw [← pow_add]; exact hlt.trans_le (Nat.pow_le_pow_right (by omega) h1)
    have h3 : m / 2 ^ (ulp - e).toNat < 2 ^ 24 := (Nat.div_lt_iff_lt_mul (by positivity)).2 h2
    have := roundShift_le m (ulp - e).toNat
    omega

/-- A result whose leading bit has weight at most `2 ^ 126` does not overflow. -/
theorem isFinite_roundPack {neg : Bool} {m : Nat} {e : Int} (h : m = 0 ∨ e + (Nat.log2 m : Int) ≤ 126) :
    isFinite (roundPack neg m e) = true := by
  unfold roundPack
  split
  · exact isFinite_withSign (by omega)
  · rename_i hm
    have h1 := h.resolve_left hm
    have hs := significand_le hm (e := e) (ulp := max (e + (Nat.log2 m : Int) - 23) (-149)) (by omega)
    simp only
    have h2 : (max (e + (Nat.log2 m : Int) - 23) (-149) + 149).toNat ≤ 252 := by omega
    rw [if_pos]
    · exact isFinite_withSign (by omega)
    · omega

/-- A natural number below `2 ^ 127` is a finite binary32 number (R11). -/
theorem isFinite_u2f {u : Nat} (h : u < 2 ^ 127) : isFinite (u2f u) = true := by
  unfold u2f
  apply isFinite_roundPack
  by_cases hu : u = 0
  · exact .inl hu
  · exact .inr (by have := (Nat.log2_lt hu).2 h; omega)

/-- A word between two finite words is not a NaN, and is finite. -/
theorem isFinite_of_le {lo v hi : F32} (hlo : isFinite lo = true) (hhi : isFinite hi = true) (h1 : fle lo v = true)
    (h2 : fle v hi = true) : isFinite v = true := by
  unfold fle at h1 h2
  simp only [Bool.and_eq_true, Bool.not_eq_true', decide_eq_true_eq] at h1 h2
  have hn := h1.1.2
  unfold isNaN at hn
  unfold isFinite at hlo hhi ⊢
  simp only [bne_iff_ne, ne_eq, Bool.and_eq_false_iff, beq_eq_false_iff_ne, bne_eq_false_iff_eq] at hlo hhi hn ⊢
  intro hv
  have hf : ffrac v = 0 := hn.resolve_left (by simpa using hv)
  have hk1 := h1.2
  have hk2 := h2.2
  unfold fkey fsign at hk1 hk2
  unfold fexpo at hlo hhi hv
  unfold ffrac at hf
  have l1 := lo.isLt
  have l2 := hi.isLt
  have l3 := v.isLt
  rw [BitVec.msb_eq_decide] at hk1 hk2
  rw [BitVec.msb_eq_decide] at hk1 hk2
  simp only [decide_eq_true_eq] at hk1 hk2
  split at hk1 <;> split at hk1 <;> split at hk2 <;> omega

/-- A value in a range with finite bounds is finite. -/
theorem isFinite_of_inRange {lo v hi : F32} (hlo : isFinite lo = true) (hhi : isFinite hi = true)
    (h : inRange lo v hi = true) : isFinite v = true := by
  unfold inRange at h
  simp only [Bool.and_eq_true] at h
  exact isFinite_of_le hlo hhi h.1 h.2

theorem isFinite_finiteOr {y d : F32} (h : isFinite d = true) : isFinite (finiteOr y d) = true := by
  unfold finiteOr; split <;> assumption

/-- `fsin` is a finite number in `[−1, 1]` (R13). -/
theorem fsin_inRange (x : F32) : inRange fnegOne (fsin x) fone = true := by
  unfold fsin unitOr
  split
  · decide
  · split
    · assumption
    · decide

/-- `fcos` is a finite number in `[−1, 1]` (R13). -/
theorem fcos_inRange (x : F32) : inRange fnegOne (fcos x) fone = true := by
  unfold fcos unitOr
  split
  · decide
  · split
    · assumption
    · decide

/-- `0 < fexp(x) ≤ 1` for `x ≤ 0` (R13). -/
theorem fexp_unit {x : F32} (h : fle x fzero = true) : flt fzero (fexp x) = true ∧ fle (fexp x) fone = true := by
  unfold fexp
  split
  · decide
  · rename_i hc; simpa [h] using hc

/-- `fexp2(±0) = 1.0` (R13). -/
theorem fexp2_zero {x : F32} (h : isZero x = true) : fexp2 x = fone := by simp [fexp2, h]

/-! ## Bounds on the exponent field of a result (R12) -/

/-- The exponent field of a word made of a sign and a magnitude. -/
theorem fexpo_withSign {neg : Bool} {k : Nat} (h : k < 2 ^ 31) : fexpo (withSign neg k) = k / 2 ^ 23 := by
  unfold fexpo withSign
  simp only [BitVec.toNat_ofNat]
  cases neg <;> simp <;> omega

/-- A result whose leading bit has weight at most `2 ^ b` has an exponent field of at most `b + 128`. -/
theorem fexpo_roundPack_le {neg : Bool} {m : Nat} {e b : Int} (hb : -126 ≤ b) (hb' : b ≤ 126)
    (h : m = 0 ∨ e + (Nat.log2 m : Int) ≤ b) : (fexpo (roundPack neg m e) : Int) ≤ b + 128 := by
  unfold roundPack
  split
  · rw [fexpo_withSign (by omega)]; omega
  · rename_i hm
    have h1 := h.resolve_left hm
    have hs := significand_le hm (e := e) (ulp := max (e + (Nat.log2 m : Int) - 23) (-149)) (by omega)
    simp only
    generalize (if max (e + (Nat.log2 m : Int) - 23) (-149) ≤ e then _ else _ : Nat) = sig at hs ⊢
    have h2 : (max (e + (Nat.log2 m : Int) - 23) (-149) + 149).toNat ≤ (b + 126).toNat := by omega
    rw [if_pos (by omega), fexpo_withSign (by omega)]
    omega

/-- A result whose leading bit has weight at least `2 ^ b` has an exponent field of at least `b + 126`. -/
theorem fexpo_roundPack_ge {neg : Bool} {m : Nat} {e b : Int} (hm : m ≠ 0) (hb : b ≤ 126)
    (h : b ≤ e + (Nat.log2 m : Int)) : b + 126 ≤ (fexpo (roundPack neg m e) : Int) := by
  unfold roundPack
  rw [if_neg hm]
  simp only
  generalize (if max (e + (Nat.log2 m : Int) - 23) (-149) ≤ e then _ else _ : Nat) = sig
  split
  · rw [fexpo_withSign (by omega)]; omega
  · rw [fexpo_withSign (by omega)]; omega

theorem fmant_lt (x : F32) : fmant x < 2 ^ 24 := by
  unfold fmant ffrac; split <;> omega

theorem fscale_le (x : F32) : fscale x ≤ fexpo x + 1 ∧ fexpo x ≤ fscale x ∧ 1 ≤ fscale x := by
  unfold fscale; split <;> omega

theorem fscale_fmant_of_normal {x : F32} (h : 1 ≤ fexpo x) : fscale x = fexpo x ∧ 2 ^ 23 ≤ fmant x := by
  unfold fscale fmant; simp [show fexpo x ≠ 0 by omega]

theorem not_isNaN {x : F32} (h : isFinite x = true) : isNaN x = false := by
  unfold isFinite at h; unfold isNaN; simp at h; simp [h]

theorem not_isInf {x : F32} (h : isFinite x = true) : isInf x = false := by
  unfold isFinite at h; unfold isInf; simp at h; simp [h]

/-- The exponent field of a product of finite numbers. -/
theorem fexpo_fmul_le {x y : F32} {b : Nat} (hx : isFinite x = true) (hy : isFinite y = true)
    (h : fexpo x + fexpo y ≤ b + 123) (hb : 2 ≤ b) (hb' : b ≤ 254) : fexpo (fmul x y) ≤ b := by
  unfold fmul
  simp only [not_isNaN hx, not_isNaN hy, not_isInf hx, not_isInf hy, Bool.or_false, Bool.false_eq_true, if_false]
  have h1 := fmant_lt x
  have h2 := fmant_lt y
  have hsx := fscale_le x
  have hsy := fscale_le y
  have hm : fmant x * fmant y < 2 ^ 48 := by
    calc fmant x * fmant y ≤ 2 ^ 24 * fmant y := Nat.mul_le_mul_right _ h1.le
      _ < 2 ^ 24 * 2 ^ 24 := Nat.mul_lt_mul_of_pos_left h2 (by norm_num)
      _ = 2 ^ 48 := by norm_num
  have key : fmant x * fmant y = 0 ∨
      ((fscale x : Int) + (fscale y : Int) - 300) + (Nat.log2 (fmant x * fmant y) : Int) ≤ (b : Int) - 128 := by
    by_cases h0 : fmant x * fmant y = 0
    · exact .inl h0
    · have := (Nat.log2_lt h0).2 hm
      right; omega
  have := fexpo_roundPack_le (neg := fsign x != fsign y) (b := (b : Int) - 128) (by omega) (by omega) key
  omega

/-- One plus a small number, and one minus a small number: neither vanishes and neither is large. -/
theorem fexpo_fone_add {x : F32} (h : fexpo x ≤ 124) : 125 ≤ fexpo (fadd fone x) ∧ fexpo (fadd fone x) ≤ 129 := by
  have hx : isFinite x = true := by unfold isFinite; simp; omega
  have h1 : isFinite fone = true := by decide
  have hm := fmant_lt x
  have hs : 1 ≤ fscale x ∧ fscale x ≤ 124 := by unfold fscale; split <;> omega
  unfold fadd
  simp only [not_isNaN hx, not_isNaN h1, not_isInf hx, not_isInf h1, Bool.or_false, Bool.false_eq_true, if_false]
  have e1 : fscale fone = 127 := by decide
  have e2 : fmant fone = 2 ^ 23 := by decide
  have e3 : fsign fone = false := by decide
  have emin : min (fscale fone) (fscale x) = fscale x := by omega
  rw [emin]
  have ex : (fintAt x (fscale x)).natAbs = fmant x := by unfold fintAt; split <;> simp
  have eone : fintAt fone (fscale x) = ((2 ^ 23 * 2 ^ (127 - fscale x) : Nat) : Int) := by
    unfold fintAt; simp [e1, e2, e3]
  have hp : 2 ^ 23 * 2 ^ (127 - fscale x) = 2 ^ (150 - fscale x) := by rw [← pow_add]; congr 1; omega
  have hlo : 2 ^ 25 ≤ 2 ^ (149 - fscale x) := Nat.pow_le_pow_right (by norm_num) (by omega)
  have hd : 2 ^ (150 - fscale x) = 2 * 2 ^ (149 - fscale x) := by rw [← pow_succ']; congr 1; omega
  rw [eone, hp]
  generalize hv : ((2 ^ (150 - fscale x) : Nat) : Int) + fintAt x (fscale x) = v
  have hv1 : 2 ^ (149 - fscale x) ≤ v.natAbs ∧ v.natAbs < 2 ^ (151 - fscale x) := by
    have : 2 ^ (151 - fscale x) = 4 * 2 ^ (149 - fscale x) := by
      rw [show (4 : Nat) = 2 ^ 2 by norm_num, ← pow_add]; congr 1; omega
    rw [this]
    rw [hd] at hv
    generalize 2 ^ (149 - fscale x) = k at *
    push_cast at hv
    omega
  have hv0 : v ≠ 0 := by
    have : 0 < 2 ^ (149 - fscale x) := by positivity
    omega
  rw [if_neg hv0]
  have hn0 : v.natAbs ≠ 0 := by omega
  have hl1 : 149 - fscale x ≤ v.natAbs.log2 := (Nat.le_log2 hn0).2 hv1.1
  have hl2 : v.natAbs.log2 < 151 - fscale x := (Nat.log2_lt hn0).2 hv1.2
  have g1 := fexpo_roundPack_ge (neg := decide (v < 0)) (e := (fscale x : Int) - 150) (b := -1) hn0 (by omega) (by omega)
  have g2 := fexpo_roundPack_le (neg := decide (v < 0)) (e := (fscale x : Int) - 150) (b := 1) (by omega) (by omega)
    (.inr (by omega) : v.natAbs = 0 ∨ _)
  omega

/-- The exponent field of a quotient of a finite number by a normal one. -/
theorem fexpo_fdiv_le {x y : F32} {b : Nat} (hx : isFinite x = true) (hy : isFinite y = true) (hn : 1 ≤ fexpo y)
    (h : fexpo x + 130 ≤ b + fexpo y) (hb : 2 ≤ b) (hb' : b ≤ 254) : fexpo (fdiv x y) ≤ b := by
  have hyz : isZero y = false := by unfold isZero; simp; omega
  unfold fdiv
  simp only [not_isNaN hx, not_isNaN hy, not_isInf hx, not_isInf hy, hyz, Bool.or_false, Bool.false_eq_true, if_false]
  have h1 := fmant_lt x
  obtain ⟨hs, hm⟩ := fscale_fmant_of_normal hn
  have hsx := fscale_le x
  have hq : fmant x * 2 ^ 64 / fmant y < 2 ^ 65 := by
    rw [Nat.div_lt_iff_lt_mul (by omega)]
    calc fmant x * 2 ^ 64 < 2 ^ 24 * 2 ^ 64 := by omega
      _ = 2 ^ 65 * 2 ^ 23 := by norm_num
      _ ≤ 2 ^ 65 * fmant y := Nat.mul_le_mul_left _ hm
  have key : ∀ m : Nat, m < 2 ^ 66 → m = 0 ∨
      (((fscale x : Int) - (fscale y : Int) - 65) + (Nat.log2 m : Int) ≤ (b : Int) - 128) := by
    intro m hm
    by_cases h0 : m = 0
    · exact .inl h0
    · have := (Nat.log2_lt h0).2 hm
      right; omega
  have := fexpo_roundPack_le (neg := fsign x != fsign y) (b := (b : Int) - 128) (by omega) (by omega)
    (key (2 * (fmant x * 2 ^ 64 / fmant y) + if fmant x * 2 ^ 64 % fmant y = 0 then 0 else 1) (by split <;> omega))
  omega

/-- The exponent field of a number in `[−1, 1]`. -/
theorem fexpo_unit {x : F32} (h : inRange fnegOne x fone = true) : fexpo x ≤ 127 := by
  unfold inRange fle at h
  simp only [Bool.and_eq_true, decide_eq_true_eq] at h
  have e1 : fkey fone = 1065353216 := by decide
  have e2 : fkey fnegOne = -1065353216 := by decide
  have h1 := h.1.2
  have h2 := h.2.2
  rw [e2] at h1
  rw [e1] at h2
  unfold fkey at h1 h2
  unfold fexpo
  have := x.isLt
  split at h1 <;> simp_all <;> omega

theorem fexpo_fneg (x : F32) : fexpo (fneg x) = fexpo x := by
  unfold fexpo fneg
  have e : ∀ y : BitVec 32, y.toNat / 2 ^ 23 % 256 = (y.extractLsb' 23 8).toNat := by
    intro y; simp [BitVec.extractLsb'_toNat, Nat.shiftRight_eq_div_pow]
  rw [e, e]
  congr 1
  ext i hi
  interval_cases i <;> simp

/-- One minus a small number. -/
theorem fexpo_fone_sub {x : F32} (h : fexpo x ≤ 124) : 125 ≤ fexpo (fsub fone x) ∧ fexpo (fsub fone x) ≤ 129 :=
  fexpo_fone_add (by rw [fexpo_fneg]; exact h)

theorem isFinite_of_fexpo {x : F32} (h : fexpo x ≤ 254) : isFinite x = true := by unfold isFinite; simp; omega

end Sys2Proof.Machine
end

