-- ==== Sys2Proof/Laws/Formulas.lean ====
section
/-! SUPPORT. The formulas that the statements write out from the rules (`Safety.lean`) are the machine's: one equation
for each shared function of `Machine/`. -/

namespace Sys2Proof.Machine
open Sys2Proof

/-! ## Helpers (R17, R146, R172, R197) -/

/-- R17. -/
theorem clampf_eq_clamped (v lo hi : F32) : clampf v lo hi = clamped v lo hi := rfl

/-- The clamp of the modify contract (R134). -/
theorem clampReport_eq (lo v hi : F32) (code : ResultCode) :
    clampReport lo v hi code = (clamped v lo hi, outside lo v hi code .ok) := by
  unfold clampReport clamped outside fgt
  cases flt v lo <;> cases flt hi v <;> rfl

/-- R146. -/
theorem onepole_eq_smoothed (c y x : F32) : onepole c y x = smoothed c y x := rfl

/-- R172. -/
theorem phaseAdv_eq_advanced (p inc : F32) : phaseAdv p inc = advanced p inc := by
  unfold phaseAdv advanced fge
  rfl

/-- R172, with the phase of the external type standing still (R256). -/
theorem modPhase_eq (t : ModType) (p inc : F32) : modPhase t p inc = if t = .ext then p else advanced p inc := by
  unfold modPhase
  cases t <;> simp [phaseAdv_eq_advanced]

/-- A comparison and its converse cannot both hold. -/
theorem flt_asymm {x y : F32} (h : fle x y = true) : flt y x = false := by
  unfold fle at h
  unfold flt
  simp only [Bool.and_eq_true, Bool.not_eq_true', decide_eq_true_eq] at h
  simp only [h.1.1, h.1.2, Bool.not_false, Bool.true_and, decide_eq_false_iff_not]
  omega

/-- R197. -/
theorem approach_eq_glided (cur inc dest : F32) : approach cur inc dest = glided cur inc dest := by
  unfold approach glided fge fgt
  show _ = if (fle fzero inc && flt dest (fadd cur inc)) = true then dest
    else if (flt inc fzero && flt (fadd cur inc) dest) = true then dest else fadd cur inc
  cases h : fle fzero inc
  · simp
  · simp only [flt_asymm h, Bool.true_and, Bool.false_and, Bool.false_eq_true, if_false]

/-! ## The oscillator (R171, R173) -/

/-- R171. -/
theorem osc_eq_oscOf (t : Wave) (p w : F32) : osc t p w = oscOf t p w := by cases t <;> rfl

/-- A zero word is one of the two zeros. -/
theorem eq_of_isZero {x : F32} (h : isZero x = true) : x = 0x00000000 ∨ x = 0x80000000 := by
  unfold isZero fexpo ffrac at h
  simp only [Bool.and_eq_true, beq_iff_eq] at h
  have := x.isLt
  have h1 : x.toNat = 0 ∨ x.toNat = 0x80000000 := by omega
  exact h1.imp (fun h => BitVec.eq_of_toNat_eq h) (fun h => BitVec.eq_of_toNat_eq h)

/-- What `OSC.EVAL` evaluates (R173). -/
theorem osc_evalPhase (ty : Word) (h : ty.toNat ≤ 4) (phase duty : F32) :
    osc (waveType ty.toNat) (evalPhase (waveType ty.toNat) phase) duty = waveform ty phase duty := by
  have key : ∀ t : Wave, t ≠ .sine →
      evalPhase t phase = if phase = 0x80000000 then 0x00000000 else phase := by
    intro t ht
    unfold evalPhase
    rw [show (t != .sine) = true by simpa using ht, Bool.true_and]
    by_cases hz : isZero phase = true
    · rw [if_pos hz]
      rcases eq_of_isZero hz with rfl | rfl <;> rfl
    · rw [if_neg hz, if_neg]
      rintro rfl
      exact hz (by decide)
  have h5 : ty = 0 ∨ ty = 1 ∨ ty = 2 ∨ ty = 3 ∨ ty = 4 := by
    have : ty.toNat = 0 ∨ ty.toNat = 1 ∨ ty.toNat = 2 ∨ ty.toNat = 3 ∨ ty.toNat = 4 := by omega
    rcases this with h | h | h | h | h
    · exact .inl (BitVec.eq_of_toNat_eq h)
    · exact .inr (.inl (BitVec.eq_of_toNat_eq h))
    · exact .inr (.inr (.inl (BitVec.eq_of_toNat_eq h)))
    · exact .inr (.inr (.inr (.inl (BitVec.eq_of_toNat_eq h))))
    · exact .inr (.inr (.inr (.inr (BitVec.eq_of_toNat_eq h))))
  rcases h5 with rfl | rfl | rfl | rfl | rfl
  · rfl
  all_goals
    rw [osc_eq_oscOf, key _ (by decide)]
    simp only [waveform, ne_eq, BitVec.reduceEq, not_false_eq_true, true_and]
    rfl

/-! ## The filter, the compressor, the clipper, the envelope (R188, R190, R276, R301, R356) -/

/-- R188, R190. -/
theorem bqCoeffs_eq_coeffsOf (ty : FilterType) (freq q gain fs : F32) :
    bqCoeffs ty freq q gain fs = coeffsOf ty freq q gain fs := by cases ty <;> rfl

/-- R276. -/
theorem timeCoeff_eq_tcOf (t fs : F32) : timeCoeff t fs = tcOf t fs := rfl

/-- R301, where the quotient does not overflow (R307). -/
theorem shape_eq_shapeOf {x thr : F32} {mode : ClipMode} (h : isFinite (fdiv x thr) = true) :
    shape x thr mode = shapeOf x thr mode := by
  unfold shape
  simp only [h, Bool.not_true, Bool.false_eq_true, if_false]
  cases mode <;> rfl

/-- R356. -/
theorem syEnv_eq_envOf (y : Synth) (p : Nat) : syEnv y p = envOf y p := rfl

/-! ## The pitch detector (R338, R339) -/

/-- R339. -/
theorem zcLoss_eq_zcLost (z : ZeroCross) : zcLoss z = zcLost z := by
  unfold zcLoss zcLost
  by_cases h : z.grace = 0
  · simp [h]
  · rw [if_neg h, if_pos]
    exact Nat.pos_of_ne_zero fun e => h (BitVec.eq_of_toNat_eq e)

/-- The history entries near a frequency (R339). -/
theorem zcNear_eq_countP (tol hf : F32) (hist : List F32) :
    zcNear tol hf hist = hist.countP fun h => fle (fabs (fsub h hf)) (fmul tol hf) := by
  rw [zcNear, List.countP_eq_length_filter]

/-- The counters of the detector saturate (R338). -/
theorem satInc_eq (w : Word) : satInc w = if w.toNat < 0xFFFFFFFF then w + 1 else w := by
  unfold satInc
  by_cases h : w = 0xFFFFFFFF
  · subst h; rfl
  · rw [if_neg h, if_pos]
    have h1 : w.toNat ≠ (0xFFFFFFFF : Word).toNat := fun e => h (BitVec.eq_of_toNat_eq e)
    have h2 : w.toNat ≠ 4294967295 := h1
    have := w.isLt
    omega

/-- R339: a candidate. -/
theorem zcCandidate_eq_zcHeard (c : Config) (f : F32) (z : ZeroCross) : zcCandidate c z f = zcHeard c f z := by
  unfold zcCandidate zcHeard
  show (if (flt f 0x428C0000 || flt 0x442F0000 f) = true then zcLoss z else _) = _
  split
  · exact zcLoss_eq_zcLost z
  · have hc : zcCorrect c z f =
        if fle 0x428C0000 (fmul 0x3F000000 f) = true ∧ c.zcHalfMin ≤ ((z.hist.take z.hcount.toNat).countP fun h =>
            fle (fabs (fsub h (fmul 0x3F000000 f))) (fmul c.zcHalfTol (fmul 0x3F000000 f)))
        then fmul 0x3F000000 f else f := by
      unfold zcCorrect
      simp only [zcNear_eq_countP, Bool.and_eq_true, decide_eq_true_eq]
      rfl
    rw [hc]
    unfold zcLock zcRecord
    simp only [zcVar, zcMean, zcSum, List.foldl_map, zcLoss_eq_zcLost]
    rfl

/-- R338: one sample. -/
theorem zcRule_eq (c : Config) (x : F32) (z : ZeroCross) :
    zcRule c x z = (zcIdle c (zcCompare c (zcTrack c x z)), fzero) := by
  unfold zcRule zcIdle zcCompare zcTrack
  simp only [zcCandidate_eq_zcHeard, Bool.and_eq_true, Bool.not_eq_true', satInc_eq]
  rfl

end Sys2Proof.Machine
end

