-- ==== Sys2Proof/Laws/PerInstr.lean ====
section
/-! SUPPORT. Facts about every command as syntax, one lemma per constructor: the words `encode` writes are as many as
the opcode table's column `L` says (R100, R104). -/

/-- The encoding of a command has the command's length. -/
def Sys2Proof.Laws.EncodedLength.Statement (i : Sys2Proof.Instr) : Prop := (Sys2Proof.encode i).length = i.length

namespace Sys2Proof.Laws.EncodedLength
open Sys2Proof

theorem endProgram : Statement (.endProgram) := rfl
theorem copy (bs : Byte) (bd : Byte) (n : BitVec 16) : Statement (.copy bs bd n) := rfl
theorem clear (bd : Byte) (n : BitVec 16) : Statement (.clear bd n) := rfl
theorem mix2 (bs : Byte) (bs2 : Byte) (bd : Byte) (n : BitVec 16) : Statement (.mix2 bs bs2 bd n) := rfl
theorem gain (bs : Byte) (bd : Byte) (n : BitVec 16) (g : F32) : Statement (.gain bs bd n g) := rfl
theorem bqSetup (inst : Byte) (ty : Word) (speed : Word) (freq : F32) (q : F32) (gainDb : F32) (fs : F32) : Statement (.bqSetup inst ty speed freq q gainDb fs) := rfl
theorem bqModFreq (inst : Byte) (freq : F32) : Statement (.bqModFreq inst freq) := rfl
theorem bqModQ (inst : Byte) (q : F32) : Statement (.bqModQ inst q) := rfl
theorem bqModGain (inst : Byte) (gainDb : F32) : Statement (.bqModGain inst gainDb) := rfl
theorem bqRead (inst : Byte) (bs : Byte) (bd : Byte) (n : BitVec 16) : Statement (.bqRead inst bs bd n) := rfl
theorem dlSetup (inst : Byte) (length : Word) (feedback : F32) (feedthrough : F32) (damping : F32) : Statement (.dlSetup inst length feedback feedthrough damping) := rfl
theorem dlModLen (inst : Byte) (length : Word) : Statement (.dlModLen inst length) := rfl
theorem dlModFb (inst : Byte) (feedback : F32) : Statement (.dlModFb inst feedback) := rfl
theorem dlModFt (inst : Byte) (feedthrough : F32) : Statement (.dlModFt inst feedthrough) := rfl
theorem dlModDamp (inst : Byte) (damping : F32) : Statement (.dlModDamp inst damping) := rfl
theorem dlRead (inst : Byte) (bs : Byte) (bd : Byte) (n : BitVec 16) : Statement (.dlRead inst bs bd n) := rfl
theorem mtSetup (inst : Byte) (ntaps : Word) : Statement (.mtSetup inst ntaps) := rfl
theorem mtSetTap (inst : Byte) (tap : Word) (offset : Word) (gain : F32) : Statement (.mtSetTap inst tap offset gain) := rfl
theorem mtRead (inst : Byte) (bs : Byte) (bd : Byte) (n : BitVec 16) : Statement (.mtRead inst bs bd n) := rfl
theorem apSetup (inst : Byte) (length : Word) (gain : F32) : Statement (.apSetup inst length gain) := rfl
theorem apRead (inst : Byte) (bs : Byte) (bd : Byte) (n : BitVec 16) : Statement (.apRead inst bs bd n) := rfl
theorem vdSetup (inst : Byte) (ty : Word) (depth : F32) (rate : F32) (feedback : F32) (fs : F32) : Statement (.vdSetup inst ty depth rate feedback fs) := rfl
theorem vdModDepth (inst : Byte) (depth : F32) : Statement (.vdModDepth inst depth) := rfl
theorem vdModRate (inst : Byte) (rate : F32) : Statement (.vdModRate inst rate) := rfl
theorem vdModFb (inst : Byte) (feedback : F32) : Statement (.vdModFb inst feedback) := rfl
theorem vdModType (inst : Byte) (ty : Word) : Statement (.vdModType inst ty) := rfl
theorem vdRead (inst : Byte) (bs : Byte) (bs2 : Byte) (bd : Byte) (n : BitVec 16) : Statement (.vdRead inst bs bs2 bd n) := rfl
theorem cpSetup (inst : Byte) (thresholdDb : F32) (ratio : F32) (attackMs : F32) (releaseMs : F32) (gain : F32) (rmsMs : F32) (fs : F32) : Statement (.cpSetup inst thresholdDb ratio attackMs releaseMs gain rmsMs fs) := rfl
theorem cpModThr (inst : Byte) (thresholdDb : F32) : Statement (.cpModThr inst thresholdDb) := rfl
theorem cpModRatio (inst : Byte) (ratio : F32) : Statement (.cpModRatio inst ratio) := rfl
theorem cpModAtt (inst : Byte) (attackMs : F32) : Statement (.cpModAtt inst attackMs) := rfl
theorem cpModRel (inst : Byte) (releaseMs : F32) : Statement (.cpModRel inst releaseMs) := rfl
theorem cpModGain (inst : Byte) (gain : F32) : Statement (.cpModGain inst gain) := rfl
theorem cpRead (inst : Byte) (bs : Byte) (bd : Byte) (n : BitVec 16) : Statement (.cpRead inst bs bd n) := rfl
theorem clSetup (inst : Byte) (threshold : F32) (mode : Word) (oversample : Word) : Statement (.clSetup inst threshold mode oversample) := rfl
theorem clModThr (inst : Byte) (threshold : F32) : Statement (.clModThr inst threshold) := rfl
theorem clRead (inst : Byte) (bs : Byte) (bd : Byte) (n : BitVec 16) : Statement (.clRead inst bs bd n) := rfl
theorem oscEval (ty : Word) (phase : F32) (duty : F32) : Statement (.oscEval ty phase duty) := rfl
theorem amSetup (inst : Byte) (ty : Word) (depth : F32) (rate : F32) (fs : F32) : Statement (.amSetup inst ty depth rate fs) := rfl
theorem amModDepth (inst : Byte) (depth : F32) : Statement (.amModDepth inst depth) := rfl
theorem amModRate (inst : Byte) (rate : F32) : Statement (.amModRate inst rate) := rfl
theorem amRead (inst : Byte) (bs : Byte) (bs2 : Byte) (bd : Byte) (n : BitVec 16) : Statement (.amRead inst bs bs2 bd n) := rfl
theorem sySetup (inst : Byte) (attack : Word) (decay : Word) (sustain : Word) (release : Word) (ty : Word) (duty : F32) (sustainLevel : F32) (fs : F32) : Statement (.sySetup inst attack decay sustain release ty duty sustainLevel fs) := rfl
theorem syPlay (inst : Byte) (freq : F32) (volume : F32) : Statement (.syPlay inst freq volume) := rfl
theorem syStop (inst : Byte) : Statement (.syStop inst) := rfl
theorem syRead (inst : Byte) (bs : Byte) (bd : Byte) (n : BitVec 16) : Statement (.syRead inst bs bd n) := rfl
theorem zcSetup (inst : Byte) (fs : F32) : Statement (.zcSetup inst fs) := rfl
theorem zcRead (inst : Byte) (bs : Byte) (n : BitVec 16) : Statement (.zcRead inst bs n) := rfl
theorem smSetup (inst : Byte) (c : F32) : Statement (.smSetup inst c) := rfl
theorem smRead (inst : Byte) (bs : Byte) (bd : Byte) (n : BitVec 16) : Statement (.smRead inst bs bd n) := rfl
theorem atSetup (inst : Byte) (mode : Word) (c : F32) : Statement (.atSetup inst mode c) := rfl
theorem atRead (inst : Byte) (bs : Byte) (n : BitVec 16) : Statement (.atRead inst bs n) := rfl
theorem stArm : Statement (.stArm) := rfl
theorem stSelect (e : Byte) : Statement (.stSelect e) := rfl
theorem efSetup (e : Byte) : Statement (.efSetup e) := rfl

end Sys2Proof.Laws.EncodedLength
end

