-- ==== Sys2Proof/Laws/Rounding.lean ====
section
/-! SUPPORT. Rounding is monotone and exact where it can be (R12), and what follows for a glide towards a destination
(R197), for integer parts (R11) and for the taps of the feedback delay (R222, R223). -/

namespace Sys2Proof.Machine
open Sys2Proof

/-! ## Exact and monotone rounding (R12) -/

theorem log2_mul_two_pow {m : Nat} (h : m ≠ 0) (k : Nat) : Nat.log2 (m * 2 ^ k) = Nat.log2 m + k := by
  induction k with
  | zero => simp
  | succ k ih =>
    rw [Nat.pow_succ, ← Nat.mul_assoc, Nat.mul_comm _ 2, Nat.log2_two_mul (by positivity), ih]; omega

/-- A word is its sign and its magnitude. -/
theorem eq_withSign (x : F32) : x = withSign (fsign x) (x.toNat % 2 ^ 31) := by
  apply BitVec.eq_of_toNat_eq
  unfold withSign fsign
  have := x.isLt
  simp
  split <;> simp_all [BitVec.msb_eq_decide] <;> omega

/-- Rounding a number that a finite word has gives that word. -/
theorem roundPack_exact {x : F32} (hx : isFinite x = true) (k : Nat) :
    roundPack (fsign x) (fmant x * 2 ^ k) ((fscale x : Int) - 150 - k) = x := by
  conv_rhs => rw [eq_withSign x]
  unfold roundPack
  have hlt := x.isLt
  have hfin : fexpo x ≠ 255 := by unfold isFinite at hx; simpa using hx
  by_cases h0 : fmant x = 0
  · rw [h0, Nat.zero_mul, if_pos rfl]
    unfold fmant fexpo ffrac at h0
    congr 1
    split at h0 <;> omega
  · rw [if_neg (by positivity), log2_mul_two_pow h0]
    have hlog : Nat.log2 (fmant x) ≤ 23 := by
      have := (Nat.log2_lt h0 (k := 24)).2 (fmant_lt x); omega
    have hulp : max (((fscale x : Int) - 150 - k) + ((Nat.log2 (fmant x) + k : Nat) : Int) - 23) (-149)
        = (fscale x : Int) - 150 := by
      by_cases hz : fexpo x = 0
      · have : fscale x = 1 := by unfold fscale; simp [hz]
        rw [this]; omega
      · have h23 : 2 ^ 23 ≤ fmant x := (fscale_fmant_of_normal (by omega)).2
        have : 23 ≤ Nat.log2 (fmant x) := (Nat.le_log2 h0).2 h23
        have := (fscale_le x).2.2
        omega
    simp only [hulp]
    have hsig : (if (fscale x : Int) - 150 ≤ (fscale x : Int) - 150 - k then
        fmant x * 2 ^ k * 2 ^ ((fscale x : Int) - 150 - k - ((fscale x : Int) - 150)).toNat
      else roundShift (fmant x * 2 ^ k) ((fscale x : Int) - 150 - ((fscale x : Int) - 150 - k)).toNat) = fmant x := by
      split
      · rename_i h
        have : k = 0 := by omega
        subst this; simp
      · have : ((fscale x : Int) - 150 - ((fscale x : Int) - 150 - k)).toNat = k := by omega
        rw [this]; unfold roundShift; simp
    rw [hsig]
    have hmag : ((fscale x : Int) - 150 + 149).toNat * 2 ^ 23 + fmant x = x.toNat % 2 ^ 31 := by
      unfold fscale fmant fexpo ffrac at *
      by_cases hz : x.toNat / 2 ^ 23 % 256 = 0
      · simp only [hz, if_true]; omega
      · simp only [hz, if_false]; omega
    rw [hmag, if_pos]
    unfold fexpo at hfin; omega

/-- Rounding to an integer is monotone. -/
theorem roundShift_mono {m n : Nat} (h : m ≤ n) (k : Nat) : roundShift m k ≤ roundShift n k := by
  unfold roundShift
  simp only
  have hp : 0 < 2 ^ k := by positivity
  have hm := Nat.div_add_mod m (2 ^ k)
  have hn := Nat.div_add_mod n (2 ^ k)
  have hmr := Nat.mod_lt m hp
  have hnr := Nat.mod_lt n hp
  have hq : m / 2 ^ k ≤ n / 2 ^ k := Nat.div_le_div_right h
  generalize m / 2 ^ k = qm at *
  generalize n / 2 ^ k = qn at *
  generalize m % 2 ^ k = rm at *
  generalize n % 2 ^ k = rn at *
  generalize 2 ^ k = p at *
  rcases Nat.lt_or_eq_of_le hq with hlt | rfl
  · split <;> split <;> omega
  · have hr : rm ≤ rn := by omega
    by_cases c : (decide (p < 2 * rm) || p == 2 * rm && qm % 2 == 1) = true
    · have c' : (decide (p < 2 * rn) || p == 2 * rn && qm % 2 == 1) = true := by
        simp only [Bool.or_eq_true, Bool.and_eq_true, decide_eq_true_eq, beq_iff_eq] at c ⊢
        omega
      rw [if_pos c, if_pos c']
    · rw [if_neg c]; split <;> omega

/-- The magnitude that `roundPack` gives the sign to. -/
def packed (m : Nat) (e : Int) : Nat :=
  if m = 0 then 0
  else
    let ulp : Int := max (e + (Nat.log2 m : Int) - 23) (-149)
    let sig : Nat := if ulp ≤ e then m * 2 ^ (e - ulp).toNat else roundShift m (ulp - e).toNat
    min ((ulp + 149).toNat * 2 ^ 23 + sig) 0x7F800000

theorem roundPack_eq (neg : Bool) (m : Nat) (e : Int) : roundPack neg m e = withSign neg (packed m e) := by
  unfold roundPack packed
  split
  · rfl
  · simp only
    generalize (_ : Nat) * 2 ^ 23 + _ = k
    split
    · rw [Nat.min_eq_left (by omega)]
    · rw [Nat.min_eq_right (by omega)]

/-- The significand of a result that is not subnormal has 24 bits. -/
theorem significand_ge {m : Nat} (hm : m ≠ 0) {e : Int} :
    let ulp := e + (Nat.log2 m : Int) - 23
    2 ^ 23 ≤ (if ulp ≤ e then m * 2 ^ (e - ulp).toNat else roundShift m (ulp - e).toNat) := by
  intro ulp
  have hlo : 2 ^ m.log2 ≤ m := (Nat.le_log2 hm).1 le_rfl
  split
  · rename_i h
    have h1 : m.log2 + (e - ulp).toNat = 23 := by omega
    calc 2 ^ 23 = 2 ^ m.log2 * 2 ^ (e - ulp).toNat := by rw [← pow_add, h1]
      _ ≤ m * 2 ^ (e - ulp).toNat := Nat.mul_le_mul_right _ hlo
  · rename_i h
    have h1 : m.log2 = 23 + (ulp - e).toNat := by omega
    have h2 : 2 ^ 23 ≤ m / 2 ^ (ulp - e).toNat := by
      rw [Nat.le_div_iff_mul_le (by positivity), ← pow_add, ← h1]; exact hlo
    unfold roundShift
    simp only
    split <;> omega

/-- Rounding is monotone. -/
theorem packed_mono {m n : Nat} (h : m ≤ n) (e : Int) : packed m e ≤ packed n e := by
  by_cases hm : m = 0
  · subst hm; simp [packed]
  have hn : n ≠ 0 := by omega
  unfold packed
  rw [if_neg hm, if_neg hn]
  simp only
  have hl : m.log2 ≤ n.log2 := by
    have hlo : 2 ^ m.log2 ≤ m := (Nat.le_log2 hm).1 le_rfl
    exact (Nat.le_log2 hn).2 (hlo.trans h)
  by_cases hu : max (e + (Nat.log2 m : Int) - 23) (-149) = max (e + (Nat.log2 n : Int) - 23) (-149)
  · rw [hu]
    have : (if max (e + (Nat.log2 n : Int) - 23) (-149) ≤ e then
          m * 2 ^ (e - max (e + (Nat.log2 n : Int) - 23) (-149)).toNat
        else roundShift m (max (e + (Nat.log2 n : Int) - 23) (-149) - e).toNat)
        ≤ (if max (e + (Nat.log2 n : Int) - 23) (-149) ≤ e then
          n * 2 ^ (e - max (e + (Nat.log2 n : Int) - 23) (-149)).toNat
        else roundShift n (max (e + (Nat.log2 n : Int) - 23) (-149) - e).toNat) := by
      split
      · exact Nat.mul_le_mul_right _ h
      · exact roundShift_mono h _
    exact min_le_min_right _ (Nat.add_le_add_left this _)
  · have hs := significand_le hm (e := e) (ulp := max (e + (Nat.log2 m : Int) - 23) (-149)) (by omega)
    have hg := significand_ge hn (e := e)
    have hmax : max (e + (Nat.log2 n : Int) - 23) (-149) = e + (Nat.log2 n : Int) - 23 := by omega
    rw [hmax]
    simp only at hg
    have : (max (e + (Nat.log2 m : Int) - 23) (-149) + 149).toNat + 1 ≤ (e + (Nat.log2 n : Int) - 23 + 149).toNat := by
      omega
    generalize (if max (e + (Nat.log2 m : Int) - 23) (-149) ≤ e then _ else _ : Nat) = s1 at *
    generalize (if e + (Nat.log2 n : Int) - 23 ≤ e then _ else _ : Nat) = s2 at *
    refine min_le_min_right _ ?_
    generalize (max (e + (Nat.log2 m : Int) - 23) (-149) + 149).toNat = a at *
    generalize (e + (Nat.log2 n : Int) - 23 + 149).toNat = b at *
    omega

/-! ## The order of the numbers and sums (R12) -/

/-- The place of a word made of a sign and a magnitude in the order of the numbers. -/
theorem fkey_withSign {neg : Bool} {k : Nat} (h : k < 2 ^ 31) :
    fkey (withSign neg k) = if neg then -(k : Int) else k := by
  unfold fkey withSign fsign
  rw [BitVec.msb_eq_decide]
  simp only [BitVec.toNat_ofNat]
  cases neg
  · simp only [Bool.false_eq_true, if_false, decide_eq_true_eq]
    rw [if_neg (by omega)]; omega
  · simp only [if_true, decide_eq_true_eq]
    rw [if_pos (by omega)]; omega

theorem isNaN_withSign {neg : Bool} {k : Nat} (h : k ≤ 0x7F800000) : isNaN (withSign neg k) = false := by
  unfold isNaN fexpo ffrac withSign
  simp only [BitVec.toNat_ofNat, Bool.and_eq_false_iff, beq_eq_false_iff_ne, bne_eq_false_iff_eq]
  cases neg <;> simp <;> omega

theorem packed_le (m : Nat) (e : Int) : packed m e ≤ 0x7F800000 := by
  unfold packed
  split
  · omega
  · exact Nat.min_le_right _ _

theorem fkey_roundPack (neg : Bool) (m : Nat) (e : Int) :
    fkey (roundPack neg m e) = if neg then -(packed m e : Int) else packed m e := by
  have := packed_le m e
  rw [roundPack_eq, fkey_withSign (by omega)]

theorem isNaN_roundPack (neg : Bool) (m : Nat) (e : Int) : isNaN (roundPack neg m e) = false := by
  rw [roundPack_eq]; exact isNaN_withSign (packed_le m e)

theorem fle_iff {x y : F32} : fle x y = true ↔ isNaN x = false ∧ isNaN y = false ∧ fkey x ≤ fkey y := by
  unfold fle; simp [and_assoc]

theorem flt_iff {x y : F32} : flt x y = true ↔ isNaN x = false ∧ isNaN y = false ∧ fkey x < fkey y := by
  unfold flt; simp [and_assoc]

theorem fle_trans {x y z : F32} (h : fle x y = true) (h' : fle y z = true) : fle x z = true := by
  rw [fle_iff] at *; exact ⟨h.1, h'.2.1, h.2.2.trans h'.2.2⟩

theorem fle_of_not_flt {x y : F32} (hx : isNaN x = false) (hy : isNaN y = false) (h : flt y x = false) :
    fle x y = true := by
  rw [fle_iff]
  refine ⟨hx, hy, ?_⟩
  unfold flt at h
  simp [hx, hy] at h
  exact h

/-- The key of a finite word at a scale. -/
theorem packed_natAbs {x : F32} (hx : isFinite x = true) {e : Nat} (he : e ≤ fscale x) :
    (packed (fmant x * 2 ^ (fscale x - e)) ((e : Int) - 150) : Int) = if fsign x then -fkey x else fkey x := by
  have h := roundPack_exact hx (fscale x - e)
  have e1 : (fscale x : Int) - 150 - ((fscale x - e : Nat) : Int) = (e : Int) - 150 := by omega
  rw [e1] at h
  have h2 := fkey_roundPack (fsign x) (fmant x * 2 ^ (fscale x - e)) ((e : Int) - 150)
  rw [h] at h2
  rw [h2]
  split <;> omega

/-- The sum of numbers that are no NaN and no infinity, in the order of the numbers. -/
theorem fkey_fadd {x y : F32} (hx : isFinite x = true) (hy : isFinite y = true) :
    isNaN (fadd x y) = false ∧
    fkey (fadd x y) =
      let e := min (fscale x) (fscale y)
      let v := fintAt x e + fintAt y e
      if v < 0 then -(packed v.natAbs ((e : Int) - 150) : Int) else packed v.natAbs ((e : Int) - 150) := by
  unfold fadd
  simp only [not_isNaN hx, not_isNaN hy, not_isInf hx, not_isInf hy, Bool.or_false, Bool.false_eq_true, if_false]
  split
  · rename_i h
    rw [h]
    refine ⟨isNaN_withSign (by omega), ?_⟩
    rw [fkey_withSign (by omega)]
    simp [packed]
  · refine ⟨isNaN_roundPack _ _ _, ?_⟩
    rw [fkey_roundPack]
    simp only [decide_eq_true_eq]

/-- A finite word that is not negative, at a scale. -/
theorem fintAt_of_pos {x : F32} (hs : fsign x = false) (e : Nat) : fintAt x e = (fmant x * 2 ^ (fscale x - e) : Nat) := by
  unfold fintAt; simp [hs]

theorem fsign_of_pos {x : F32} (h : flt fzero x = true) : fsign x = false := by
  rw [flt_iff] at h
  have h0 : fkey fzero = 0 := by decide
  rw [h0] at h
  by_contra hs
  have := h.2.2
  unfold fkey at this
  simp at hs
  simp only [hs, if_true] at this
  omega

theorem finite_or_inf {x : F32} (h : isNaN x = false) : isFinite x = true ∨ isInf x = true := by
  unfold isNaN at h; unfold isFinite isInf
  simp at h ⊢
  by_cases h2 : fexpo x = 255
  · exact .inr ⟨h2, h h2⟩
  · exact .inl h2

theorem fkey_le_inf (x : F32) (h : isNaN x = false) : -2139095040 ≤ fkey x ∧ fkey x ≤ 2139095040 := by
  unfold isNaN fexpo ffrac at h
  simp at h
  unfold fkey
  have := x.isLt
  split <;> constructor <;> omega

theorem fkey_of_inf {x : F32} (h : isInf x = true) : fkey x = if fsign x then -2139095040 else 2139095040 := by
  unfold isInf fexpo ffrac at h
  simp at h
  unfold fkey
  have := x.isLt
  have e : x.toNat % 2 ^ 31 = 2139095040 := by omega
  rw [e]; rfl

/-- Adding a number that is not negative does not lead down (R12). -/
theorem fle_fadd {x y : F32} (hx : isFinite x = true) (hp : flt fzero x = true) (hy : fle fzero y = true) :
    fle x (fadd x y) = true := by
  have hs := fsign_of_pos hp
  have hyn := (fle_iff.1 hy).2.1
  rcases finite_or_inf hyn with hf | hi
  · obtain ⟨h1, h2⟩ := fkey_fadd hx hf
    rw [fle_iff]
    refine ⟨not_isNaN hx, h1, ?_⟩
    rw [h2]
    simp only
    have hxk := packed_natAbs hx (e := min (fscale x) (fscale y)) (Nat.min_le_left _ _)
    simp only [hs, Bool.false_eq_true, if_false] at hxk
    rw [← hxk, fintAt_of_pos hs]
    have hy0 : 0 ≤ fintAt y (min (fscale x) (fscale y)) := by
      unfold fintAt
      split
      · rename_i hn
        have hk := (fle_iff.1 hy).2.2
        rw [show fkey fzero = 0 by decide] at hk
        unfold fkey at hk
        simp only [hn, if_true] at hk
        have hm : fmant y = 0 := by unfold fmant fexpo ffrac; split <;> omega
        rw [hm]; simp
      · omega
    generalize fintAt y (min (fscale x) (fscale y)) = b at *
    generalize fmant x * 2 ^ (fscale x - min (fscale x) (fscale y)) = a at *
    rw [if_neg (by omega)]
    have := packed_mono (m := a) (n := ((a : Int) + b).natAbs) (by omega)
        (((min (fscale x) (fscale y) : Nat) : Int) - 150)
    exact_mod_cast this
  · have hxn := not_isNaN hx
    have : fadd x y = y := by
      unfold fadd
      simp [hxn, hyn, not_isInf hx, hi]
    rw [this, fle_iff]
    refine ⟨hxn, hyn, ?_⟩
    have hk := (fle_iff.1 hy).2.2
    rw [show fkey fzero = 0 by decide] at hk
    have := fkey_of_inf hi
    have := (fkey_le_inf x hxn).2
    split at * <;> omega

/-- Adding a negative number does not lead up (R12). -/
theorem fadd_fle {x y : F32} (hx : isFinite x = true) (hp : flt fzero x = true) (hy : flt y fzero = true) :
    fle (fadd x y) x = true := by
  have hs := fsign_of_pos hp
  have hyn := (flt_iff.1 hy).1
  have hk := (flt_iff.1 hy).2.2
  rw [show fkey fzero = 0 by decide] at hk
  have hys : fsign y = true := by
    by_contra hn
    simp at hn
    unfold fkey at hk
    simp only [hn, Bool.false_eq_true, if_false] at hk
    omega
  rcases finite_or_inf hyn with hf | hi
  · obtain ⟨h1, h2⟩ := fkey_fadd hx hf
    rw [fle_iff]
    refine ⟨h1, not_isNaN hx, ?_⟩
    rw [h2]
    simp only
    have hxk := packed_natAbs hx (e := min (fscale x) (fscale y)) (Nat.min_le_left _ _)
    simp only [hs, Bool.false_eq_true, if_false] at hxk
    rw [← hxk, fintAt_of_pos hs]
    have hy0 : fintAt y (min (fscale x) (fscale y)) ≤ 0 := by
      unfold fintAt
      simp only [hys, if_true]
      omega
    generalize fintAt y (min (fscale x) (fscale y)) = b at *
    generalize fmant x * 2 ^ (fscale x - min (fscale x) (fscale y)) = a at *
    split
    · omega
    · have := packed_mono (m := ((a : Int) + b).natAbs) (n := a) (by omega)
        (((min (fscale x) (fscale y) : Nat) : Int) - 150)
      exact_mod_cast this
  · have hxn := not_isNaN hx
    have : fadd x y = y := by
      unfold fadd
      simp [hxn, hyn, not_isInf hx, hi]
    rw [this, fle_iff]
    refine ⟨hyn, hxn, ?_⟩
    have := fkey_of_inf hi
    have h0 := (flt_iff.1 hp).2.2
    rw [show fkey fzero = 0 by decide] at h0
    omega

/-- One step towards a destination stays between the start, the destination and the bounds around them (R197, R222). -/
theorem approach_within {lo x inc dest hi : F32} (hlo : flt fzero lo = true) (hfin : isFinite hi = true)
    (h1 : fle lo x = true) (h2 : fle x hi = true) (h3 : fle lo dest = true) (h4 : fle dest hi = true)
    (hn : isNaN (fadd x inc) = false) (hi' : isNaN inc = false) :
    fle lo (approach x inc dest) = true ∧ fle (approach x inc dest) hi = true := by
  have hdn := (fle_iff.1 h3).2.1
  have hlf : isFinite lo = true := by
    rw [flt_iff] at hlo; rw [fle_iff] at h1 h2
    rcases finite_or_inf hlo.2.1 with h | h
    · exact h
    · exfalso
      have hk := fkey_of_inf h
      have hik := hlo.2.2
      rw [show fkey fzero = 0 by decide] at hik
      have : fkey hi < 2139095040 := by
        have hl := (fkey_le_inf hi h2.2.1).2
        have : fkey hi ≠ 2139095040 := by
          intro he
          unfold isFinite fexpo at hfin
          unfold fkey at he
          have := hi.isLt
          simp at hfin
          split at he <;> omega
        omega
      split at hk <;> omega
  have hxf : isFinite x = true := isFinite_of_le hlf hfin h1 h2
  have hxp : flt fzero x = true := by
    rw [flt_iff] at *; rw [fle_iff] at h1
    exact ⟨hlo.1, h1.2.1, lt_of_lt_of_le hlo.2.2 h1.2.2⟩
  rw [approach_eq_glided]
  unfold glided
  simp only [show (0x00000000 : F32) = fzero from rfl]
  by_cases hp : fle fzero inc = true
  · have hup := fle_fadd hxf hxp hp
    simp only [hp, flt_asymm hp, Bool.true_and, Bool.false_and, Bool.false_eq_true, if_false]
    split
    · exact ⟨h3, h4⟩
    · rename_i hd
      refine ⟨fle_trans h1 hup, fle_trans (fle_of_not_flt hn hdn (by simpa using hd)) h4⟩
  · have hneg : flt inc fzero = true := by
      rw [flt_iff]; refine ⟨hi', by decide, ?_⟩
      by_contra hc
      exact hp (by rw [fle_iff]; exact ⟨by decide, hi', by omega⟩)
    have hdown := fadd_fle hxf hxp hneg
    have hp' : fle fzero inc = false := by simpa using hp
    simp only [hp', hneg, Bool.false_and, Bool.true_and, Bool.false_eq_true, if_false]
    split
    · exact ⟨h3, h4⟩
    · rename_i hd
      refine ⟨fle_trans h3 (fle_of_not_flt hdn hn (by simpa using hd)), fle_trans hdown h2⟩

/-! ## Integer parts (R11) -/

/-- A number between 1 and 2²⁴ keeps its value as a word: significand and scale. -/
theorem fmant_u2f {n : Nat} (h1 : 1 ≤ n) (h2 : n < 2 ^ 24) :
    fmant (u2f n) * 2 ^ fscale (u2f n) = n * 2 ^ 150 ∧ fkey (u2f n) = packed n 0 ∧ isFinite (u2f n) = true := by
  refine ⟨?_, by unfold u2f; rw [fkey_roundPack]; simp, isFinite_u2f (by omega)⟩
  have hn : n ≠ 0 := by omega
  have hl : n.log2 ≤ 23 := by have := (Nat.log2_lt hn (k := 24)).2 h2; omega
  have hlo : 2 ^ n.log2 ≤ n := (Nat.le_log2 hn).1 le_rfl
  have hhi : n < 2 ^ (n.log2 + 1) := (Nat.log2_lt hn).1 (Nat.lt_succ_self _)
  have hs1 : 2 ^ 23 ≤ n * 2 ^ (23 - n.log2) := by
    calc 2 ^ 23 = 2 ^ n.log2 * 2 ^ (23 - n.log2) := by rw [← pow_add]; congr 1; omega
      _ ≤ _ := Nat.mul_le_mul_right _ hlo
  have hs2 : n * 2 ^ (23 - n.log2) < 2 ^ 24 := by
    calc n * 2 ^ (23 - n.log2) < 2 ^ (n.log2 + 1) * 2 ^ (23 - n.log2) := Nat.mul_lt_mul_of_pos_right hhi (by positivity)
      _ = 2 ^ 24 := by rw [← pow_add]; congr 1; omega
  unfold u2f roundPack
  rw [if_neg hn]
  simp only
  have hulp : max ((0 : Int) + (n.log2 : Int) - 23) (-149) = (n.log2 : Int) - 23 := by omega
  rw [hulp, if_pos (show (n.log2 : Int) - 23 ≤ 0 by omega)]
  have e1 : ((0 : Int) - ((n.log2 : Int) - 23)).toNat = 23 - n.log2 := by omega
  have e2 : ((n.log2 : Int) - 23 + 149).toNat = n.log2 + 126 := by omega
  rw [e1, e2]
  have e3 : n * 2 ^ 150 = n * 2 ^ (23 - n.log2) * 2 ^ (n.log2 + 127) := by
    rw [Nat.mul_assoc, ← pow_add]; congr 2; omega
  rw [e3]
  generalize n * 2 ^ (23 - n.log2) = sig at *
  rw [if_pos (by omega)]
  have hx : fexpo (withSign false ((n.log2 + 126) * 2 ^ 23 + sig)) = n.log2 + 127 := by
    rw [fexpo_withSign (by omega)]; omega
  have hfr : ffrac (withSign false ((n.log2 + 126) * 2 ^ 23 + sig)) = sig - 2 ^ 23 := by
    unfold ffrac withSign
    simp only [BitVec.toNat_ofNat, Bool.false_eq_true, if_false]
    omega
  unfold fmant fscale
  rw [hx, hfr, if_neg (by omega), if_neg (by omega), show 2 ^ 23 + (sig - 2 ^ 23) = sig by omega]

/-- The integer part is monotone on the numbers from +0.0 on. -/
theorem value_mono {x y : F32} (hx : fsign x = false) (hy : fsign y = false) (h : fkey x ≤ fkey y) :
    fmant x * 2 ^ fscale x ≤ fmant y * 2 ^ fscale y := by
  unfold fkey at h
  simp only [hx, hy, Bool.false_eq_true, if_false] at h
  have hxl := x.isLt
  have hyl := y.isLt
  unfold fsign at hx hy
  rw [BitVec.msb_eq_decide] at hx hy
  simp at hx hy
  have hex : fexpo x ≤ fexpo y := by unfold fexpo; omega
  rcases Nat.lt_or_eq_of_le hex with hlt | heq
  · have hmy : 2 ^ 23 ≤ fmant y := (fscale_fmant_of_normal (by omega)).2
    have hsy : fscale y = fexpo y := (fscale_fmant_of_normal (by omega)).1
    by_cases h0 : fexpo x = 0
    · have hmx : fmant x < 2 ^ 23 := by unfold fmant ffrac; simp only [h0, if_true]; omega
      have hsx : fscale x = 1 := by unfold fscale; simp [h0]
      rw [hsx, hsy]
      exact Nat.mul_le_mul (by omega) (Nat.pow_le_pow_right (by omega) (by omega))
    · have hsx : fscale x = fexpo x := by unfold fscale; simp [h0]
      rw [hsx, hsy]
      calc fmant x * 2 ^ fexpo x ≤ 2 ^ 24 * 2 ^ fexpo x := Nat.mul_le_mul_right _ (fmant_lt x).le
        _ = 2 ^ 23 * 2 ^ (fexpo x + 1) := by ring
        _ ≤ fmant y * 2 ^ fexpo y := Nat.mul_le_mul hmy (Nat.pow_le_pow_right (by omega) hlt)
  · have hs : fscale x = fscale y := by unfold fscale; rw [heq]
    rw [hs]
    apply Nat.mul_le_mul_right
    unfold fmant
    rw [heq]
    unfold fexpo at heq
    unfold ffrac
    split <;> omega

/-- A number between 1.0 and an integer has its integer part between 1 and that integer (R11). -/
theorem trunc_within {v : F32} {n k : Nat} (h2 : n < 2 ^ 24) (hlo : fle fone v = true)
    (hhi : fle v (u2f n) = true) (h : trunc v = some k) : 1 ≤ k ∧ k ≤ n := by
  unfold trunc at h
  split at h
  · cases h
    have hpos : flt fzero v = true := by
      rw [fle_iff] at hlo; rw [flt_iff]
      refine ⟨by decide, hlo.2.1, lt_of_lt_of_le (by decide) hlo.2.2⟩
    have hs := fsign_of_pos hpos
    have hlow := value_mono (x := fone) (by decide) hs (fle_iff.1 hlo).2.2
    rw [show fmant fone * 2 ^ fscale fone = 2 ^ 150 by
      rw [show fmant fone = 2 ^ 23 by decide, show fscale fone = 127 by decide, ← pow_add]] at hlow
    have hn1 : 1 ≤ n := by
      by_contra hc
      have : n = 0 := by omega
      subst this
      have := fle_trans hlo hhi
      revert this; decide
    obtain ⟨e1, e2, e3⟩ := fmant_u2f hn1 h2
    have hup := value_mono hs (y := u2f n) (by
      apply fsign_of_pos
      have := fle_trans hlo hhi
      rw [fle_iff] at this; rw [flt_iff]
      exact ⟨by decide, this.2.1, lt_of_lt_of_le (by decide) this.2.2⟩) (fle_iff.1 hhi).2.2
    rw [e1] at hup
    constructor
    · rw [Nat.le_div_iff_mul_le (by positivity)]; omega
    · rw [← Nat.mul_div_cancel n (show 0 < 2 ^ 150 by positivity)]
      exact Nat.div_le_div_right hup
  · cases h

/-- The integer part of an integer is that integer (R11). -/
theorem trunc_u2f {n k : Nat} (h2 : n < 2 ^ 24) (h1 : 1 ≤ n) (h : trunc (u2f n) = some k) : k = n := by
  unfold trunc at h
  split at h
  · cases h
    rw [(fmant_u2f h1 h2).1, Nat.mul_div_cancel _ (by positivity)]
  · cases h

/-- The conversion of integers is monotone (R11). -/
theorem u2f_mono {m n : Nat} (h : m ≤ n) : fle (u2f m) (u2f n) = true := by
  rw [fle_iff]
  refine ⟨isNaN_roundPack _ _ _, isNaN_roundPack _ _ _, ?_⟩
  unfold u2f
  rw [fkey_roundPack, fkey_roundPack]
  simpa using packed_mono h 0

/-! ## The taps of the feedback delay (R222, R223) -/

theorem isFinite_of_trunc {v : F32} {k : Nat} (h : trunc v = some k) : isFinite v = true := by
  unfold trunc at h
  split at h
  · rename_i hc; simp only [Bool.and_eq_true] at hc; exact hc.1.1
  · cases h

theorem isNaN_fadd_right {x y : F32} (h : isNaN y = true) : isNaN (fadd x y) = true := by
  unfold fadd; simp [h]; decide

/-- Two numbers whose glide is a number. -/
theorem isNaN_of_approach {x inc dest : F32} (h : isNaN (approach x inc dest) = false) (hd : isNaN (fadd x inc) = true) :
    False := by
  rw [approach_eq_glided] at h
  unfold glided at h
  have e : flt (fadd x inc) dest = false := by unfold flt; simp [hd]
  have e' : flt dest (fadd x inc) = false := by unfold flt; simp [hd]
  simp only [e, e', Bool.and_false, Bool.false_eq_true, if_false] at h
  rw [hd] at h
  cases h

/-- The taps of a feedback delay stay within its ring (R222, R223). -/
theorem dlRamp_taps {cap : Nat} (hcap : cap < 2 ^ 24) {x y : FeedbackDelay} (h : dlRamp x = .ok y)
    (ht : 1 ≤ x.tap.toNat ∧ x.tap.toNat ≤ cap) (hf : fle fone x.tapf = true ∧ fle x.tapf (u2f cap) = true)
    (hg : 1 ≤ x.target.toNat ∧ x.target.toNat ≤ cap) (he : x.rem = 0 → x.tap = x.target) :
    (1 ≤ y.tap.toNat ∧ y.tap.toNat ≤ cap) ∧ (fle fone y.tapf = true ∧ fle y.tapf (u2f cap) = true)
      ∧ y.target = x.target ∧ (y.rem = 0 → y.tap = y.target) := by
  unfold dlRamp at h
  split at h
  · cases h; exact ⟨ht, hf, rfl, he⟩
  · simp only at h
    split at h
    · rename_i hr _ k hk
      cases h
      have e1 : fone = u2f 1 := by decide
      have hlo : fle fone (u2f x.target.toNat) = true := by rw [e1]; exact u2f_mono hg.1
      have hhi : fle (u2f x.target.toNat) (u2f cap) = true := u2f_mono hg.2
      have hfin : isFinite (u2f cap) = true := isFinite_u2f (by omega)
      have hb : fle fone (dlRampTap x (x.rem - 1)) = true ∧ fle (dlRampTap x (x.rem - 1)) (u2f cap) = true := by
        have hv := not_isNaN (isFinite_of_trunc hk)
        unfold dlRampTap at hv ⊢
        split
        · exact ⟨hlo, hhi⟩
        · rename_i hr0
          rw [if_neg hr0] at hv
          have hn : isNaN (fadd x.tapf x.tinc) = false := by
            by_contra hc; exact isNaN_of_approach hv (by simpa using hc)
          refine approach_within (by decide) hfin hf.1 hf.2 hlo hhi hn ?_
          by_contra hc
          rw [isNaN_fadd_right (by simpa using hc)] at hn
          cases hn
      have hk2 := trunc_within hcap hb.1 hb.2 hk
      have hk3 : (BitVec.ofNat 32 k).toNat = k := by rw [BitVec.toNat_ofNat]; omega
      refine ⟨by simp only [hk3]; exact hk2, hb, rfl, fun hz => ?_⟩
      simp only at hz ⊢
      unfold dlRampTap at hk
      rw [if_pos hz] at hk
      have := trunc_u2f (by omega) hg.1 hk
      apply BitVec.eq_of_toNat_eq
      rw [hk3, this]
    · cases h

/-! ## Signs of products and quotients (R12) -/

theorem fsign_withSign {neg : Bool} {k : Nat} (h : k < 2 ^ 31) : fsign (withSign neg k) = neg := by
  unfold fsign withSign
  rw [BitVec.msb_eq_decide]
  simp only [BitVec.toNat_ofNat]
  cases neg <;> simp <;> omega

theorem fsign_roundPack (neg : Bool) (m : Nat) (e : Int) : fsign (roundPack neg m e) = neg := by
  have := packed_le m e
  rw [roundPack_eq, fsign_withSign (by omega)]

/-- A product of numbers neither of which is a NaN, the second neither a zero nor an infinity, is a number with the sign
of the two. -/
theorem fmul_signed {x y : F32} (hx : isNaN x = false) (hy : isFinite y = true) (h0 : isZero y = false) :
    isNaN (fmul x y) = false ∧ fsign (fmul x y) = (fsign x != fsign y) := by
  unfold fmul
  simp only [hx, not_isNaN hy, not_isInf hy, h0, Bool.or_false, Bool.false_eq_true, if_false]
  split
  · rename_i hi
    have hz : isZero x = false := by
      unfold isInf at hi
      unfold isZero
      simp only [Bool.and_eq_true, beq_iff_eq] at hi
      simp [hi.1]
    simp only [hz, Bool.false_eq_true, if_false]
    exact ⟨isNaN_withSign (by omega), fsign_withSign (by omega)⟩
  · exact ⟨isNaN_roundPack _ _ _, fsign_roundPack _ _ _⟩

/-- A word with its sign bit set is no number above zero. -/
theorem fle_zero_of_fsign {x : F32} (hn : isNaN x = false) (hs : fsign x = true) : fle x fzero = true := by
  rw [fle_iff]
  refine ⟨hn, by decide, ?_⟩
  unfold fkey
  simp only [hs, if_true, show fsign fzero = false by decide, Bool.false_eq_true, if_false]
  omega

/-- −1.0 over a number that is not negative is at most zero: −0.0 over +infinity, −infinity over +0.0 (R12). -/
theorem fdiv_fnegOne {y : F32} (hn : isNaN y = false) (hs : fsign y = false) : fle (fdiv fnegOne y) fzero = true := by
  have e1 : isNaN fnegOne = false := by decide
  have e2 : isInf fnegOne = false := by decide
  have e3 : isZero fnegOne = false := by decide
  have e4 : fsign fnegOne = true := by decide
  unfold fdiv
  simp only [e1, e2, e3, e4, hn, hs, Bool.or_false, Bool.false_eq_true, if_false, show (true != false) = true from rfl]
  split
  · exact fle_zero_of_fsign (isNaN_withSign (by omega)) (fsign_withSign (by omega))
  · split
    · exact fle_zero_of_fsign (isNaN_withSign (by omega)) (fsign_withSign (by omega))
    · exact fle_zero_of_fsign (isNaN_roundPack _ _ _) (fsign_roundPack _ _ _)

theorem isZero_of_pos {x : F32} (h : flt fzero x = true) : isZero x = false := by
  by_contra hc
  rcases eq_of_isZero (by simpa using hc) with rfl | rfl <;> revert h <;> decide

/-! ## Finite sums (R12, R14) -/

/-- The magnitude of a finite word at a scale. -/
theorem fintAt_natAbs_lt {x : F32} {e k : Nat} (h : fscale x ≤ e + k) : (fintAt x e).natAbs < 2 ^ (24 + k) := by
  have h1 : (fintAt x e).natAbs = fmant x * 2 ^ (fscale x - e) := by unfold fintAt; split <;> omega
  rw [h1, pow_add]
  calc fmant x * 2 ^ (fscale x - e) < 2 ^ 24 * 2 ^ (fscale x - e) :=
        Nat.mul_lt_mul_of_pos_right (fmant_lt x) (by positivity)
    _ ≤ 2 ^ 24 * 2 ^ k := Nat.mul_le_mul_left _ (Nat.pow_le_pow_right (by omega) (by omega))

/-- The sum of two numbers far from the largest ones is finite. -/
theorem isFinite_fadd {x y : F32} (hx : fexpo x ≤ 250) (hy : fexpo y ≤ 250) : isFinite (fadd x y) = true := by
  have fx : isFinite x = true := isFinite_of_fexpo (by omega)
  have fy : isFinite y = true := isFinite_of_fexpo (by omega)
  have sx : fscale x ≤ 250 := by unfold fscale; split <;> omega
  have sy : fscale y ≤ 250 := by unfold fscale; split <;> omega
  unfold fadd
  simp only [not_isNaN fx, not_isNaN fy, not_isInf fx, not_isInf fy, Bool.or_false, Bool.false_eq_true, if_false]
  split
  · exact isFinite_withSign (by omega)
  · rename_i hv
    obtain ⟨k, hk⟩ : ∃ k, 250 = min (fscale x) (fscale y) + k := ⟨250 - min (fscale x) (fscale y), by omega⟩
    have h1 := fintAt_natAbs_lt (x := x) (e := min (fscale x) (fscale y)) (k := k) (by omega)
    have h2 := fintAt_natAbs_lt (x := y) (e := min (fscale x) (fscale y)) (k := k) (by omega)
    have hp : 2 ^ (25 + k) = 2 * 2 ^ (24 + k) := by rw [← pow_succ']; congr 1; omega
    generalize fintAt x (min (fscale x) (fscale y)) = a at *
    generalize fintAt y (min (fscale x) (fscale y)) = b at *
    apply isFinite_roundPack
    right
    have h3 : (a + b).natAbs < 2 ^ (25 + k) := by rw [hp]; omega
    have h4 := (Nat.log2_lt (by omega : (a + b).natAbs ≠ 0)).2 h3
    omega

/-- The exponent field of a number between bounds. -/
theorem fexpo_le_of_between {lo v hi : F32} {b : Nat} (h : inRange lo v hi = true)
    (hlo : -((b * 2 ^ 23 + 2 ^ 23 : Nat) : Int) < fkey lo) (hhi : fkey hi < ((b * 2 ^ 23 + 2 ^ 23 : Nat) : Int)) :
    fexpo v ≤ b := by
  unfold inRange at h
  simp only [Bool.and_eq_true, fle_iff] at h
  have h1 := h.1.2.2
  have h2 := h.2.2.2
  have hk : -((b * 2 ^ 23 + 2 ^ 23 : Nat) : Int) < fkey v ∧ fkey v < ((b * 2 ^ 23 + 2 ^ 23 : Nat) : Int) := by omega
  unfold fkey at hk
  unfold fexpo
  have := v.isLt
  split at hk <;> omega

end Sys2Proof.Machine
end

