-- ==== Sys2Proof/Laws/Sequencer.lean ====
section
/-! SUPPORT. What the phases of the answer to a block arrival leave, and the small facts about program words that
the invariants of the sequencer rest on (R414 to R419). -/

namespace Sys2Proof.Machine
open Sys2Proof

/-! ## The end of an answer -/

@[simp] theorem stage_finish (out : Block) (s : State) : (finish out s).stage = { s.stage with out := out } := by
  unfold finish State.setStage State.stage; cases h : s.cur <;> simp

@[simp] theorem other_finish (out : Block) (s : State) : (finish out s).other = s.other := by
  unfold finish State.setStage State.other; cases h : s.cur <;> simp

@[simp] theorem cfg_finish (out : Block) (s : State) : (finish out s).cfg = s.cfg := by
  unfold finish; cases h : s.cur <;> simp

@[simp] theorem cur_finish (out : Block) (s : State) : (finish out s).cur = s.cur := by
  unfold finish; cases h : s.cur <;> simp [h]

@[simp] theorem phase_finish (out : Block) (s : State) : (finish out s).phase = .between := by
  unfold finish; cases h : s.cur <;> simp

@[simp] theorem latch_finish (out : Block) (s : State) : (finish out s).latch = s.latch := by
  unfold finish; cases h : s.cur <;> simp

@[simp] theorem inputs_finish (out : Block) (s : State) : (finish out s).inputs = s.inputs := by
  unfold finish; cases h : s.cur <;> simp

/-- Only stage A's output block goes to the hand-off (R80, R424). -/
theorem handoff_finish (out : Block) (s : State) :
    (finish out s).handoff = if s.cur = .A then s.handoff ++ [out] else s.handoff := by
  unfold finish; cases h : s.cur <;> simp

theorem blockShaped_silence (c : Config) : blockShaped c (silence c) = true := by simp [silence, blockShaped]

/-! ## The block in the buffers -/

theorem bufStore_length {m : Memory} {b : Byte} {n i : Nat} {xs : List F32} (h : bufStore m b n i = .ok xs) :
    xs.length = n := by
  induction n generalizing i xs with
  | zero => cases h; rfl
  | succ n ih => obtain ⟨x, xs', rfl, _, h2⟩ := bufStore_cons h; simp [ih h2]

/-- What the store puts out is a block (R419). -/
theorem blockShaped_storeBlock {c : Config} {m : Memory} {out : Block} (h : storeBlock c m = .ok out) :
    blockShaped c out = true := by
  unfold storeBlock at h
  split at h
  · cases h
  · split at h
    · cases h
    · rename_i h0 _ _ h1
      cases h
      simp [blockShaped, bufStore_length h0, bufStore_length h1]

theorem blockWritten_iff {c : Config} {m : Memory} :
    blockWritten c m = true ↔ ∀ i < c.blksz, (bufRead m 0 i).isSome ∧ (bufRead m 1 i).isSome := by
  simp [blockWritten]

/-! ## Programs -/

theorem ifZero_length {z : Bool} {i k : Instr} {n : Nat} (h : ifZero z i = .ok k) (hi : i.length ≤ n) :
    k.length ≤ n := by
  unfold ifZero at h; split at h
  · cases h; exact hi
  · cases h

/-- A decoded command has at least one word and its words are there. -/
theorem decode_length {ws : List Word} {i : Instr} (h : decode ws = .ok i) : 1 ≤ i.length ∧ i.length ≤ ws.length := by
  constructor
  · cases i <;> simp [Instr.length]
  cases ws with
  | nil => cases h
  | cons w ops =>
    simp only [decode, decodeHead] at h
    split at h
    all_goals (try simp only [operands1, operands2, operands3, operands4, operands5, operands6, operands7, operands8,
      oneSource, twoSources] at h)
    all_goals (first
      | (exact ifZero_length h (by simp [Instr.length]))
      | (cases h)
      | (split at h
         · exact ifZero_length h (by simp [Instr.length])
         · cases h))

/-- The fuel of `programFrom` does not matter once there is a word for each unit of it. -/
theorem programFrom_fuel {c : Config} {k : Nat} {ws : List Word} (h : programFrom c k ws = true) (j : Nat)
    (hj : ws.length ≤ j) : programFrom c j ws = true := by
  induction k generalizing ws j with
  | zero => cases h
  | succ k ih =>
    unfold programFrom at h
    split at h
    · cases h
    · rename_i i hi
      have hl := decode_length hi
      cases j with
      | zero => omega
      | succ j =>
        unfold programFrom
        rw [hi]
        simp only [Bool.and_eq_true] at h ⊢
        refine ⟨h.1, ?_⟩
        have h2 := h.2
        split
        · rename_i he; rw [if_pos he] at h2; exact h2
        · rename_i he; rw [if_neg he] at h2
          exact ih h2 j (by simp; omega)

end Sys2Proof.Machine
end

