-- ==== Sys2Proof/Tests/Slice0.lean ====
section
/-! SUPPORT. The author's own tests. Every expected value comes from the spec: `spec/30_encoding.md` for the decode
tests, `spec/95_test_vectors.md` (cited "95" with its table and row) or a hand calculation from the rule cited for
the tests of one step. The last part shows, for every obligation with hypotheses, a state and operands that meet all
of them together (`witness_…`). -/

namespace Sys2Proof.Tests
open Sys2Proof Sys2Proof.Machine

-- One theorem at a time: each of these evaluates in the kernel, and Lean would give each that waits a thread.
set_option Elab.async false

/-! ## Helpers -/

/-- Stage A, changed by `f` from its reset state, draining its control queue. -/
def port (f : Stage → Stage) : State := { State.reset with a := f State.reset.a, phase := .drain false }

/-- Stage A, changed by `f` from its reset state, running its effect program. -/
def prog (f : Stage → Stage) : State := { port f with phase := .program }

/-- Buffers of which `BUF[0]` begins with `xs` and `BUF[2]` with `ys`; nothing else is written. -/
def bufs (xs ys : List F32) : Memory := bufLoad 2 0 ys (bufLoad 0 0 xs [])

/-- The first `n` words of a buffer of stage A. -/
def words (t : State) (b : Byte) (n : Nat) : Option (List F32) := (bufStore t.a.buf b n 0).toOption

/-- The outcome is a next state of which `p` holds. -/
def gives (r : Result) (p : State → Bool) : Bool :=
  match r with
  | .next t => p t
  | .fault _ => false
  | .refused _ => false

theorem gives_next {r : Result} {p : State → Bool} (h : gives r p = true) : ∃ t, r = .next t ∧ p t = true := by
  cases r with
  | next t => exact ⟨t, rfl, h⟩
  | fault _ => cases h
  | refused _ => cases h

/-! ## Ill-formed commands, each refused by the check named (R107, R117, R118) -/

theorem test_wf_accepts : Instr.WellFormed Config.reference (.copy 3 3 8)
    ∧ Instr.WellFormed Config.reference (.bqSetup 255 6 65535 0 0 0 0x472C4400) := by decide

theorem test_wf_refuses_buffer_index : ¬ Instr.WellFormed Config.reference (.copy 4 0 1)
    ∧ ¬ Instr.WellFormed Config.reference (.copy 0 4 1) ∧ ¬ Instr.WellFormed Config.reference (.mix2 0 4 0 1)
    ∧ ¬ Instr.WellFormed Config.reference (.atRead 0 4 1) := by decide

theorem test_wf_refuses_block_size : ¬ Instr.WellFormed Config.reference (.copy 0 1 0)
    ∧ ¬ Instr.WellFormed Config.reference (.copy 0 1 9) ∧ ¬ Instr.WellFormed Config.reference (.zcRead 0 0 0) := by decide

/-- A NaN and an infinity are no operand (95, 2.10 rows 9 and 10). -/
theorem test_wf_refuses_non_finite : ¬ Instr.WellFormed Config.reference (.gain 0 0 4 0x7FC00000)
    ∧ ¬ Instr.WellFormed Config.reference (.gain 0 0 4 0x7F800000)
    ∧ ¬ Instr.WellFormed Config.reference (.dlModFt 0 0xFF800000) := by decide

theorem test_wf_refuses_enumeration : ¬ Instr.WellFormed Config.reference (.bqSetup 0 7 1 0 0 0 0x473B8000)
    ∧ ¬ Instr.WellFormed Config.reference (.oscEval 5 0 0) ∧ ¬ Instr.WellFormed Config.reference (.vdModType 0 5)
    ∧ ¬ Instr.WellFormed Config.reference (.clSetup 0 0x3F000000 2 0)
    ∧ ¬ Instr.WellFormed Config.reference (.clSetup 0 0x3F000000 0 2)
    ∧ ¬ Instr.WellFormed Config.reference (.atSetup 0 2 0) := by decide

theorem test_wf_refuses_count : ¬ Instr.WellFormed Config.reference (.bqSetup 0 0 0 0 0 0 0x473B8000)
    ∧ ¬ Instr.WellFormed Config.reference (.bqSetup 0 0 65536 0 0 0 0x473B8000)
    ∧ ¬ Instr.WellFormed Config.reference (.mtSetup 0 9) ∧ ¬ Instr.WellFormed Config.reference (.mtSetTap 0 8 1 0) := by
  decide

/-- 8000 Hz, the number before 44100 and the number after 200000 are no sample rate. -/
theorem test_wf_refuses_sample_rate : ¬ Instr.WellFormed Config.reference (.zcSetup 0 0x45FA0000)
    ∧ ¬ Instr.WellFormed Config.reference (.zcSetup 0 0x472C43FF)
    ∧ ¬ Instr.WellFormed Config.reference (.zcSetup 0 0x48435001) := by decide

/-! ## Decoding: words written out from R101, R102 and R104, every field different -/

theorem test_decode_class_0 : decode [0x00000000] = .ok .endProgram
    ∧ decode [0x01000102, 0x00000020] = .ok (.copy 1 2 32) ∧ decode [0x02000003, 0x0000FFFF] = .ok (.clear 3 65535)
    ∧ decode [0x03000102, 0x03000004] = .ok (.mix2 1 3 2 4)
    ∧ decode [0x04000102, 0x00000008, 0x3F000000] = .ok (.gain 1 2 8 0x3F000000) := by decide

theorem test_decode_class_1 : decode [0x10050000, 1, 2, 3, 4, 5, 6] = .ok (.bqSetup 5 1 2 3 4 5 6)
    ∧ decode [0x11050000, 7] = .ok (.bqModFreq 5 7) ∧ decode [0x12050000, 7] = .ok (.bqModQ 5 7)
    ∧ decode [0x13050000, 7] = .ok (.bqModGain 5 7) ∧ decode [0x1F050102, 0x00000010] = .ok (.bqRead 5 1 2 16) := by decide

theorem test_decode_class_2 : decode [0x20050000, 1, 2, 3, 4] = .ok (.dlSetup 5 1 2 3 4)
    ∧ decode [0x21050000, 7] = .ok (.dlModLen 5 7) ∧ decode [0x22050000, 7] = .ok (.dlModFb 5 7)
    ∧ decode [0x23050000, 7] = .ok (.dlModFt 5 7) ∧ decode [0x24050000, 7] = .ok (.dlModDamp 5 7)
    ∧ decode [0x2F050102, 0x00000010] = .ok (.dlRead 5 1 2 16) := by decide

theorem test_decode_class_3 : decode [0x30050000, 7] = .ok (.mtSetup 5 7)
    ∧ decode [0x31050000, 1, 2, 3] = .ok (.mtSetTap 5 1 2 3) ∧ decode [0x3F050102, 0x00000010] = .ok (.mtRead 5 1 2 16) := by
  decide

theorem test_decode_class_4 : decode [0x40050000, 1, 2] = .ok (.apSetup 5 1 2)
    ∧ decode [0x4F050102, 0x00000010] = .ok (.apRead 5 1 2 16) := by decide

theorem test_decode_class_5 : decode [0x50050000, 1, 2, 3, 4, 6] = .ok (.vdSetup 5 1 2 3 4 6)
    ∧ decode [0x51050000, 7] = .ok (.vdModDepth 5 7) ∧ decode [0x52050000, 7] = .ok (.vdModRate 5 7)
    ∧ decode [0x53050000, 7] = .ok (.vdModFb 5 7) ∧ decode [0x54050000, 7] = .ok (.vdModType 5 7)
    ∧ decode [0x5F050102, 0x03000010] = .ok (.vdRead 5 1 3 2 16) := by decide

theorem test_decode_class_6 : decode [0x60050000, 1, 2, 3, 4, 6, 7, 8] = .ok (.cpSetup 5 1 2 3 4 6 7 8)
    ∧ decode [0x61050000, 7] = .ok (.cpModThr 5 7) ∧ decode [0x62050000, 7] = .ok (.cpModRatio 5 7)
    ∧ decode [0x63050000, 7] = .ok (.cpModAtt 5 7) ∧ decode [0x64050000, 7] = .ok (.cpModRel 5 7)
    ∧ decode [0x65050000, 7] = .ok (.cpModGain 5 7) ∧ decode [0x6F050102, 0x00000010] = .ok (.cpRead 5 1 2 16) := by decide

theorem test_decode_class_7 : decode [0x70050000, 1, 2, 3] = .ok (.clSetup 5 1 2 3)
    ∧ decode [0x71050000, 7] = .ok (.clModThr 5 7) ∧ decode [0x7F050102, 0x00000010] = .ok (.clRead 5 1 2 16) := by decide

theorem test_decode_class_8 : decode [0x80000000, 1, 2, 3] = .ok (.oscEval 1 2 3) := by decide

theorem test_decode_class_9 : decode [0x90050000, 1, 2, 3, 4] = .ok (.amSetup 5 1 2 3 4)
    ∧ decode [0x91050000, 7] = .ok (.amModDepth 5 7) ∧ decode [0x92050000, 7] = .ok (.amModRate 5 7)
    ∧ decode [0x9F050102, 0x03000010] = .ok (.amRead 5 1 3 2 16) := by decide

theorem test_decode_class_A : decode [0xA0050000, 1, 2, 3, 4, 6, 7, 8, 9] = .ok (.sySetup 5 1 2 3 4 6 7 8 9)
    ∧ decode [0xA1050000, 1, 2] = .ok (.syPlay 5 1 2) ∧ decode [0xA2050000] = .ok (.syStop 5)
    ∧ decode [0xAF050102, 0x00000010] = .ok (.syRead 5 1 2 16) := by decide

theorem test_decode_class_B : decode [0xB0050000, 7] = .ok (.zcSetup 5 7)
    ∧ decode [0xBF050100, 0x00000010] = .ok (.zcRead 5 1 16) := by decide

theorem test_decode_class_C : decode [0xC0050000, 7] = .ok (.smSetup 5 7)
    ∧ decode [0xCF050102, 0x00000010] = .ok (.smRead 5 1 2 16) := by decide

theorem test_decode_class_D : decode [0xD0050000, 1, 7] = .ok (.atSetup 5 1 7)
    ∧ decode [0xDF050100, 0x00000010] = .ok (.atRead 5 1 16) := by decide

theorem test_decode_class_E : decode [0xE0000000] = .ok .stArm ∧ decode [0xE1050000] = .ok (.stSelect 5)
    ∧ decode [0xE2050000] = .ok (.efSetup 5) := by decide

/-- An unassigned opcode, class F, a field that must be zero, a missing word, a surplus word (95, 2.10 rows 1, 2, 7
and 8). -/
theorem test_decode_refuses : decode [0x05000000] = .error .unknownOpcode ∧ decode [0xF0000000] = .error .unknownOpcode
    ∧ decode [0x01010001, 0x00000004] = .error .reservedField ∧ decode [0x01000001, 0x00010004] = .error .reservedField
    ∧ decode [0x01000001, 0x01000004] = .error .reservedField ∧ decode [0xBF050102, 0x00000010] = .error .reservedField
    ∧ decode [0x01000001] = .error .missingOperand ∧ decode [] = .error .noWords
    ∧ decodePort [0xE0000000, 0] = .error .surplusWords := by decide

/-- The table's numbering: bit 0 is the least significant bit of the first word, the second word begins at bit 32. -/
theorem test_decodeTableWord : decodeTableWord 64 0x0300000403000102 = some (.mix2 1 3 2 4)
    ∧ decodeTableWord 32 0xF0000000 = none := by decide

/-- The next step fetches the command placed: `CLEAR b1, 4` from the control queue, `END` from the program. -/
theorem test_withFetchWord :
    gives (step (State.reset.withFetchWord 64 0x0000000402000001))
        (fun t => words t 1 4 == some [0, 0, 0, 0] && t.a.cq.isEmpty) = true
      ∧ gives (step (State.reset.withFetchWord 32 0)) (fun t => t.phase == .store) = true := by decide

/-! ## One step of each instruction -/

/-! ### Class 0 -/

/-- R135, R119: `END` ends the program; at the control port it is illegal (95, 2.10 row 3). -/
theorem test_end : gives (exec .endProgram (prog id)) (fun t => t.phase == .store) = true
    ∧ gives (exec .endProgram (port id)) (fun t => t.phase == .drain false && t.a.res == 2) = true := by decide

/-- 95, 2.1 row 1. -/
theorem test_copy : gives (exec (.copy 0 1 2) (port fun st => { st with buf := bufs [0x3F800000, 0x80000000] [] }))
    (fun t => words t 1 2 == some [0x3F800000, 0x80000000] && t.a.res == 0) = true := by decide +kernel

/-- R24: a word nothing has written faults. -/
theorem test_copy_unwritten : exec (.copy 0 1 2) (port fun st => { st with buf := bufs [0x3F800000] [] })
    = .fault .unwrittenWord := by rfl

/-- 95, 2.1 row 2: four words are cleared, the fifth is unchanged. -/
theorem test_clear : gives (exec (.clear 2 4) (port fun st => { st with buf := bufs [] [1, 2, 3, 4, 5] }))
    (fun t => words t 2 5 == some [0, 0, 0, 0, 5]) = true := by decide +kernel

/-- 95, 2.1 row 3. -/
theorem test_mix2 : gives (exec (.mix2 0 2 1 2)
      (port fun st => { st with buf := bufs [0x3F800000, 0x3F000000] [0x3E800000, 0xBF000000] }))
    (fun t => words t 1 2 == some [0x3FA00000, 0x00000000]) = true := by decide +kernel

/-- 95, 2.1 row 5: 2^−24 + 1.0 ties to even. -/
theorem test_mix2_rounds : gives (exec (.mix2 0 2 1 1) (port fun st => { st with buf := bufs [0x33800000] [0x3F800000] }))
    (fun t => words t 1 1 == some [0x3F800000]) = true := by decide +kernel

/-- 95, 2.1 row 8: ties to even among the subnormals; source and destination are one buffer. -/
theorem test_gain : gives (exec (.gain 0 0 2 0x3F000000)
      (port fun st => { st with buf := bufs [0x00000001, 0x00000003] [] }))
    (fun t => words t 0 2 == some [0x00000000, 0x00000002]) = true := by decide +kernel

/-- R14, R406: an overflow faults. -/
theorem test_gain_overflows : exec (.gain 0 0 1 0x40000000) (port fun st => { st with buf := bufs [0x7F7FFFFF] [] })
    = .fault .nonFinite := by rfl

/-! ### Biquad -/

/-- A filter with the coefficients of 95, 2.3 row 3, at frequency 6000 with a transition time of 2 reads. -/
def bq1 : Biquad :=
  { Biquad.reset with
    init := true, speed := 2, fs := 0x473B8000, freq := 0x45BB8000, q := 0x3F800000, dfreq := 0x45BB8000
    dq := 0x3F800000, A1 := 0xBF000000, A2 := 0x3E800000, B1 := 0x40000000, B2 := 0x3F800000, scale := 0x3E800000 }

/-- 95, 2.3 row 4: Q is checked first and `init` is cleared. -/
theorem test_bqSetup_checks_q : gives (exec (.bqSetup 0 0 2 0x40A00000 0x43480000 0 0x473B8000)
      (port fun st => { st with bq := [bq1] }))
    (fun t => t.a.res == 0x11 && t.a.bq == [{ bq1 with init := false }]) = true := by decide +kernel

/-- 95, 2.3 row 5: `T = 0` is illegal and does not touch the instance. -/
theorem test_bqSetup_illegal : gives (exec (.bqSetup 0 0 0 0x43FA0000 0x40000000 0 0x473B8000)
      (port fun st => { st with bq := [bq1] }))
    (fun t => t.a.res == 0x02 && t.a.bq == [bq1]) = true := by decide +kernel

/-- 95, 2.3 row 9: 30000 Hz is clamped to 20000 and reported; the ramp is 7000 a read. -/
theorem test_bqModFreq : gives (exec (.bqModFreq 0 0x46EA6000) (port fun st => { st with bq := [bq1] }))
    (fun t => t.a.res == 0x12
      && t.a.bq == [{ bq1 with dfreq := 0x469C4000, finc := 0x45DAC000, count := 2 }]) = true := by decide +kernel

/-- 95, 2.10 row 13: on a filter never set up only the code is reported. -/
theorem test_bqModFreq_uninitialized : gives (exec (.bqModFreq 0 0x47000000) (port id))
    (fun t => t.a.res == 0x12 && t.a.bq == State.reset.a.bq) = true := by decide +kernel

/-- 95, 2.3 row 11. -/
theorem test_bqModQ : gives (exec (.bqModQ 0 0x3A83126F) (port fun st => { st with bq := [bq1] }))
    (fun t => t.a.res == 0x11 && t.a.bq.map (fun x => x.dq) == [0x3C23D70A]) = true := by decide +kernel

/-- 95, 2.3 row 12: `T = 4`, gain 0 to 6 dB, 1.5 dB a read. -/
theorem test_bqModGain : gives (exec (.bqModGain 0 0x40C00000) (port fun st => { st with bq := [{ bq1 with speed := 4 }] }))
    (fun t => t.a.res == 0 && t.a.bq.map (fun x => x.ginc) == [0x3FC00000]) = true := by decide +kernel

/-- 95, 2.3 row 3. -/
theorem test_bqRead : gives (exec (.bqRead 0 0 1 5)
      (port fun st => { st with bq := [bq1], buf := bufs [0x3F800000, 0, 0, 0, 0] [] }))
    (fun t => words t 1 5 == some [0x3E800000, 0x3F200000, 0x3F000000, 0x3DC00000, 0xBDA00000]
      && t.a.bq == [{ bq1 with w0 := 0xBD800000, w1 := 0xBE000000 }]) = true := by decide +kernel

/-- 95, 2.10 row 11: the null instance copies and reports. -/
theorem test_bqRead_null : gives (exec (.bqRead 5 0 1 2) (port fun st => { st with buf := bufs [0x80000000, 1] [] }))
    (fun t => words t 1 2 == some [0x80000000, 1] && t.a.res == 1) = true := by decide +kernel

/-! ### Delays -/

/-- A feedback delay of length 2, feedback 0.5, feedthrough 1.0, as set up in 95, 2.4 row 1. -/
def dl1 : FeedbackDelay :=
  { FeedbackDelay.reset with
    init := true, tap := 2, tapf := 0x40000000, target := 2, fb := 0x3F000000, ft := 0x3F800000 }

/-- R216. -/
theorem test_dlSetup : gives (exec (.dlSetup 0 2 0x3F000000 0x3F800000 0) (port id))
    (fun t => t.a.res == 0 && t.a.dl == [dl1]) = true := by decide +kernel

/-- 95, 2.4 row 7: a length above the capacity. -/
theorem test_dlSetup_length : gives (exec (.dlSetup 0 9 0x3F000000 0x3F800000 0) (port fun st => { st with dl := [dl1] }))
    (fun t => t.a.res == 0x21 && t.a.dl == [{ dl1 with init := false }]) = true := by decide +kernel

/-- 95, 2.4 row 4: from 2 to 6 over 4 samples. -/
theorem test_dlModLen : gives (exec (.dlModLen 0 6) (port fun st => { st with dl := [dl1] }))
    (fun t => t.a.res == 0 && t.a.dl == [{ dl1 with target := 6, tinc := 0x3F800000, rem := 4 }]) = true := by
  decide +kernel

/-- 95, 2.4 row 4: length 0 is clamped to 1 and reported; from 6 down, −1.25 a sample. -/
theorem test_dlModLen_clamps : gives (exec (.dlModLen 0 0)
      (port fun st => { st with dl := [{ dl1 with tap := 6, tapf := 0x40C00000 }] }))
    (fun t => t.a.res == 0x21 && t.a.dl.map (fun x => (x.target, x.tinc)) == [(1, 0xBFA00000)]) = true := by decide +kernel

/-- 95, 2.4 row 8. -/
theorem test_dlModFb : gives (exec (.dlModFb 0 0xC0400000) (port fun st => { st with dl := [dl1] }))
    (fun t => t.a.res == 0x22 && t.a.dl == [{ dl1 with fb := 0xBF800000 }]) = true := by decide +kernel

/-- R220: the feedthrough has no bounds. -/
theorem test_dlModFt : gives (exec (.dlModFt 0 0x42C80000) (port fun st => { st with dl := [dl1] }))
    (fun t => t.a.res == 0 && t.a.dl == [{ dl1 with ft := 0x42C80000 }]) = true := by decide +kernel

/-- R221: 2.0 is clamped to 1.0. -/
theorem test_dlModDamp : gives (exec (.dlModDamp 0 0x40000000) (port fun st => { st with dl := [dl1] }))
    (fun t => t.a.res == 0x23 && t.a.dl == [{ dl1 with damp := 0x3F800000 }]) = true := by decide +kernel

/-- 95, 2.4 row 1. -/
theorem test_dlRead : gives (exec (.dlRead 0 0 1 8)
      (port fun st => { st with dl := [dl1], buf := bufs [0x3F800000, 0, 0, 0, 0, 0, 0, 0] [] }))
    (fun t => words t 1 8 == some [0x3F800000, 0, 0x3F000000, 0, 0x3E800000, 0, 0x3E000000, 0]
      && t.a.dl.map (fun x => (x.wp, x.ring))
        == [(0, [(0, 0x3F000000), (2, 0x3E800000), (4, 0x3E000000), (6, 0x3D800000)])]) = true := by decide +kernel

/-- 95, 2.4 row 2: damping 0.5. -/
theorem test_dlRead_damped : gives (exec (.dlRead 0 0 1 8)
      (port fun st =>
        { st with dl := [{ dl1 with damp := 0x3F000000 }], buf := bufs [0x3F800000, 0, 0, 0, 0, 0, 0, 0] [] }))
    (fun t => words t 1 8
        == some [0x3F800000, 0, 0x3E800000, 0x3E000000, 0x3E000000, 0x3DC00000, 0x3DA00000, 0x3D800000]
      && t.a.dl.map (fun x => x.lp) == [0x3D280000]) = true := by decide +kernel

/-- A multitap delay of two taps, one sample back at 0.5 and three back at 0.25 (95, 2.4 row 9). -/
def mt1 : Multitap :=
  { init := true, ring := [], wp := 0, ntaps := 2, off := [1, 3, 1, 1, 1, 1, 1, 1]
    g := [0x3F000000, 0x3E800000, 0, 0, 0, 0, 0, 0] }

/-- R230: every tap at offset 1 and gain 0. -/
theorem test_mtSetup : gives (exec (.mtSetup 0 2) (port id))
    (fun t => t.a.res == 0
      && t.a.mt == [{ mt1 with off := List.replicate 8 1, g := List.replicate 8 0 }]) = true := by decide +kernel

/-- 95, 2.4 row 11: offset 100 is clamped to the capacity 8 and reported. -/
theorem test_mtSetTap : gives (exec (.mtSetTap 0 0 100 0x3F800000) (port fun st => { st with mt := [mt1] }))
    (fun t => t.a.res == 0x31
      && t.a.mt.map (fun x => (x.off.take 2, x.g.take 2)) == [([8, 3], [0x3F800000, 0x3E800000])]) = true := by decide +kernel

/-- 95, 2.4 row 9. -/
theorem test_mtRead : gives (exec (.mtRead 0 0 1 5)
      (port fun st => { st with mt := [mt1], buf := bufs [0x3F800000, 0, 0, 0, 0] [] }))
    (fun t => words t 1 5 == some [0, 0x3F000000, 0, 0x3E800000, 0]) = true := by decide +kernel

/-- An allpass filter of length 2 and gain 0.5 (95, 2.4 row 13). -/
def ap1 : Allpass := { init := true, ring := [], len := 2, idx := 0, gain := 0x3F000000 }

/-- R240, and 95, 2.4 row 15: a gain above 1.0. -/
theorem test_apSetup : gives (exec (.apSetup 0 2 0x3F000000) (port id)) (fun t => t.a.ap == [ap1]) = true
    ∧ gives (exec (.apSetup 0 2 0x3FC00000) (port fun st => { st with ap := [ap1] }))
      (fun t => t.a.res == 0x42 && t.a.ap == [{ ap1 with init := false }]) = true := by decide +kernel

/-- 95, 2.4 row 13. -/
theorem test_apRead : gives (exec (.apRead 0 0 1 7)
      (port fun st => { st with ap := [ap1], buf := bufs [0x3F800000, 0, 0, 0, 0, 0, 0] [] }))
    (fun t => words t 1 7 == some [0xBF000000, 0, 0x3F800000, 0, 0x3F000000, 0, 0x3E800000]
      && t.a.ap == [{ ap1 with idx := 1, ring := [(0, 0x3E000000)] }]) = true := by decide +kernel

/-- A variable delay of external type and depth 0.5 (95, 2.5 row 1). -/
def vd1 : VariableDelay := { VariableDelay.reset with init := true, ty := .ext, depth := 0x3F000000, fs := 0x473B8000 }

/-- R257. -/
theorem test_vdSetup : gives (exec (.vdSetup 0 4 0x3F000000 0 0 0x473B8000) (port id))
    (fun t => t.a.res == 0 && t.a.vd == [vd1]) = true := by decide +kernel

/-- 95, 2.5 row 7. -/
theorem test_vdModDepth : gives (exec (.vdModDepth 0 0x40000000) (port fun st => { st with vd := [vd1] }))
    (fun t => t.a.res == 0x51 && t.a.vd == [{ vd1 with depth := 0x3F800000 }]) = true := by decide +kernel

/-- 95, 2.5 row 6; the phase is kept. -/
theorem test_vdModRate : gives (exec (.vdModRate 0 0x3F000000) (port fun st => { st with vd := [{ vd1 with phase := 0x3E800000 }] }))
    (fun t => t.a.vd == [{ vd1 with rate := 0x3F000000, pinc := 0x372EC33E, phase := 0x3E800000 }]) = true := by decide +kernel

/-- R261: −1.5 is clamped to −1.0. -/
theorem test_vdModFb : gives (exec (.vdModFb 0 0xBFC00000) (port fun st => { st with vd := [vd1] }))
    (fun t => t.a.res == 0x53 && t.a.vd == [{ vd1 with fb := 0xBF800000 }]) = true := by decide +kernel

/-- R262, and 95, 2.5 row 8. -/
theorem test_vdModType : gives (exec (.vdModType 0 2) (port fun st => { st with vd := [vd1] }))
      (fun t => t.a.vd == [{ vd1 with ty := .square }]) = true
    ∧ gives (exec (.vdModType 0 5) (port fun st => { st with vd := [vd1] }))
      (fun t => t.a.res == 2 && t.a.vd == [vd1]) = true := by decide +kernel

/-- 95, 2.5 row 2: modulation 0.25 reads halfway between two cells. -/
theorem test_vdRead : gives (exec (.vdRead 0 0 2 1 8)
      (port fun st => { st with
        vd := [vd1]
        buf := bufs [0x3F800000, 0x40000000, 0x40400000, 0x40800000, 0x40A00000, 0x40C00000, 0x40E00000, 0x41000000]
          (List.replicate 8 0x3E800000) }))
    (fun t => words t 1 8 == some [0, 0, 0, 0, 0x3F000000, 0x3FC00000, 0x40200000, 0x40600000]) = true := by decide +kernel

/-! ### Dynamics -/

/-- A compressor at threshold 0 dB and ratio 1 with coefficients 0. -/
def cp1 : Compressor :=
  { Compressor.reset with
    init := true, ratio := 0x3F800000, att := 0x3F800000, rel := 0x42C80000, rms := 0x40A00000, gain := 0x40000000
    fs := 0x473B8000 }

/-- 95, 2.6 row 6, both cases. -/
theorem test_cpSetup : gives (exec (.cpSetup 0 0xC2F00000 0x40800000 0x3F800000 0x42C80000 0x3F800000 0x40A00000 0x473B8000)
      (port fun st => { st with cpr := [cp1] })) (fun t => t.a.res == 0x61 && t.a.cpr == [{ cp1 with init := false }]) = true
    ∧ gives (exec (.cpSetup 0 0xC1A00000 0x3F000000 0x3F800000 0x42C80000 0x3F800000 0x40A00000 0x473B8000) (port id))
      (fun t => t.a.res == 0x62) = true := by decide +kernel

/-- 95, 2.6 row 7: 50 dB is clamped to 30; `30 × DB2L2`, computed apart, is `0x409F73DA`. -/
theorem test_cpModThr : gives (exec (.cpModThr 0 0x42480000) (port fun st => { st with cpr := [cp1] }))
    (fun t => t.a.res == 0x61 && t.a.cpr == [{ cp1 with thr := 0x41F00000, thrL2 := 0x409F73DA }]) = true := by
  decide +kernel

/-- R280: ratio 4 has slope 0.75. -/
theorem test_cpModRatio : gives (exec (.cpModRatio 0 0x40800000) (port fun st => { st with cpr := [cp1] }))
    (fun t => t.a.res == 0 && t.a.cpr == [{ cp1 with ratio := 0x40800000, slope := 0x3F400000 }]) = true := by decide +kernel

/-- R281, R282, R134: on a compressor never set up the clamp is reported and nothing written. -/
theorem test_cpModAtt_cpModRel : gives (exec (.cpModAtt 0 0) (port id))
      (fun t => t.a.res == 0x63 && t.a.cpr == State.reset.a.cpr) = true
    ∧ gives (exec (.cpModRel 0 0x501502F9) (port id)) (fun t => t.a.res == 0x64 && t.a.cpr == State.reset.a.cpr) = true := by
  decide +kernel

/-- R283: −1.0 is clamped to 0. -/
theorem test_cpModGain : gives (exec (.cpModGain 0 0xBF800000) (port fun st => { st with cpr := [cp1] }))
    (fun t => t.a.res == 0x65 && t.a.cpr == [{ cp1 with gain := 0 }]) = true := by decide +kernel

/-- 95, 2.6 row 5: of silence no logarithm is taken. -/
theorem test_cpRead : gives (exec (.cpRead 0 0 1 2) (port fun st => { st with cpr := [cp1], buf := bufs [0, 0] [] }))
    (fun t => words t 1 2 == some [0, 0] && t.a.cpr == [cp1]) = true := by decide +kernel

/-! ### Waveshaper -/

/-- A clipper of threshold 0.5 and mode smooth (95, 2.7 row 1). -/
def cl1 : Clipper :=
  { init := true, thr := 0x3F000000, mode := .smooth, os := false, zu := List.replicate 8 0, zd := List.replicate 8 0 }

/-- R302, and 95, 2.7 row 5. -/
theorem test_clSetup : gives (exec (.clSetup 0 0x3F000000 0 0) (port id)) (fun t => t.a.cl == [cl1]) = true
    ∧ gives (exec (.clSetup 0 0x3F000000 2 0) (port fun st => { st with cl := [cl1] }))
      (fun t => t.a.res == 2 && t.a.cl == [cl1]) = true := by decide +kernel

/-- 95, 2.7 row 4. -/
theorem test_clModThr : gives (exec (.clModThr 0 0) (port fun st => { st with cl := [cl1] }))
    (fun t => t.a.res == 0x71 && t.a.cl == [{ cl1 with thr := 0x3A83126F }]) = true := by decide +kernel

/-- 95, 2.7 row 1. -/
theorem test_clRead : gives (exec (.clRead 0 0 1 5)
      (port fun st => { st with cl := [cl1], buf := bufs [0x3E800000, 0xBE800000, 0x3F800000, 0, 0x80000000] [] }))
    (fun t => words t 1 5 == some [0x3EB00000, 0xBEB00000, 0x3F000000, 0, 0]) = true := by decide +kernel

/-- 95, 2.7 row 6: the oversampled path. -/
theorem test_clRead_oversampled : gives (exec (.clRead 0 0 1 4)
      (port fun st =>
        { st with cl := [{ cl1 with os := true }], buf := bufs [0x3E800000, 0xBE800000, 0x3F800000, 0] [] }))
    (fun t => words t 1 4 == some [0x3EB00000, 0xBEB00000, 0x3F000000, 0] && t.a.cl == [{ cl1 with os := true }]) = true := by
  decide +kernel

/-! ### Oscillator and modulation -/

/-- 95, 2.2 rows 1 and 4. -/
theorem test_oscEval : gives (exec (.oscEval 1 0x3F600000 0x3F000000) (port id))
      (fun t => t.a.oscval == 0xBF000000 && t.a.res == 0) = true
    ∧ gives (exec (.oscEval 0 0x3F800000 0x3F000000) (port fun st => { st with oscval := 5 }))
      (fun t => t.a.oscval == 5 && t.a.res == 0x81) = true := by decide +kernel

/-- 95, 2.2 rows 3 and 5; and R173: a triangle at −0.0 gives +0.0. -/
theorem test_oscEval_corners : gives (exec (.oscEval 3 0x33000000 0x3F000000) (port id))
      (fun t => t.a.oscval == 0xBF7FFFFF) = true
    ∧ gives (exec (.oscEval 4 0x3F000000 0x3F800000) (port id)) (fun t => t.a.res == 0x82) = true
    ∧ gives (exec (.oscEval 1 0x80000000 0x3F000000) (port fun st => { st with oscval := 5 }))
      (fun t => t.a.oscval == 0x00000000 && t.a.res == 0) = true := by decide +kernel

/-- An amplitude modulator of external type at full depth (95, 2.8 row 3). -/
def am1 : AmpMod := { AmpMod.reset with init := true, ty := .ext, depth := 0x3F800000, fs := 0x473B8000 }

/-- R322 with the operands of 95, 2.8 row 1. -/
theorem test_amSetup : gives (exec (.amSetup 0 2 0x3F800000 0x463B8000 0x473B8000) (port id))
    (fun t => t.a.am == [{ am1 with ty := .square, rate := 0x463B8000, pinc := 0x3E800000 }]) = true := by decide +kernel

/-- 95, 2.8 row 6. -/
theorem test_amModDepth : gives (exec (.amModDepth 0 0xBF800000) (port fun st => { st with am := [am1] }))
    (fun t => t.a.res == 0x91 && t.a.am == [{ am1 with depth := 0 }]) = true := by decide +kernel

/-- 95, 2.8 row 5. -/
theorem test_amModRate : gives (exec (.amModRate 0 0x40A00000) (port fun st => { st with am := [am1] }))
    (fun t => t.a.am == [{ am1 with rate := 0x40A00000, pinc := 0x38DA740E }]) = true := by decide +kernel

/-- 95, 2.8 row 3: the modulation is clamped. -/
theorem test_amRead : gives (exec (.amRead 0 0 2 1 4)
      (port fun st => { st with
        am := [am1]
        buf := bufs [0x3F800000, 0x3F800000, 0x3F800000, 0x40000000] [0x3F800000, 0, 0xBF800000, 0xC0E00000] }))
    (fun t => words t 1 4 == some [0x3F800000, 0x3F000000, 0, 0]) = true := by decide +kernel

/-- 95, 2.8 row 1: a square modulator of a quarter of the sample rate; the phase returns to 0.25. -/
theorem test_amRead_square : gives (exec (.amRead 0 0 0 1 5)
      (port fun st => { st with
        am := [{ am1 with ty := .square, pinc := 0x3E800000 }]
        buf := bufs [0x3F800000, 0x3F800000, 0x3F800000, 0x3F800000, 0x3F000000] [] }))
    (fun t => words t 1 5 == some [0x3F800000, 0x3F800000, 0, 0, 0x3F000000]
      && t.a.am.map (fun x => x.phase) == [0x3E800000]) = true := by decide +kernel

/-! ### Synth voice -/

/-- A voice with segments of 4 samples, triangle, sustain level 0.5, sounding at 6000 Hz (95, 2.9 row 2). -/
def sy1 : Synth :=
  { init := true, A := 4, D := 4, S := 4, R := 4, ty := .tri, duty := 0x3F000000, sl := 0x3F000000, fs := 0x473B8000
    phase := 0, pinc := 0x3E000000, vol := 0x3F800000, pos := 0, playing := true }

/-- R357, and 95, 2.9 row 5. -/
theorem test_sySetup : gives (exec (.sySetup 0 4 4 4 4 1 0x3F000000 0x3F000000 0x473B8000) (port id))
      (fun t => t.a.res == 0 && t.a.sy == [{ sy1 with pinc := 0, vol := 0, playing := false }]) = true
    ∧ gives (exec (.sySetup 0 0x01000000 0 0 0 0 0x3F000000 0x3F000000 0x473B8000) (port id))
      (fun t => t.a.res == 0xA1) = true := by decide +kernel

/-- 95, 2.9 row 6, as a retrigger. -/
theorem test_syPlay : gives (exec (.syPlay 0 0x43DC0000 0x3F800000)
      (port fun st => { st with sy := [{ sy1 with pos := 3, phase := 0x3F000000 }] }))
    (fun t => t.a.sy == [{ sy1 with pinc := 0x3C162FC9 }] && statusRead t.cfg t.a 0x400 == 1) = true := by decide +kernel

/-- 95, 2.9 row 2: the position jumps to 12. -/
theorem test_syStop : gives (exec (.syStop 0) (port fun st => { st with sy := [{ sy1 with pos := 2 }] }))
    (fun t => t.a.sy == [{ sy1 with pos := 12 }]) = true := by decide +kernel

/-- 95, 2.9 row 2, the samples after the stop. -/
theorem test_syRead : gives (exec (.syRead 0 0 1 6)
      (port fun st => { st with sy := [{ sy1 with pos := 12, phase := 0x3E800000 }] }))
    (fun t => words t 1 6 == some [0x3F000000, 0x3E400000, 0, 0xBD800000, 0, 0]
      && t.a.sy.map (fun x => (x.pos, x.playing)) == [(16, false)]) = true := by decide +kernel

/-- 95, 2.9 row 8: a voice never set up passes its source through. -/
theorem test_syRead_uninitialized : gives (exec (.syRead 0 0 1 2)
      (port fun st => { st with buf := bufs [0x40400000, 0x40800000] [] }))
    (fun t => words t 1 2 == some [0x40400000, 0x40800000] && t.a.res == 0) = true := by decide +kernel

/-! ### Pitch detector, smoother, tracker, pipeline -/

/-- A pitch detector just set up (R337) with the reference history of 2. -/
def zc1 : ZeroCross :=
  { ZeroCross.reset Config.reference with
    init := true, fs := 0x473B8000, cnt := 0xFFFFFFFF }

/-- R337. -/
theorem test_zcSetup : gives (exec (.zcSetup 0 0x473B8000) (port id)) (fun t => t.a.zc == [zc1]) = true := by decide +kernel

/-- 95, 2.8 row 7: sample 0 of the square wave is an event with an out-of-range candidate, so nothing is recorded. -/
theorem test_zcRead : gives (exec (.zcRead 0 0 1) (port fun st => { st with zc := [zc1], buf := bufs [0x3F800000] [] }))
    (fun t => t.a.zc == [{ zc1 with lpf := 0x3F800000, ppk := 0x3F800000, pol := true, cnt := 0, idle := 1 }]) = true := by
  decide +kernel

/-- 95, 2.1 row 12, and R147. -/
theorem test_smSetup : gives (exec (.smSetup 0 0x3FC00000) (port fun st => { st with sm := [⟨true, 0, 7⟩] }))
      (fun t => t.a.res == 0xC1 && t.a.sm == [⟨false, 0, 7⟩]) = true
    ∧ gives (exec (.smSetup 0 0x3F000000) (port id)) (fun t => t.a.sm == [⟨true, 0x3F000000, 0⟩]) = true := by decide +kernel

/-- 95, 2.1 row 10. -/
theorem test_smRead : gives (exec (.smRead 0 0 1 3)
      (port fun st => { st with sm := [⟨true, 0x3F000000, 0⟩], buf := bufs [0x3F800000, 0x3F800000, 0xBF800000] [] }))
    (fun t => words t 1 3 == some [0x3F000000, 0x3F400000, 0xBE000000] && t.a.sm == [⟨true, 0x3F000000, 0xBE000000⟩])
      = true := by decide +kernel

/-- 95, 2.1 row 9, both cases. -/
theorem test_smRead_passes : gives (exec (.smRead 0 0 1 3) (port fun st => { st with buf := bufs [0x80000000, 1, 0x7F7FFFFF] [] }))
      (fun t => words t 1 3 == some [0x80000000, 1, 0x7F7FFFFF] && t.a.res == 0) = true
    ∧ gives (exec (.smRead 9 0 1 3) (port fun st => { st with buf := bufs [0x80000000, 1, 0x7F7FFFFF] [] }))
      (fun t => words t 1 3 == some [0x80000000, 1, 0x7F7FFFFF] && t.a.res == 1) = true := by decide +kernel

/-- R150. -/
theorem test_atSetup : gives (exec (.atSetup 0 1 0x3F000000) (port id))
    (fun t => t.a.trk == [⟨true, .rms, 0x3F000000, 0, 0⟩]) = true := by decide +kernel

/-- 95, 2.1 row 13, read at SR `0x100`. -/
theorem test_atRead_peak : gives (exec (.atRead 0 0 4)
      (port fun st => { st with
        trk := [⟨true, .peak, 0x3F000000, 0, 0⟩], buf := bufs [0x3F000000, 0xBF800000, 0x3E800000, 0x3E000000] [] }))
    (fun t => statusRead t.cfg t.a 0x100 == 0x3E800000) = true := by decide +kernel

/-- 95, 2.1 row 14. -/
theorem test_atRead_rms : gives (exec (.atRead 0 0 2)
      (port fun st => { st with trk := [⟨true, .rms, 0x3F000000, 0, 0⟩], buf := bufs [0x3F800000, 0x3F800000] [] }))
    (fun t => t.a.trk == [⟨true, .rms, 0x3F000000, 0x3F400000, 0x3F5DB3D7⟩]) = true := by decide +kernel

/-- R156, and 95, 2.1 row 17. -/
theorem test_stArm : gives (exec .stArm (port id)) (fun t => t.a.fsm == .armed) = true
    ∧ gives (exec .stArm (port fun st => { st with fsm := .running })) (fun t => t.a.fsm == .running && t.a.res == 0)
      = true := by decide

/-- 95, P2, k = 2 and k = 3. -/
theorem test_stSelect : gives (exec (.stSelect 1) (port id)) (fun t => t.a.effect == 1 && t.a.res == 0) = true
    ∧ gives (exec (.stSelect 9) (port id)) (fun t => t.a.effect == 1 && t.a.res == 3) = true := by decide

/-- R158, and 95, 2.1 row 16. -/
theorem test_efSetup : gives (exec (.efSetup 1) (port id)) (fun t => t.a.effInit == [false, true]) = true
    ∧ gives (exec (.efSetup 9) (port id)) (fun t => t.a.effInit == [false, false] && t.a.res == 3) = true := by decide

/-! ## Witnesses: for every obligation with hypotheses, a state and operands that meet all of them together -/

theorem gives_some {r : Result} (h : gives r (fun _ => true) = true) : ∃ t, r = .next t := by
  obtain ⟨t, ht, -⟩ := gives_next h; exact ⟨t, ht⟩

/-- The reference configuration with the program `CLEAR b2, 4; END` as effect 0 of stage A. -/
def clearCfg : Config := { Config.reference with progA := [[0x02000002, 0x00000004, 0x00000000], [0x00000000]] }

/-- Buffers of which the words of a block are written. -/
def blockBufs : Memory := loadBlock ⟨[1, 2, 3, 4], [5, 6, 7, 8]⟩ []

/-- An input block. -/
def block : Block := ⟨[0x3F800000, 0xC0000000, 0x3F000000, 0x80000000], [0x40A00000, 0x40C00000, 0x40E00000, 1]⟩

/-- Stage A armed, at the first command of `CLEAR b2, 4; END`, the block loaded. -/
def atClear : State :=
  { State.resetWith clearCfg with
    a := { Stage.reset clearCfg with fsm := .armed, effInit := [true, false], buf := blockBufs }, phase := .program }

/-- Stage A armed, about to store. -/
def atStore : State := { atClear with phase := .store }

/-- Stage A draining `ST.ARM`, then something illegal. -/
def atDrain : State := port fun st => { st with cq := [[0xE0000000], [0xF0000000, 7]] }

/-- Stage A or stage B running, and an arrival that is late. -/
def atLateA : State :=
  { State.reset with
    a := { State.reset.a with fsm := .running }, handoff := [block], inputs := [.arrivalA true block, .reset] }
/-- As `atLateA`, for stage B. -/
def atLateB : State :=
  { State.reset with b := { State.reset.b with fsm := .overrun }, handoff := [block], inputs := [.arrivalB true] }

theorem witness_EveryCommandHasOneEncoding :
    decodePort [0x03000102, 0x03000004] = .ok (.mix2 1 3 2 4) ∧ decodePort [0x00000000] = .ok .endProgram := by decide

theorem witness_UnknownOpcodesDecodeToNothing : ∀ i : Instr, i.opcode ≠ headOp 0x05000000 ∧ i.opcode ≠ headOp 0xF0000000 := by
  intro i; cases i <;> exact ⟨by simp [Instr.opcode, headOp], by simp [Instr.opcode, headOp]⟩

theorem witness_StepRunsTheDecodedCommand_drain : atDrain.phase = .drain false ∧ atDrain.stage.cq = [0xE0000000] :: [[0xF0000000, 7]]
    ∧ decodePort [0xE0000000] = .ok .stArm := by decide +kernel

theorem witness_StepRunsTheDecodedCommand_program : atClear.phase = .program ∧ decode (programWords atClear) = .ok (.clear 2 4)
    ∧ ∃ t, exec (.clear 2 4) atClear = .next t := by
  refine ⟨rfl, by decide +kernel, gives_some (by decide +kernel)⟩

theorem witness_StepRunsTheDecodedCommand_end : (prog id).phase = .program ∧ decode (programWords (prog id)) = .ok .endProgram
    ∧ ∃ t, exec .endProgram (prog id) = .next t := by
  refine ⟨rfl, by decide +kernel, gives_some (by decide +kernel)⟩

theorem witness_IllegalCommandChangesOnlyRes_words : (port fun st => { st with cq := [[0xF0000000]] }).phase = .drain false
    ∧ (port fun st => { st with cq := [[0xF0000000]] }).stage.cq = [[0xF0000000]]
    ∧ decodePort [0xF0000000] = .error .unknownOpcode := by decide +kernel

theorem witness_IllegalCommandChangesOnlyRes_operands : (port id).inProgram = false ∧ accepted (.copy 0 1 9) (port id) = false
    ∧ accepted (.copy 0 1 8) (port id) = true ∧ accepted .endProgram (port id) = false := by decide +kernel

theorem witness_DrainTakesOneCommand : atDrain.phase = .drain false ∧ atDrain.stage.cq = [[0xE0000000], [0xF0000000, 7]]
    ∧ ∃ t, step atDrain = .next t := ⟨rfl, by decide +kernel, gives_some (by decide +kernel)⟩

theorem witness_DrainTakesOneCommand_empty : (port id).phase = .drain false ∧ (port id).stage.cq = [] := by decide +kernel

/-- A queue of depth 1, empty and full; what the host does next is another enqueue, or an arrival. -/
def atQueue (cq : List (List Word)) (next : Input) : State :=
  { State.resetWith { Config.reference with cqDepth := 1 } with
    a := { Stage.reset Config.reference with cq := cq }, inputs := [.enqueue .A [0xE0000000], next] }

theorem witness_DrainTakesOneCommand_enqueue :
    ([.enqueue .B [0xE0000000], .arrivalA false block] : List Input).all (fun x =>
      ([[], [[0xE0000000]]] : List (List (List Word))).all fun cq =>
        (atQueue cq x).phase == .between && (atQueue cq x).inputs == .enqueue .A [0xE0000000] :: [x]) = true
    ∧ ((atQueue [] (.arrivalA false block)).stageAt .A).cq.length < (atQueue [] (.arrivalA false block)).cfg.cqDepth
    ∧ (atQueue [[0xE0000000]] (.enqueue .B [0xE0000000])).cfg.cqDepth
      ≤ ((atQueue [[0xE0000000]] (.enqueue .B [0xE0000000])).stageAt .A).cq.length
    ∧ ∃ t, step (atQueue [[0xE0000000]] (.arrivalA false block)) = .next t := by
  refine ⟨by decide +kernel, by decide +kernel, by decide +kernel, gives_some (by decide +kernel)⟩

theorem witness_DispatchTerminates : atClear.onCourse = true ∧ atClear.phase = .program := by decide +kernel

theorem witness_OnlyArrivalsAreRefused_handoff : { State.reset with inputs := [.arrivalB false] }.onCourse = true
    ∧ step { State.reset with inputs := [.arrivalB false] } = .refused .handoffNotReady := ⟨by decide +kernel, rfl⟩

theorem witness_OnlyArrivalsAreRefused_block : { State.reset with inputs := [.arrivalA false ⟨[], []⟩] }.onCourse = true
    ∧ step { State.reset with inputs := [.arrivalA false ⟨[], []⟩] } = .refused .malformedBlock := ⟨by decide +kernel, rfl⟩

theorem witness_EffectPassThrough_notReady :
    let s : State := { port (fun st => { st with fsm := .armed }) with phase := .drain true, latch := block }
    Config.wf s.cfg = true ∧ s.phase = .drain true ∧ s.stage.cq = [] ∧ blockShaped s.cfg s.latch = true
      ∧ effectReady s.stage = false := by decide +kernel

theorem witness_EffectPassThrough_end :
    let s : State :=
      { port (fun st => { st with fsm := .armed, effInit := [true, false] }) with phase := .drain true, latch := block }
    Config.wf s.cfg = true ∧ s.phase = .drain true ∧ s.stage.cq = [] ∧ blockShaped s.cfg s.latch = true
      ∧ effectReady s.stage = true ∧ s.programs[s.stage.effect.toNat]? = some [0x00000000] := by decide +kernel

/-- At the first and last word of either channel, just beyond, and at the last index a buffer word can have. -/
theorem witness_LoadWritesOnlyTheBlock : Config.wf Config.reference = true
    ∧ blockShaped Config.reference block = true ∧ (3 < 65536 ∧ 3 < Config.reference.blksz) ∧ ¬ 4 < Config.reference.blksz
    ∧ 65535 < 65536 ∧ bufRead (loadBlock block []) 0 3 = some 0x80000000 ∧ bufRead (loadBlock block []) 1 3 = some 1
    ∧ bufRead (loadBlock block []) 0 4 = none ∧ bufRead (loadBlock block []) 0 65535 = none := by decide +kernel

theorem witness_OverrunIsSilenceAndOneDrop_A : atLateA.phase = .between ∧ atLateA.inputs = .arrivalA true block :: [.reset]
    ∧ blockShaped atLateA.cfg block = true ∧ blockFinite block = true ∧ atLateA.a.fsm = .running := by decide +kernel

theorem witness_OverrunIsSilenceAndOneDrop_B : atLateB.phase = .between ∧ atLateB.inputs = .arrivalB true :: [] ∧ atLateB.handoff = [block]
    ∧ atLateB.b.fsm = .overrun := by decide +kernel

/-- Either stage in every `FSM` state, with an arrival that is no overrun. -/
def atArrival (fsm : Fsm) (x : Input) : State :=
  { State.reset with
    a := { State.reset.a with fsm := fsm }, b := { State.reset.b with fsm := fsm }, handoff := [block], inputs := [x] }

theorem witness_OverrunIsSilenceAndOneDrop_noOverrun :
    ([(.idle, true), (.armed, true), (.running, false), (.overrun, false)] : List (Fsm × Bool)).all (fun p =>
      let s := atArrival p.1 (.arrivalA p.2 block)
      let s' := atArrival p.1 (.arrivalB p.2)
      s.phase == .between && s.inputs == [.arrivalA p.2 block] && blockShaped s.cfg block && blockFinite block
        && s'.inputs == [.arrivalB p.2] && s'.handoff == [block]) = true
    ∧ (port id).phase = .drain false ∧ (port id).stage.cq = [] := by decide +kernel

/-- `ST.ARM` arms, the store starts, a late arrival overruns: each from a state on course. -/
theorem witness_FsmTransitions :
    (atDrain.onCourse = true ∧ ∃ t, step atDrain = .next t ∧ (t.a.fsm == .armed) = true)
      ∧ (atStore.onCourse = true ∧ ∃ t, step atStore = .next t ∧ (t.a.fsm == .running) = true)
      ∧ (atLateA.onCourse = true ∧ ∃ t, step atLateA = .next t ∧ (t.a.fsm == .overrun) = true)
      ∧ ({ atLateA with inputs := [.reset] }.onCourse = true
        ∧ ∃ t, step { atLateA with inputs := [.reset] } = .next t ∧ (t.a.fsm == .idle) = true) := by
  refine ⟨⟨by decide +kernel, gives_next ?_⟩, ⟨by decide +kernel, gives_next ?_⟩, ⟨by decide +kernel, gives_next ?_⟩,
    ⟨by decide +kernel, gives_next ?_⟩⟩ <;> decide +kernel

/-- The counter at 7, and at its top. -/
theorem witness_DropsAreMonotonic :
    (∃ t, step { atLateA with a := { atLateA.a with drops := 7 } } = .next t ∧ (t.a.drops == 8) = true)
      ∧ ∃ t, step { atLateA with a := { atLateA.a with drops := 0xFFFFFFFF } } = .next t ∧ (t.a.drops == 0xFFFFFFFF) = true := by
  refine ⟨gives_next ?_, gives_next ?_⟩ <;> decide +kernel

/-- Stage A appends a block at the end of an answer, at a store and at an overrun; stage B takes one. -/
theorem witness_HandoffIsInOrder : (∃ t, step atStore = .next t ∧ (t.handoff == [t.a.out]) = true)
    ∧ (∃ t, step atLateA = .next t ∧ (t.handoff == [block, t.a.out]) = true)
    ∧ ∃ t, step { atLateB with inputs := [.arrivalB false] } = .next t ∧ (t.handoff == [] && t.latch == block) = true := by
  refine ⟨gives_next ?_, gives_next ?_, gives_next ?_⟩ <;> decide +kernel

theorem witness_ResetValues : State.reset.a = (State.resetWith Config.reference).a
    ∧ State.reset.b = (State.resetWith Config.reference).b := ⟨rfl, rfl⟩

theorem witness_ResetIsOneStep : { atLateA with inputs := [.reset, .reset] }.phase = .between
    ∧ { atLateA with inputs := [.reset, .reset] }.inputs = .reset :: [.reset] := ⟨rfl, rfl⟩

theorem witness_InvariantsHoldAtReset : Config.wf Config.reference = true ∧ Config.wf clearCfg = true := by decide +kernel

theorem witness_StepKeeps : (atClear.formed = true ∧ atClear.finite = true ∧ atClear.pointersOk = true ∧ atClear.onCourse = true)
    ∧ ∃ t, step atClear = .next t := ⟨by decide +kernel, gives_some (by decide +kernel)⟩

/-- As `witness_StepKeeps`, with instances set up and a read that runs. -/
def atRead : State :=
  { port (fun st => { st with
      buf := bufs [0x3F800000, 0, 0, 0] [], bq := [bq1], dl := [dl1], mt := [mt1], ap := [ap1], vd := [vd1], cpr := [cp1]
      cl := [cl1], am := [am1], sy := [sy1], zc := [zc1], cq := [[0x2F000001, 0x00000004]] }) with phase := .drain false }

theorem witness_StepKeeps_read : (atRead.formed = true ∧ atRead.finite = true ∧ atRead.pointersOk = true ∧ atRead.onCourse = true)
    ∧ ∃ t, step atRead = .next t := ⟨by decide +kernel, gives_some (by decide +kernel)⟩

theorem witness_StoreAlwaysSucceeds : atStore.onCourse = true ∧ atStore.phase = .store := by decide +kernel

/-- A command at the control port and one in a program. -/
theorem witness_frames : (∃ t, exec (.dlRead 0 0 1 4) atRead = .next t) ∧ (∃ t, exec (.clear 2 4) atClear = .next t)
    ∧ ((port id).inProgram = false ∧ (prog id).inProgram = true) :=
  ⟨gives_some (by decide +kernel), gives_some (by decide +kernel), by decide +kernel⟩

/-- Of that command, a word beyond its destination and the last word of it. -/
theorem witness_CommandWritesOnlyItsDestination : destination (.dlRead 0 0 1 4) = some (1, 4)
    ∧ ¬ ((1 : Byte) = 1 ∧ 4 < 4) ∧ ((1 : Byte) = 1 ∧ 3 < 4) ∧ ¬ names (.dlRead 0 0 1 4) 2 1 := by
  refine ⟨rfl, by decide, by decide, ?_⟩
  rintro ⟨-, j, h1, h2⟩
  cases h1
  cases h2

/-- The reference configuration with 256 biquads. -/
def fullCfg : Config := { Config.reference with nBq := 256 }

/-- The first index beyond a class of one, and a class of 256. -/
theorem witness_NullInstance_counts : (Stage.formed Config.reference State.reset.a = true
      ∧ instanceOf (.bqModFreq 1 0) = some 1 ∧ namedInit State.reset.a (.bqModFreq 1 0) = none
      ∧ namedInit State.reset.a (.bqModFreq 0 0) = some false)
    ∧ Stage.formed fullCfg (Stage.reset fullCfg) = true ∧ classCount fullCfg (classOf (.bqModFreq 255 0)) = 256
      ∧ namedInit (Stage.reset fullCfg) (.bqModFreq 255 0) = some false := by decide +kernel

theorem witness_NullInstance_modify : accepted (.bqModFreq 1 0) (port id) = true ∧ instanceOf (.bqModFreq 1 0) = some 1
    ∧ namedInit (port id).stage (.bqModFreq 1 0) = none ∧ destination (.bqModFreq 1 0) = none := by decide +kernel

theorem witness_NullInstance_read :
    let s := port fun st => { st with buf := bufs [3, 4] [] }
    accepted (.smRead 1 0 1 2) s = true ∧ instanceOf (.smRead 1 0 1 2) = some 1
      ∧ namedInit s.stage (.smRead 1 0 1 2) = none ∧ source (.smRead 1 0 1 2) = some (0, 2)
      ∧ destination (.smRead 1 0 1 2) = some (1, 2) ∧ bufStore s.stage.buf 0 2 0 = .ok [3, 4] := by decide +kernel

theorem witness_UninitializedInstance_modify : accepted (.syPlay 0 0 0) (port id) = true
    ∧ namedInit (port id).stage (.syPlay 0 0 0) = some false ∧ isSetup (.syPlay 0 0 0) = false
    ∧ source (.syPlay 0 0 0) = none ∧ parameterCode (port id).cfg (.syPlay 0 0 0) = .ok
    ∧ parameterCode (port id).cfg (.bqModFreq 0 0x47000000) = .bqInvalidFreq := by decide +kernel

theorem witness_UninitializedInstance_detector : accepted (.zcRead 0 0 8) (port id) = true
    ∧ namedInit (port id).stage (.zcRead 0 0 8) = some false ∧ isSetup (.zcRead 0 0 8) = false
    ∧ source (.zcRead 0 0 8) = some (0, 8) ∧ destination (.zcRead 0 0 8) = none := by decide +kernel

theorem witness_UninitializedInstance_read :
    let s := port fun st => { st with buf := bufs [3, 4] [] }
    accepted (.syRead 0 0 1 2) s = true ∧ namedInit s.stage (.syRead 0 0 1 2) = some false ∧ isSetup (.syRead 0 0 1 2) = false
      ∧ source (.syRead 0 0 1 2) = some (0, 2) ∧ destination (.syRead 0 0 1 2) = some (1, 2)
      ∧ bufStore s.stage.buf 0 2 0 = .ok [3, 4] := by decide +kernel

theorem witness_EndStopsTheDispatch : (prog id).inProgram = true := by decide

/-- `n` at its least and at `BLOCK_MAX`. -/
theorem witness_BufferUtilities :
    let s := port fun st => { st with buf := bufs (List.replicate 8 0x3F800000) (List.replicate 8 0xBF800000) }
    (accepted (.copy 0 1 8) s = true ∧ bufStore s.stage.buf 0 8 0 = .ok (List.replicate 8 0x3F800000))
      ∧ (accepted (.clear 3 1) s = true ∧ accepted (.clear 3 8) s = true)
      ∧ (accepted (.mix2 0 2 0 8) s = true ∧ bufStore s.stage.buf 2 8 0 = .ok (List.replicate 8 0xBF800000)
        ∧ (List.zipWith fadd (List.replicate 8 0x3F800000) (List.replicate 8 0xBF800000)).all isFinite = true)
      ∧ (accepted (.gain 0 0 8 0x40000000) s = true
        ∧ ((List.replicate 8 0x3F800000).map fun x => fmul x 0x40000000).all isFinite = true) := by decide +kernel

theorem witness_GainByOneIsACopy :
    let s := port fun st => { st with buf := bufs [0x80000001, 0x80000000, 0x7F7FFFFF] [] }
    accepted (.gain 0 2 3 0x3F800000) s = true ∧ bufStore s.stage.buf 0 3 0 = .ok [0x80000001, 0x80000000, 0x7F7FFFFF]
      ∧ ([0x80000001, 0x80000000, 0x7F7FFFFF] : List F32).all isFinite = true := by decide +kernel

/-- The last effect index, and the first that is none. -/
theorem witness_PipelineCommands : (port id).inProgram = false ∧ ¬ (port id).cfg.nEffects ≤ (1 : Byte).toNat
    ∧ (port id).cfg.nEffects ≤ (2 : Byte).toNat := by decide

/-- Phases just outside and at the ends of `[0, 1)`, duties at the ends of `(0, 1)`. -/
theorem witness_OscEvalIsTheWaveform :
    (accepted (.oscEval 0 0x3F800000 0) (port id) = true ∧ fge 0x3F800000 fone = true)
      ∧ (accepted (.oscEval 0 0x80000001 0) (port id) = true ∧ flt 0x80000001 fzero = true)
      ∧ (accepted (.oscEval 4 0x3F7FFFFF 0x3F800000) (port id) = true ∧ flt 0x3F7FFFFF fzero = false
        ∧ fge 0x3F7FFFFF fone = false ∧ fge 0x3F800000 fone = true ∧ fle 0x00000000 fzero = true)
      ∧ (accepted (.oscEval 4 0x80000000 0x3F7FFFFF) (port id) = true ∧ flt 0x80000000 fzero = false
        ∧ fge 0x80000000 fone = false ∧ fle 0x3F7FFFFF fzero = false ∧ fge 0x3F7FFFFF fone = false) := by decide +kernel

/-- Parameters at the ends of their ranges, and outside. -/
theorem witness_SetupsWithAtMostOneCheck :
    (accepted (.smSetup 0 0x3F800000) (port id) = true ∧ accepted (.smSetup 0 0x3F800001) (port id) = true
        ∧ (port id).stage.sm[(0 : Byte).toNat]? = some Smoother.reset)
      ∧ (accepted (.atSetup 0 1 0x80000000) (port id) = true
        ∧ (port id).stage.trk[(0 : Byte).toNat]? = some Tracker.reset)
      ∧ (accepted (.clSetup 0 0x3A83126F 1 1) (port id) = true
        ∧ (port id).stage.cl[(0 : Byte).toNat]? = some (Clipper.reset (port id).cfg))
      ∧ (accepted (.zcSetup 0 0x48435000) (port id) = true
        ∧ (port id).stage.zc[(0 : Byte).toNat]? = some (ZeroCross.reset (port id).cfg)) := by decide +kernel

/-- Lengths at the ends `1` and `cap`, and outside. -/
theorem witness_DelaySetups :
    (accepted (.dlSetup 0 8 0xBF800000 0x42C80000 0x3F800000) (port id) = true
        ∧ accepted (.dlSetup 0 9 0 0 0) (port id) = true ∧ accepted (.dlSetup 0 0 0 0 0) (port id) = true
        ∧ capOf (port id).cfg.dlCap 0 = 8 ∧ (port id).stage.dl[(0 : Byte).toNat]? = some FeedbackDelay.reset)
      ∧ (accepted (.mtSetup 0 0) (port id) = true ∧ accepted (.mtSetup 0 8) (port id) = true
        ∧ (port id).stage.mt[(0 : Byte).toNat]? = some (Multitap.reset (port id).cfg))
      ∧ (accepted (.apSetup 0 1 0x3F800000) (port id) = true ∧ (port id).stage.ap[(0 : Byte).toNat]? = some Allpass.reset) := by
  decide +kernel

/-- The greatest rate of the reference configuration, and a rate beyond it. -/
theorem witness_ModulatedSetups :
    (accepted (.vdSetup 0 4 0x3F800000 0x463B8000 0xBF800000 0x472C4400) (port id) = true
        ∧ (port id).stage.vd[(0 : Byte).toNat]? = some VariableDelay.reset ∧ isFinite (fdiv 0x463B8000 0x472C4400) = true
        ∧ inRange (port id).cfg.modRateMin 0x463B8000 (port id).cfg.modRateMax = true
        ∧ accepted (.vdSetup 0 4 0 0x463B8001 0 0x472C4400) (port id) = true
        ∧ inRange (port id).cfg.modRateMin 0x463B8001 (port id).cfg.modRateMax = false)
      ∧ (accepted (.amSetup 0 0 0 0 0x48435000) (port id) = true ∧ (port id).stage.am[(0 : Byte).toNat]? = some AmpMod.reset
        ∧ isFinite (fdiv 0 0x48435000) = true) := by decide +kernel

/-- The coefficients of a notch at 1000 Hz and Q = 100 are finite, whatever the configuration functions are. -/
theorem notch_coeffs_finite :
    let k := coeffsOf (filterTypeOf 3) 0x447A0000 0x42C80000 0x00000000 0x473B8000
    [k.A1, k.A2, k.B1, k.B2, k.scale].all isFinite = true := by
  rw [← bqCoeffs_eq_coeffsOf]
  have hs : fexpo (fsin (bqOmega 0x447A0000 0x473B8000)) ≤ 127 := fexpo_unit (fsin_inRange _)
  have hc : fexpo (fcos (bqOmega 0x447A0000 0x473B8000)) ≤ 127 := fexpo_unit (fcos_inRange _)
  have hal : fexpo (bqAlpha 0x447A0000 0x42C80000 0x473B8000) ≤ 124 := by
    have e : fmul ftwo 0x42C80000 = 0x43480000 := by decide +kernel
    have h134 : fexpo 0x43480000 = 134 := by decide
    unfold bqAlpha
    rw [e]
    exact fexpo_fdiv_le (isFinite_of_fexpo (by omega)) (by decide) (by decide) (by omega) (by omega) (by omega)
  show (coeffWords (bqCoeffs .notch 0x447A0000 0x42C80000 0x00000000 0x473B8000)).all isFinite = true
  generalize hal' : bqAlpha 0x447A0000 0x42C80000 0x473B8000 = al at hal
  generalize hcs' : fcos (bqOmega 0x447A0000 0x473B8000) = cs at hc
  have h128 : fexpo fnegTwo = 128 := by decide
  have h2 : fexpo (fmul fnegTwo cs) ≤ 132 :=
    fexpo_fmul_le (by decide) (isFinite_of_fexpo (by omega)) (by omega) (by omega) (by omega)
  have ha := fexpo_fone_add hal
  have hb := fexpo_fone_sub hal
  have h127 : fexpo fone = 127 := by decide
  have hd : ∀ x y, fexpo x ≤ 132 → 125 ≤ fexpo y → fexpo y ≤ 129 → isFinite (fdiv x y) = true := fun x y h1 h2 h3 =>
    isFinite_of_fexpo (fexpo_fdiv_le (b := 254) (isFinite_of_fexpo (by omega)) (isFinite_of_fexpo (by omega)) (by omega)
      (by omega) (by omega) (by omega))
  unfold coeffWords bqCoeffs bqNormalise bqRaw bqPlain
  simp only [hal', hcs', List.all_cons, List.all_nil, Bool.and_true, Bool.and_eq_true]
  exact ⟨hd _ _ h2 ha.1 ha.2, hd _ _ (by omega) ha.1 ha.2, hd _ _ h2 (by omega) (by omega),
    hd _ _ (by omega) (by omega) (by omega), hd _ _ (by omega) ha.1 ha.2⟩

/-- A notch at Q = `BQ_Q_MAX`; and the failing checks, which need no coefficient. -/
theorem witness_BqSetupChecksThenWrites : accepted (.bqSetup 0 3 1 0x447A0000 0x42C80000 0 0x473B8000) (port id) = true
    ∧ (port id).stage.bq[(0 : Byte).toNat]? = some Biquad.reset
    ∧ (let k := coeffsOf (filterTypeOf 3) 0x447A0000 0x42C80000 0 0x473B8000
      [k.A1, k.A2, k.B1, k.B2, k.scale].all isFinite = true)
    ∧ inRange 0x3C23D70A 0x42C80000 0x42C80000 = true ∧ inRange 0x41200000 0x447A0000 0x469C4000 = true
    ∧ inRange (port id).cfg.bqGainMinDb 0 (port id).cfg.bqGainMaxDb = true
    ∧ accepted (.bqSetup 0 3 65535 0x447A0000 0x42C80001 0 0x473B8000) (port id) = true
    ∧ inRange 0x3C23D70A 0x42C80001 0x42C80000 = false := by
  refine ⟨by decide +kernel, by decide +kernel, notch_coeffs_finite, ?_⟩
  decide +kernel

/-- The least time above zero at the least sample rate, and the greatest at the greatest: the arguments of the
exponential are −infinity and −0.0. -/
theorem witness_CpSetupChecksThenWrites_coefficients :
    (isFinite 0x00000001 = true ∧ flt 0x00000000 0x00000001 = true ∧ isFinite 0x472C4400 = true
        ∧ inRange 0x472C4400 0x472C4400 0x48435000 = true
        ∧ fdiv 0xBF800000 (fmul (fmul 0x00000001 0x3A83126F) 0x472C4400) = 0xFF800000)
      ∧ (isFinite 0x7F7FFFFF = true ∧ flt 0x00000000 0x7F7FFFFF = true ∧ isFinite 0x48435000 = true
        ∧ inRange 0x472C4400 0x48435000 0x48435000 = true
        ∧ fdiv 0xBF800000 (fmul (fmul 0x7F7FFFFF 0x3A83126F) 0x48435000) = 0x80000000) := by decide +kernel

/-- Threshold −20 dB, ratio 4, 1 ms, 100 ms, gain 1, 5 ms at 48 kHz (95, 2.6 row 1). -/
theorem witness_CpSetupChecksThenWrites :
    accepted (.cpSetup 0 0xC1A00000 0x40800000 0x3F800000 0x42C80000 0x3F800000 0x40A00000 0x473B8000) (port id) = true
    ∧ (port id).stage.cpr[(0 : Byte).toNat]? = some Compressor.reset ∧ Config.wf (port id).cfg = true
    ∧ inRange 0xC2C80000 0xC1A00000 0x41F00000 = true
    ∧ inRange (port id).cfg.cpAttMinMs 0x3F800000 (port id).cfg.cpAttMaxMs = true := by decide +kernel

/-- Segments of `SY_LEN_MAX` and of one more; a pulse with duty 0. -/
theorem witness_SySetupChecksThenWrites : accepted (.sySetup 0 0xFFFFFF 0 0 0xFFFFFF 4 0x3F000000 0x3F800000 0x473B8000) (port id) = true
    ∧ accepted (.sySetup 0 0x1000000 0 0 0 4 0 0 0x473B8000) (port id) = true
    ∧ accepted (.sySetup 0 0 0 0 0 4 0 0 0x473B8000) (port id) = true
    ∧ (port id).stage.sy[(0 : Byte).toNat]? = some Synth.reset := by decide +kernel

/-- Values below, in and above the bounds, each parameter. -/
theorem witness_BiquadModifiesRetarget :
    let s := port fun st => { st with bq := [bq1] }
    s.inProgram = false ∧ s.stage.bq[(0 : Byte).toNat]? = some bq1 ∧ bq1.init = true
      ∧ ([0x46EA6000, 0x41200000, 0x00000000] : List F32).all (fun v => isFinite v
        && (let y := retargeted { bq1 with dfreq := clamped v 0x41200000 0x469C4000 }; [y.finc, y.qinc, y.ginc].all isFinite)
        && (let y := retargeted { bq1 with dq := clamped v 0x3C23D70A 0x42C80000 }; [y.finc, y.qinc, y.ginc].all isFinite)
        && (let y := retargeted { bq1 with dgain := clamped v s.cfg.bqGainMinDb s.cfg.bqGainMaxDb }
            [y.finc, y.qinc, y.ginc].all isFinite)) = true := by decide +kernel

/-- Lengths 0, 1, the capacity and one more. -/
theorem witness_DelayModifies :
    let s := port fun st => { st with dl := [dl1], mt := [mt1] }
    s.inProgram = false ∧ s.stage.dl[(0 : Byte).toNat]? = some dl1 ∧ dl1.init = true
      ∧ [1, 8].all (fun len : Nat => isFinite (fdiv (fsub (u2f len) dl1.tapf) (u2f s.cfg.dlRampSteps))) = true
      ∧ isFinite 0xC0400000 = true
      ∧ accepted (.mtSetTap 0 7 0 0x3F800000) s = true ∧ accepted (.mtSetTap 0 0 9 0x3F800000) s = true
      ∧ s.stage.mt[(0 : Byte).toNat]? = some mt1 ∧ mt1.init = true := by decide +kernel

theorem witness_VariableDelayModifies :
    let s := port fun st => { st with vd := [vd1] }
    s.inProgram = false ∧ isFinite 0x40000000 = true ∧ s.stage.vd[(0 : Byte).toNat]? = some vd1 ∧ vd1.init = true
      ∧ isFinite (fdiv (clamped 0x40000000 s.cfg.modRateMin s.cfg.modRateMax) vd1.fs) = true
      ∧ (4 : Word).toNat ≤ 4 := by decide +kernel

/-- 2.0 as threshold, ratio, attack, release and gain. -/
theorem witness_CompressorModifies :
    let s := port fun st => { st with cpr := [cp1] }
    s.inProgram = false ∧ isFinite 0x40000000 = true ∧ s.stage.cpr[(0 : Byte).toNat]? = some cp1 ∧ cp1.init = true
      ∧ Config.wf s.cfg = true ∧ isFinite cp1.fs = true ∧ inRange 0x472C4400 cp1.fs 0x48435000 = true := by decide +kernel

theorem witness_ClipperAndModulatorModifies :
    let s := port fun st => { st with cl := [cl1], am := [am1] }
    s.inProgram = false ∧ isFinite 0x40000000 = true ∧ s.stage.cl[(0 : Byte).toNat]? = some cl1 ∧ cl1.init = true
      ∧ s.stage.am[(0 : Byte).toNat]? = some am1 ∧ am1.init = true
      ∧ isFinite (fdiv (clamped 0x40000000 s.cfg.modRateMin s.cfg.modRateMax) am1.fs) = true := by decide +kernel

/-- A frequency above `SY_FREQ_MAX`; a voice at the release breakpoint and one sample before it. -/
theorem witness_NoteOnAndNoteOff :
    (let s := port fun st => { st with sy := [sy1] };
      accepted (.syPlay 0 0x469C4001 0x3F800000) s = true ∧ s.stage.sy[(0 : Byte).toNat]? = some sy1 ∧ sy1.init = true
        ∧ isFinite (fdiv (clamped 0x469C4001 s.cfg.syFreqMin s.cfg.syFreqMax) sy1.fs) = true)
      ∧ [{ sy1 with pos := 11 }, { sy1 with pos := 12 }, { sy1 with playing := false }].all (fun y =>
        let s := port fun st => { st with sy := [y] }
        !s.inProgram && s.stage.sy[(0 : Byte).toNat]? == some y && y.init && decide (y.A.toNat ≤ 0xFFFFFF)
          && decide (y.D.toNat ≤ 0xFFFFFF) && decide (y.S.toNat ≤ 0xFFFFFF)) = true := by decide +kernel

theorem witness_SmReadSmooths :
    let s := port fun st => { st with sm := [⟨true, 0x3F000000, 0⟩], buf := bufs [0x3F800000, 0x3F800000] [] }
    accepted (.smRead 0 0 1 2) s = true ∧ s.stage.sm[(0 : Byte).toNat]? = some ⟨true, 0x3F000000, 0⟩
      ∧ bufStore s.stage.buf 0 2 0 = .ok [0x3F800000, 0x3F800000]
      ∧ always smRule smFine [0x3F800000, 0x3F800000] ⟨true, 0x3F000000, 0⟩ = true := by decide +kernel

theorem witness_AtReadTracks :
    let x : Tracker := ⟨true, .rms, 0x3F000000, 0, 0⟩
    let s := port fun st => { st with trk := [x], buf := bufs [0x3F800000, 0x3F800000] [] }
    accepted (.atRead 0 0 2) s = true ∧ s.stage.trk[(0 : Byte).toNat]? = some x
      ∧ bufStore s.stage.buf 0 2 0 = .ok [0x3F800000, 0x3F800000]
      ∧ always atRule atFine [0x3F800000, 0x3F800000] x = true
      ∧ isFinite (fsqrt (scan atRule [0x3F800000, 0x3F800000] x).1.acc) = true := by decide +kernel

theorem witness_BqReadFilters :
    let s := port fun st => { st with bq := [bq1], buf := bufs [0x3F800000, 0] [] }
    accepted (.bqRead 0 0 1 2) s = true ∧ s.stage.bq[(0 : Byte).toNat]? = some bq1 ∧ bq1.init = true
      ∧ bufStore s.stage.buf 0 2 0 = .ok [0x3F800000, 0] ∧ bq1.count = 0
      ∧ always bqRule bqFine [0x3F800000, 0] (bqStep bq1) = true := by decide +kernel

/-- A high pass whose last transition step lands on frequency 0, where the configuration functions have the values R13
gives. -/
def bq2 : Biquad := { bq1 with ty := .hpf, count := 1, dfreq := 0, dgain := 0 }

theorem witness_BqReadFilters_transition :
    let y := bqStep bq2
    bq2.count ≠ 0 ∧ [y.freq, y.q, y.gain, y.A1, y.A2, y.B1, y.B2, y.scale].all isFinite = true
      ∧ always bqRule bqFine [0x3F800000, 0] y = true := by decide +kernel

/-- With the ramp still running, and landed. -/
theorem witness_DlReadDelays :
    [dl1, { dl1 with rem := 1, target := 8 }].all (fun x =>
      let s := port fun st => { st with dl := [x], buf := bufs [0x3F800000, 0] [] }
      accepted (.dlRead 0 0 1 2) s && s.stage.dl[(0 : Byte).toNat]? == some x && x.init
        && decide (bufStore s.stage.buf 0 2 0 = .ok [0x3F800000, 0]) && Memory.ringWf (capOf s.cfg.dlCap 0) x.ring
        && always (dlRule (capOf s.cfg.dlCap 0)) (dlFine (capOf s.cfg.dlCap 0)) [0x3F800000, 0] x) = true := by decide +kernel

theorem witness_MtReadSumsTheTaps :
    let s := port fun st => { st with mt := [mt1], buf := bufs [0x3F800000, 0] [] }
    accepted (.mtRead 0 0 1 2) s = true ∧ s.stage.mt[(0 : Byte).toNat]? = some mt1 ∧ mt1.init = true
      ∧ bufStore s.stage.buf 0 2 0 = .ok [0x3F800000, 0]
      ∧ always (mtRule (capOf s.cfg.mtCap 0)) (mtFine (capOf s.cfg.mtCap 0)) [0x3F800000, 0] mt1 = true := by decide +kernel

theorem witness_ApReadIsTheRecurrence :
    let s := port fun st => { st with ap := [ap1], buf := bufs [0x3F800000, 0] [] }
    accepted (.apRead 0 0 1 2) s = true ∧ s.stage.ap[(0 : Byte).toNat]? = some ap1 ∧ ap1.init = true
      ∧ bufStore s.stage.buf 0 2 0 = .ok [0x3F800000, 0]
      ∧ always apRule (apFine (capOf s.cfg.apCap 0)) [0x3F800000, 0] ap1 = true := by decide +kernel

/-- The external type reads the modulation buffer; the square does not. -/
theorem witness_VdReadInterpolates :
    (let s := port fun st => { st with vd := [vd1], buf := bufs [0x3F800000, 0] [0x3E800000, 0] };
      accepted (.vdRead 0 0 2 1 2) s = true ∧ s.stage.vd[(0 : Byte).toNat]? = some vd1 ∧ vd1.init = true
        ∧ bufStore s.stage.buf 0 2 0 = .ok [0x3F800000, 0] ∧ bufStore s.stage.buf 2 2 0 = .ok [0x3E800000, 0]
        ∧ always (vdRule (capOf s.cfg.vdCap 0)) (vdFine (capOf s.cfg.vdCap 0))
          (([0x3F800000, 0] : List F32).zip [0x3E800000, 0]) vd1 = true)
      ∧ (let x := { vd1 with ty := .square };
        let s := port fun st => { st with vd := [x], buf := bufs [0x3F800000, 0] [] };
        accepted (.vdRead 0 0 2 1 2) s = true ∧ s.stage.vd[(0 : Byte).toNat]? = some x ∧ x.init = true ∧ x.ty ≠ .ext
          ∧ bufStore s.stage.buf 0 2 0 = .ok [0x3F800000, 0]
          ∧ always (vdRule (capOf s.cfg.vdCap 0)) (vdFine (capOf s.cfg.vdCap 0))
            (([0x3F800000, 0] : List F32).zip [0, 0]) x = true) := by decide +kernel

/-- Silence, of which no logarithm is taken. -/
theorem witness_CpReadCompresses :
    let s := port fun st => { st with cpr := [cp1], buf := bufs [0, 0] [] }
    accepted (.cpRead 0 0 1 2) s = true ∧ s.stage.cpr[(0 : Byte).toNat]? = some cp1 ∧ cp1.init = true
      ∧ bufStore s.stage.buf 0 2 0 = .ok [0, 0] ∧ always cpRule cpFine [0, 0] cp1 = true := by decide +kernel

/-- At gain 2.0 and at gain 1.0. -/
theorem witness_CompressorAtRatioOneIsACopy :
    [cp1, { cp1 with gain := 0x3F800000 }].all (fun x =>
      let s := port fun st => { st with cpr := [x], buf := bufs [0, 0x80000000] [] };
      accepted (.cpRead 0 0 1 2) s && s.stage.cpr[(0 : Byte).toNat]? == some x && x.init
        && decide (x.slope = fsub 0x3F800000 (fdiv 0x3F800000 0x3F800000)) && isZero x.env
        && decide (bufStore s.stage.buf 0 2 0 = .ok [0, 0x80000000]) && always cpRule cpFine [0, 0x80000000] x)
      = true := by decide +kernel

theorem witness_ClReadClips :
    [cl1, { cl1 with os := true }].all (fun x =>
      let s := port fun st => { st with cl := [x], buf := bufs [0x3F800000, 0] [] }
      accepted (.clRead 0 0 1 2) s && s.stage.cl[(0 : Byte).toNat]? == some x && x.init
        && decide (bufStore s.stage.buf 0 2 0 = .ok [0x3F800000, 0])
        && always (clRule s.cfg.clUpTaps s.cfg.clDnTaps) (clFine s.cfg.clUpTaps s.cfg.clDnTaps) [0x3F800000, 0] x)
      = true := by decide +kernel

theorem witness_AmReadModulates :
    let s := port fun st => { st with am := [am1], buf := bufs [0x3F800000, 0] [0x3E800000, 0] }
    accepted (.amRead 0 0 2 1 2) s = true ∧ s.stage.am[(0 : Byte).toNat]? = some am1 ∧ am1.init = true
      ∧ bufStore s.stage.buf 0 2 0 = .ok [0x3F800000, 0] ∧ bufStore s.stage.buf 2 2 0 = .ok [0x3E800000, 0]
      ∧ always amRule amFine (([0x3F800000, 0] : List F32).zip [0x3E800000, 0]) am1 = true := by decide +kernel

/-- Across the end of the release. -/
theorem witness_SyReadGenerates :
    let x := { sy1 with pos := 14 }
    let s := port fun st => { st with sy := [x] }
    accepted (.syRead 0 0 1 4) s = true ∧ s.stage.sy[(0 : Byte).toNat]? = some x ∧ x.init = true
      ∧ always syRule syFine (List.replicate 4 ()) x = true := by decide +kernel

theorem witness_ZcReadDetects :
    let s := port fun st => { st with zc := [zc1], buf := bufs [0x3F800000, 0xBF800000] [] }
    accepted (.zcRead 0 0 2) s = true ∧ s.stage.zc[(0 : Byte).toNat]? = some zc1 ∧ zc1.init = true
      ∧ bufStore s.stage.buf 0 2 0 = .ok [0x3F800000, 0xBF800000]
      ∧ always (zcRule s.cfg) (zcFine s.cfg) [0x3F800000, 0xBF800000] zc1 = true := by decide +kernel

/-- With instances set up; at the last status numbers of the tracker and detector ranges. -/
theorem witness_StatusPortReads : Stage.formed Config.reference atRead.a = true ∧ Config.wf Config.reference = true
    ∧ statusRead Config.reference atRead.a 0x1FF = 0 ∧ statusRead Config.reference atRead.a 0x3FF = 0
    ∧ statusRead Config.reference atRead.a 0x400 = 1 := by decide +kernel

end Sys2Proof.Tests
end

section
/-! SUPPORT. What one command and one step of the machine can do to a stage, said once: `exec_answers` for every
command, `step_moves` for every step. The result code in `RES` (O25) and the three step invariants (O19, O20, O21) are
read off them; the invariants after reset (O18) and `CP.SETUP` (O39) stand beside them. -/

namespace Sys2Proof.Machine
open Sys2Proof

-- One theorem at a time: Lean would give each proof that waits a thread, and there are many.
set_option Elab.async false

section LegalConfiguration

/-! ## What a legal configuration gives (R8, R336) -/

/-- The sizes of a legal configuration that the invariants rest on. -/
structure Config.Sizes (c : Config) : Prop where
  nEffects_pos : 1 ≤ c.nEffects
  nEffects_le : c.nEffects ≤ 256
  dlCap : ∀ k ∈ c.dlCap, 2 ≤ k ∧ k < 2 ^ 23
  mtCap : ∀ k ∈ c.mtCap, 2 ≤ k ∧ k < 2 ^ 23
  apCap : ∀ k ∈ c.apCap, 2 ≤ k ∧ k < 2 ^ 23
  vdCap : ∀ k ∈ c.vdCap, 2 ≤ k ∧ k < 2 ^ 23
  rampSteps_pos : 1 ≤ c.dlRampSteps
  rampSteps_lt : c.dlRampSteps < 2 ^ 24
  taps_pos : 1 ≤ c.clUpTaps.length
  taps_eq : c.clUpTaps.length = c.clDnTaps.length
  histLen_ge : 2 ≤ c.zcHistLen
  histLen_le : c.zcHistLen ≤ 64

theorem Config.sizes {c : Config} (h : Config.wf c = true) : Config.Sizes c := by
  simp only [Config.wf, Config.sizesOk, Bool.and_eq_true, decide_eq_true_eq, List.all_append, List.all_eq_true] at h
  casesm* _ ∧ _
  constructor <;> assumption

/-- The real-valued parameters of a legal configuration that bound an operand: finite, and the times above zero. -/
structure Config.Values (c : Config) : Prop where
  bqGain : isFinite c.bqGainMinDb = true ∧ isFinite c.bqGainMaxDb = true
  cpRatio : isFinite c.cpRatioMax = true
  cpAtt : isFinite c.cpAttMinMs = true ∧ isFinite c.cpAttMaxMs = true
  cpRel : isFinite c.cpRelMinMs = true ∧ isFinite c.cpRelMaxMs = true
  cpGain : isFinite c.cpGainMin = true ∧ isFinite c.cpGainMax = true
  modRate : isFinite c.modRateMin = true ∧ isFinite c.modRateMax = true
  syFreq : isFinite c.syFreqMin = true ∧ isFinite c.syFreqMax = true
  syVol : isFinite c.syVolMax = true
  cpAtt_pos : flt fzero c.cpAttMinMs = true
  cpRel_pos : flt fzero c.cpRelMinMs = true
  cpRms_pos : flt fzero c.cpRmsMinMs = true

theorem Config.values {c : Config} (h : Config.wf c = true) : Config.Values c := by
  simp only [Config.wf, Config.valuesOk, boundsOk, Bool.and_eq_true] at h
  casesm* _ ∧ _
  constructor <;> first | assumption | exact ⟨‹_›, ‹_›⟩

end LegalConfiguration

section Buffers

/-! ## What a command or a load can make of the buffers -/

/-- A word a stage can come to hold in its buffers: a finite number, a word that stands there already, or a sample of the
latched block. -/
def Known (latch : Block) (m : Memory) (w : Word) : Prop :=
  isFinite w = true ∨ (∃ p ∈ m, p.2 = w) ∨ w ∈ latch.ch0 ∨ w ∈ latch.ch1

/-- The buffers `m'` come from `m` by writes of such words. -/
structure BufMoves (latch : Block) (m m' : Memory) : Prop where
  canonical : m.wf = true → m'.wf = true
  known : ∀ p ∈ m', Known latch m p.2

variable {latch : Block} {m m' : Memory}

theorem BufMoves.refl (latch : Block) (m : Memory) : BufMoves latch m m :=
  ⟨id, fun p hp => .inr (.inl ⟨p, hp, rfl⟩)⟩

/-- A word read from the buffers is one of their words. -/
theorem BufMoves.known_read (h : BufMoves latch m m') {b : Byte} {i : Nat} {v : Word} (hv : bufRead m' b i = some v) :
    Known latch m v := h.known _ (cellRead_mem hv)

theorem BufMoves.write (h : BufMoves latch m m') (b : Byte) (i : Nat) {v : Word} (hv : Known latch m v) :
    BufMoves latch m (bufWrite m' b i v) := by
  refine ⟨fun hw => wf_bufWrite (h.canonical hw) b i v, fun p hp => ?_⟩
  rcases mem_cellWrite hp with rfl | hp
  · exact hv
  · exact h.known p hp

/-- The load of the latched block (R418). -/
theorem BufMoves.load (latch : Block) (m : Memory) : BufMoves latch m (loadBlock latch m) := by
  refine ⟨fun hw => wf_bufLoad (wf_bufLoad hw _ _ _) _ _ _, fun p hp => ?_⟩
  rcases mem_bufLoad hp with h | h
  · exact .inr (.inr (.inr h))
  · rcases mem_bufLoad h with h | h
    · exact .inr (.inr (.inl h))
    · exact (BufMoves.refl latch m).known p h

/-! ## One sample and a block of samples (R131) -/

variable {α : Type} {bs bs2 bd : Byte} {i : Nat} {p q : Memory × α}

theorem sampleThrough_ok {f : F32 → α → Except Fault (α × F32)} (h : sampleThrough bs bd f i p = .ok q) :
    ∃ x y, f x p.2 = .ok (q.2, y) ∧ isFinite y = true ∧ q.1 = bufWrite p.1 bd i y := by
  unfold sampleThrough at h
  split at h
  · cases h
  · rename_i x _
    split at h
    · rename_i a y hf
      obtain ⟨rfl, hy⟩ := guardFinite_inv h
      exact ⟨x, y, hf, by simpa using hy, rfl⟩
    · cases h

theorem sampleThrough2_ok {f : F32 → Option F32 → α → Except Fault (α × F32)}
    (h : sampleThrough2 bs bs2 bd f i p = .ok q) :
    ∃ x o y, f x o p.2 = .ok (q.2, y) ∧ isFinite y = true ∧ q.1 = bufWrite p.1 bd i y := by
  unfold sampleThrough2 at h
  split at h
  · cases h
  · rename_i x _
    split at h
    · rename_i a y hf
      obtain ⟨rfl, hy⟩ := guardFinite_inv h
      exact ⟨x, _, y, hf, by simpa using hy, rfl⟩
    · cases h

theorem sampleFrom_ok {f : α → Except Fault (α × F32)} (h : sampleFrom bd f i p = .ok q) :
    ∃ y, f p.2 = .ok (q.2, y) ∧ isFinite y = true ∧ q.1 = bufWrite p.1 bd i y := by
  unfold sampleFrom at h
  split at h
  · rename_i a y hf
    obtain ⟨rfl, hy⟩ := guardFinite_inv h
    exact ⟨y, hf, by simpa using hy, rfl⟩
  · cases h

theorem sampleInto_ok {f : F32 → α → Except Fault α} {a b : α} (h : sampleInto m bs f i a = .ok b) :
    ∃ x, f x a = .ok b := by
  unfold sampleInto at h
  split at h
  · cases h
  · exact ⟨_, h⟩

theorem sampleCopy_ok (h : sampleCopy bs bd i m = .ok m') :
    ∃ x, bufRead m bs i = some x ∧ m' = bufWrite m bd i x := by
  unfold sampleCopy at h
  split at h
  · cases h
  · rename_i x hx; cases h; exact ⟨x, hx, rfl⟩

/-- A loop whose every sample writes one finite word and takes its state one step on. -/
theorem forSamples_moves {step : α → α → Prop} {body : Nat → Memory × α → Except Fault (Memory × α)} {n : Nat}
    {a a' : α} (latch : Block) (h : forSamples body n 0 (m, a) = .ok (m', a'))
    (hb : ∀ i p q, body i p = .ok q → ∃ y, isFinite y = true ∧ q.1 = bufWrite p.1 bd i y ∧ step p.2 q.2) :
    BufMoves latch m m' ∧ Relation.ReflTransGen step a a' := by
  refine forSamples_inv (fun p : Memory × α => BufMoves latch m p.1 ∧ Relation.ReflTransGen step a p.2) body n 0 (m, a)
    (m', a') ⟨.refl _ _, .refl⟩ ?_ h
  rintro i p q ⟨hm, ha⟩ hq
  obtain ⟨y, hy, hw, hs⟩ := hb i p q hq
  exact ⟨hw ▸ hm.write bd i (.inl hy), ha.tail hs⟩

variable {step : α → α → Prop} {n : BitVec 16} {a a' : α}

theorem runThrough_moves {f : F32 → α → Except Fault (α × F32)} (latch : Block)
    (h : runThrough bs bd n f a m = .ok (m', a')) (hf : ∀ x a b y, f x a = .ok (b, y) → step a b) :
    BufMoves latch m m' ∧ Relation.ReflTransGen step a a' := by
  refine forSamples_moves (bd := bd) latch h fun i p q hq => ?_
  obtain ⟨x, y, hs, hy, hw⟩ := sampleThrough_ok hq
  exact ⟨y, hy, hw, hf x _ _ y hs⟩

theorem runThrough2_moves {f : F32 → Option F32 → α → Except Fault (α × F32)} (latch : Block)
    (h : runThrough2 bs bs2 bd n f a m = .ok (m', a')) (hf : ∀ x o a b y, f x o a = .ok (b, y) → step a b) :
    BufMoves latch m m' ∧ Relation.ReflTransGen step a a' := by
  refine forSamples_moves (bd := bd) latch h fun i p q hq => ?_
  obtain ⟨x, o, y, hs, hy, hw⟩ := sampleThrough2_ok hq
  exact ⟨y, hy, hw, hf x o _ _ y hs⟩

theorem runFrom_moves {f : α → Except Fault (α × F32)} (latch : Block)
    (h : runFrom bd n f a m = .ok (m', a')) (hf : ∀ a b y, f a = .ok (b, y) → step a b) :
    BufMoves latch m m' ∧ Relation.ReflTransGen step a a' := by
  refine forSamples_moves (bd := bd) latch h fun i p q hq => ?_
  obtain ⟨y, hs, hy, hw⟩ := sampleFrom_ok hq
  exact ⟨y, hy, hw, hf _ _ y hs⟩

theorem runInto_moves {f : F32 → α → Except Fault α} (h : runInto bs n f a m = .ok a')
    (hf : ∀ x a b, f x a = .ok b → step a b) : Relation.ReflTransGen step a a' := by
  refine forSamples_inv (Relation.ReflTransGen step a) (sampleInto m bs f) n.toNat 0 a a' .refl (fun j b b' hb hs => ?_) h
  obtain ⟨x, hx⟩ := sampleInto_ok hs
  exact hb.tail (hf x b b' hx)

theorem copyBlock_moves (latch : Block) (h : copyBlock bs bd n m = .ok m') : BufMoves latch m m' := by
  refine forSamples_inv (BufMoves latch m) (sampleCopy bs bd) n.toNat 0 m m' (.refl _ _) (fun i p q hp hq => ?_) h
  obtain ⟨x, hx, rfl⟩ := sampleCopy_ok hq
  exact hp.write bd i (hp.known_read hx)

/-- A per-sample function without state of its own moves the buffers alone. -/
theorem buffersOf_moves {r : Except Fault (Memory × Unit)} (h : buffersOf r = .ok m')
    (hr : ∀ m' u, r = .ok (m', u) → BufMoves latch m m') : BufMoves latch m m' := by
  match r, h with
  | .ok (_, u), rfl => exact hr _ u rfl

/-! ## Files of elements -/

/-- The file `ys` comes from `xs` by steps of its elements: no element is added or lost, and the one at index `k` has
gone some steps of `step k` on. -/
def FileMoves (step : Nat → α → α → Prop) (xs ys : List α) : Prop :=
  ys.length = xs.length ∧ ∀ (k : Nat) (y : α), ys[k]? = some y → ∃ x, xs[k]? = some x ∧ Relation.ReflTransGen (step k) x y

theorem FileMoves.refl {step : Nat → α → α → Prop} (xs : List α) : FileMoves step xs xs :=
  ⟨rfl, fun _ y h => ⟨y, h, .refl⟩⟩

theorem FileMoves.set {step : Nat → α → α → Prop} {xs : List α} {k : Nat} {x y : α} (hx : xs[k]? = some x)
    (h : Relation.ReflTransGen (step k) x y) : FileMoves step xs (xs.set k y) := by
  refine ⟨List.length_set, fun j z hz => ?_⟩
  by_cases hj : k = j
  · subst hj
    have hk : k < xs.length := (List.getElem?_eq_some_iff.1 hx).1
    rw [List.getElem?_set_self hk] at hz
    cases hz
    exact ⟨x, hx, h⟩
  · rw [List.getElem?_set_ne hj] at hz
    exact ⟨z, hz, .refl⟩

/-- A property of the elements that every step keeps holds of the file afterwards. -/
theorem FileMoves.keeps {step : Nat → α → α → Prop} {xs ys : List α} (h : FileMoves step xs ys) {P : Nat → α → Prop}
    (hs : ∀ k x y, step k x y → P k x → P k y) (hx : ∀ k x, xs[k]? = some x → P k x) :
    ∀ k y, ys[k]? = some y → P k y := by
  intro k y hy
  obtain ⟨x, hk, hr⟩ := h.2 k y hy
  clear hy
  induction hr with
  | refl => exact hx k x hk
  | tail _ hc ih => exact hs k _ _ hc ih

end Buffers

section Elements

/-! ## What one command or one sample can make of an element of each class

One constructor for each way, with what legality, the checks and the clamps give of the operands. -/

/-- A finite number in every legal configuration: an operand clamped to bounds of the configuration. -/
def FiniteIn (c : Config) (r : F32) : Prop := Config.wf c = true → isFinite r = true

/-- R189 to R198. -/
inductive BiquadStep (c : Config) (x : Biquad) : Biquad → Prop
  | clear : BiquadStep c x { x with init := false }
  | setup {ty : FilterType} {speed : BitVec 16} {freq q gain fs : F32} (hops : [freq, q, gain, fs].all isFinite = true)
      (hk : (coeffWords (bqCoeffs ty freq q gain fs)).all isFinite = true) :
      BiquadStep c x (bqFresh ty speed freq q gain fs)
  | modFreq {r : F32} {y : Biquad} (hr : FiniteIn c r) (h : bqRetarget { x with dfreq := r } = .ok y) : BiquadStep c x y
  | modQ {r : F32} {y : Biquad} (hr : FiniteIn c r) (h : bqRetarget { x with dq := r } = .ok y) : BiquadStep c x y
  | modGain {r : F32} {y : Biquad} (hr : FiniteIn c r) (h : bqRetarget { x with dgain := r } = .ok y) : BiquadStep c x y
  | transition {y : Biquad} (h : bqTransition x = .ok y) : BiquadStep c x y
  | sample {v o : F32} {y : Biquad} (h : bqSample v x = .ok (y, o)) : BiquadStep c x y

/-- R216 to R222. -/
inductive DelayStep (c : Config) (cap : Nat) (x : FeedbackDelay) : FeedbackDelay → Prop
  | clear : DelayStep c cap x { x with init := false }
  | setup {len : Word} {fb ft damp : F32} (hlen : 1 ≤ len.toNat ∧ len.toNat ≤ cap)
      (hops : [fb, ft, damp].all isFinite = true) : DelayStep c cap x (dlFresh len fb ft damp)
  | modLen {v : Nat} {y : FeedbackDelay} (h : dlRetarget c.dlRampSteps (clampLength v cap .dlInvalidLength).1 x = .ok y) :
      DelayStep c cap x y
  | modFb {r : F32} (hr : FiniteIn c r) : DelayStep c cap x { x with fb := r }
  | modFt {r : F32} (hr : FiniteIn c r) : DelayStep c cap x { x with ft := r }
  | modDamp {r : F32} (hr : FiniteIn c r) : DelayStep c cap x { x with damp := r }
  | sample {v o : F32} {y : FeedbackDelay} (h : dlSample cap v x = .ok (y, o)) : DelayStep c cap x y

/-- R230 to R232. -/
inductive MultitapStep (c : Config) (cap : Nat) (x : Multitap) : Multitap → Prop
  | clear : MultitapStep c cap x { x with init := false }
  | setup {ntaps : BitVec 16} (hn : ntaps.toNat ≤ c.mtMaxTaps) :
      MultitapStep c cap x
        { init := true, ring := ringZero, wp := 0, ntaps := ntaps
          off := List.replicate c.mtMaxTaps 1, g := List.replicate c.mtMaxTaps fzero }
  | setTap {tap v : Nat} {g : F32} (hg : isFinite g = true) :
      MultitapStep c cap x
        { x with
          off := x.off.set tap (BitVec.ofNat 32 (clampLength v cap .mtInvalidOffset).1)
          g := x.g.set tap g }
  | sample {v o : F32} {y : Multitap} (h : mtSample cap v x = .ok (y, o)) : MultitapStep c cap x y

/-- R240, R241. -/
inductive AllpassStep (cap : Nat) (x : Allpass) : Allpass → Prop
  | clear : AllpassStep cap x { x with init := false }
  | setup {len : Word} {gain : F32} (hlen : 1 ≤ len.toNat ∧ len.toNat ≤ cap) (hg : isFinite gain = true) :
      AllpassStep cap x { init := true, ring := ringZero, len := len, idx := 0, gain := gain }
  | sample {v o : F32} {y : Allpass} (h : apSample cap v x = .ok (y, o)) : AllpassStep cap x y

/-- R257 to R262. -/
inductive VariableDelayStep (c : Config) (cap : Nat) (x : VariableDelay) : VariableDelay → Prop
  | clear : VariableDelayStep c cap x { x with init := false }
  | setup {ty : ModType} {depth rate fb fs : F32} (hops : [depth, rate, fb, fs, fdiv rate fs].all isFinite = true) :
      VariableDelayStep c cap x
        { init := true, ring := ringZero, wp := 0, ty := ty, depth := depth, rate := rate
          fb := fb, fs := fs, pinc := fdiv rate fs, phase := fzero }
  | modDepth {r : F32} (hr : FiniteIn c r) : VariableDelayStep c cap x { x with depth := r }
  | modRate {r : F32} (hr : FiniteIn c r) (hp : isFinite (fdiv r x.fs) = true) :
      VariableDelayStep c cap x { x with rate := r, pinc := fdiv r x.fs }
  | modFb {r : F32} (hr : FiniteIn c r) : VariableDelayStep c cap x { x with fb := r }
  | modType {ty : ModType} : VariableDelayStep c cap x { x with ty := ty }
  | sample {v o : F32} {ext : Option F32} {y : VariableDelay} (h : vdSample cap v ext x = .ok (y, o)) :
      VariableDelayStep c cap x y

/-- R277 to R283. -/
inductive CompressorStep (c : Config) (x : Compressor) : Compressor → Prop
  | clear : CompressorStep c x { x with init := false }
  | setup {thr ratio att rel gain rms fs : F32} (hops : [thr, ratio, att, rel, gain, rms, fs].all isFinite = true)
      (hd : [cpThrL2 thr, cpSlope ratio, timeCoeff att fs, timeCoeff rel fs, timeCoeff rms fs].all isFinite = true) :
      CompressorStep c x (cpFresh thr ratio att rel gain rms fs)
  | modThr {r : F32} (hr : FiniteIn c r) (hd : isFinite (cpThrL2 r) = true) :
      CompressorStep c x { x with thr := r, thrL2 := cpThrL2 r }
  | modRatio {r : F32} (hr : FiniteIn c r) (hd : isFinite (cpSlope r) = true) :
      CompressorStep c x { x with ratio := r, slope := cpSlope r }
  | modAtt {r : F32} (hr : FiniteIn c r) (hd : isFinite (timeCoeff r x.fs) = true) :
      CompressorStep c x { x with att := r, attC := timeCoeff r x.fs }
  | modRel {r : F32} (hr : FiniteIn c r) (hd : isFinite (timeCoeff r x.fs) = true) :
      CompressorStep c x { x with rel := r, relC := timeCoeff r x.fs }
  | modGain {r : F32} (hr : FiniteIn c r) : CompressorStep c x { x with gain := r }
  | sample {v o : F32} {y : Compressor} (h : cpSample v x = .ok (y, o)) : CompressorStep c x y

/-- R302 to R306. -/
inductive ClipperStep (c : Config) (x : Clipper) : Clipper → Prop
  | clear : ClipperStep c x { x with init := false }
  | setup {thr : F32} {mode : ClipMode} {os : Bool} (ht : isFinite thr = true) :
      ClipperStep c x
        { init := true, thr := thr, mode := mode, os := os
          zu := List.replicate c.clUpTaps.length fzero, zd := List.replicate c.clDnTaps.length fzero }
  | modThr {r : F32} (hr : FiniteIn c r) : ClipperStep c x { x with thr := r }
  | sample {v o : F32} {y : Clipper} (h : clSample c.clUpTaps c.clDnTaps v x = .ok (y, o)) : ClipperStep c x y

/-- R322 to R325. -/
inductive AmpModStep (c : Config) (x : AmpMod) : AmpMod → Prop
  | clear : AmpModStep c x { x with init := false }
  | setup {ty : ModType} {depth rate fs : F32} (hops : [depth, rate, fs, fdiv rate fs].all isFinite = true) :
      AmpModStep c x
        { init := true, ty := ty, depth := depth, rate := rate, fs := fs, pinc := fdiv rate fs, phase := fzero }
  | modDepth {r : F32} (hr : FiniteIn c r) : AmpModStep c x { x with depth := r }
  | modRate {r : F32} (hr : FiniteIn c r) (hp : isFinite (fdiv r x.fs) = true) :
      AmpModStep c x { x with rate := r, pinc := fdiv r x.fs }
  | sample {v o : F32} {ext : Option F32} {y : AmpMod} (h : amSample v ext x = .ok (y, o)) : AmpModStep c x y

/-- R357 to R361. -/
inductive SynthStep (c : Config) (x : Synth) : Synth → Prop
  | clear : SynthStep c x { x with init := false }
  | setup {a d s r : Word} {ty : Wave} {duty sl fs : F32}
      (hlen : a.toNat ≤ Config.syLenMax ∧ d.toNat ≤ Config.syLenMax ∧ s.toNat ≤ Config.syLenMax
        ∧ r.toNat ≤ Config.syLenMax)
      (hops : [duty, sl, fs].all isFinite = true) :
      SynthStep c x
        { init := true, A := a, D := d, S := s, R := r, ty := ty, duty := duty, sl := sl, fs := fs
          phase := fzero, pinc := fzero, vol := fzero, pos := 0, playing := false }
  | play {pinc vol : F32} (hp : isFinite pinc = true) (hv : FiniteIn c vol) :
      SynthStep c x { x with pinc := pinc, vol := vol, phase := fzero, pos := 0, playing := true }
  | stop : SynthStep c x (syStopped x)
  | sample {o : F32} {y : Synth} (h : sySample x = .ok (y, o)) : SynthStep c x y

/-- R337, R338. -/
inductive ZeroCrossStep (c : Config) (x : ZeroCross) : ZeroCross → Prop
  | clear : ZeroCrossStep c x { x with init := false }
  | setup {fs : F32} (hf : isFinite fs = true) :
      ZeroCrossStep c x
        { init := true, fs := fs, hp := fzero, lpf := fzero, ppk := fzero, npk := fzero
          pol := false, cnt := 0xFFFFFFFF, hist := List.replicate c.zcHistLen fzero
          hidx := 0, hcount := 0, freq := fzero, locked := false, grace := 0, idle := 0 }
  | sample {v : F32} {y : ZeroCross} (h : zcSample c v x = .ok y) : ZeroCrossStep c x y

/-- R147, R148. -/
inductive SmootherStep (x : Smoother) : Smoother → Prop
  | clear : SmootherStep x { x with init := false }
  | setup {k : F32} (hk : isFinite k = true) : SmootherStep x { init := true, c := k, y := fzero }
  | sample {v o : F32} {y : Smoother} (h : smSample v x = .ok (y, o)) : SmootherStep x y

/-- R150, R151. -/
inductive TrackerStep (x : Tracker) : Tracker → Prop
  | clear : TrackerStep x { x with init := false }
  | setup {mode : TrackMode} {k : F32} (hk : isFinite k = true) :
      TrackerStep x { init := true, mode := mode, c := k, acc := fzero, level := fzero }
  | sample {v : F32} {y : Tracker} (h : atSample v x = .ok y) : TrackerStep x y
  | level (hl : isFinite (atLevel x) = true) : TrackerStep x { x with level := atLevel x }

/-! ## What one command or one phase can make of a stage -/

/-- The ring capacity of index `k`. -/
def capAt (caps : List Nat) (k : Nat) : Nat := caps[k]?.getD 0

/-- Everything one command or one phase of an answer can make of a stage, as far as the invariants speak of it. -/
structure StageMoves (c : Config) (latch : Block) (st st' : Stage) : Prop where
  buf : BufMoves latch st.buf st'.buf
  effect : Config.wf c = true → st.effect.toNat < c.nEffects → st'.effect.toNat < c.nEffects
  effInit : st'.effInit.length = st.effInit.length
  cq : st.cq.length ≤ c.cqDepth → st'.cq.length ≤ c.cqDepth
  oscval : st'.oscval = st.oscval ∨ isFinite st'.oscval = true
  out : st'.out = st.out ∨ ∀ w, w ∈ st'.out.ch0 ∨ w ∈ st'.out.ch1 → Known latch st.buf w
  bq : FileMoves (fun _ => BiquadStep c) st.bq st'.bq
  dl : FileMoves (fun k => DelayStep c (capAt c.dlCap k)) st.dl st'.dl
  mt : FileMoves (fun k => MultitapStep c (capAt c.mtCap k)) st.mt st'.mt
  ap : FileMoves (fun k => AllpassStep (capAt c.apCap k)) st.ap st'.ap
  vd : FileMoves (fun k => VariableDelayStep c (capAt c.vdCap k)) st.vd st'.vd
  cpr : FileMoves (fun _ => CompressorStep c) st.cpr st'.cpr
  cl : FileMoves (fun _ => ClipperStep c) st.cl st'.cl
  am : FileMoves (fun _ => AmpModStep c) st.am st'.am
  sy : FileMoves (fun _ => SynthStep c) st.sy st'.sy
  zc : FileMoves (fun _ => ZeroCrossStep c) st.zc st'.zc
  sm : FileMoves (fun _ => SmootherStep) st.sm st'.sm
  trk : FileMoves (fun _ => TrackerStep) st.trk st'.trk

theorem StageMoves.refl (c : Config) (latch : Block) (st : Stage) : StageMoves c latch st st where
  buf := .refl _ _
  effect := fun _ h => h
  effInit := rfl
  cq := id
  oscval := .inl rfl
  out := .inl rfl
  bq := .refl _
  dl := .refl _
  mt := .refl _
  ap := .refl _
  vd := .refl _
  cpr := .refl _
  cl := .refl _
  am := .refl _
  sy := .refl _
  zc := .refl _
  sm := .refl _
  trk := .refl _

theorem StageMoves.setBuf {c : Config} {latch : Block} {st : Stage} {m : Memory} (h : BufMoves latch st.buf m) :
    StageMoves c latch st { st with buf := m } := { StageMoves.refl c latch st with buf := h }

/-! ## The classes of elements -/

/-- A class of elements: its number, its slot, and what a command can make of an element of it. -/
structure ElementClass {α : Type} (sl : Slot α) (cls : Nat) (step : Config → Nat → α → α → Prop) : Prop where
  init_bits : ∀ (st : Stage) (k : Byte), (initBits st cls)[k.toNat]? = (sl.get st k).map sl.ready
  put_moves : ∀ {c : Config} {latch : Block} {st : Stage} {m : Memory} {k : Byte} {x y : α}, BufMoves latch st.buf m →
    sl.get st k = some x → Relation.ReflTransGen (step c k.toNat) x y →
    StageMoves c latch st (sl.put { st with buf := m } k y)
  put_res : ∀ (st : Stage) (k : Byte) (x : α), (sl.put st k x).res = st.res
  clear : ∀ (c : Config) (k : Nat) (x : α), step c k x (sl.clear x)

theorem bqClass : ElementClass bqSlot 1 fun c _ => BiquadStep c where
  init_bits := fun _ _ => List.getElem?_map
  put_moves := fun hm hx h => { StageMoves.refl _ _ _ with buf := hm, bq := .set hx h }
  put_res := fun _ _ _ => rfl
  clear := fun _ _ _ => .clear

theorem dlClass : ElementClass dlSlot 2 fun c k => DelayStep c (capAt c.dlCap k) where
  init_bits := fun _ _ => List.getElem?_map
  put_moves := fun hm hx h => { StageMoves.refl _ _ _ with buf := hm, dl := .set hx h }
  put_res := fun _ _ _ => rfl
  clear := fun _ _ _ => .clear

theorem mtClass : ElementClass mtSlot 3 fun c k => MultitapStep c (capAt c.mtCap k) where
  init_bits := fun _ _ => List.getElem?_map
  put_moves := fun hm hx h => { StageMoves.refl _ _ _ with buf := hm, mt := .set hx h }
  put_res := fun _ _ _ => rfl
  clear := fun _ _ _ => .clear

theorem apClass : ElementClass apSlot 4 fun c k => AllpassStep (capAt c.apCap k) where
  init_bits := fun _ _ => List.getElem?_map
  put_moves := fun hm hx h => { StageMoves.refl _ _ _ with buf := hm, ap := .set hx h }
  put_res := fun _ _ _ => rfl
  clear := fun _ _ _ => .clear

theorem vdClass : ElementClass vdSlot 5 fun c k => VariableDelayStep c (capAt c.vdCap k) where
  init_bits := fun _ _ => List.getElem?_map
  put_moves := fun hm hx h => { StageMoves.refl _ _ _ with buf := hm, vd := .set hx h }
  put_res := fun _ _ _ => rfl
  clear := fun _ _ _ => .clear

theorem cpClass : ElementClass cpSlot 6 fun c _ => CompressorStep c where
  init_bits := fun _ _ => List.getElem?_map
  put_moves := fun hm hx h => { StageMoves.refl _ _ _ with buf := hm, cpr := .set hx h }
  put_res := fun _ _ _ => rfl
  clear := fun _ _ _ => .clear

theorem clClass : ElementClass clSlot 7 fun c _ => ClipperStep c where
  init_bits := fun _ _ => List.getElem?_map
  put_moves := fun hm hx h => { StageMoves.refl _ _ _ with buf := hm, cl := .set hx h }
  put_res := fun _ _ _ => rfl
  clear := fun _ _ _ => .clear

theorem amClass : ElementClass amSlot 9 fun c _ => AmpModStep c where
  init_bits := fun _ _ => List.getElem?_map
  put_moves := fun hm hx h => { StageMoves.refl _ _ _ with buf := hm, am := .set hx h }
  put_res := fun _ _ _ => rfl
  clear := fun _ _ _ => .clear

theorem syClass : ElementClass sySlot 10 fun c _ => SynthStep c where
  init_bits := fun _ _ => List.getElem?_map
  put_moves := fun hm hx h => { StageMoves.refl _ _ _ with buf := hm, sy := .set hx h }
  put_res := fun _ _ _ => rfl
  clear := fun _ _ _ => .clear

theorem zcClass : ElementClass zcSlot 11 fun c _ => ZeroCrossStep c where
  init_bits := fun _ _ => List.getElem?_map
  put_moves := fun hm hx h => { StageMoves.refl _ _ _ with buf := hm, zc := .set hx h }
  put_res := fun _ _ _ => rfl
  clear := fun _ _ _ => .clear

theorem smClass : ElementClass smSlot 12 fun _ _ => SmootherStep where
  init_bits := fun _ _ => List.getElem?_map
  put_moves := fun hm hx h => { StageMoves.refl _ _ _ with buf := hm, sm := .set hx h }
  put_res := fun _ _ _ => rfl
  clear := fun _ _ _ => .clear

theorem atClass : ElementClass atSlot 13 fun _ _ => TrackerStep where
  init_bits := fun _ _ => List.getElem?_map
  put_moves := fun hm hx h => { StageMoves.refl _ _ _ with buf := hm, trk := .set hx h }
  put_res := fun _ _ _ => rfl
  clear := fun _ _ _ => .clear

end Elements

section Answers

/-! ## The answer of a command -/

/-- The command answers with the code R403 gives it, having moved the acting stage and left its `RES` alone before the
answer. -/
def Answers (i : Instr) (s t : State) : Prop :=
  ∃ st, StageMoves s.cfg s.latch s.stage st ∧ st.res = s.stage.res ∧ t = answered (resultOf i s) (s.setStage st)

variable {i : Instr} {s t : State}

theorem resultOf_illegal (h : accepted i s = false) : resultOf i s = .illegalCommand := if_pos h

theorem resultOf_null {inst : Byte} (h : accepted i s = true) (hi : instanceOf i = some inst)
    (hn : namedInit s.stage i = none) : resultOf i s = .invalidInstancePointer := by
  simp [resultOf, h, hi, hn]

theorem resultOf_parameter (h : accepted i s = true) (hi : instanceOf i = none ∨ ∃ b, namedInit s.stage i = some b) :
    resultOf i s = parameterCode s.cfg i := by
  rcases hi with hi | ⟨b, hi⟩ <;> simp [resultOf, h, hi]

theorem legal_of_accepted (h : accepted i s = true) : legal s.cfg i = true := by
  unfold accepted at h; simp only [Bool.and_eq_true] at h; exact h.1

/-- A command that changes nothing before its answer. -/
theorem Answers.unchanged {code : ResultCode} (hc : resultOf i s = code) (ht : t = answered code s) : Answers i s t :=
  ⟨s.stage, .refl _ _ _, rfl, by rw [setStage_stage, hc, ht]⟩

theorem complete_next {code : ResultCode} (h : complete code s = .next t) : t = answered code s := by
  cases h; rfl

/-- A command that moves the stage before its answer. -/
theorem Answers.moved {code : ResultCode} {st : Stage} (ht : t = answered code (s.setStage st))
    (hc : resultOf i s = code) (hm : StageMoves s.cfg s.latch s.stage st) (hres : st.res = s.stage.res) :
    Answers i s t := ⟨st, hm, hres, by rw [hc, ht]⟩

/-- An issued command is illegal, or accepted and answers as its meaning does. -/
theorem issue_answers {body : Result} (h : issue i s body = .next t)
    (hb : accepted i s = true → body = .next t → Answers i s t) : Answers i s t := by
  rcases issue_next h with ⟨ha, hbody⟩ | ⟨-, ha, ht⟩
  · exact hb ha hbody
  · exact .unchanged (resultOf_illegal ha) ht

/-- A command without an element that computes a stage. -/
theorem completeWith_answers {code : ResultCode} {r : Except Fault Stage} (ha : accepted i s = true)
    (hi : instanceOf i = none) (hc : parameterCode s.cfg i = code) (h : completeWith code s r = .next t)
    (hr : ∀ st, r = .ok st → StageMoves s.cfg s.latch s.stage st ∧ st.res = s.stage.res) : Answers i s t := by
  obtain ⟨st, hst, ht⟩ := completeWith_next h
  obtain ⟨hm, hres⟩ := hr st hst
  exact ⟨st, hm, hres, by rw [ht, resultOf_parameter ha (.inl hi), hc]⟩

/-- A command without an element that computes buffers. -/
theorem withBuffers_answers {r : Except Fault Memory} (ha : accepted i s = true)
    (hi : instanceOf i = none) (hc : parameterCode s.cfg i = .ok)
    (h : completeWith .ok s (withBuffers s.stage r) = .next t) (hr : ∀ m, r = .ok m → BufMoves s.latch s.stage.buf m) :
    Answers i s t := by
  refine completeWith_answers ha hi hc h fun st hst => ?_
  match r, hst with
  | .ok m, rfl => exact ⟨.setBuf (hr m rfl), rfl⟩

namespace ElementClass

variable {α : Type} {sl : Slot α} {cls : Nat} {step : Config → Nat → α → α → Prop} {inst : Byte}

/-- The `init` bit a command of the class names is that of the element in its slot. -/
theorem namedInit_eq (hc : ElementClass sl cls step) (hcls : classOf i = cls) (hi : instanceOf i = some inst)
    (st : Stage) : namedInit st i = (sl.get st inst).map sl.ready := by
  unfold namedInit; rw [hi, hcls]; exact hc.init_bits st inst

theorem resultOf_none (hc : ElementClass sl cls step) (hcls : classOf i = cls) (hi : instanceOf i = some inst)
    (ha : accepted i s = true) (hg : sl.get s.stage inst = none) : resultOf i s = .invalidInstancePointer :=
  resultOf_null ha hi (by rw [hc.namedInit_eq hcls hi, hg]; rfl)

theorem resultOf_some (hc : ElementClass sl cls step) (hcls : classOf i = cls) (hi : instanceOf i = some inst)
    (ha : accepted i s = true) {x : α} (hg : sl.get s.stage inst = some x) : resultOf i s = parameterCode s.cfg i :=
  resultOf_parameter ha (.inr ⟨sl.ready x, by rw [hc.namedInit_eq hcls hi, hg]; rfl⟩)

/-- An element replaced, the buffers moved, and the code of the parameters answered. -/
theorem put_answers (hc : ElementClass sl cls step) (hcls : classOf i = cls) (hi : instanceOf i = some inst)
    (ha : accepted i s = true) {code : ResultCode} (hp : parameterCode s.cfg i = code) {x y : α}
    (hg : sl.get s.stage inst = some x) {m : Memory} (hm : BufMoves s.latch s.stage.buf m)
    (hs : Relation.ReflTransGen (step s.cfg inst.toNat) x y)
    (ht : t = answered code (s.setStage (sl.put { s.stage with buf := m } inst y))) : Answers i s t :=
  ⟨_, hc.put_moves hm hg hs, hc.put_res _ _ _, by rw [ht, hc.resultOf_some hcls hi ha hg, hp]⟩

/-- The setup contract (R133). -/
theorem setup (hc : ElementClass sl cls step) {checks : List (Bool × ResultCode)} {build : α → Except Fault α}
    (h : issue i s (setupElement sl inst checks build s) = .next t)
    (hcode : legal s.cfg i = true → (firstFailure checks).getD .ok = parameterCode s.cfg i)
    (hb : legal s.cfg i = true → firstFailure checks = none → ∀ x y, build x = .ok y → step s.cfg inst.toNat x y)
    (hcls : classOf i = cls := by simp [classOf, Instr.opcode])
    (hi : instanceOf i = some inst := by rfl) : Answers i s t := by
  refine issue_answers h fun ha hbody => ?_
  have hl := legal_of_accepted ha
  rcases setupElement_next hbody with ⟨hg, ht⟩ | ⟨x, code, hg, hf, ht⟩ | ⟨x, y, hg, hf, hy, ht⟩
  · exact .unchanged (hc.resultOf_none hcls hi ha hg) ht
  · exact hc.put_answers hcls hi ha (by rw [← hcode hl, hf]; rfl) hg (.refl _ _) (.single (hc.clear _ _ x)) ht
  · exact hc.put_answers hcls hi ha (by rw [← hcode hl, hf]; rfl) hg (.refl _ _) (.single (hb hl hf x y hy)) ht

/-- The modify contract (R134). -/
theorem modify (hc : ElementClass sl cls step) {code : ResultCode} {apply : α → Except Fault α}
    (h : issue i s (modifyElement sl inst code apply s) = .next t)
    (hcode : legal s.cfg i = true → parameterCode s.cfg i = code)
    (hb : legal s.cfg i = true → ∀ x y, apply x = .ok y → step s.cfg inst.toNat x y)
    (hcls : classOf i = cls := by simp [classOf, Instr.opcode])
    (hi : instanceOf i = some inst := by rfl) : Answers i s t := by
  refine issue_answers h fun ha hbody => ?_
  have hl := legal_of_accepted ha
  rcases modifyElement_next hbody with ⟨hg, ht⟩ | ⟨x, hg, -, ht⟩ | ⟨x, y, hg, -, hy, ht⟩
  · exact .unchanged (hc.resultOf_none hcls hi ha hg) ht
  · exact .unchanged ((hc.resultOf_some hcls hi ha hg).trans (hcode hl)) ht
  · exact hc.put_answers hcls hi ha (hcode hl) hg (.refl _ _) (.single (hb hl x y hy)) ht

/-- The read contract (R132). -/
theorem read (hc : ElementClass sl cls step) {pass : Memory → Except Fault Memory}
    {run : α → Memory → Except Fault (Memory × α)} (h : issue i s (readElement sl inst pass run s) = .next t)
    (hpass : ∀ m m', pass m = .ok m' → BufMoves s.latch m m')
    (hrun : ∀ x m m' y, run x m = .ok (m', y) →
      BufMoves s.latch m m' ∧ Relation.ReflTransGen (step s.cfg inst.toNat) x y)
    (hcls : classOf i = cls := by simp [classOf, Instr.opcode])
    (hi : instanceOf i = some inst := by rfl)
    (hcode : parameterCode s.cfg i = .ok := by rfl) : Answers i s t := by
  refine issue_answers h fun ha hbody => ?_
  rcases readElement_next hbody with ⟨m, hg, hp, ht⟩ | ⟨x, m, hg, -, hp, ht⟩ | ⟨x, m, y, hg, -, hr, ht⟩
  · exact ⟨_, .setBuf (hpass _ _ hp), rfl, by rw [ht, hc.resultOf_none hcls hi ha hg]⟩
  · exact ⟨_, .setBuf (hpass _ _ hp), rfl, by rw [ht, hc.resultOf_some hcls hi ha hg, hcode]⟩
  · obtain ⟨hm, hs⟩ := hrun x _ m y hr
    exact hc.put_answers hcls hi ha hcode hg hm hs ht

end ElementClass

/-! ## The codes of checks and clamps are those of the rules (R133, R134, R403) -/

theorem firstFailure_inRange (lo v hi : F32) (code : ResultCode) (rest : List (Bool × ResultCode)) :
    (firstFailure ((inRange lo v hi, code) :: rest)).getD .ok = unlessIn lo v hi code ((firstFailure rest).getD .ok) := by
  unfold unlessIn
  rw [firstFailure_cons]
  show _ = if inRange lo v hi = true then _ else _
  split <;> rfl

theorem firstFailure_length (v : Word) (cap : Nat) (code : ResultCode) (rest : List (Bool × ResultCode)) :
    (firstFailure ((decide (1 ≤ v.toNat ∧ v.toNat ≤ cap), code) :: rest)).getD .ok =
      outsideLength v cap code ((firstFailure rest).getD .ok) := by
  unfold outsideLength
  rw [firstFailure_cons]
  by_cases h : 1 ≤ v.toNat ∧ v.toNat ≤ cap
  · rw [if_pos (by simpa using h), if_neg (by omega)]
  · rw [if_neg (by simpa using h), if_pos (by omega)]; rfl

/-- If no check fails, the first one holds. -/
theorem check_of_firstFailure {p : Prop} [Decidable p] {code : ResultCode} {rest : List (Bool × ResultCode)}
    (h : firstFailure ((decide p, code) :: rest) = none) : p := by
  rw [firstFailure_cons] at h
  split at h
  · rename_i hp; exact of_decide_eq_true hp
  · cases h

theorem clampReport_code (lo v hi : F32) (code : ResultCode) :
    outside lo v hi code .ok = (clampReport lo v hi code).2 := by rw [clampReport_eq]

theorem clampLength_code (v : Word) (cap : Nat) (code : ResultCode) :
    outsideLength v cap code .ok = (clampLength v.toNat cap code).2 := by
  unfold outsideLength clampLength; split_ifs <;> first | rfl | omega

theorem isFinite_clampf {lo v hi : F32} (h1 : isFinite lo = true) (h : isFinite v = true) (h2 : isFinite hi = true) :
    isFinite (clampf v lo hi) = true := by
  unfold clampf; split_ifs <;> assumption

theorem isFinite_clampReport {lo v hi : F32} {code : ResultCode} (h1 : isFinite lo = true) (h : isFinite v = true)
    (h2 : isFinite hi = true) : isFinite (clampReport lo v hi code).1 = true := by
  rcases clampReport_cases lo v hi code with e | e | e <;> rw [e] <;> assumption

/-- Of the legal type numbers 4 alone gives a pulse (R124, R171). -/
theorem waveType_pulse_iff {ty : Word} (h : ty.toNat ≤ 4) : waveType ty.toNat = .pulse ↔ ty = 4 := by
  constructor
  · intro hp
    apply BitVec.eq_of_toNat_eq
    show ty.toNat = 4
    by_contra hne
    have h4 : ty.toNat = 0 ∨ ty.toNat = 1 ∨ ty.toNat = 2 ∨ ty.toNat = 3 := by omega
    rcases h4 with e | e | e | e <;> rw [e] at hp <;> cases hp
  · rintro rfl; rfl

/-- A clamp has changed its value just if the value lay outside (R17, R358). -/
theorem fne_clampf {lo v hi : F32} (hv : isFinite v = true) :
    fne (clampf v lo hi) v = (flt v lo || flt hi v) := by
  unfold clampf fgt fne
  cases h1 : flt v lo
  · cases h2 : flt hi v
    · simp [feq, not_isNaN hv]
    · have := flt_iff.1 h2
      simp [feq, show fkey hi ≠ fkey v by omega]
  · have := flt_iff.1 h1
    simp [feq, show fkey lo ≠ fkey v by omega]

theorem syPlayCode_eq {freq vol flo fhi vlo vhi : F32} (hf : isFinite freq = true) (hv : isFinite vol = true) :
    outside flo freq fhi .syInvalidFreq (outside vlo vol vhi .syInvalidVolume .ok) =
      syPlayCode freq (clampf freq flo fhi) vol (clampf vol vlo vhi) := by
  unfold syPlayCode outside; rw [fne_clampf hf, fne_clampf hv]

end Answers

section Commands

/-! ## Every command answers

One lemma for each command: its contract, the code of its checks, and what it makes of its element. -/

variable {s t : State} {inst bs bs2 bd : Byte} {n : BitVec 16}

/-! ### Finite operands (R118) -/

theorem isFinite_of_fsOk {fs : F32} (h : fsOk fs = true) : isFinite fs = true := by
  unfold fsOk at h; simp only [Bool.and_eq_true] at h; exact h.1

/-! ### Control, buffers, oscillator, pipeline -/

theorem endProgram_answers (h : execEndProgram s = .next t) :
    (s.inProgram = true ∧ t = s.setPhase .store) ∨ Answers .endProgram s t := by
  rcases issue_next h with ⟨ha, ht⟩ | ⟨-, ha, ht⟩
  · cases ht
    refine .inl ⟨?_, rfl⟩
    by_contra hp
    simp [accepted, hp, portCommand] at ha
  · exact .inr (.unchanged (resultOf_illegal ha) ht)

theorem copy_answers (h : execCopy bs bd n s = .next t) : Answers (.copy bs bd n) s t :=
  issue_answers h fun ha hb => withBuffers_answers ha rfl rfl hb fun _ hm => copyBlock_moves _ hm

theorem clear_answers (h : execClear bd n s = .next t) : Answers (.clear bd n) s t :=
  issue_answers h fun ha hb => withBuffers_answers ha rfl rfl hb fun _ hm =>
    buffersOf_moves hm fun _ _ hr => (runFrom_moves (step := fun _ _ => True) _ hr fun _ _ _ _ => trivial).1

theorem mix2_answers (h : execMix2 bs bs2 bd n s = .next t) : Answers (.mix2 bs bs2 bd n) s t :=
  issue_answers h fun ha hb => withBuffers_answers ha rfl rfl hb fun _ hm =>
    buffersOf_moves hm fun _ _ hr => (runThrough2_moves (step := fun _ _ => True) _ hr fun _ _ _ _ _ _ => trivial).1

theorem gain_answers {g : F32} (h : execGain bs bd n g s = .next t) : Answers (.gain bs bd n g) s t :=
  issue_answers h fun ha hb => withBuffers_answers ha rfl rfl hb fun _ hm =>
    buffersOf_moves hm fun _ _ hr => (runThrough_moves (step := fun _ _ => True) _ hr fun _ _ _ _ _ => trivial).1

theorem oscEval_answers {ty : Word} {phase duty : F32} (h : execOscEval ty phase duty s = .next t) :
    Answers (.oscEval ty phase duty) s t := by
  refine issue_answers h fun ha hb => ?_
  have hty : ty.toNat ≤ 4 := by
    have hl := legal_of_accepted ha
    simp only [legal, enumOk, Bool.and_eq_true, decide_eq_true_eq] at hl
    obtain ⟨⟨hty, -⟩, -⟩ := hl
    exact hty
  have hr := resultOf_parameter ha (.inl rfl)
  have hp : ((waveType ty.toNat == .pulse && (fle duty fzero || fge duty fone)) = true) ↔
      (ty = 4 ∧ (fle duty 0x00000000 || fle 0x3F800000 duty) = true) := by
    rw [Bool.and_eq_true, beq_iff_eq, waveType_pulse_iff hty]; rfl
  change _ = if (flt phase fzero || fge phase fone) = true then ResultCode.oscInvalidPhase else _ at hr
  split at hb
  · rename_i h1
    rw [if_pos h1] at hr
    exact .unchanged hr (complete_next hb)
  · rename_i h1
    rw [if_neg h1] at hr
    split at hb
    · rename_i h2
      rw [if_pos (hp.1 h2)] at hr
      exact .unchanged hr (complete_next hb)
    · rename_i h2
      rw [if_neg (fun h => h2 (hp.2 h))] at hr
      obtain ⟨st, hst, ht⟩ := completeWith_next hb
      obtain ⟨rfl, hv⟩ := guardFinite_inv hst
      refine .moved ht hr { StageMoves.refl s.cfg s.latch s.stage with oscval := .inr ?_ } rfl
      simpa using hv

theorem stArm_answers (h : execStArm s = .next t) : Answers .stArm s t := by
  refine issue_answers h fun ha hb => ?_
  have hr : resultOf .stArm s = .ok := resultOf_parameter ha (.inl rfl)
  split at hb
  · exact .moved (complete_next hb) hr { StageMoves.refl s.cfg s.latch s.stage with } rfl
  all_goals exact .unchanged hr (complete_next hb)

theorem stSelect_answers {e : Byte} (h : execStSelect e s = .next t) : Answers (.stSelect e) s t := by
  refine issue_answers h fun ha hb => ?_
  have hr : resultOf (.stSelect e) s = if s.cfg.nEffects ≤ e.toNat then .invalidEffectIndex else .ok :=
    resultOf_parameter ha (.inl rfl)
  split at hb
  · rename_i he
    rw [if_pos he] at hr
    refine .moved (complete_next hb) hr { StageMoves.refl s.cfg s.latch s.stage with effect := fun hw _ => ?_ } rfl
    have hpos := (Config.sizes hw).nEffects_pos
    have := e.isLt
    show (BitVec.ofNat 8 (s.cfg.nEffects - 1)).toNat < _
    rw [BitVec.toNat_ofNat]
    omega
  · rename_i he
    rw [if_neg he] at hr
    exact .moved (complete_next hb) hr { StageMoves.refl s.cfg s.latch s.stage with effect := fun _ _ => not_le.1 he } rfl

theorem efSetup_answers {e : Byte} (h : execEfSetup e s = .next t) : Answers (.efSetup e) s t := by
  refine issue_answers h fun ha hb => ?_
  have hr : resultOf (.efSetup e) s = if s.cfg.nEffects ≤ e.toNat then .invalidEffectIndex else .ok :=
    resultOf_parameter ha (.inl rfl)
  split at hb
  · rename_i he
    rw [if_pos he] at hr
    exact .unchanged hr (complete_next hb)
  · rename_i he
    rw [if_neg he] at hr
    exact .moved (complete_next hb) hr { StageMoves.refl s.cfg s.latch s.stage with effInit := List.length_set } rfl

/-! ### Biquad -/

theorem bqSetup_answers {ty speed : Word} {freq q gain fs : F32}
    (h : execBqSetup inst ty speed freq q gain fs s = .next t) : Answers (.bqSetup inst ty speed freq q gain fs) s t := by
  refine bqClass.setup h (fun _ => ?_) fun hl _ x y hy => ?_
  · rw [firstFailure_inRange, firstFailure_inRange, firstFailure_inRange]; rfl
  · obtain ⟨rfl, hk⟩ := guardFinite_inv hy
    simp only [legal, Bool.and_eq_true] at hl
    obtain ⟨⟨⟨⟨_, hfreq⟩, hq⟩, hgain⟩, hfs⟩ := hl
    exact .setup (by simp [hfreq, hq, hgain, isFinite_of_fsOk hfs]) hk

theorem bqModFreq_answers {v : F32} (h : execBqModFreq inst v s = .next t) : Answers (.bqModFreq inst v) s t :=
  bqClass.modify h (fun _ => clampReport_code _ _ _ _) fun hl _ _ hy =>
    .modFreq (fun _ => isFinite_clampReport (by decide) hl (by decide)) hy

theorem bqModQ_answers {v : F32} (h : execBqModQ inst v s = .next t) : Answers (.bqModQ inst v) s t :=
  bqClass.modify h (fun _ => clampReport_code _ _ _ _) fun hl _ _ hy =>
    .modQ (fun _ => isFinite_clampReport (by decide) hl (by decide)) hy

theorem bqModGain_answers {v : F32} (h : execBqModGain inst v s = .next t) : Answers (.bqModGain inst v) s t :=
  bqClass.modify h (fun _ => clampReport_code _ _ _ _) fun hl _ _ hy =>
    .modGain (fun hw => isFinite_clampReport (Config.values hw).bqGain.1 hl (Config.values hw).bqGain.2) hy

theorem bqRead_answers (h : execBqRead inst bs bd n s = .next t) : Answers (.bqRead inst bs bd n) s t := by
  refine bqClass.read h (fun _ _ => copyBlock_moves _) fun x m m' y hr => ?_
  unfold bqRun at hr
  split at hr
  · rename_i z hz
    obtain ⟨hm, hs⟩ := runThrough_moves s.latch hr fun _ _ _ _ hf => BiquadStep.sample hf
    exact ⟨hm, .head (.transition hz) hs⟩
  · cases hr

/-! ### Delays -/

theorem dlSetup_answers {len : Word} {fb ft damp : F32} (h : execDlSetup inst len fb ft damp s = .next t) :
    Answers (.dlSetup inst len fb ft damp) s t := by
  refine dlClass.setup h (fun _ => ?_) fun hl hf x y hy => ?_
  · rw [firstFailure_length, firstFailure_inRange, firstFailure_inRange]; rfl
  · cases hy
    simp only [legal, Bool.and_eq_true] at hl
    obtain ⟨⟨hfb, hft⟩, hdamp⟩ := hl
    exact .setup (check_of_firstFailure hf) (by simp [hfb, hft, hdamp])

theorem dlModLen_answers {len : Word} (h : execDlModLen inst len s = .next t) : Answers (.dlModLen inst len) s t :=
  dlClass.modify h (fun _ => clampLength_code _ _ _) fun _ _ _ hy => .modLen hy

theorem dlModFb_answers {v : F32} (h : execDlModFb inst v s = .next t) : Answers (.dlModFb inst v) s t := by
  refine dlClass.modify h (fun _ => clampReport_code _ _ _ _) fun hl x y hy => ?_
  cases hy; exact .modFb fun _ => isFinite_clampReport (by decide) hl (by decide)

theorem dlModFt_answers {v : F32} (h : execDlModFt inst v s = .next t) : Answers (.dlModFt inst v) s t := by
  refine dlClass.modify h (fun _ => rfl) fun hl x y hy => ?_
  cases hy; exact .modFt fun _ => hl

theorem dlModDamp_answers {v : F32} (h : execDlModDamp inst v s = .next t) : Answers (.dlModDamp inst v) s t := by
  refine dlClass.modify h (fun _ => clampReport_code _ _ _ _) fun hl x y hy => ?_
  cases hy; exact .modDamp fun _ => isFinite_clampReport (by decide) hl (by decide)

theorem dlRead_answers (h : execDlRead inst bs bd n s = .next t) : Answers (.dlRead inst bs bd n) s t :=
  dlClass.read h (fun _ _ => copyBlock_moves _) fun _ _ _ _ hr =>
    runThrough_moves _ hr fun _ _ _ _ hf => .sample hf

theorem mtSetup_answers {ntaps : Word} (h : execMtSetup inst ntaps s = .next t) : Answers (.mtSetup inst ntaps) s t := by
  refine mtClass.setup h (fun _ => rfl) fun hl _ x y hy => ?_
  cases hy
  refine .setup ?_
  simp only [legal, decide_eq_true_eq] at hl
  rw [BitVec.toNat_setWidth]
  exact (Nat.mod_le _ _).trans hl

theorem mtSetTap_answers {tap offset : Word} {g : F32} (h : execMtSetTap inst tap offset g s = .next t) :
    Answers (.mtSetTap inst tap offset g) s t := by
  refine mtClass.modify h (fun _ => clampLength_code _ _ _) fun hl x y hy => ?_
  simp only [legal, Bool.and_eq_true] at hl
  cases hy; exact .setTap hl.2

theorem mtRead_answers (h : execMtRead inst bs bd n s = .next t) : Answers (.mtRead inst bs bd n) s t :=
  mtClass.read h (fun _ _ => copyBlock_moves _) fun _ _ _ _ hr =>
    runThrough_moves _ hr fun _ _ _ _ hf => .sample hf

theorem apSetup_answers {len : Word} {gain : F32} (h : execApSetup inst len gain s = .next t) :
    Answers (.apSetup inst len gain) s t := by
  refine apClass.setup h (fun _ => ?_) fun hl hf x y hy => ?_
  · rw [firstFailure_length, firstFailure_inRange]; rfl
  · cases hy
    exact .setup (check_of_firstFailure hf) hl

theorem apRead_answers (h : execApRead inst bs bd n s = .next t) : Answers (.apRead inst bs bd n) s t :=
  apClass.read h (fun _ _ => copyBlock_moves _) fun _ _ _ _ hr =>
    runThrough_moves _ hr fun _ _ _ _ hf => .sample hf

theorem vdSetup_answers {ty : Word} {depth rate fb fs : F32} (h : execVdSetup inst ty depth rate fb fs s = .next t) :
    Answers (.vdSetup inst ty depth rate fb fs) s t := by
  refine vdClass.setup h (fun _ => ?_) fun hl _ x y hy => ?_
  · rw [firstFailure_inRange, firstFailure_inRange, firstFailure_inRange]; rfl
  · obtain ⟨rfl, hp⟩ := guardFinite_inv hy
    simp only [legal, Bool.and_eq_true] at hl
    obtain ⟨⟨⟨⟨_, hdepth⟩, hrate⟩, hfb⟩, hfs⟩ := hl
    refine .setup ?_
    simpa [hdepth, hrate, hfb, isFinite_of_fsOk hfs] using hp

theorem vdModDepth_answers {v : F32} (h : execVdModDepth inst v s = .next t) : Answers (.vdModDepth inst v) s t := by
  refine vdClass.modify h (fun _ => clampReport_code _ _ _ _) fun hl x y hy => ?_
  cases hy; exact .modDepth fun _ => isFinite_clampReport (by decide) hl (by decide)

theorem vdModRate_answers {v : F32} (h : execVdModRate inst v s = .next t) : Answers (.vdModRate inst v) s t := by
  refine vdClass.modify h (fun _ => clampReport_code _ _ _ _) fun hl x y hy => ?_
  obtain ⟨rfl, hp⟩ := guardFinite_inv hy
  exact .modRate (fun hw => isFinite_clampReport (Config.values hw).modRate.1 hl (Config.values hw).modRate.2)
    (by simpa using hp)

theorem vdModFb_answers {v : F32} (h : execVdModFb inst v s = .next t) : Answers (.vdModFb inst v) s t := by
  refine vdClass.modify h (fun _ => clampReport_code _ _ _ _) fun hl x y hy => ?_
  cases hy; exact .modFb fun _ => isFinite_clampReport (by decide) hl (by decide)

theorem vdModType_answers {ty : Word} (h : execVdModType inst ty s = .next t) : Answers (.vdModType inst ty) s t := by
  refine vdClass.modify h (fun _ => rfl) fun _ x y hy => ?_
  cases hy; exact .modType

theorem vdRead_answers (h : execVdRead inst bs bs2 bd n s = .next t) : Answers (.vdRead inst bs bs2 bd n) s t :=
  vdClass.read h (fun _ _ => copyBlock_moves _) fun _ _ _ _ hr =>
    runThrough2_moves _ hr fun _ _ _ _ _ hf => .sample hf

/-! ### Compressor and clipper -/

theorem cpSetup_answers {thr ratio att rel gain rms fs : F32}
    (h : execCpSetup inst thr ratio att rel gain rms fs s = .next t) :
    Answers (.cpSetup inst thr ratio att rel gain rms fs) s t := by
  refine cpClass.setup h (fun _ => ?_) fun hl _ x y hy => ?_
  · iterate 6 rw [firstFailure_inRange]
    rfl
  · obtain ⟨rfl, hd⟩ := guardFinite_inv hy
    simp only [legal, Bool.and_eq_true] at hl
    obtain ⟨⟨⟨⟨⟨⟨hthr, hratio⟩, hatt⟩, hrel⟩, hgain⟩, hrms⟩, hfs⟩ := hl
    exact .setup (by simp [hthr, hratio, hatt, hrel, hgain, hrms, isFinite_of_fsOk hfs]) hd

theorem cpModThr_answers {v : F32} (h : execCpModThr inst v s = .next t) : Answers (.cpModThr inst v) s t := by
  refine cpClass.modify h (fun _ => clampReport_code _ _ _ _) fun hl x y hy => ?_
  obtain ⟨rfl, hd⟩ := guardFinite_inv hy
  exact .modThr (fun _ => isFinite_clampReport (by decide) hl (by decide)) (by simpa using hd)

theorem cpModRatio_answers {v : F32} (h : execCpModRatio inst v s = .next t) : Answers (.cpModRatio inst v) s t := by
  refine cpClass.modify h (fun _ => clampReport_code _ _ _ _) fun hl x y hy => ?_
  obtain ⟨rfl, hd⟩ := guardFinite_inv hy
  exact .modRatio (fun hw => isFinite_clampReport (by decide) hl (Config.values hw).cpRatio) (by simpa using hd)

theorem cpModAtt_answers {v : F32} (h : execCpModAtt inst v s = .next t) : Answers (.cpModAtt inst v) s t := by
  refine cpClass.modify h (fun _ => clampReport_code _ _ _ _) fun hl x y hy => ?_
  obtain ⟨rfl, hd⟩ := guardFinite_inv hy
  exact .modAtt (fun hw => isFinite_clampReport (Config.values hw).cpAtt.1 hl (Config.values hw).cpAtt.2)
    (by simpa using hd)

theorem cpModRel_answers {v : F32} (h : execCpModRel inst v s = .next t) : Answers (.cpModRel inst v) s t := by
  refine cpClass.modify h (fun _ => clampReport_code _ _ _ _) fun hl x y hy => ?_
  obtain ⟨rfl, hd⟩ := guardFinite_inv hy
  exact .modRel (fun hw => isFinite_clampReport (Config.values hw).cpRel.1 hl (Config.values hw).cpRel.2)
    (by simpa using hd)

theorem cpModGain_answers {v : F32} (h : execCpModGain inst v s = .next t) : Answers (.cpModGain inst v) s t := by
  refine cpClass.modify h (fun _ => clampReport_code _ _ _ _) fun hl x y hy => ?_
  cases hy
  exact .modGain fun hw => isFinite_clampReport (Config.values hw).cpGain.1 hl (Config.values hw).cpGain.2

theorem cpRead_answers (h : execCpRead inst bs bd n s = .next t) : Answers (.cpRead inst bs bd n) s t :=
  cpClass.read h (fun _ _ => copyBlock_moves _) fun _ _ _ _ hr =>
    runThrough_moves _ hr fun _ _ _ _ hf => .sample hf

theorem clSetup_answers {thr : F32} {mode os : Word} (h : execClSetup inst thr mode os s = .next t) :
    Answers (.clSetup inst thr mode os) s t := by
  refine clClass.setup h (fun _ => ?_) fun hl _ x y hy => ?_
  · rw [firstFailure_inRange]; rfl
  · cases hy
    simp only [legal, Bool.and_eq_true] at hl
    obtain ⟨⟨hthr, -⟩, -⟩ := hl
    exact .setup hthr

theorem clModThr_answers {v : F32} (h : execClModThr inst v s = .next t) : Answers (.clModThr inst v) s t := by
  refine clClass.modify h (fun _ => clampReport_code _ _ _ _) fun hl x y hy => ?_
  cases hy; exact .modThr fun _ => isFinite_clampReport (by decide) hl (by decide)

theorem clRead_answers (h : execClRead inst bs bd n s = .next t) : Answers (.clRead inst bs bd n) s t :=
  clClass.read h (fun _ _ => copyBlock_moves _) fun _ _ _ _ hr =>
    runThrough_moves _ hr fun _ _ _ _ hf => .sample hf

/-! ### Amplitude modulation, synth voice, pitch detector, smoother, tracker -/

theorem amSetup_answers {ty : Word} {depth rate fs : F32} (h : execAmSetup inst ty depth rate fs s = .next t) :
    Answers (.amSetup inst ty depth rate fs) s t := by
  refine amClass.setup h (fun _ => ?_) fun hl _ x y hy => ?_
  · rw [firstFailure_inRange, firstFailure_inRange]; rfl
  · obtain ⟨rfl, hp⟩ := guardFinite_inv hy
    simp only [legal, Bool.and_eq_true] at hl
    obtain ⟨⟨⟨_, hdepth⟩, hrate⟩, hfs⟩ := hl
    refine .setup ?_
    simpa [hdepth, hrate, isFinite_of_fsOk hfs] using hp

theorem amModDepth_answers {v : F32} (h : execAmModDepth inst v s = .next t) : Answers (.amModDepth inst v) s t := by
  refine amClass.modify h (fun _ => clampReport_code _ _ _ _) fun hl x y hy => ?_
  cases hy; exact .modDepth fun _ => isFinite_clampReport (by decide) hl (by decide)

theorem amModRate_answers {v : F32} (h : execAmModRate inst v s = .next t) : Answers (.amModRate inst v) s t := by
  refine amClass.modify h (fun _ => clampReport_code _ _ _ _) fun hl x y hy => ?_
  obtain ⟨rfl, hp⟩ := guardFinite_inv hy
  exact .modRate (fun hw => isFinite_clampReport (Config.values hw).modRate.1 hl (Config.values hw).modRate.2)
    (by simpa using hp)

theorem amRead_answers (h : execAmRead inst bs bs2 bd n s = .next t) : Answers (.amRead inst bs bs2 bd n) s t :=
  amClass.read h (fun _ _ => copyBlock_moves _) fun _ _ _ _ hr =>
    runThrough2_moves _ hr fun _ _ _ _ _ hf => .sample hf

/-- The code of the checks of `SY.SETUP` (R357). -/
theorem sySetup_code {attack decay sustain release ty : Word} {duty sl fs : F32} (hty : ty.toNat ≤ 4) (c : Config)
    (inst : Byte) :
    (firstFailure
      [(decide (attack.toNat ≤ Config.syLenMax ∧ decay.toNat ≤ Config.syLenMax ∧ sustain.toNat ≤ Config.syLenMax
          ∧ release.toNat ≤ Config.syLenMax), .syInvalidEnvelope),
       (waveType ty.toNat != .pulse || (flt fzero duty && flt duty fone), .syInvalidDuty),
       (inRange fzero sl fone, .syInvalidSustainLevel)]).getD .ok =
      parameterCode c (.sySetup inst attack decay sustain release ty duty sl fs) := by
  have h1 : attack.toNat ≤ Config.syLenMax ∧ decay.toNat ≤ Config.syLenMax ∧ sustain.toNat ≤ Config.syLenMax
      ∧ release.toNat ≤ Config.syLenMax ↔
      ¬ (0xFFFFFF < attack.toNat ∨ 0xFFFFFF < decay.toNat ∨ 0xFFFFFF < sustain.toNat ∨ 0xFFFFFF < release.toNat) := by
    unfold Config.syLenMax; omega
  have h2 : (waveType ty.toNat != .pulse || (flt fzero duty && flt duty fone)) = true ↔
      ¬ (ty = 4 ∧ ¬ (flt 0x00000000 duty = true ∧ flt duty 0x3F800000 = true)) := by
    rw [← waveType_pulse_iff hty, Bool.or_eq_true, Bool.and_eq_true, bne_iff_ne]
    exact (or_iff_not_imp_left.trans (by rw [not_ne_iff, not_and, not_not]; rfl))
  rw [firstFailure_cons, firstFailure_cons]
  simp only [parameterCode, decide_eq_true_eq, h1, h2, ite_not]
  split
  · rfl
  · split
    · rfl
    · exact firstFailure_inRange _ _ _ _ _

theorem sySetup_answers {attack decay sustain release ty : Word} {duty sl fs : F32}
    (h : execSySetup inst attack decay sustain release ty duty sl fs s = .next t) :
    Answers (.sySetup inst attack decay sustain release ty duty sl fs) s t := by
  refine syClass.setup h (fun hl => ?_) fun hl hf x y hy => ?_
  · simp only [legal, enumOk, Bool.and_eq_true, decide_eq_true_eq] at hl
    obtain ⟨⟨⟨hty, -⟩, -⟩, -⟩ := hl
    exact sySetup_code hty _ _
  · cases hy
    simp only [legal, Bool.and_eq_true] at hl
    obtain ⟨⟨⟨_, hduty⟩, hsl⟩, hfs⟩ := hl
    exact .setup (check_of_firstFailure hf) (by simp [hduty, hsl, isFinite_of_fsOk hfs])

theorem syPlay_answers {freq vol : F32} (h : execSyPlay inst freq vol s = .next t) : Answers (.syPlay inst freq vol) s t := by
  refine syClass.modify h (fun hl => ?_) fun hl x y hy => ?_
  all_goals
    simp only [legal, Bool.and_eq_true] at hl
    obtain ⟨hfreq, hvol⟩ := hl
  · exact syPlayCode_eq hfreq hvol
  · obtain ⟨rfl, hp⟩ := guardFinite_inv hy
    exact .play (by simpa using hp) fun hw => isFinite_clampf (by decide) hvol (Config.values hw).syVol

theorem syStop_answers (h : execSyStop inst s = .next t) : Answers (.syStop inst) s t := by
  refine syClass.modify h (fun _ => rfl) fun _ x y hy => ?_
  cases hy; exact .stop

theorem syRead_answers (h : execSyRead inst bs bd n s = .next t) : Answers (.syRead inst bs bd n) s t :=
  syClass.read h (fun _ _ => copyBlock_moves _) fun _ _ _ _ hr =>
    runFrom_moves _ hr fun _ _ _ hf => .sample hf

theorem passNothing_moves {latch : Block} {m m' : Memory} (h : passNothing m = .ok m') : BufMoves latch m m' := by
  cases h; exact .refl _ _

theorem zcSetup_answers {fs : F32} (h : execZcSetup inst fs s = .next t) : Answers (.zcSetup inst fs) s t := by
  refine zcClass.setup h (fun _ => rfl) fun hl _ x y hy => ?_
  cases hy; exact .setup (isFinite_of_fsOk hl)

theorem zcRead_answers (h : execZcRead inst bs n s = .next t) : Answers (.zcRead inst bs n) s t := by
  refine zcClass.read h (fun _ _ => passNothing_moves) fun x m m' y hr => ?_
  unfold zcRun at hr
  split at hr
  · rename_i z hz
    cases hr
    exact ⟨.refl _ _, runInto_moves hz fun _ _ _ hf => .sample hf⟩
  · cases hr

theorem smSetup_answers {v : F32} (h : execSmSetup inst v s = .next t) : Answers (.smSetup inst v) s t := by
  refine smClass.setup h (fun _ => ?_) fun hl _ x y hy => ?_
  · rw [firstFailure_inRange]; rfl
  · cases hy; exact .setup hl

theorem smRead_answers (h : execSmRead inst bs bd n s = .next t) : Answers (.smRead inst bs bd n) s t :=
  smClass.read h (fun _ _ => copyBlock_moves _) fun _ _ _ _ hr =>
    runThrough_moves _ hr fun _ _ _ _ hf => .sample hf

theorem atSetup_answers {mode : Word} {v : F32} (h : execAtSetup inst mode v s = .next t) :
    Answers (.atSetup inst mode v) s t := by
  refine atClass.setup h (fun _ => ?_) fun hl _ x y hy => ?_
  · rw [firstFailure_inRange]; rfl
  · simp only [legal, Bool.and_eq_true] at hl
    cases hy; exact .setup hl.2

theorem atRead_answers (h : execAtRead inst bs n s = .next t) : Answers (.atRead inst bs n) s t := by
  refine atClass.read h (fun _ _ => passNothing_moves) fun x m m' y hr => ?_
  unfold atRun at hr
  split at hr
  · rename_i z hz
    obtain ⟨he, hl⟩ := guardFinite_inv hr
    cases he
    exact ⟨.refl _ _, .tail (runInto_moves hz fun _ _ _ hf => .sample hf) (.level (by simpa using hl))⟩
  · cases hr

/-! ### All of them -/

/-- Every command answers with its own code, but `END` in a program, which ends the dispatch (R17, R18, R135). -/
theorem exec_answers {i : Instr} (h : exec i s = .next t) :
    (i = .endProgram ∧ s.inProgram = true ∧ t = s.setPhase .store) ∨ Answers i s t := by
  cases i with
  | endProgram => exact (endProgram_answers h).imp_left fun ⟨hp, ht⟩ => ⟨rfl, hp, ht⟩
  | copy => exact .inr (copy_answers h)
  | clear => exact .inr (clear_answers h)
  | mix2 => exact .inr (mix2_answers h)
  | gain => exact .inr (gain_answers h)
  | bqSetup => exact .inr (bqSetup_answers h)
  | bqModFreq => exact .inr (bqModFreq_answers h)
  | bqModQ => exact .inr (bqModQ_answers h)
  | bqModGain => exact .inr (bqModGain_answers h)
  | bqRead => exact .inr (bqRead_answers h)
  | dlSetup => exact .inr (dlSetup_answers h)
  | dlModLen => exact .inr (dlModLen_answers h)
  | dlModFb => exact .inr (dlModFb_answers h)
  | dlModFt => exact .inr (dlModFt_answers h)
  | dlModDamp => exact .inr (dlModDamp_answers h)
  | dlRead => exact .inr (dlRead_answers h)
  | mtSetup => exact .inr (mtSetup_answers h)
  | mtSetTap => exact .inr (mtSetTap_answers h)
  | mtRead => exact .inr (mtRead_answers h)
  | apSetup => exact .inr (apSetup_answers h)
  | apRead => exact .inr (apRead_answers h)
  | vdSetup => exact .inr (vdSetup_answers h)
  | vdModDepth => exact .inr (vdModDepth_answers h)
  | vdModRate => exact .inr (vdModRate_answers h)
  | vdModFb => exact .inr (vdModFb_answers h)
  | vdModType => exact .inr (vdModType_answers h)
  | vdRead => exact .inr (vdRead_answers h)
  | cpSetup => exact .inr (cpSetup_answers h)
  | cpModThr => exact .inr (cpModThr_answers h)
  | cpModRatio => exact .inr (cpModRatio_answers h)
  | cpModAtt => exact .inr (cpModAtt_answers h)
  | cpModRel => exact .inr (cpModRel_answers h)
  | cpModGain => exact .inr (cpModGain_answers h)
  | cpRead => exact .inr (cpRead_answers h)
  | clSetup => exact .inr (clSetup_answers h)
  | clModThr => exact .inr (clModThr_answers h)
  | clRead => exact .inr (clRead_answers h)
  | oscEval => exact .inr (oscEval_answers h)
  | amSetup => exact .inr (amSetup_answers h)
  | amModDepth => exact .inr (amModDepth_answers h)
  | amModRate => exact .inr (amModRate_answers h)
  | amRead => exact .inr (amRead_answers h)
  | sySetup => exact .inr (sySetup_answers h)
  | syPlay => exact .inr (syPlay_answers h)
  | syStop => exact .inr (syStop_answers h)
  | syRead => exact .inr (syRead_answers h)
  | zcSetup => exact .inr (zcSetup_answers h)
  | zcRead => exact .inr (zcRead_answers h)
  | smSetup => exact .inr (smSetup_answers h)
  | smRead => exact .inr (smRead_answers h)
  | atSetup => exact .inr (atSetup_answers h)
  | atRead => exact .inr (atRead_answers h)
  | stArm => exact .inr (stArm_answers h)
  | stSelect => exact .inr (stSelect_answers h)
  | efSetup => exact .inr (efSetup_answers h)

end Commands

section Steps

/-! ## The result code (R18, R401) -/

/-- What a command leaves in `RES` (R18). -/
theorem exec_res {i : Instr} {s t : State} (h : exec i s = .next t) :
    t.stage.res = if s.inProgram then s.stage.res else (resultOf i s).word := by
  rcases exec_answers h with ⟨-, hp, rfl⟩ | ⟨st, -, hres, rfl⟩
  · rw [if_pos hp, stage_setPhase]
  · cases hp : s.inProgram
    · rw [answered_port _ _ (by simpa using hp), stage_setStage, if_neg (by simp)]
    · rw [answered_program _ _ (by simpa using hp), stage_setStage, if_pos rfl, hres]

/-- Settles O25: the code is `resultOf`'s by what every command answers; the table of the codes is finite. -/
theorem resultCodeGoesToRes : Obligations.ResultCodeGoesToRes := by
  refine ⟨fun i s t => exec_res, fun code => ?_, by decide, rfl⟩
  cases code <;> exact ⟨by decide, rfl⟩

/-! ## What one step can do -/

/-- The state `t` comes from `s` by moving the acting stage; nothing else that the invariants speak of has changed. -/
structure StageActs (s t : State) : Prop where
  stage : StageMoves s.cfg s.latch s.stage t.stage
  other : t.other = s.other
  cfg : t.cfg = s.cfg
  cur : t.cur = s.cur
  latch : t.latch = s.latch
  handoff : t.handoff = s.handoff

/-- Everything one step that is no reset can make of the machine: each stage moves or stays, what is latched was latched or
has arrived, and what is handed off was so or is the output block of stage A. -/
structure Moves (arrived : Block → Prop) (s t : State) : Prop where
  cfg : t.cfg = s.cfg
  a : StageMoves s.cfg s.latch s.a t.a
  b : StageMoves s.cfg s.latch s.b t.b
  latch : t.latch = s.latch ∨ arrived t.latch
  handoff : ∀ x ∈ t.handoff, x ∈ s.handoff ∨ x = t.a.out

variable {s t : State} {arrived : Block → Prop}

/-- A step that moves the acting stage moves the machine. -/
theorem Moves.of_stage (hst : StageMoves s.cfg s.latch s.stage t.stage) (hother : t.other = s.other)
    (hcfg : t.cfg = s.cfg) (hcur : t.cur = s.cur)
    (hlatch : t.latch = s.latch ∨ arrived t.latch)
    (hhandoff : ∀ x ∈ t.handoff, x ∈ s.handoff ∨ x = t.a.out) : Moves arrived s t := by
  rcases stages_of_cur s with ⟨hc, hs, ho⟩ | ⟨hc, hs, ho⟩ <;>
    rcases stages_of_cur t with ⟨hc', hs', ho'⟩ | ⟨hc', hs', ho'⟩
  · rw [hs, hs'] at hst; rw [ho, ho'] at hother
    exact ⟨hcfg, hst, hother ▸ .refl _ _ _, hlatch, hhandoff⟩
  · rw [hcur, hc] at hc'; cases hc'
  · rw [hcur, hc] at hc'; cases hc'
  · rw [hs, hs'] at hst; rw [ho, ho'] at hother
    exact ⟨hcfg, hother ▸ .refl _ _ _, hst, hlatch, hhandoff⟩

theorem StageActs.moves (h : StageActs s t) : Moves arrived s t :=
  .of_stage h.stage h.other h.cfg h.cur (.inl h.latch) fun _ hx => .inl (h.handoff ▸ hx)

theorem StageActs.refl (s : State) : StageActs s s := ⟨.refl _ _ _, rfl, rfl, rfl, rfl, rfl⟩

theorem StageActs.setStage {st : Stage} (h : StageMoves s.cfg s.latch s.stage st) : StageActs s (s.setStage st) :=
  ⟨by simpa using h, by simp, by simp, by simp, by simp, by simp⟩

theorem StageActs.setPhase (h : StageActs s t) (p : Phase) : StageActs s (t.setPhase p) :=
  ⟨h.stage, h.other, h.cfg, h.cur, h.latch, h.handoff⟩

theorem StageActs.answered (h : StageActs s t) (code : ResultCode) : StageActs s (answered code t) := by
  refine ⟨?_, by simp [h.other], by simp [h.cfg], by simp [h.cur], by simp [h.latch], by simp [h.handoff]⟩
  rcases answered_stage code t with e | e <;> rw [e]
  · exact h.stage
  · exact { h.stage with }

theorem exec_acts {i : Instr} (h : exec i s = .next t) : StageActs s t := by
  rcases exec_answers h with ⟨-, -, rfl⟩ | ⟨st, hst, -, rfl⟩
  · exact (StageActs.refl s).setPhase _
  · exact (StageActs.setStage hst).answered _

/-- A drain takes its command out of the queue first (R412). -/
theorem StageActs.of_dequeued {ws : List Word} {rest : List (List Word)} (hq : s.stage.cq = ws :: rest)
    (h : StageActs (s.setStage { s.stage with cq := rest }) t) : StageActs s t := by
  obtain ⟨hst, hother, hcfg, hcur, hlatch, hhandoff⟩ := h
  simp only [stage_setStage, other_setStage, cfg_setStage, cur_setStage, latch_setStage, handoff_setStage] at *
  refine ⟨{ hst with cq := fun hl => hst.cq ?_ }, hother, hcfg, hcur, hlatch, hhandoff⟩
  rw [hq, List.length_cons] at hl
  show rest.length ≤ _
  omega

/-- The load, and the program from its first word if the effect is initialized (R416 to R418). -/
theorem beginDispatch_acts (s : State) : StageActs s (beginDispatch s) := by
  have hm : StageMoves s.cfg s.latch s.stage { s.stage with buf := loadBlock s.latch s.stage.buf } :=
    .setBuf (.load _ _)
  unfold beginDispatch State.setBuf
  split
  · simp only [setStage_setStage, stage_setStage]
    refine StageActs.setPhase (.setStage ?_) _
    exact { hm with }
  · exact (StageActs.setStage hm).setPhase _

/-- A command of a program moves `cp` past its words (R27). -/
theorem advanceIfRunning_acts {n : Nat} {r : Result} (h : advanceIfRunning n r = .next t)
    (hr : ∀ u, r = .next u → StageActs s u) : StageActs s t := by
  match r, h with
  | .next u, h =>
    have hu := hr u rfl
    cases h
    split
    · unfold advance
      exact ⟨by rw [stage_setStage]; exact { hu.stage with }, by simp [hu.other], by simp [hu.cfg], by simp [hu.cur],
        by simp [hu.latch], by simp [hu.handoff]⟩
    · exact hu

theorem programStep_acts (h : programStep s = .next t) : StageActs s t := by
  unfold programStep at h
  split at h
  · exact advanceIfRunning_acts h fun _ => exec_acts
  · cases h

/-- The end of an answer: the acting stage puts out a block (R414, R424). -/
theorem finish_moves {st : Stage} {out : Block} (hst : StageMoves s.cfg s.latch s.stage st)
    (hout : ∀ w, w ∈ out.ch0 ∨ w ∈ out.ch1 → Known s.latch s.stage.buf w) : Moves arrived s (finish out (s.setStage st)) := by
  refine .of_stage ?_ (by simp) (by simp) (by simp) (.inl (by simp)) fun x hx => ?_
  · rw [stage_finish, stage_setStage]
    exact { hst with out := .inr hout }
  · rw [handoff_finish, cur_setStage, handoff_setStage] at hx
    split at hx
    · rename_i hc
      rcases List.mem_append.1 hx with hx | hx
      · exact .inl hx
      · right
        have hf : (finish out (s.setStage st)).stage = (finish out (s.setStage st)).a := by
          rcases stages_of_cur (finish out (s.setStage st)) with ⟨-, hs, -⟩ | ⟨hb, -, -⟩
          · exact hs
          · simp [hc] at hb
        rw [← hf, stage_finish]
        exact List.mem_singleton.1 hx
    · exact .inl hx

theorem known_silence {c : Config} {latch : Block} {m : Memory} {w : Word}
    (h : w ∈ (silence c).ch0 ∨ w ∈ (silence c).ch1) : Known latch m w := by
  have hw : w = fzero := h.elim List.eq_of_mem_replicate List.eq_of_mem_replicate
  exact .inl (hw ▸ by decide)

theorem drainStep_moves {d : Bool} (h : drainStep d s = .next t) : Moves arrived s t := by
  unfold drainStep at h
  split at h
  · cases h
    cases d
    · have hf := finish_moves (arrived := arrived) (s := s) (.refl _ _ _) fun _ => known_silence (c := s.cfg)
      rwa [setStage_stage] at hf
    · exact (beginDispatch_acts s).moves
  · rename_i ws rest hq
    simp only at h
    split at h
    · exact (StageActs.of_dequeued hq (exec_acts h)).moves
    · rw [complete_next h]
      exact (StageActs.of_dequeued hq ((StageActs.refl _).answered _)).moves

/-- The words a store reads are words of the buffers. -/
theorem bufStore_known {latch : Block} {m : Memory} {b : Byte} {n i : Nat} {xs : List F32}
    (h : bufStore m b n i = .ok xs) : ∀ w ∈ xs, Known latch m w := by
  induction n generalizing i xs with
  | zero => cases h; simp
  | succ n ih =>
    obtain ⟨x, xs', rfl, hx, hs⟩ := bufStore_cons h
    intro w hw
    rcases List.mem_cons.1 hw with rfl | hw
    · exact (BufMoves.refl latch m).known_read hx
    · exact ih hs w hw

theorem storeBlock_known {latch : Block} {c : Config} {m : Memory} {out : Block} (h : storeBlock c m = .ok out) {w : Word}
    (hw : w ∈ out.ch0 ∨ w ∈ out.ch1) : Known latch m w := by
  unfold storeBlock at h
  split at h
  · cases h
  · rename_i l0 h0
    split at h
    · cases h
    · rename_i l1 h1
      cases h
      exact hw.elim (bufStore_known h0 w) (bufStore_known h1 w)

theorem storeStep_moves (h : storeStep s = .next t) : Moves arrived s t := by
  unfold storeStep at h
  split at h
  · rename_i out ho
    cases h
    exact finish_moves { StageMoves.refl s.cfg s.latch s.stage with } fun _ => storeBlock_known ho
  · cases h

/-- The beginning of an answer (R415): the block that arrives is latched, or the stage overruns. -/
theorem arrive_moves {late : Bool} {x : Block} (hx : arrived x) :
    Moves arrived s (arrive late x s) := by
  have hm : StageMoves s.cfg s.latch s.stage { s.stage with blkIdx := s.stage.blkIdx + 1 } :=
    { StageMoves.refl s.cfg s.latch s.stage with }
  have hlatched (p : Phase) :
      Moves arrived s (((s.setStage { s.stage with blkIdx := s.stage.blkIdx + 1 }).setPhase p).setLatch x) :=
    .of_stage (by simpa using hm) (by simp) (by simp) (by simp) (.inr hx) fun _ hy => .inl (by simpa using hy)
  have hover : Moves arrived s (overrun (s.setStage { s.stage with blkIdx := s.stage.blkIdx + 1 })) := by
    unfold overrun
    rw [setStage_setStage]
    exact finish_moves (by rw [stage_setStage]; exact { hm with }) fun _ => known_silence
  unfold arrive
  cases s.stage.fsm with
  | idle => exact ((StageActs.setStage hm).setPhase _).moves
  | armed => exact hlatched _
  | running => cases late; exacts [hlatched _, hover]
  | overrun => cases late; exacts [hlatched _, hover]

/-- What the events before and after an arrival show of the machine does not depend on who acts and on what is still to
come. -/
theorem Moves.of_eq {u : State} (h : Moves arrived u t) (hcfg : u.cfg = s.cfg) (ha : u.a = s.a) (hb : u.b = s.b)
    (hlatch : u.latch = s.latch) (hhandoff : u.handoff ⊆ s.handoff) : Moves arrived s t := by
  obtain ⟨h1, h2, h3, h4, h5⟩ := h
  rw [hcfg, hlatch, ha] at h2
  rw [hcfg, hlatch, hb] at h3
  rw [hlatch] at h4
  exact ⟨h1.trans hcfg, h2, h3, h4, fun x hx => (h5 x hx).imp_left (@hhandoff x)⟩

theorem nextEvent_ne_enqueue {is rest : List Input} {st : StageId} {ws : List Word} :
    nextEvent is ≠ some (.enqueue st ws, rest) := by
  induction is generalizing rest with
  | nil => simp [nextEvent]
  | cons i is ih =>
    cases i with
    | enqueue st' ws' =>
      unfold nextEvent
      split
      · rename_i j rest' hj
        intro h
        cases h
        exact ih hj
      · simp
    | arrivalA => simp [nextEvent]
    | arrivalB => simp [nextEvent]
    | reset => simp [nextEvent]

/-- A command is taken at a ready port only (R77). -/
theorem ready_of_nextInput {ready : StageId → Bool} {is rest : List Input} {st : StageId} {ws : List Word}
    (h : nextInput ready is = some (.enqueue st ws, rest)) : ready st = true := by
  cases is with
  | nil => cases h
  | cons i is =>
    cases i with
    | enqueue st' ws' =>
      simp only [nextInput] at h
      split at h
      · rename_i hr; cases h; exact hr
      · exact absurd h nextEvent_ne_enqueue
    | arrivalA => cases h
    | arrivalB => cases h
    | reset => cases h

/-- A command appended at a ready port (R77). -/
theorem enqueue_moves {st : StageId} {ws : List Word} (hr : portReady s st = true) : Moves arrived s (enqueue st ws s) := by
  have hm : StageMoves s.cfg s.latch (s.stageAt st) { s.stageAt st with cq := (s.stageAt st).cq ++ [ws] } := by
    refine { StageMoves.refl s.cfg s.latch (s.stageAt st) with cq := fun _ => ?_ }
    have hfree : 0 < s.cfg.cqDepth - (s.stageAt st).cq.length := of_decide_eq_true hr
    rw [List.length_append, List.length_singleton]
    omega
  cases st with
  | A => exact ⟨rfl, hm, .refl _ _ _, .inl rfl, fun _ => .inl⟩
  | B => exact ⟨rfl, .refl _ _ _, hm, .inl rfl, fun _ => .inl⟩

theorem inputStep_moves (h : inputStep s = .next t) :
    (∃ is, t = { State.resetWith s.cfg with inputs := is }) ∨
      Moves (fun x => blockFinite x = true ∨ x ∈ s.handoff) s t := by
  unfold inputStep at h
  split at h
  · cases h; exact .inr (StageActs.refl s).moves
  · rename_i i rest hi
    cases i with
    | enqueue st ws =>
      cases h
      exact .inr (Moves.of_eq (enqueue_moves (ready_of_nextInput hi)) rfl rfl rfl rfl (fun _ => id))
    | arrivalA late x =>
      simp only [arriveA] at h
      split at h
      · split at h
        · rename_i hx
          cases h
          exact .inr ((arrive_moves (.inl hx)).of_eq rfl rfl rfl rfl fun _ => id)
        · cases h
      · cases h
    | arrivalB late =>
      simp only [arriveB] at h
      split at h
      · cases h
      · rename_i x xs hx
        cases h
        exact .inr ((arrive_moves (.inr (hx ▸ List.mem_cons_self))).of_eq rfl rfl rfl rfl fun y hy =>
          hx ▸ List.mem_cons_of_mem x hy)
    | reset => cases h; exact .inl ⟨rest, rfl⟩

/-- One step is a reset or moves the machine. -/
theorem step_moves (h : step s = .next t) : (∃ is, t = { State.resetWith s.cfg with inputs := is }) ∨
      Moves (fun x => blockFinite x = true ∨ x ∈ s.handoff) s t := by
  unfold step at h
  split at h
  · exact inputStep_moves h
  · exact .inr (drainStep_moves h)
  · exact .inr (programStep_acts h).moves
  · exact .inr (storeStep_moves h)

end Steps

section CompressorSetup

/-! ## `CP.SETUP` (R13, R276, R277) -/

/-- The coefficient law: the argument of `fexp` is at most zero, whatever the products round to (R13, R276). -/
theorem tcOf_unit {t fs : F32} (ht : isFinite t = true) (ht0 : flt 0x00000000 t = true) (hfs : isFinite fs = true)
    (hfs0 : flt 0x00000000 fs = true) : flt 0x00000000 (tcOf t fs) = true ∧ fle (tcOf t fs) 0x3F800000 = true := by
  obtain ⟨hn1, hs1⟩ := fmul_signed (x := t) (y := milli) (not_isNaN ht) (by decide) (by decide)
  obtain ⟨hn2, hs2⟩ := fmul_signed (y := fs) hn1 hfs (isZero_of_pos hfs0)
  rw [hs1, fsign_of_pos ht0, fsign_of_pos hfs0] at hs2
  exact fexp_unit (fdiv_fnegOne hn2 (hs2.trans (by decide)))

theorem isFinite_of_unit {x : F32} (h : flt 0x00000000 x = true ∧ fle x 0x3F800000 = true) : isFinite x = true := by
  refine isFinite_of_le (lo := fzero) (hi := fone) (by decide) (by decide) ?_ h.2
  obtain ⟨h0, hx, hlt⟩ := flt_iff.1 h.1
  exact fle_iff.2 ⟨h0, hx, hlt.le⟩

/-- A number of at least a positive number is positive. -/
theorem flt_of_flt_of_fle {x y z : F32} (h : flt x y = true) (h' : fle y z = true) : flt x z = true := by
  rw [flt_iff] at *; rw [fle_iff] at h'
  exact ⟨h.1, h'.2.1, h.2.2.trans_le h'.2.2⟩

theorem inRange_iff {lo v hi : F32} : inRange lo v hi = true ↔ fle lo v = true ∧ fle v hi = true := by
  simp [inRange]

/-- A legal sample rate is a finite number above zero (R118). -/
theorem fs_pos {fs : F32} (h : inRange 0x472C4400 fs 0x48435000 = true) : flt 0x00000000 fs = true :=
  flt_of_flt_of_fle (by decide) (inRange_iff.1 h).1

/-- The threshold in the log2 domain is finite (R277). -/
theorem isFinite_cpThrL2 {thr : F32} (h : inRange 0xC2C80000 thr 0x41F00000 = true) :
    isFinite (fmul thr 0x3E2A152D) = true := by
  have he : fexpo thr ≤ 133 := fexpo_le_of_between h (by decide) (by decide)
  refine isFinite_of_fexpo (fexpo_fmul_le (isFinite_of_fexpo (by omega)) (by decide) ?_ (by omega) (le_refl _))
  have : fexpo 0x3E2A152D = 124 := by decide
  omega

/-- The exponent field of a number of at least 1.0. -/
theorem fexpo_of_fone_le {x : F32} (h : fle 0x3F800000 x = true) : 127 ≤ fexpo x := by
  have hk := (fle_iff.1 h).2.2
  rw [show fkey 0x3F800000 = 1065353216 by decide] at hk
  unfold fkey at hk
  unfold fexpo
  have := x.isLt
  split at hk <;> omega

/-- The slope is finite (R277). -/
theorem isFinite_cpSlope {ratio : F32} (hf : isFinite ratio = true) (h : fle 0x3F800000 ratio = true) :
    isFinite (fsub 0x3F800000 (fdiv 0x3F800000 ratio)) = true := by
  have hr := fexpo_of_fone_le h
  have h1 : fexpo 0x3F800000 = 127 := by decide
  have hq : fexpo (fdiv 0x3F800000 ratio) ≤ 130 :=
    fexpo_fdiv_le (by decide) hf (by omega) (by omega) (by omega) (by omega)
  refine isFinite_fadd (by omega) ?_
  rw [fexpo_fneg]; omega

/-- The derived fields of a compressor in a legal configuration are finite (R277). -/
theorem cpDerived_finite {c : Config} (hw : Config.wf c = true) {thr ratio att rel rms fs : F32}
    (hops : [ratio, att, rel, rms, fs].all isFinite = true) (hfs : flt 0x00000000 fs = true)
    (hthr : inRange 0xC2C80000 thr 0x41F00000 = true) (hratio : inRange 0x3F800000 ratio c.cpRatioMax = true)
    (hatt : inRange c.cpAttMinMs att c.cpAttMaxMs = true) (hrel : inRange c.cpRelMinMs rel c.cpRelMaxMs = true)
    (hrms : inRange c.cpRmsMinMs rms c.cpRmsMaxMs = true) :
    [fmul thr 0x3E2A152D, fsub 0x3F800000 (fdiv 0x3F800000 ratio), tcOf att fs, tcOf rel fs,
      tcOf rms fs].all isFinite = true := by
  have hv := Config.values hw
  simp only [List.all_cons, List.all_nil, Bool.and_true, Bool.and_eq_true] at hops ⊢
  obtain ⟨fratio, fatt, frel, frms, ffs⟩ := hops
  have htc {lo v hi : F32} (hlo : flt fzero lo = true) (hf : isFinite v = true) (h : inRange lo v hi = true) :
      isFinite (tcOf v fs) = true :=
    isFinite_of_unit (tcOf_unit hf (flt_of_flt_of_fle hlo (inRange_iff.1 h).1) ffs hfs)
  exact ⟨isFinite_cpThrL2 hthr, isFinite_cpSlope fratio (inRange_iff.1 hratio).1, htc hv.cpAtt_pos fatt hatt,
    htc hv.cpRel_pos frel hrel, htc hv.cpRms_pos frms hrms⟩

/-- Settles O39: the setup contract over the six checks, and the derived fields finite in a legal configuration. -/
theorem cpSetupChecksThenWrites : Obligations.CpSetupChecksThenWrites := by
  refine ⟨fun t fs ht ht0 hfs hr => tcOf_unit ht ht0 hfs (fs_pos hr), ?_⟩
  intro inst thr ratio att rel gain rms fs s x ha hx hfin
  have hl := legal_of_accepted ha
  simp only [legal, fsOk, Bool.and_eq_true] at hl
  obtain ⟨⟨⟨⟨⟨⟨_, lratio⟩, latt⟩, lrel⟩, _⟩, lrms⟩, lfs, hfs⟩ := hl
  have hexec : exec (.cpSetup inst thr ratio att rel gain rms fs) s =
      setupElement cpSlot inst
        [(inRange 0xC2C80000 thr 0x41F00000, .cpInvalidThreshold),
         (inRange 0x3F800000 ratio s.cfg.cpRatioMax, .cpInvalidRatio),
         (inRange s.cfg.cpAttMinMs att s.cfg.cpAttMaxMs, .cpInvalidAttack),
         (inRange s.cfg.cpRelMinMs rel s.cfg.cpRelMaxMs, .cpInvalidRelease),
         (inRange s.cfg.cpGainMin gain s.cfg.cpGainMax, .cpInvalidGain),
         (inRange s.cfg.cpRmsMinMs rms s.cfg.cpRmsMaxMs, .cpInvalidRms)]
        (fun _ => guardFinite
          [fmul thr 0x3E2A152D, fsub 0x3F800000 (fdiv 0x3F800000 ratio), tcOf att fs, tcOf rel fs, tcOf rms fs]
          (cpFresh thr ratio att rel gain rms fs)) s := issue_accepted ha
  rw [hexec]
  split_ifs with h1 h2 h3 h4 h5 h6
  · refine setupElement_run (sl := cpSlot) hx
      (by simp only [firstFailure_cons, firstFailure_nil, h1, h2, h3, h4, h5, h6, ↓reduceIte]) (guardFinite_ok _ _ ?_)
    rcases hfin with hw | hfin
    · exact cpDerived_finite hw (by simp [lratio, latt, lrel, lrms, lfs]) (fs_pos hfs) h1 h2 h3 h4 h6
    · exact hfin h1 h2 h3 h4 h5 h6
  · exact setupElement_fail (sl := cpSlot) hx
      (by simp only [firstFailure_cons, h1, h2, h3, h4, h5, h6, ↓reduceIte, Bool.false_eq_true])
  · exact setupElement_fail (sl := cpSlot) hx
      (by simp only [firstFailure_cons, h1, h2, h3, h4, h5, ↓reduceIte, Bool.false_eq_true])
  · exact setupElement_fail (sl := cpSlot) hx
      (by simp only [firstFailure_cons, h1, h2, h3, h4, ↓reduceIte, Bool.false_eq_true])
  · exact setupElement_fail (sl := cpSlot) hx
      (by simp only [firstFailure_cons, h1, h2, h3, ↓reduceIte, Bool.false_eq_true])
  · exact setupElement_fail (sl := cpSlot) hx
      (by simp only [firstFailure_cons, h1, h2, ↓reduceIte, Bool.false_eq_true])
  · exact setupElement_fail (sl := cpSlot) hx
      (by simp only [firstFailure_cons, h1, ↓reduceIte, Bool.false_eq_true])

end CompressorSetup

section Reset

/-! ## Conditions on every element of a file -/

variable {α : Type}

theorem all_iff_getElem? {f : α → Bool} {xs : List α} :
    xs.all f = true ↔ ∀ (k : Nat) (x : α), xs[k]? = some x → f x = true := by
  rw [List.all_eq_true]
  exact ⟨fun h k x hk => h x (List.mem_of_getElem? hk), fun h x hx =>
    have ⟨k, hk⟩ := List.mem_iff_getElem?.1 hx
    h k x hk⟩

theorem allWithCap_iff {ok : Nat → α → Bool} {caps : List Nat} {xs : List α} :
    allWithCap ok caps xs = true ↔
      ∀ (k cap : Nat) (x : α), caps[k]? = some cap → xs[k]? = some x → ok cap x = true := by
  induction caps generalizing xs with
  | nil => simp [allWithCap]
  | cons cap caps ih =>
    cases xs with
    | nil => simp [allWithCap]
    | cons x xs =>
      rw [allWithCap, Bool.and_eq_true, ih]
      constructor
      · rintro ⟨h0, h⟩ k cap' x' hc hx
        cases k with
        | zero => cases hc; cases hx; exact h0
        | succ k => exact h k cap' x' hc hx
      · exact fun h => ⟨h 0 cap x rfl rfl, fun k cap' x' => h (k + 1) cap' x'⟩

theorem ringsOk_iff {ring : α → Memory} {caps : List Nat} {xs : List α} :
    ringsOk ring caps xs = true ↔
      xs.length = caps.length ∧ allWithCap (fun cap x => Memory.ringWf cap (ring x)) caps xs = true := by
  induction caps generalizing xs with
  | nil => cases xs <;> simp [ringsOk, allWithCap]
  | cons cap caps ih =>
    cases xs with
    | nil => simp [ringsOk]
    | cons x xs => simp [ringsOk, allWithCap, ih, and_left_comm]

/-- A condition that every step of an element keeps holds of the file afterwards. -/
theorem FileMoves.all {step : Nat → α → α → Prop} {xs ys : List α} {f : α → Bool} (h : FileMoves step xs ys)
    (hs : ∀ k x y, step k x y → f x = true → f y = true) (hx : xs.all f = true) : ys.all f = true :=
  all_iff_getElem?.2 (h.keeps (P := fun _ x => f x = true) hs (all_iff_getElem?.1 hx))

/-- As `FileMoves.all`, for elements with rings and their capacities. -/
theorem FileMoves.allWithCap {step : Nat → α → α → Prop} {caps : List Nat} {xs ys : List α} {ok : Nat → α → Bool}
    (h : FileMoves (fun k => step (capAt caps k)) xs ys)
    (hs : ∀ cap ∈ caps, ∀ x y, step cap x y → ok cap x = true → ok cap y = true)
    (hx : allWithCap ok caps xs = true) : allWithCap ok caps ys = true := by
  rw [allWithCap_iff] at hx ⊢
  intro k cap y hc hy
  refine h.keeps (P := fun k x => ∀ cap, caps[k]? = some cap → ok cap x = true) (fun k x y hxy hok cap hc => ?_)
    (fun k x hxk cap hc => hx k cap x hc hxk) k y hy cap hc
  refine hs cap (List.mem_of_getElem? hc) x y ?_ (hok cap hc)
  rwa [capAt, hc] at hxy

/-- The rings stay in canonical form, in their capacities. -/
theorem FileMoves.ringsOk {step : Nat → α → α → Prop} {caps : List Nat} {xs ys : List α} {ring : α → Memory}
    (h : FileMoves (fun k => step (capAt caps k)) xs ys)
    (hs : ∀ cap x y, step cap x y → (ring x).ringWf cap = true → (ring y).ringWf cap = true)
    (hx : ringsOk ring caps xs = true) : ringsOk ring caps ys = true := by
  rw [ringsOk_iff] at hx ⊢
  exact ⟨h.1.trans hx.1, h.allWithCap (fun cap _ => hs cap) hx.2⟩

/-! ## The invariants after reset (R451) -/

theorem ringsOk_replicate {ring : α → Memory} {x : α} (h : ring x = []) (caps : List Nat) :
    ringsOk ring caps (List.replicate caps.length x) = true := by
  induction caps with
  | nil => rfl
  | cons cap caps ih => simpa [List.replicate_succ, ringsOk, h, Memory.ringWf, Memory.wf] using ih

theorem allWithCap_replicate {ok : Nat → α → Bool} {x : α} (h : ∀ cap, ok cap x = true) (caps : List Nat) :
    allWithCap ok caps (List.replicate caps.length x) = true := by
  induction caps with
  | nil => rfl
  | cons cap caps ih => simpa [List.replicate_succ, allWithCap, h] using ih

theorem all_replicate_of {f : α → Bool} {x : α} (h : f x = true) (n : Nat) : (List.replicate n x).all f = true := by
  rw [List.all_eq_true]
  intro y hy
  rw [List.eq_of_mem_replicate hy, h]

/-! ### The four invariants -/

variable {c : Config}

theorem resetWith_formed (hw : Config.wf c = true) : (State.resetWith c).formed = true := by
  have hstage : Stage.formed c (Stage.reset c) = true := by
    have hpos := (Config.sizes hw).nEffects_pos
    simp only [Stage.formed, Bool.and_eq_true, decide_eq_true_eq, and_assoc]
    refine ⟨rfl, hpos, ?_, Nat.zero_le _, ?_, ?_, ?_, ?_, ?_, ?_, ?_, ?_, ?_, ?_, ?_, ?_⟩
    all_goals first
      | exact List.length_replicate
      | exact ringsOk_replicate rfl _
  simp [State.formed, State.resetWith, hw, hstage]

theorem resetWith_finite (hw : Config.wf c = true) : (State.resetWith c).finite = true := by
  have hzero : isFinite 0 = true := by decide
  have hmt : Multitap.finite (Multitap.reset c) = true := by
    simp only [Multitap.finite, Multitap.reset, all_replicate_of hzero, List.all_nil, Bool.and_self]
  have hcl : Clipper.finite (Clipper.reset c) = true := by
    simp only [Clipper.finite, Clipper.reset, List.all_append, all_replicate_of hzero, hzero, Bool.and_self]
  have hzc : ZeroCross.finite (ZeroCross.reset c) = true := by
    simp only [ZeroCross.finite, ZeroCross.reset, all_replicate_of hzero, Bool.and_true]
    decide
  have hstage : Stage.finite (Stage.reset c) = true := by
    simp only [Stage.finite, Stage.reset, Bool.and_eq_true, and_assoc]
    refine ⟨rfl, hzero, rfl, ?_, ?_, ?_, ?_, ?_, ?_, ?_, ?_, ?_, ?_, ?_, ?_⟩
    all_goals refine all_replicate_of ?_ _
    all_goals first
      | rfl
      | assumption
  simp [State.finite, State.resetWith, hw, hstage, blockFinite]

theorem resetWith_pointersOk (hw : Config.wf c = true) : (State.resetWith c).pointersOk = true := by
  have hcl : Clipper.pointersOk c (Clipper.reset c) = true := by simp [Clipper.pointersOk, Clipper.reset]
  have hstage : Stage.pointersOk c (Stage.reset c) = true := by
    simp only [Stage.pointersOk, Stage.reset, Bool.and_eq_true, and_assoc]
    exact ⟨all_replicate_of rfl _, allWithCap_replicate (fun _ => rfl) _, allWithCap_replicate (fun _ => rfl) _,
      allWithCap_replicate (fun _ => rfl) _, allWithCap_replicate (fun _ => rfl) _, all_replicate_of rfl _,
      all_replicate_of rfl _, all_replicate_of hcl _⟩
  simp [State.pointersOk, State.resetWith, hw, hstage]

theorem resetWith_onCourse (hw : Config.wf c = true) : (State.resetWith c).onCourse = true := by
  have hpos := (Config.sizes hw).nEffects_pos
  simp only [State.onCourse, Bool.and_eq_true, decide_eq_true_eq, and_assoc]
  exact ⟨hw, hpos, hpos, rfl, rfl⟩

/-- Settles O18, one lemma for each invariant. -/
theorem invariantsHoldAtReset : Obligations.InvariantsHoldAtReset := fun _ hw =>
  ⟨resetWith_formed hw, resetWith_finite hw, resetWith_pointersOk hw, resetWith_onCourse hw⟩

end Reset

section Form

/-! ## One sample of each class, taken apart -/

/-- R197. -/
theorem bqTransition_ok {x y : Biquad} (h : bqTransition x = .ok y) :
    y = x ∨ ∃ freq q gain k, x.count ≠ 0 ∧ ([freq, q, gain] ++ coeffWords k).all isFinite = true
      ∧ y = withCoeffs { x with count := x.count - 1, freq := freq, q := q, gain := gain } k := by
  unfold bqTransition at h
  split at h
  · cases h; exact .inl rfl
  · rename_i hc
    obtain ⟨rfl, hg⟩ := guardFinite_inv h
    have hglide : bqGlide x =
        { x with count := x.count - 1, freq := (bqGlide x).freq, q := (bqGlide x).q, gain := (bqGlide x).gain } := by
      unfold bqGlide; simp only; split <;> rfl
    exact .inr ⟨_, _, _, _, hc, hg, congrArg (fun z => withCoeffs z _) hglide⟩

/-- The ramp step of a feedback delay moves `rem`, `tapf` and `tap` alone (R222). -/
theorem dlRamp_ok {x z : FeedbackDelay} (h : dlRamp x = .ok z) :
    z = x ∨ ∃ k, x.rem ≠ 0 ∧ trunc (dlRampTap x (x.rem - 1)) = some k ∧
      z = { x with rem := x.rem - 1, tapf := dlRampTap x (x.rem - 1), tap := BitVec.ofNat 32 k } := by
  unfold dlRamp at h
  split at h
  · cases h; exact .inl rfl
  · rename_i hr
    simp only at h
    split at h
    · rename_i k hk; cases h; exact .inr ⟨k, hr, hk, rfl⟩
    · cases h

/-- R217. -/
theorem dlSample_ok {cap : Nat} {v o : F32} {x y : FeedbackDelay} (h : dlSample cap v x = .ok (y, o)) :
    ∃ z line lp, dlRamp x = .ok z ∧ z.wp.toNat < cap ∧ isFinite line = true ∧ isFinite lp = true
      ∧ y = { z with ring := ringWrite z.ring z.wp.toNat line, lp := lp, wp := ringNext cap z.wp } := by
  unfold dlSample at h
  split at h
  · cases h
  · rename_i z hz
    split at h
    · cases h
    · rename_i j hj
      obtain ⟨hy, hg⟩ := guardFinite_inv h
      obtain ⟨-, -, hwp, -, -⟩ := ringBack_some hj
      simp only [List.all_cons, Bool.and_eq_true] at hg
      obtain ⟨hline, hlp, -⟩ := hg
      cases hy
      exact ⟨z, _, _, hz, hwp, hline, hlp, rfl⟩

/-- R232. -/
theorem mtSample_ok {cap : Nat} {v o : F32} {x y : Multitap} (h : mtSample cap v x = .ok (y, o)) :
    x.wp.toNat < cap ∧ isFinite v = true
      ∧ y = { x with ring := ringWrite x.ring x.wp.toNat v, wp := ringNext cap x.wp } := by
  unfold mtSample at h
  split at h
  · cases h
  · split at h
    · rename_i hwp
      obtain ⟨hy, hg⟩ := guardFinite_inv h
      simp only [List.all_cons, Bool.and_eq_true] at hg
      cases hy
      exact ⟨hwp, hg.1, rfl⟩
    · cases h

/-- R241. -/
theorem apSample_ok {cap : Nat} {v o : F32} {x y : Allpass} (h : apSample cap v x = .ok (y, o)) :
    ∃ line, x.idx.toNat < x.len.toNat ∧ x.len.toNat ≤ cap ∧ isFinite line = true
      ∧ y = { x with ring := ringWrite x.ring x.idx.toNat line, idx := ringNext x.len.toNat x.idx } := by
  unfold apSample at h
  split at h
  · rename_i hi
    obtain ⟨hy, hg⟩ := guardFinite_inv h
    simp only [List.all_cons, Bool.and_eq_true] at hg
    cases hy
    exact ⟨_, hi.1, hi.2, hg.1, rfl⟩
  · cases h

/-- R258. -/
theorem vdSample_ok {cap : Nat} {v o : F32} {ext : Option F32} {x y : VariableDelay}
    (h : vdSample cap v ext x = .ok (y, o)) :
    ∃ line phase, x.wp.toNat < cap ∧ isFinite line = true ∧ isFinite phase = true
      ∧ y = { x with ring := ringWrite x.ring x.wp.toNat line, wp := ringNext cap x.wp, phase := phase } := by
  unfold vdSample at h
  split at h
  · cases h
  · split at h
    · cases h
    · split at h
      · rename_i hwp
        obtain ⟨hy, hg⟩ := guardFinite_inv h
        simp only [List.all_cons, List.all_nil, Bool.and_true, Bool.and_eq_true] at hg
        obtain ⟨hline, -, hphase⟩ := hg
        cases hy
        exact ⟨_, _, hwp, hline, hphase, rfl⟩
      · cases h

/-! ## The form (R8, R22, R29, R32, R71) -/

variable {c : Config} {latch : Block}

theorem DelayStep.ringWf {cap : Nat} {x y : FeedbackDelay} (h : DelayStep c cap x y) (hx : x.ring.ringWf cap = true) :
    y.ring.ringWf cap = true := by
  cases h with
  | setup => exact ringWf_zero cap
  | modLen h => obtain ⟨rfl, -⟩ := guardFinite_inv h; exact hx
  | sample h =>
    obtain ⟨z, line, lp, hz, hwp, -, -, rfl⟩ := dlSample_ok h
    have hring : z.ring = x.ring := by
      rcases dlRamp_ok hz with rfl | ⟨k, -, -, rfl⟩ <;> rfl
    exact ringWf_write (hring ▸ hx) hwp line
  | clear | modFb | modFt | modDamp => exact hx

theorem MultitapStep.ringWf {cap : Nat} {x y : Multitap} (h : MultitapStep c cap x y) (hx : x.ring.ringWf cap = true) :
    y.ring.ringWf cap = true := by
  cases h with
  | setup => exact ringWf_zero cap
  | sample h => obtain ⟨hwp, -, rfl⟩ := mtSample_ok h; exact ringWf_write hx hwp _
  | clear | setTap => exact hx

theorem AllpassStep.ringWf {cap : Nat} {x y : Allpass} (h : AllpassStep cap x y) (hx : x.ring.ringWf cap = true) :
    y.ring.ringWf cap = true := by
  cases h with
  | setup => exact ringWf_zero cap
  | sample h => obtain ⟨line, hidx, hlen, -, rfl⟩ := apSample_ok h; exact ringWf_write hx (hidx.trans_le hlen) line
  | clear => exact hx

theorem VariableDelayStep.ringWf {cap : Nat} {x y : VariableDelay} (h : VariableDelayStep c cap x y)
    (hx : x.ring.ringWf cap = true) : y.ring.ringWf cap = true := by
  cases h with
  | setup => exact ringWf_zero cap
  | sample h => obtain ⟨line, phase, hwp, -, -, rfl⟩ := vdSample_ok h; exact ringWf_write hx hwp line
  | clear | modDepth | modRate | modFb | modType => exact hx

theorem StageMoves.formed {st st' : Stage} (h : StageMoves c latch st st') (hw : Config.wf c = true)
    (hst : Stage.formed c st = true) : Stage.formed c st' = true := by
  simp only [Stage.formed, Bool.and_eq_true, decide_eq_true_eq, and_assoc] at hst ⊢
  obtain ⟨hbuf, heffect, heffInit, hcq, hbq, hdl, hmt, hap, hvd, hcpr, hcl, ham, hsy, hzc,
    hsm, htrk⟩ := hst
  exact ⟨h.buf.canonical hbuf, h.effect hw heffect, h.effInit.trans heffInit, h.cq hcq, h.bq.1.trans hbq,
    h.dl.ringsOk (fun _ _ _ => DelayStep.ringWf) hdl, h.mt.ringsOk (fun _ _ _ => MultitapStep.ringWf) hmt,
    h.ap.ringsOk (fun _ _ _ => AllpassStep.ringWf) hap, h.vd.ringsOk (fun _ _ _ => VariableDelayStep.ringWf) hvd,
    h.cpr.1.trans hcpr, h.cl.1.trans hcl, h.am.1.trans ham, h.sy.1.trans hsy, h.zc.1.trans hzc, h.sm.1.trans hsm,
    h.trk.1.trans htrk⟩

/-- Settles O19: a reset gives the form anew (O18), every other step moves each stage within it. -/
theorem stepKeepsTheForm : Obligations.StepKeepsTheForm := by
  intro s t hs h
  simp only [State.formed, Bool.and_eq_true] at hs
  obtain ⟨⟨hw, ha⟩, hb⟩ := hs
  rcases step_moves h with ⟨is, rfl⟩ | hm
  · exact resetWith_formed hw
  · simp only [State.formed, Bool.and_eq_true]
    rw [hm.cfg]
    exact ⟨⟨hw, hm.a.formed hw ha⟩, hm.b.formed hw hb⟩

end Form

section FiniteWords

/-! ## Finite words (R14, R406)

What a command or a sample writes is guarded, an operand that is legal or clamped, or a constant; every other word
stays. -/

variable {c : Config} {latch : Block}

theorem isFinite_zero : isFinite fzero = true := by decide

theorem bqRetarget_finite {x y : Biquad} (h : bqRetarget x = .ok y) (hx : x.finite = true) : y.finite = true := by
  obtain ⟨rfl, hg⟩ := guardFinite_inv h
  simp_all [Biquad.finite]

theorem BiquadStep.finite {x y : Biquad} (h : BiquadStep c x y) (hw : Config.wf c = true) (hx : x.finite = true) :
    y.finite = true := by
  cases h with
  | clear => exact hx
  | setup hops hk => simp_all [Biquad.finite, bqFresh, coeffWords, isFinite_zero]
  | modFreq hr h => exact bqRetarget_finite h (by simp_all [Biquad.finite, hr hw])
  | modQ hr h => exact bqRetarget_finite h (by simp_all [Biquad.finite, hr hw])
  | modGain hr h => exact bqRetarget_finite h (by simp_all [Biquad.finite, hr hw])
  | transition h =>
    rcases bqTransition_ok h with rfl | ⟨freq, q, gain, k, -, hg, rfl⟩
    · exact hx
    · simp_all [Biquad.finite, withCoeffs, coeffWords]
  | sample h =>
    obtain ⟨hy, hg⟩ := guardFinite_inv h
    cases hy
    simp_all [Biquad.finite]

/-- A ring that holds finite words holds finite words after a write of one. -/
theorem ringWrite_finite {m : Memory} {k : Nat} {v : F32} (hm : m.all (fun p => isFinite p.2) = true)
    (hv : isFinite v = true) : (ringWrite m k v).all (fun p => isFinite p.2) = true := by
  rw [List.all_eq_true] at hm ⊢
  intro p hp
  rcases mem_ringWrite hp with h | h
  · exact h ▸ hv
  · exact hm p h

theorem set_finite {xs : List F32} {k : Nat} {v : F32} (hx : xs.all isFinite = true) (hv : isFinite v = true) :
    (xs.set k v).all isFinite = true := by
  rw [List.all_eq_true] at hx ⊢
  intro w hw
  rcases List.mem_or_eq_of_mem_set hw with h | rfl
  · exact hx w h
  · exact hv

theorem DelayStep.finite {cap : Nat} {x y : FeedbackDelay} (h : DelayStep c cap x y) (hw : Config.wf c = true)
    (hx : x.finite = true) : y.finite = true := by
  unfold FeedbackDelay.finite at hx ⊢
  rw [Bool.and_eq_true] at hx ⊢
  obtain ⟨hwords, hring⟩ := hx
  cases h with
  | clear => exact ⟨hwords, hring⟩
  | @setup len fb ft damp _ hops =>
    have hlen : isFinite (u2f len.toNat) = true := isFinite_u2f (len.isLt.trans (by norm_num))
    exact ⟨by simp_all [dlFresh, isFinite_zero], rfl⟩
  | modLen h => obtain ⟨rfl, hg⟩ := guardFinite_inv h; exact ⟨by simp_all, hring⟩
  | modFb hr => exact ⟨by simp_all [hr hw], hring⟩
  | modFt hr => exact ⟨by simp_all [hr hw], hring⟩
  | modDamp hr => exact ⟨by simp_all [hr hw], hring⟩
  | sample h =>
    obtain ⟨z, line, lp, hz, -, hline, hlp, rfl⟩ := dlSample_ok h
    rcases dlRamp_ok hz with rfl | ⟨k, -, hk, rfl⟩
    · exact ⟨by simp_all, ringWrite_finite hring hline⟩
    · have := isFinite_of_trunc hk
      exact ⟨by simp_all, ringWrite_finite hring hline⟩

theorem MultitapStep.finite {cap : Nat} {x y : Multitap} (h : MultitapStep c cap x y) (hx : x.finite = true) :
    y.finite = true := by
  unfold Multitap.finite at hx ⊢
  rw [Bool.and_eq_true] at hx ⊢
  obtain ⟨hg, hring⟩ := hx
  cases h with
  | clear => exact ⟨hg, hring⟩
  | setup => exact ⟨all_replicate_of isFinite_zero _, rfl⟩
  | setTap hv => exact ⟨set_finite hg hv, hring⟩
  | sample h => obtain ⟨-, hv, rfl⟩ := mtSample_ok h; exact ⟨hg, ringWrite_finite hring hv⟩

theorem AllpassStep.finite {cap : Nat} {x y : Allpass} (h : AllpassStep cap x y) (hx : x.finite = true) :
    y.finite = true := by
  unfold Allpass.finite at hx ⊢
  rw [Bool.and_eq_true] at hx ⊢
  obtain ⟨hg, hring⟩ := hx
  cases h with
  | clear => exact ⟨hg, hring⟩
  | setup _ hgain => exact ⟨hgain, rfl⟩
  | sample h => obtain ⟨line, -, -, hline, rfl⟩ := apSample_ok h; exact ⟨hg, ringWrite_finite hring hline⟩

theorem VariableDelayStep.finite {cap : Nat} {x y : VariableDelay} (h : VariableDelayStep c cap x y)
    (hw : Config.wf c = true) (hx : x.finite = true) : y.finite = true := by
  unfold VariableDelay.finite at hx ⊢
  rw [Bool.and_eq_true] at hx ⊢
  obtain ⟨hwords, hring⟩ := hx
  cases h with
  | clear | modType => exact ⟨hwords, hring⟩
  | setup hops => exact ⟨by simp_all [isFinite_zero], rfl⟩
  | modDepth hr => exact ⟨by simp_all [hr hw], hring⟩
  | modRate hr hp => exact ⟨by simp_all [hr hw], hring⟩
  | modFb hr => exact ⟨by simp_all [hr hw], hring⟩
  | sample h =>
    obtain ⟨line, phase, -, hline, hphase, rfl⟩ := vdSample_ok h
    exact ⟨by simp_all, ringWrite_finite hring hline⟩

theorem CompressorStep.finite {x y : Compressor} (h : CompressorStep c x y) (hw : Config.wf c = true)
    (hx : x.finite = true) : y.finite = true := by
  cases h with
  | clear => exact hx
  | setup hops hd => simp_all [Compressor.finite, cpFresh, isFinite_zero]
  | modThr hr hd => simp_all [Compressor.finite, hr hw]
  | modRatio hr hd => simp_all [Compressor.finite, hr hw]
  | modAtt hr hd => simp_all [Compressor.finite, hr hw]
  | modRel hr hd => simp_all [Compressor.finite, hr hw]
  | modGain hr => simp_all [Compressor.finite, hr hw]
  | sample h =>
    obtain ⟨hy, hg⟩ := guardFinite_inv h
    cases hy
    simp_all [Compressor.finite]

/-- One sub-sample shifts one finite word into each delay line (R305). -/
theorem clSub_ok {up dn : List F32} {v : F32} {x : Clipper} {p : Clipper × F32} (h : clSub up dn v x = .ok p) :
    ∃ w, isFinite v = true ∧ isFinite w = true ∧ p.1 = { x with zu := firShift x.zu v, zd := firShift x.zd w } := by
  obtain ⟨rfl, hg⟩ := guardFinite_inv h
  simp only [List.all_cons, List.all_nil, Bool.and_true, Bool.and_eq_true] at hg
  exact ⟨_, hg.1, hg.2, rfl⟩

/-- A property that every sub-sample keeps, every sample keeps (R305, R306). -/
theorem clSample_keeps {up dn : List F32} {P : Clipper → Prop} {v o : F32} {x y : Clipper}
    (hP : ∀ v x p, clSub up dn v x = .ok p → P x → P p.1) (h : clSample up dn v x = .ok (y, o)) (hx : P x) : P y := by
  have hzeros : ∀ (k : Nat) (p q : Clipper × F32), clZeros up dn k p = .ok q → P p.1 → P q.1 := by
    intro k
    induction k with
    | zero => rintro p q hq hp; cases hq; exact hp
    | succ k ih =>
      intro p q hq hp
      simp only [clZeros] at hq
      split at hq
      · rename_i p' hp'; exact ih p' q hq (hP _ _ _ hp' hp)
      · cases hq
  unfold clSample at h
  split at h
  · unfold clOversampled at h
    split at h
    · rename_i p hp; exact hzeros 7 p (y, o) h (hP _ _ _ hp hx)
    · cases h
  · cases h; exact hx

theorem firShift_finite {z : List F32} {v : F32} (hz : z.all isFinite = true) (hv : isFinite v = true) :
    (firShift z v).all isFinite = true := by
  rw [firShift, List.all_cons, hv, Bool.true_and]
  rw [List.all_eq_true] at hz ⊢
  exact fun w hw => hz w (List.dropLast_subset z hw)

theorem ClipperStep.finite {x y : Clipper} (h : ClipperStep c x y) (hw : Config.wf c = true) (hx : x.finite = true) :
    y.finite = true := by
  unfold Clipper.finite at hx ⊢
  rw [List.all_append, Bool.and_eq_true, Bool.and_eq_true] at hx ⊢
  cases h with
  | clear => exact hx
  | setup ht => exact ⟨ht, all_replicate_of isFinite_zero _, all_replicate_of isFinite_zero _⟩
  | modThr hr => exact ⟨hr hw, hx.2⟩
  | sample h =>
    refine clSample_keeps (P := fun x => isFinite x.thr = true ∧ x.zu.all isFinite = true ∧ x.zd.all isFinite = true)
      (fun v x p hp hx => ?_) h hx
    obtain ⟨w, hv, hw, e⟩ := clSub_ok hp
    rw [e]
    exact ⟨hx.1, firShift_finite hx.2.1 hv, firShift_finite hx.2.2 hw⟩

theorem AmpModStep.finite {x y : AmpMod} (h : AmpModStep c x y) (hw : Config.wf c = true) (hx : x.finite = true) :
    y.finite = true := by
  cases h with
  | clear => exact hx
  | setup hops => simp_all [AmpMod.finite, isFinite_zero]
  | modDepth hr => simp_all [AmpMod.finite, hr hw]
  | modRate hr hp => simp_all [AmpMod.finite, hr hw]
  | sample h =>
    unfold amSample at h
    split at h
    · cases h
    · obtain ⟨hy, hg⟩ := guardFinite_inv h
      cases hy
      simp_all [AmpMod.finite]

/-- A sounding voice moves its phase and its position on and may end; a silent one stays (R361). -/
theorem sySample_ok {x y : Synth} {o : F32} (h : sySample x = .ok (y, o)) :
    y = x ∨ ∃ phase, isFinite phase = true ∧ x.playing = true ∧
      y = { x with phase := phase, pos := x.pos + 1, playing := decide (x.pos.toNat + 1 < syB4 x) } := by
  unfold sySample at h
  split at h
  · rename_i hp
    obtain ⟨hy, hg⟩ := guardFinite_inv h
    simp only [List.all_cons, List.all_nil, Bool.and_true, Bool.and_eq_true] at hg
    cases hy
    exact .inr ⟨_, hg.2, hp, rfl⟩
  · cases h; exact .inl rfl

theorem SynthStep.finite {x y : Synth} (h : SynthStep c x y) (hw : Config.wf c = true) (hx : x.finite = true) :
    y.finite = true := by
  cases h with
  | clear => exact hx
  | setup _ hops => simp_all [Synth.finite, isFinite_zero]
  | play hp hv => simp_all [Synth.finite, isFinite_zero, hv hw]
  | stop => unfold syStopped; split <;> exact hx
  | sample h =>
    rcases sySample_ok h with rfl | ⟨phase, hphase, -, rfl⟩
    · exact hx
    · simp_all [Synth.finite]

/-- The history of a pitch detector takes in nothing but the frequency found (R339). -/
theorem zcCandidate_hist (c : Config) (z : ZeroCross) (f : F32) :
    (zcCandidate c z f).fs = z.fs ∧
      ((zcCandidate c z f).hist = z.hist ∨ ∃ k, (zcCandidate c z f).hist = z.hist.set k (zcCandidate c z f).freq) := by
  have hloss (u : ZeroCross) : (zcLoss u).fs = u.fs ∧ (zcLoss u).hist = u.hist ∧ (zcLoss u).freq = u.freq := by
    unfold zcLoss; split <;> exact ⟨rfl, rfl, rfl⟩
  unfold zcCandidate
  split
  · exact ⟨(hloss z).1, .inl (hloss z).2.1⟩
  · have hlock (u : ZeroCross) : (zcLock c u).fs = u.fs ∧ (zcLock c u).hist = u.hist ∧ (zcLock c u).freq = u.freq := by
      unfold zcLock
      split
      · split
        · exact ⟨rfl, rfl, rfl⟩
        · exact hloss u
      · exact ⟨rfl, rfl, rfl⟩
    obtain ⟨hfs, hhist, hfreq⟩ := hlock (zcRecord c z (zcCorrect c z f))
    exact ⟨hfs, .inr ⟨z.hidx.toNat, by rw [hhist, hfreq]; rfl⟩⟩

theorem zcSample_hist {v : F32} {x y : ZeroCross} (h : zcSample c v x = .ok y) :
    y.fs = x.fs ∧ (y.hist = x.hist ∨ ∃ k, y.hist = x.hist.set k y.freq)
      ∧ [y.hp, y.lpf, y.ppk, y.npk, y.freq].all isFinite = true := by
  obtain ⟨rfl, hg⟩ := guardFinite_inv h
  have hidle (z : ZeroCross) : (zcIdle c z).fs = z.fs ∧ (zcIdle c z).hist = z.hist ∧ (zcIdle c z).freq = z.freq := by
    unfold zcIdle; split <;> exact ⟨rfl, rfl, rfl⟩
  obtain ⟨hfs, hhist, hfreq⟩ := hidle (zcCompare c (zcTrack c v x))
  refine ⟨?_, ?_, hg⟩
  all_goals
    simp only [hfs, hhist, hfreq]
    unfold zcCompare
    split
  · exact (zcCandidate_hist c _ _).1
  · split <;> rfl
  · exact (zcCandidate_hist c _ _).2
  · split <;> exact .inl rfl

theorem ZeroCrossStep.finite {x y : ZeroCross} (h : ZeroCrossStep c x y) (hx : x.finite = true) : y.finite = true := by
  unfold ZeroCross.finite at hx ⊢
  rw [Bool.and_eq_true] at hx ⊢
  cases h with
  | clear => exact hx
  | setup hf => exact ⟨by simp [hf, isFinite_zero], all_replicate_of isFinite_zero _⟩
  | sample h =>
    obtain ⟨hfs, hhist, hg⟩ := zcSample_hist h
    refine ⟨by simp_all, ?_⟩
    rcases hhist with e | ⟨k, e⟩ <;> rw [e]
    · exact hx.2
    · exact set_finite hx.2 (by simp_all)

theorem SmootherStep.finite {x y : Smoother} (h : SmootherStep x y) (hx : x.finite = true) : y.finite = true := by
  cases h with
  | clear => exact hx
  | setup hk => simp [Smoother.finite, hk, isFinite_zero]
  | sample h =>
    obtain ⟨hy, hg⟩ := guardFinite_inv h
    cases hy
    simp_all [Smoother.finite]

theorem TrackerStep.finite {x y : Tracker} (h : TrackerStep x y) (hx : x.finite = true) : y.finite = true := by
  cases h with
  | clear => exact hx
  | setup hk => simp [Tracker.finite, hk, isFinite_zero]
  | sample h =>
    obtain ⟨rfl, hg⟩ := guardFinite_inv h
    simp_all [Tracker.finite]
  | level hl => simp_all [Tracker.finite]

/-! ## Stages and the machine -/

theorem blockFinite_iff {x : Block} : blockFinite x = true ↔ ∀ w, w ∈ x.ch0 ∨ w ∈ x.ch1 → isFinite w = true := by
  simp [blockFinite, or_imp, forall_and]

/-- With finite buffers and a finite latched block every word a stage can come to hold is finite. -/
theorem Known.finite {m : Memory} {w : Word} (h : Known latch m w) (hl : blockFinite latch = true)
    (hm : m.all (fun p => isFinite p.2) = true) : isFinite w = true := by
  rcases h with h | ⟨p, hp, rfl⟩ | h
  · exact h
  · exact List.all_eq_true.1 hm p hp
  · exact blockFinite_iff.1 hl w h

theorem finite_out {st : Stage} (h : Stage.finite st = true) : blockFinite st.out = true := by
  simp only [Stage.finite, Bool.and_eq_true] at h
  tauto

theorem StageMoves.finite {st st' : Stage} (h : StageMoves c latch st st') (hw : Config.wf c = true)
    (hl : blockFinite latch = true) (hst : Stage.finite st = true) : Stage.finite st' = true := by
  simp only [Stage.finite, Bool.and_eq_true, and_assoc] at hst ⊢
  obtain ⟨hbuf, hosc, hout, hbq, hdl, hmt, hap, hvd, hcpr, hcl, ham, hsy, hzc, hsm, htrk⟩ := hst
  have hbuf' : st'.buf.all (fun p => isFinite p.2) = true :=
    List.all_eq_true.2 fun p hp => (h.buf.known p hp).finite hl hbuf
  have hosc' : isFinite st'.oscval = true := h.oscval.elim (fun e => e ▸ hosc) id
  have hout' : blockFinite st'.out = true :=
    h.out.elim (fun e => e ▸ hout) fun ho => blockFinite_iff.2 fun w hw => (ho w hw).finite hl hbuf
  exact ⟨hbuf', hosc', hout', h.bq.all (fun _ _ _ hs => hs.finite hw) hbq,
    h.dl.all (fun _ _ _ hs => hs.finite hw) hdl, h.mt.all (fun _ _ _ hs => hs.finite) hmt,
    h.ap.all (fun _ _ _ hs => hs.finite) hap, h.vd.all (fun _ _ _ hs => hs.finite hw) hvd,
    h.cpr.all (fun _ _ _ hs => hs.finite hw) hcpr, h.cl.all (fun _ _ _ hs => hs.finite hw) hcl,
    h.am.all (fun _ _ _ hs => hs.finite hw) ham, h.sy.all (fun _ _ _ hs => hs.finite hw) hsy,
    h.zc.all (fun _ _ _ hs => hs.finite) hzc, h.sm.all (fun _ _ _ hs => hs.finite) hsm,
    h.trk.all (fun _ _ _ hs => hs.finite) htrk⟩

/-- Settles O20: a reset makes every word finite anew (O18), every other step writes finite words alone. -/
theorem stepKeepsValuesFinite : Obligations.StepKeepsValuesFinite := by
  intro s t hs h
  simp only [State.finite, Bool.and_eq_true, List.all_eq_true] at hs
  obtain ⟨⟨⟨⟨hw, ha⟩, hb⟩, hl⟩, hh⟩ := hs
  rcases step_moves h with ⟨is, rfl⟩ | hm
  · exact resetWith_finite hw
  · have ha' := hm.a.finite hw hl ha
    simp only [State.finite, Bool.and_eq_true, List.all_eq_true]
    refine ⟨⟨⟨⟨hm.cfg ▸ hw, ha'⟩, hm.b.finite hw hl hb⟩, ?_⟩, fun x hx => ?_⟩
    · rcases hm.latch with e | hx | hx
      · exact e ▸ hl
      · exact hx
      · exact hh _ hx
    · rcases hm.handoff x hx with hx | rfl
      · exact hh x hx
      · exact finite_out ha'

end FiniteWords

section Pointers

/-! ## Counters, pointers and taps (R10, R38, R39, R44, R72, R192, R199, R223, R340, R360) -/

variable {c : Config} {latch : Block}

/-- R192, R199. -/
theorem Biquad.pointersOk_iff {x : Biquad} :
    x.pointersOk = true ↔ (x.init = true → x.count.toNat ≤ x.speed.toNat ∧ x.w2 = fzero) := by
  unfold Biquad.pointersOk; cases x.init <;> simp

/-- R223. -/
theorem FeedbackDelay.pointersOk_iff {cap : Nat} {x : FeedbackDelay} :
    x.pointersOk c cap = true ↔ (x.init = true →
      x.wp.toNat < cap ∧ (1 ≤ x.tap.toNat ∧ x.tap.toNat ≤ cap) ∧ (fle fone x.tapf = true ∧ fle x.tapf (u2f cap) = true)
        ∧ (1 ≤ x.target.toNat ∧ x.target.toNat ≤ cap) ∧ x.rem.toNat ≤ c.dlRampSteps
        ∧ (x.rem = 0 → x.tap = x.target)) := by
  have hr : (x.rem != 0 || x.tap == x.target) = true ↔ (x.rem = 0 → x.tap = x.target) := by
    rw [Bool.or_eq_true, bne_iff_ne, beq_iff_eq, ← imp_iff_not_or]
  unfold FeedbackDelay.pointersOk
  rw [Bool.or_eq_true, Bool.not_eq_true', ← Bool.not_eq_true, ← imp_iff_not_or]
  simp only [Bool.and_eq_true, decide_eq_true_eq, hr, and_assoc]

/-- R38, R72. -/
theorem Multitap.pointersOk_iff {cap : Nat} {x : Multitap} :
    x.pointersOk c cap = true ↔ (x.init = true →
      x.wp.toNat < cap ∧ x.ntaps.toNat ≤ c.mtMaxTaps ∧ x.off.length = c.mtMaxTaps
        ∧ ∀ t ∈ x.off, 1 ≤ t.toNat ∧ t.toNat ≤ cap) := by
  unfold Multitap.pointersOk
  rw [Bool.or_eq_true, Bool.not_eq_true', ← Bool.not_eq_true, ← imp_iff_not_or]
  simp only [Bool.and_eq_true, decide_eq_true_eq, List.all_eq_true, and_assoc]

/-- R39. -/
theorem Allpass.pointersOk_iff {cap : Nat} {x : Allpass} :
    x.pointersOk cap = true ↔ (x.init = true → x.idx.toNat < x.len.toNat ∧ x.len.toNat ≤ cap) := by
  unfold Allpass.pointersOk; cases x.init <;> simp

/-- R72. -/
theorem VariableDelay.pointersOk_iff {cap : Nat} {x : VariableDelay} :
    x.pointersOk cap = true ↔ (x.init = true → x.wp.toNat < cap) := by
  unfold VariableDelay.pointersOk; cases x.init <;> simp

/-- R357, R360. -/
theorem Synth.pointersOk_iff {x : Synth} :
    x.pointersOk = true ↔ (x.init = true →
      (x.A.toNat ≤ Config.syLenMax ∧ x.D.toNat ≤ Config.syLenMax ∧ x.S.toNat ≤ Config.syLenMax
        ∧ x.R.toNat ≤ Config.syLenMax)
      ∧ (x.playing = true → x.pos.toNat ≤ syB4 x ∧ (x.R.toNat = 0 ∨ x.pos.toNat < syB4 x))) := by
  unfold Synth.pointersOk
  cases x.init <;> cases x.playing <;> simp [and_assoc]

/-- R340. -/
theorem ZeroCross.pointersOk_iff {x : ZeroCross} :
    x.pointersOk c = true ↔ (x.init = true →
      x.hist.length = c.zcHistLen ∧ x.hidx.toNat < c.zcHistLen ∧ x.hcount.toNat ≤ c.zcHistLen
        ∧ x.grace.toNat ≤ c.zcGrace.toNat) := by
  unfold ZeroCross.pointersOk; cases x.init <;> simp [and_assoc]

/-- R44. -/
theorem Clipper.pointersOk_iff {x : Clipper} :
    x.pointersOk c = true ↔ x.zu.length = c.clUpTaps.length ∧ x.zd.length = c.clDnTaps.length := by
  simp [Clipper.pointersOk]

theorem bqRetarget_pointersOk {x y : Biquad} (h : bqRetarget x = .ok y) (hx : x.pointersOk = true) :
    y.pointersOk = true := by
  obtain ⟨rfl, -⟩ := guardFinite_inv h
  rw [Biquad.pointersOk_iff] at hx ⊢
  exact fun hi => ⟨le_rfl, (hx hi).2⟩

theorem BiquadStep.pointersOk {x y : Biquad} (h : BiquadStep c x y) (hx : x.pointersOk = true) : y.pointersOk = true := by
  cases h with
  | clear => rfl
  | setup => exact Biquad.pointersOk_iff.2 fun _ => ⟨Nat.zero_le _, rfl⟩
  | modFreq _ h => exact bqRetarget_pointersOk h hx
  | modQ _ h => exact bqRetarget_pointersOk h hx
  | modGain _ h => exact bqRetarget_pointersOk h hx
  | transition h =>
    rcases bqTransition_ok h with rfl | ⟨freq, q, gain, k, hc, -, rfl⟩
    · exact hx
    · rw [Biquad.pointersOk_iff] at hx ⊢
      intro hi
      obtain ⟨hcount, hw2⟩ := hx hi
      refine ⟨?_, hw2⟩
      show (x.count - 1).toNat ≤ x.speed.toNat
      have : x.count.toNat ≠ 0 := fun e => hc (BitVec.eq_of_toNat_eq e)
      bv_omega
  | sample h =>
    obtain ⟨hy, -⟩ := guardFinite_inv h
    cases hy
    exact hx

/-- A length clamped to a ring lies in the ring (R218, R231). -/
theorem clampLength_mem {v cap : Nat} {code : ResultCode} (h : 2 ≤ cap ∧ cap < 2 ^ 23) :
    1 ≤ (BitVec.ofNat 32 (clampLength v cap code).1).toNat
      ∧ (BitVec.ofNat 32 (clampLength v cap code).1).toNat ≤ cap := by
  have hv : 1 ≤ (clampLength v cap code).1 ∧ (clampLength v cap code).1 ≤ cap := by
    unfold clampLength; split_ifs <;> simp only <;> omega
  rw [BitVec.toNat_ofNat]
  omega

theorem DelayStep.pointersOk {cap : Nat} {x y : FeedbackDelay} (h : DelayStep c cap x y) (hw : Config.wf c = true)
    (hcap : 2 ≤ cap ∧ cap < 2 ^ 23) (hx : x.pointersOk c cap = true) : y.pointersOk c cap = true := by
  have hsizes := Config.sizes hw
  have hone : fone = u2f 1 := by decide
  rw [FeedbackDelay.pointersOk_iff] at hx ⊢
  intro hi
  cases h with
  | clear => cases hi
  | @setup len fb ft damp hlen =>
    exact ⟨Nat.lt_of_lt_of_le Nat.two_pos hcap.1, hlen, ⟨hone ▸ u2f_mono hlen.1, u2f_mono hlen.2⟩, hlen, Nat.zero_le _,
      fun _ => rfl⟩
  | modLen h =>
    obtain ⟨rfl, -⟩ := guardFinite_inv h
    obtain ⟨hwp, htap, htapf, -, -, -⟩ := hx hi
    have hsteps : (BitVec.ofNat 32 c.dlRampSteps).toNat = c.dlRampSteps := by
      have := hsizes.rampSteps_lt
      rw [BitVec.toNat_ofNat]; omega
    refine ⟨hwp, htap, htapf, clampLength_mem hcap, hsteps.le, fun hz => ?_⟩
    have hpos := hsizes.rampSteps_pos
    have hzero : c.dlRampSteps = 0 := hsteps.symm.trans (congrArg BitVec.toNat hz)
    omega
  | modFb | modFt | modDamp => exact hx hi
  | sample h =>
    obtain ⟨z, line, lp, hz, -, -, -, rfl⟩ := dlSample_ok h
    have hxz : z.init = x.init ∧ z.wp = x.wp ∧ z.rem.toNat ≤ x.rem.toNat := by
      rcases dlRamp_ok hz with rfl | ⟨k, hr, -, rfl⟩
      · exact ⟨rfl, rfl, le_rfl⟩
      · have : x.rem.toNat ≠ 0 := fun e => hr (BitVec.eq_of_toNat_eq e)
        exact ⟨rfl, rfl, by simp only; bv_omega⟩
    obtain ⟨hinit, -, hrem⟩ := hxz
    obtain ⟨-, htap, htapf, htarget, hrem', heq⟩ := hx (hinit ▸ hi)
    obtain ⟨htap', htapf', htarget', heq'⟩ := dlRamp_taps (by omega) hz htap htapf htarget heq
    exact ⟨ringNext_lt (by omega) (by omega) _, htap', htapf', htarget' ▸ htarget, hrem.trans hrem', heq'⟩

theorem MultitapStep.pointersOk {cap : Nat} {x y : Multitap} (h : MultitapStep c cap x y)
    (hcap : 2 ≤ cap ∧ cap < 2 ^ 23) (hx : x.pointersOk c cap = true) : y.pointersOk c cap = true := by
  rw [Multitap.pointersOk_iff] at hx ⊢
  intro hi
  cases h with
  | clear => cases hi
  | setup hn =>
    refine ⟨Nat.lt_of_lt_of_le Nat.two_pos hcap.1, hn, List.length_replicate, fun t ht => ?_⟩
    rw [List.eq_of_mem_replicate ht]
    exact ⟨le_rfl, Nat.le_of_succ_le hcap.1⟩
  | setTap =>
    obtain ⟨hwp, hn, hlen, hoff⟩ := hx hi
    refine ⟨hwp, hn, List.length_set.trans hlen, fun t ht => ?_⟩
    rcases List.mem_or_eq_of_mem_set ht with ht | rfl
    · exact hoff t ht
    · exact clampLength_mem hcap
  | sample h =>
    obtain ⟨-, -, rfl⟩ := mtSample_ok h
    exact ⟨ringNext_lt (by omega) (by omega) _, (hx hi).2⟩

/-- Whatever the element was: a sample has checked its index, and a setup and a clear start anew. -/
theorem AllpassStep.pointersOk {cap : Nat} {x y : Allpass} (h : AllpassStep cap x y) : y.pointersOk cap = true := by
  rw [Allpass.pointersOk_iff]
  intro hi
  cases h with
  | clear => cases hi
  | setup hlen => exact hlen
  | sample h =>
    obtain ⟨line, hidx, hlen, -, rfl⟩ := apSample_ok h
    exact ⟨ringNext_lt (Nat.zero_lt_of_lt hidx) x.len.isLt.le _, hlen⟩

theorem VariableDelayStep.pointersOk {cap : Nat} {x y : VariableDelay} (h : VariableDelayStep c cap x y)
    (hcap : 2 ≤ cap ∧ cap < 2 ^ 23) (hx : x.pointersOk cap = true) : y.pointersOk cap = true := by
  rw [VariableDelay.pointersOk_iff] at hx ⊢
  intro hi
  cases h with
  | clear => cases hi
  | setup => exact Nat.lt_of_lt_of_le Nat.two_pos hcap.1
  | modDepth | modRate | modFb | modType => exact hx hi
  | sample h =>
    obtain ⟨line, phase, -, -, -, rfl⟩ := vdSample_ok h
    exact ringNext_lt (by omega) (by omega) _

theorem SynthStep.pointersOk {x y : Synth} (h : SynthStep c x y) (hx : x.pointersOk = true) : y.pointersOk = true := by
  rw [Synth.pointersOk_iff] at hx ⊢
  intro hi
  cases h with
  | clear => cases hi
  | setup hlen => exact ⟨hlen, fun hp => by cases hp⟩
  | play =>
    obtain ⟨hlen, -⟩ := hx hi
    refine ⟨hlen, fun _ => ⟨Nat.zero_le _, ?_⟩⟩
    show x.R.toNat = 0 ∨ 0 < x.A.toNat + x.D.toNat + x.S.toNat + x.R.toNat
    omega
  | stop =>
    unfold syStopped at hi ⊢
    split at hi
    · obtain ⟨hlen, -⟩ := hx hi
      rename_i hc
      rw [if_pos hc]
      refine ⟨hlen, fun _ => ?_⟩
      have hb3 : (BitVec.ofNat 32 (syB3 x)).toNat = syB3 x := by
        unfold Config.syLenMax at hlen
        unfold syB3
        rw [BitVec.toNat_ofNat]
        omega
      show (BitVec.ofNat 32 (syB3 x)).toNat ≤ syB3 x + x.R.toNat
        ∧ (x.R.toNat = 0 ∨ (BitVec.ofNat 32 (syB3 x)).toNat < syB3 x + x.R.toNat)
      omega
    · rename_i hc
      rw [if_neg hc]
      exact hx hi
  | sample h =>
    rcases sySample_ok h with rfl | ⟨phase, -, hp, rfl⟩
    · exact hx hi
    · obtain ⟨hlen, hpos⟩ := hx hi
      refine ⟨hlen, fun hp' => ?_⟩
      have hlt : x.pos.toNat + 1 < syB4 x := of_decide_eq_true hp'
      have hnext : (x.pos + 1).toNat ≤ x.pos.toNat + 1 := by
        rw [BitVec.toNat_add]
        exact Nat.mod_le _ _
      exact ⟨hnext.trans hlt.le, .inr (hnext.trans_lt hlt)⟩

/-! ### The parts of a sample of the pitch detector (R338, R339) -/

theorem zcLoss_pointersOk {z : ZeroCross} (h : z.pointersOk c = true) : (zcLoss z).pointersOk c = true := by
  rw [ZeroCross.pointersOk_iff] at h ⊢
  unfold zcLoss
  split
  · exact h
  · rename_i hg
    intro hi
    obtain ⟨hlen, hidx, hcount, hgrace⟩ := h hi
    have : z.grace.toNat ≠ 0 := fun e => hg (BitVec.eq_of_toNat_eq e)
    exact ⟨hlen, hidx, hcount, by simp only; bv_omega⟩

theorem zcRecord_pointersOk {z : ZeroCross} (hw : Config.wf c = true) (f : F32) (h : z.pointersOk c = true) :
    (zcRecord c z f).pointersOk c = true := by
  have hsizes := Config.sizes hw
  have hge := hsizes.histLen_ge
  have hle := hsizes.histLen_le
  rw [ZeroCross.pointersOk_iff] at h ⊢
  intro hi
  obtain ⟨hlen, hidx, hcount, hgrace⟩ := h hi
  refine ⟨List.length_set.trans hlen, ringNext_lt (by omega) (by omega) _, ?_, hgrace⟩
  simp only [zcRecord]
  split
  · rw [BitVec.toNat_add]
    exact (Nat.mod_le _ _).trans ‹_›
  · exact hcount

theorem zcLock_pointersOk {z : ZeroCross} (h : z.pointersOk c = true) : (zcLock c z).pointersOk c = true := by
  unfold zcLock
  split
  · split
    · rw [ZeroCross.pointersOk_iff] at h ⊢
      intro hi
      obtain ⟨hlen, hidx, hcount, -⟩ := h hi
      exact ⟨hlen, hidx, hcount, le_rfl⟩
    · exact zcLoss_pointersOk h
  · exact h

theorem zcCompare_pointersOk {z : ZeroCross} (hw : Config.wf c = true) (h : z.pointersOk c = true) :
    (zcCompare c z).pointersOk c = true := by
  unfold zcCompare
  split
  · unfold zcCandidate
    split
    · exact zcLoss_pointersOk h
    · exact zcLock_pointersOk (zcRecord_pointersOk hw _ h)
  · split <;> exact h

theorem zcIdle_pointersOk {z : ZeroCross} (hw : Config.wf c = true) (h : z.pointersOk c = true) :
    (zcIdle c z).pointersOk c = true := by
  have hpos : 0 < c.zcHistLen := Nat.lt_of_lt_of_le Nat.two_pos (Config.sizes hw).histLen_ge
  unfold zcIdle
  split
  · rw [ZeroCross.pointersOk_iff] at h ⊢
    exact fun hi => ⟨(h hi).1, hpos, Nat.zero_le _, Nat.zero_le _⟩
  · exact h

theorem ZeroCrossStep.pointersOk {x y : ZeroCross} (h : ZeroCrossStep c x y) (hw : Config.wf c = true)
    (hx : x.pointersOk c = true) : y.pointersOk c = true := by
  cases h with
  | clear => rfl
  | setup =>
    have hpos : 0 < c.zcHistLen := Nat.lt_of_lt_of_le Nat.two_pos (Config.sizes hw).histLen_ge
    exact ZeroCross.pointersOk_iff.2 fun _ => ⟨List.length_replicate, hpos, Nat.zero_le _, Nat.zero_le _⟩
  | @sample v _ h =>
    obtain ⟨rfl, -⟩ := guardFinite_inv h
    have htrack : (zcTrack c v x).pointersOk c = true := hx
    exact zcIdle_pointersOk hw (zcCompare_pointersOk hw htrack)

/-! ### The clipper, the stage, the machine -/

theorem length_firShift {z : List F32} (v : F32) (h : 1 ≤ z.length) : (firShift z v).length = z.length := by
  rw [firShift, List.length_cons, List.length_dropLast]; omega

theorem ClipperStep.pointersOk {x y : Clipper} (h : ClipperStep c x y) (hw : Config.wf c = true)
    (hx : x.pointersOk c = true) : y.pointersOk c = true := by
  have hsizes := Config.sizes hw
  have hpos := hsizes.taps_pos
  have heq := hsizes.taps_eq
  cases h with
  | clear | modThr => exact hx
  | setup => exact Clipper.pointersOk_iff.2 ⟨List.length_replicate, List.length_replicate⟩
  | sample h =>
    refine clSample_keeps (P := fun x => x.pointersOk c = true) (fun v x p hp hx => ?_) h hx
    obtain ⟨w, -, -, e⟩ := clSub_ok hp
    rw [e]
    rw [Clipper.pointersOk_iff] at hx ⊢
    exact ⟨(length_firShift v (by omega)).trans hx.1, (length_firShift w (by omega)).trans hx.2⟩

theorem StageMoves.pointersOk {st st' : Stage} (h : StageMoves c latch st st') (hw : Config.wf c = true)
    (hst : Stage.pointersOk c st = true) : Stage.pointersOk c st' = true := by
  have hsizes := Config.sizes hw
  simp only [Stage.pointersOk, Bool.and_eq_true, and_assoc] at hst ⊢
  obtain ⟨hbq, hdl, hmt, hap, hvd, hsy, hzc, hcl⟩ := hst
  exact ⟨h.bq.all (fun _ _ _ hs => hs.pointersOk) hbq,
    h.dl.allWithCap (fun cap hc _ _ hs => hs.pointersOk hw (hsizes.dlCap cap hc)) hdl,
    h.mt.allWithCap (fun cap hc _ _ hs => hs.pointersOk (hsizes.mtCap cap hc)) hmt,
    h.ap.allWithCap (fun _ _ _ _ hs _ => hs.pointersOk) hap,
    h.vd.allWithCap (fun cap hc _ _ hs => hs.pointersOk (hsizes.vdCap cap hc)) hvd,
    h.sy.all (fun _ _ _ hs => hs.pointersOk) hsy, h.zc.all (fun _ _ _ hs => hs.pointersOk hw) hzc,
    h.cl.all (fun _ _ _ hs => hs.pointersOk hw) hcl⟩

/-- Settles O21: a reset puts every counter and pointer in bounds anew (O18), every other step moves each stage within
them. -/
theorem stepKeepsPointersInBounds : Obligations.StepKeepsPointersInBounds := by
  intro s t hs h
  simp only [State.pointersOk, Bool.and_eq_true] at hs
  obtain ⟨⟨hw, ha⟩, hb⟩ := hs
  rcases step_moves h with ⟨is, rfl⟩ | hm
  · exact resetWith_pointersOk hw
  · simp only [State.pointersOk, Bool.and_eq_true]
    rw [hm.cfg]
    exact ⟨⟨hw, hm.a.pointersOk hw ha⟩, hm.b.pointersOk hw hb⟩

end Pointers

end Sys2Proof.Machine
end

section
/-! SUPPORT. The frame of a command: what it leaves unchanged in the acting stage and in the machine (O24, O26, O27).
`exec_frame` says it once for every command, by the contract of each. Beside it stand the step that runs a decoded
command (O5) and the status port (O60). -/

namespace Sys2Proof.Machine
open Sys2Proof

-- One theorem at a time: Lean would give each proof that waits a thread, and there are many.
set_option Elab.async false

section Status

/-! ## The status port (R29, R78) -/

variable (c : Config) (st : Stage)

theorem testBit_packFlags (l : List Bool) (i : Nat) : (packFlags l).testBit i = (l[i]?).getD false := by
  induction l generalizing i with
  | nil => simp [packFlags]
  | cons b l ih =>
    cases i with
    | zero => cases b <;> simp [packFlags, Nat.testBit_zero]
    | succ i =>
      have hdiv : packFlags (b :: l) / 2 = packFlags l := by
        rw [packFlags]
        split <;> omega
      rw [Nat.testBit_succ, hdiv, ih, List.getElem?_cons_succ]

/-- A word of `EFF_INIT` shows 32 of its flags; there is none where no effect is (R29). -/
theorem getLsbD_effInitWord (j : Nat) {i : Nat} (hi : i < 32) :
    (effInitWord st j).getLsbD i = (st.effInit[32 * j + i]?).getD false := by
  rw [effInitWord, BitVec.getLsbD_ofNat, testBit_packFlags, List.getElem?_take_of_lt hi, List.getElem?_drop]
  simp [hi]

theorem statusRead_fsm :
    statusRead c st 0x000 =
      BitVec.ofNat 32 (match st.fsm with | .idle => 0 | .armed => 1 | .running => 2 | .overrun => 3) := by
  show st.fsm.number.setWidth 32 = _
  cases st.fsm <;> rfl

theorem statusRead_effInit {j : Nat} (hj : j < 8) : statusRead c st (0x008 + j) = effInitWord st j := by
  unfold statusRead
  iterate 6 rw [if_neg (by omega)]
  rw [if_pos (by omega), Nat.add_sub_cancel_left]

theorem statusRead_tracker {k : Nat} (hk : k < 256) :
    statusRead c st (0x100 + k) = ((st.trk[k]?).map Tracker.level).getD 0 := by
  unfold statusRead
  iterate 7 rw [if_neg (by omega)]
  rw [if_pos (by omega), Nat.add_sub_cancel_left]
  cases st.trk[k]? <;> rfl

/-- A pitch detector has two numbers: the even one reads its frequency, the odd one its lock. -/
theorem statusRead_detector {k : Nat} (h1 : 0x200 ≤ k) (h2 : k < 0x400) :
    statusRead c st k =
      ((st.zc[(k - 0x200) / 2]?).map fun z => if k % 2 = 0 then z.freq else flagWord z.locked).getD 0 := by
  unfold statusRead
  iterate 8 rw [if_neg (by omega)]
  rw [if_pos ⟨h1, h2⟩]
  cases st.zc[(k - 0x200) / 2]? <;> rfl

theorem statusRead_freq {k : Nat} (hk : k < 256) :
    statusRead c st (0x200 + 2 * k) = ((st.zc[k]?).map ZeroCross.freq).getD 0 := by
  rw [statusRead_detector c st (by omega) (by omega), show (0x200 + 2 * k - 0x200) / 2 = k by omega]
  simp only [show (0x200 + 2 * k) % 2 = 0 by omega, if_true]

theorem statusRead_locked {k : Nat} (hk : k < 256) :
    statusRead c st (0x201 + 2 * k) = if ((st.zc[k]?).map ZeroCross.locked).getD false then 1 else 0 := by
  rw [statusRead_detector c st (by omega) (by omega), show (0x201 + 2 * k - 0x200) / 2 = k by omega]
  simp only [show ¬ (0x201 + 2 * k) % 2 = 0 by omega, if_false]
  cases st.zc[k]? <;> rfl

theorem statusRead_playing (k : Nat) :
    statusRead c st (0x400 + k) = if ((st.sy[k]?).map Synth.playing).getD false then 1 else 0 := by
  unfold statusRead
  iterate 9 rw [if_neg (by omega)]
  rw [if_pos (by omega), Nat.add_sub_cancel_left]
  cases st.sy[k]? <;> rfl

/-- Between the `EFF_INIT` words and the tracker levels there is no status word. -/
theorem statusRead_gap {k : Nat} (h1 : 0x010 ≤ k) (h2 : k < 0x100) : statusRead c st k = 0 := by
  unfold statusRead
  iterate 10 rw [if_neg (by omega)]

/-- Settles O60: one reading of the port for each range of status numbers. -/
theorem statusPortReads : Obligations.StatusPortReads := fun c st _ _ =>
  ⟨statusRead_fsm c st, rfl, rfl, rfl, rfl, rfl,
    fun j _ hj hi => by rw [statusRead_effInit c st hj, getLsbD_effInitWord st j hi],
    fun _ => statusRead_tracker c st, fun _ => statusRead_freq c st, fun _ => statusRead_locked c st,
    statusRead_playing c st, rfl, rfl, fun _ => statusRead_gap c st⟩

end Status

section BufferFrames

/-! ## The words a block loop writes (R25, R131) -/

/-- At most the first `n` words of buffer `bd` differ. -/
def BlockWrites (bd : Byte) (n : Nat) (m m' : Memory) : Prop :=
  ∀ (b : Byte) (j : Nat), j < 65536 → ¬ (b = bd ∧ j < n) → bufRead m' b j = bufRead m b j

variable {α : Type} {bs bs2 bd : Byte} {m m' : Memory} {a a' : α}

theorem BlockWrites.refl (bd : Byte) (n : Nat) (m : Memory) : BlockWrites bd n m m := fun _ _ _ _ => rfl

theorem BlockWrites.write {n k : Nat} (h : BlockWrites bd n m m') (hk : k < n) (hn : n ≤ 65536) (v : Word) :
    BlockWrites bd n m (bufWrite m' bd k v) := by
  intro b j hj hout
  rw [bufRead_write _ _ _ _ _ _ (by omega) hj, if_neg (fun ⟨hb, hjk⟩ => hout ⟨hb, hjk ▸ hk⟩)]
  exact h b j hj hout

/-- A loop whose sample `k` writes word `k` of one buffer. -/
theorem forSamples_writes {β : Type} {body : Nat → β → Except Fault β} {mem : β → Memory} {n : BitVec 16}
    {p q : β}     (h : forSamples body n.toNat 0 p = .ok q)
    (hb : ∀ k p q, body k p = .ok q → ∃ v, mem q = bufWrite (mem p) bd k v) :
    BlockWrites bd n.toNat (mem p) (mem q) := by
  refine forSamples_inv_lt (fun r => BlockWrites bd n.toNat (mem p) (mem r)) body n.toNat 0 p q (.refl _ _ _)
    (fun k r r' _ hk hr hs => ?_) h
  obtain ⟨v, hv⟩ := hb k r r' hs
  rw [hv]
  exact hr.write (by omega) n.isLt.le v

variable {n : BitVec 16}

theorem runThrough_writes {f : F32 → α → Except Fault (α × F32)} (h : runThrough bs bd n f a m = .ok (m', a')) :
    BlockWrites bd n.toNat m m' :=
  forSamples_writes (mem := Prod.fst) h fun _ _ _ hs =>
    let ⟨_, y, _, _, hw⟩ := sampleThrough_ok hs
    ⟨y, hw⟩

theorem runThrough2_writes {f : F32 → Option F32 → α → Except Fault (α × F32)}
    (h : runThrough2 bs bs2 bd n f a m = .ok (m', a')) : BlockWrites bd n.toNat m m' :=
  forSamples_writes (mem := Prod.fst) h fun _ _ _ hs =>
    let ⟨_, _, y, _, _, hw⟩ := sampleThrough2_ok hs
    ⟨y, hw⟩

theorem runFrom_writes {f : α → Except Fault (α × F32)} (h : runFrom bd n f a m = .ok (m', a')) :
    BlockWrites bd n.toNat m m' :=
  forSamples_writes (mem := Prod.fst) h fun _ _ _ hs =>
    let ⟨y, _, _, hw⟩ := sampleFrom_ok hs
    ⟨y, hw⟩

theorem copyBlock_writes (h : copyBlock bs bd n m = .ok m') : BlockWrites bd n.toNat m m' :=
  forSamples_writes (mem := id) h fun _ _ _ hs =>
    let ⟨x, _, hw⟩ := sampleCopy_ok hs
    ⟨x, hw⟩

theorem bqRun_writes {x y : Biquad} (h : bqRun bs bd n x m = .ok (m', y)) : BlockWrites bd n.toNat m m' := by
  unfold bqRun at h
  split at h
  · exact runThrough_writes h
  · cases h

theorem zcRun_buf {c : Config} {x y : ZeroCross} (h : zcRun c bs n x m = .ok (m', y)) : m' = m := by
  unfold zcRun at h
  split at h <;> cases h
  rfl

theorem atRun_buf {x y : Tracker} (h : atRun bs n x m = .ok (m', y)) : m' = m := by
  unfold atRun at h
  split at h
  · obtain ⟨he, -⟩ := guardFinite_inv h
    cases he; rfl
  · cases h

end BufferFrames

section Frames

/-! ## What a command leaves of the acting stage -/

/-- No buffer word differs but those of the command's destination. -/
def BufFrame (i : Instr) (m m' : Memory) : Prop :=
  ∀ (b : Byte) (j : Nat), j < 65536 → (∀ bd n, destination i = some (bd, n) → ¬ (b = bd ∧ j < n)) →
    bufRead m' b j = bufRead m b j

/-- In the file of class `cls` no element differs but the one the command names. -/
def FileFrame {α : Type} (i : Instr) (cls : Nat) (xs ys : List α) : Prop :=
  ∀ k, ¬ names i cls k → ys[k]? = xs[k]?

/-- What a command may leave different in the acting stage: the registers R29 gives it, the words of its destination,
the element it names; `RES` is the answer's. -/
structure StageFrame (i : Instr) (st st' : Stage) : Prop where
  cp : st'.cp = st.cp
  drops : st'.drops = st.drops
  cq : st'.cq = st.cq
  blkIdx : st'.blkIdx = st.blkIdx
  out : st'.out = st.out
  fsm : i ≠ .stArm → st'.fsm = st.fsm
  effect : (∀ e, i ≠ .stSelect e) → st'.effect = st.effect
  effInit : (∀ e, i ≠ .efSetup e) → st'.effInit = st.effInit
  oscval : (∀ ty p d, i ≠ .oscEval ty p d) → st'.oscval = st.oscval
  buf : BufFrame i st.buf st'.buf
  bq : FileFrame i 1 st.bq st'.bq
  dl : FileFrame i 2 st.dl st'.dl
  mt : FileFrame i 3 st.mt st'.mt
  ap : FileFrame i 4 st.ap st'.ap
  vd : FileFrame i 5 st.vd st'.vd
  cpr : FileFrame i 6 st.cpr st'.cpr
  cl : FileFrame i 7 st.cl st'.cl
  am : FileFrame i 9 st.am st'.am
  sy : FileFrame i 10 st.sy st'.sy
  zc : FileFrame i 11 st.zc st'.zc
  sm : FileFrame i 12 st.sm st'.sm
  trk : FileFrame i 13 st.trk st'.trk

variable {i : Instr} {s t : State} {st st' : Stage} {m m' : Memory}

theorem BufFrame.refl (i : Instr) (m : Memory) : BufFrame i m m := fun _ _ _ _ => rfl

theorem BlockWrites.frame {bd : Byte} {n : Nat} (h : BlockWrites bd n m m') (hd : destination i = some (bd, n)) :
    BufFrame i m m' := fun b j hj hout => h b j hj (hout bd n hd)

theorem FileFrame.refl {α : Type} (i : Instr) (cls : Nat) (xs : List α) : FileFrame i cls xs xs := fun _ _ => rfl

theorem StageFrame.refl (i : Instr) (st : Stage) : StageFrame i st st where
  cp := rfl
  drops := rfl
  cq := rfl
  blkIdx := rfl
  out := rfl
  fsm := fun _ => rfl
  effect := fun _ => rfl
  effInit := fun _ => rfl
  oscval := fun _ => rfl
  buf := .refl _ _
  bq := .refl _ _ _
  dl := .refl _ _ _
  mt := .refl _ _ _
  ap := .refl _ _ _
  vd := .refl _ _ _
  cpr := .refl _ _ _
  cl := .refl _ _ _
  am := .refl _ _ _
  sy := .refl _ _ _
  zc := .refl _ _ _
  sm := .refl _ _ _
  trk := .refl _ _ _

theorem StageFrame.setBuf (h : BufFrame i st.buf m) : StageFrame i st { st with buf := m } :=
  { StageFrame.refl i st with buf := h }

/-- The answer touches `RES` alone. -/
theorem StageFrame.answered (h : StageFrame i s.stage st) (code : ResultCode) :
    StageFrame i s.stage (answered code (s.setStage st)).stage := by
  rcases answered_stage code (s.setStage st) with e | e <;> rw [e, stage_setStage]
  · exact h
  · exact { h with }

theorem StageFrame.unchanged (i : Instr) (s : State) (code : ResultCode) :
    StageFrame i s.stage (Machine.answered code s).stage := by
  have h := (StageFrame.refl i s.stage).answered code
  rwa [setStage_stage] at h

theorem StageFrame.complete {code : ResultCode} (hc : complete code (s.setStage st) = .next t)
    (h : StageFrame i s.stage st) : StageFrame i s.stage t.stage := by
  rw [complete_next hc]; exact h.answered code

/-! ## Files of elements (R33, R34) -/

section Files

variable {α : Type} {sl : Slot α} {cls : Nat} {inst : Byte} {file : Stage → List α}
  {withFile : Stage → List α → Stage}

theorem isFile_of_get_set (hfile : sl.file = file) (hset : sl.setFile = withFile)
    (hget : ∀ st l, file (withFile st l) = l) : IsFile sl file withFile := by
  subst hfile hset
  intro st k x
  have hput : sl.file (sl.put st k x) = (sl.file st).set k.toNat x := hget _ _
  refine ⟨rfl, by rw [hput]; rfl, by rw [hput, List.length_set], fun j => ?_⟩
  rw [hput, List.getElem?_set]
  by_cases hj : k.toNat = j
  · subst hj
    by_cases hl : k.toNat < (sl.file st).length <;> simp [hl]
  · simp [hj, Ne.symm hj]

theorem bq_isFile : IsFile bqSlot Stage.bq (fun st l => { st with bq := l }) :=
  isFile_of_get_set rfl rfl fun _ _ => rfl
theorem dl_isFile : IsFile dlSlot Stage.dl (fun st l => { st with dl := l }) :=
  isFile_of_get_set rfl rfl fun _ _ => rfl
theorem mt_isFile : IsFile mtSlot Stage.mt (fun st l => { st with mt := l }) :=
  isFile_of_get_set rfl rfl fun _ _ => rfl
theorem ap_isFile : IsFile apSlot Stage.ap (fun st l => { st with ap := l }) :=
  isFile_of_get_set rfl rfl fun _ _ => rfl
theorem vd_isFile : IsFile vdSlot Stage.vd (fun st l => { st with vd := l }) :=
  isFile_of_get_set rfl rfl fun _ _ => rfl
theorem cp_isFile : IsFile cpSlot Stage.cpr (fun st l => { st with cpr := l }) :=
  isFile_of_get_set rfl rfl fun _ _ => rfl
theorem cl_isFile : IsFile clSlot Stage.cl (fun st l => { st with cl := l }) :=
  isFile_of_get_set rfl rfl fun _ _ => rfl
theorem am_isFile : IsFile amSlot Stage.am (fun st l => { st with am := l }) :=
  isFile_of_get_set rfl rfl fun _ _ => rfl
theorem sy_isFile : IsFile sySlot Stage.sy (fun st l => { st with sy := l }) :=
  isFile_of_get_set rfl rfl fun _ _ => rfl
theorem zc_isFile : IsFile zcSlot Stage.zc (fun st l => { st with zc := l }) :=
  isFile_of_get_set rfl rfl fun _ _ => rfl
theorem sm_isFile : IsFile smSlot Stage.sm (fun st l => { st with sm := l }) :=
  isFile_of_get_set rfl rfl fun _ _ => rfl
theorem at_isFile : IsFile atSlot Stage.trk (fun st l => { st with trk := l }) :=
  isFile_of_get_set rfl rfl fun _ _ => rfl

/-- The element a command names, replaced. -/
theorem FileFrame.put (hfile : IsFile sl file withFile) (hcls : classOf i = cls) (hi : instanceOf i = some inst)
    (st : Stage) (x : α) : FileFrame i cls (file st) (file (sl.put st inst x)) := by
  intro k hk
  obtain ⟨-, -, -, hread⟩ := hfile st inst x
  rw [hread, if_neg]
  rintro ⟨rfl, -⟩
  exact hk ⟨hcls, inst, hi, rfl⟩

/-- A class of elements whose slot writes its own file alone: a command that names one of them may put it. -/
def SlotFrame (sl : Slot α) (cls : Nat) : Prop :=
  ∀ {i : Instr} {inst : Byte} {st : Stage} {m : Memory}, classOf i = cls → instanceOf i = some inst →
    BufFrame i st.buf m → ∀ x : α, StageFrame i st (sl.put { st with buf := m } inst x)

theorem bqFrame : SlotFrame bqSlot 1 := fun hc hi hm x => { StageFrame.setBuf hm with bq := .put bq_isFile hc hi _ x }
theorem dlFrame : SlotFrame dlSlot 2 := fun hc hi hm x => { StageFrame.setBuf hm with dl := .put dl_isFile hc hi _ x }
theorem mtFrame : SlotFrame mtSlot 3 := fun hc hi hm x => { StageFrame.setBuf hm with mt := .put mt_isFile hc hi _ x }
theorem apFrame : SlotFrame apSlot 4 := fun hc hi hm x => { StageFrame.setBuf hm with ap := .put ap_isFile hc hi _ x }
theorem vdFrame : SlotFrame vdSlot 5 := fun hc hi hm x => { StageFrame.setBuf hm with vd := .put vd_isFile hc hi _ x }
theorem cpFrame : SlotFrame cpSlot 6 := fun hc hi hm x => { StageFrame.setBuf hm with cpr := .put cp_isFile hc hi _ x }
theorem clFrame : SlotFrame clSlot 7 := fun hc hi hm x => { StageFrame.setBuf hm with cl := .put cl_isFile hc hi _ x }
theorem amFrame : SlotFrame amSlot 9 := fun hc hi hm x => { StageFrame.setBuf hm with am := .put am_isFile hc hi _ x }
theorem syFrame : SlotFrame sySlot 10 := fun hc hi hm x => { StageFrame.setBuf hm with sy := .put sy_isFile hc hi _ x }
theorem zcFrame : SlotFrame zcSlot 11 := fun hc hi hm x => { StageFrame.setBuf hm with zc := .put zc_isFile hc hi _ x }
theorem smFrame : SlotFrame smSlot 12 := fun hc hi hm x => { StageFrame.setBuf hm with sm := .put sm_isFile hc hi _ x }
theorem atFrame : SlotFrame atSlot 13 := fun hc hi hm x => { StageFrame.setBuf hm with trk := .put at_isFile hc hi _ x }

end Files

/-! ## The frame of each contract (R122, R132 to R134) -/

/-- An illegal command is answered and no more. -/
theorem issue_frame {body : Result} (h : issue i s body = .next t)
    (hb : body = .next t → StageFrame i s.stage t.stage) : StageFrame i s.stage t.stage := by
  rcases issue_next h with ⟨-, hbody⟩ | ⟨-, -, rfl⟩
  · exact hb hbody
  · exact .unchanged _ _ _

theorem endProgram_frame (h : execEndProgram s = .next t) : StageFrame .endProgram s.stage t.stage := by
  refine issue_frame h fun hb => ?_
  cases hb
  exact .refl _ _

/-- A command without an element that computes buffers. -/
theorem withBuffers_frame {r : Except Fault Memory}
    (h : issue i s (completeWith .ok s (withBuffers s.stage r)) = .next t)
    (hr : ∀ m, r = .ok m → BufFrame i s.stage.buf m) : StageFrame i s.stage t.stage := by
  refine issue_frame h fun hb => ?_
  obtain ⟨st, hst, rfl⟩ := completeWith_next hb
  match r, hst with
  | .ok m, rfl => exact (StageFrame.setBuf (hr m rfl)).answered _

/-- A command whose per-sample function has no state of its own. -/
theorem buffersOf_frame {r : Except Fault (Memory × Unit)}
    (h : issue i s (completeWith .ok s (withBuffers s.stage (buffersOf r))) = .next t)
    (hr : ∀ m u, r = .ok (m, u) → BufFrame i s.stage.buf m) : StageFrame i s.stage t.stage := by
  refine withBuffers_frame h fun m hm => ?_
  match r, hm with
  | .ok (_, u), rfl => exact hr _ u rfl

section Contracts

variable {α : Type} {sl : Slot α} {cls : Nat} {inst : Byte}

/-- An element put in its slot, the buffers as they were. -/
theorem put_frame (hsl : SlotFrame sl cls) (hcls : classOf i = cls) (hi : instanceOf i = some inst) (st : Stage)
    (x : α) : StageFrame i st (sl.put st inst x) :=
  hsl (st := st) hcls hi (.refl _ _) x

theorem setup_frame (hsl : SlotFrame sl cls) {checks : List (Bool × ResultCode)} {build : α → Except Fault α}
    (h : issue i s (setupElement sl inst checks build s) = .next t)
    (hcls : classOf i = cls := by simp [classOf, Instr.opcode])
    (hi : instanceOf i = some inst := by rfl) : StageFrame i s.stage t.stage := by
  refine issue_frame h fun hbody => ?_
  rcases setupElement_next hbody with ⟨-, rfl⟩ | ⟨x, code, -, -, rfl⟩ | ⟨x, y, -, -, -, rfl⟩
  · exact .unchanged _ _ _
  · exact (put_frame hsl hcls hi _ _).answered _
  · exact (put_frame hsl hcls hi _ _).answered _

theorem modify_frame (hsl : SlotFrame sl cls) {code : ResultCode} {apply : α → Except Fault α}
    (h : issue i s (modifyElement sl inst code apply s) = .next t)
    (hcls : classOf i = cls := by simp [classOf, Instr.opcode])
    (hi : instanceOf i = some inst := by rfl) : StageFrame i s.stage t.stage := by
  refine issue_frame h fun hbody => ?_
  rcases modifyElement_next hbody with ⟨-, rfl⟩ | ⟨x, -, -, rfl⟩ | ⟨x, y, -, -, -, rfl⟩
  · exact .unchanged _ _ _
  · exact .unchanged _ _ _
  · exact (put_frame hsl hcls hi _ _).answered _

theorem read_frame (hsl : SlotFrame sl cls) {pass : Memory → Except Fault Memory}
    {run : α → Memory → Except Fault (Memory × α)} (h : issue i s (readElement sl inst pass run s) = .next t)
    (hpass : ∀ m m', pass m = .ok m' → BufFrame i m m')
    (hrun : ∀ x m m' y, run x m = .ok (m', y) → BufFrame i m m')
    (hcls : classOf i = cls := by simp [classOf, Instr.opcode])
    (hi : instanceOf i = some inst := by rfl) : StageFrame i s.stage t.stage := by
  refine issue_frame h fun hbody => ?_
  rcases readElement_next hbody with ⟨m, -, hp, rfl⟩ | ⟨x, m, -, -, hp, rfl⟩ | ⟨x, m, y, -, -, hr, rfl⟩
  · exact (StageFrame.setBuf (hpass _ _ hp)).answered _
  · exact (StageFrame.setBuf (hpass _ _ hp)).answered _
  · exact (hsl hcls hi (hrun x _ m y hr) y).answered _

/-- A read with a destination: the pass-through is a copy into it, and `run` writes no other words. -/
theorem readInto_frame (hsl : SlotFrame sl cls) {bs bd : Byte} {n : BitVec 16}
    {run : α → Memory → Except Fault (Memory × α)}
    (h : issue i s (readElement sl inst (passCopy bs bd n) run s) = .next t)
    (hrun : ∀ x m m' y, run x m = .ok (m', y) → BlockWrites bd n.toNat m m')
    (hd : destination i = some (bd, n.toNat) := by rfl)
    (hcls : classOf i = cls := by simp [classOf, Instr.opcode])
    (hi : instanceOf i = some inst := by rfl) : StageFrame i s.stage t.stage :=
  read_frame hsl h (fun _ _ hp => (copyBlock_writes hp).frame hd)
    (fun x m m' y hr => (hrun x m m' y hr).frame hd) hcls hi

/-- A read without a destination writes no buffer. -/
theorem readNothing_frame (hsl : SlotFrame sl cls) {run : α → Memory → Except Fault (Memory × α)}
    (h : issue i s (readElement sl inst passNothing run s) = .next t)
    (hrun : ∀ x m m' y, run x m = .ok (m', y) → m' = m)
    (hcls : classOf i = cls := by simp [classOf, Instr.opcode])
    (hi : instanceOf i = some inst := by rfl) : StageFrame i s.stage t.stage :=
  read_frame hsl h (fun _ _ hp => by cases hp; exact .refl _ _)
    (fun x m m' y hr => hrun x m m' y hr ▸ .refl _ _) hcls hi

end Contracts

/-! ## The commands that write a register (R29) -/

theorem oscEval_frame {ty : Word} {phase duty : F32} (h : execOscEval ty phase duty s = .next t) :
    StageFrame (.oscEval ty phase duty) s.stage t.stage := by
  refine issue_frame h fun hb => ?_
  split at hb
  · rw [complete_next hb]; exact .unchanged _ _ _
  · split at hb
    · rw [complete_next hb]; exact .unchanged _ _ _
    · obtain ⟨st, hst, rfl⟩ := completeWith_next hb
      obtain ⟨rfl, -⟩ := guardFinite_inv hst
      refine StageFrame.answered ?_ _
      exact { StageFrame.refl _ s.stage with oscval := fun hne => absurd rfl (hne _ _ _) }

theorem stArm_frame (h : execStArm s = .next t) : StageFrame .stArm s.stage t.stage := by
  refine issue_frame h fun hb => ?_
  split at hb
  · exact .complete hb { StageFrame.refl _ s.stage with fsm := fun hne => absurd rfl hne }
  all_goals rw [complete_next hb]; exact .unchanged _ _ _

theorem stSelect_frame {e : Byte} (h : execStSelect e s = .next t) : StageFrame (.stSelect e) s.stage t.stage := by
  refine issue_frame h fun hb => ?_
  split at hb <;>
    exact .complete hb { StageFrame.refl _ s.stage with effect := fun hne => absurd rfl (hne _) }

theorem efSetup_frame {e : Byte} (h : execEfSetup e s = .next t) : StageFrame (.efSetup e) s.stage t.stage := by
  refine issue_frame h fun hb => ?_
  split at hb
  · rw [complete_next hb]; exact .unchanged _ _ _
  · exact .complete hb { StageFrame.refl _ s.stage with effInit := fun hne => absurd rfl (hne _) }

/-! ## All commands -/

/-- The frame of every command in the acting stage (R21, R25, R29, R34). -/
theorem exec_frame (h : exec i s = .next t) : StageFrame i s.stage t.stage := by
  cases i with
  | endProgram => exact endProgram_frame h
  | copy => exact withBuffers_frame h fun _ hr => (copyBlock_writes hr).frame rfl
  | clear => exact buffersOf_frame h fun _ _ hr => (runFrom_writes hr).frame rfl
  | mix2 => exact buffersOf_frame h fun _ _ hr => (runThrough2_writes hr).frame rfl
  | gain => exact buffersOf_frame h fun _ _ hr => (runThrough_writes hr).frame rfl
  | oscEval => exact oscEval_frame h
  | stArm => exact stArm_frame h
  | stSelect => exact stSelect_frame h
  | efSetup => exact efSetup_frame h
  | bqSetup => exact setup_frame bqFrame h
  | bqModFreq | bqModQ | bqModGain => exact modify_frame bqFrame h
  | bqRead => exact readInto_frame bqFrame h fun _ _ _ _ => bqRun_writes
  | dlSetup => exact setup_frame dlFrame h
  | dlModLen | dlModFb | dlModFt | dlModDamp => exact modify_frame dlFrame h
  | dlRead => exact readInto_frame dlFrame h fun _ _ _ _ => runThrough_writes
  | mtSetup => exact setup_frame mtFrame h
  | mtSetTap => exact modify_frame mtFrame h
  | mtRead => exact readInto_frame mtFrame h fun _ _ _ _ => runThrough_writes
  | apSetup => exact setup_frame apFrame h
  | apRead => exact readInto_frame apFrame h fun _ _ _ _ => runThrough_writes
  | vdSetup => exact setup_frame vdFrame h
  | vdModDepth | vdModRate | vdModFb | vdModType => exact modify_frame vdFrame h
  | vdRead => exact readInto_frame vdFrame h fun _ _ _ _ => runThrough2_writes
  | cpSetup => exact setup_frame cpFrame h
  | cpModThr | cpModRatio | cpModAtt | cpModRel | cpModGain => exact modify_frame cpFrame h
  | cpRead => exact readInto_frame cpFrame h fun _ _ _ _ => runThrough_writes
  | clSetup => exact setup_frame clFrame h
  | clModThr => exact modify_frame clFrame h
  | clRead => exact readInto_frame clFrame h fun _ _ _ _ => runThrough_writes
  | amSetup => exact setup_frame amFrame h
  | amModDepth | amModRate => exact modify_frame amFrame h
  | amRead => exact readInto_frame amFrame h fun _ _ _ _ => runThrough2_writes
  | sySetup => exact setup_frame syFrame h
  | syPlay | syStop => exact modify_frame syFrame h
  | syRead => exact readInto_frame syFrame h fun _ _ _ _ => runFrom_writes
  | zcSetup => exact setup_frame zcFrame h
  | zcRead => exact readNothing_frame zcFrame h fun _ _ _ _ => zcRun_buf
  | smSetup => exact setup_frame smFrame h
  | smRead => exact readInto_frame smFrame h fun _ _ _ _ => runThrough_writes
  | atSetup => exact setup_frame atFrame h
  | atRead => exact readNothing_frame atFrame h fun _ _ _ _ => atRun_buf

/-- No command takes from what the environment does next. -/
theorem exec_inputs (h : exec i s = .next t) : t.inputs = s.inputs := by
  rcases exec_answers h with ⟨-, -, rfl⟩ | ⟨st, -, -, rfl⟩ <;> simp

/-- Only `END` ends a program (R135). -/
theorem exec_phase (h : exec i s = .next t) (hi : i ≠ .endProgram) : t.phase = s.phase := by
  rcases exec_answers h with ⟨he, -, -⟩ | ⟨st, -, -, rfl⟩
  · exact absurd he hi
  · simp

end Frames

section Settled

/-! ## The frames and the step, as the obligations state them -/

/-- Settles O24: outside the acting stage by `exec_acts`, in it by `exec_frame`. -/
theorem commandChangesOnlyItsRegisters : Obligations.CommandChangesOnlyItsRegisters := fun _ _ _ h =>
  have ha := exec_acts h
  have hf := exec_frame h
  ⟨ha.other, ha.cfg, ha.cur, ha.handoff, ha.latch, exec_inputs h, exec_phase h,
    hf.cp, hf.drops, hf.cq, hf.blkIdx, hf.out, hf.fsm, hf.effect, hf.effInit, hf.oscval⟩

/-- Settles O26: the buffers' part of `exec_frame`. -/
theorem commandWritesOnlyItsDestination : Obligations.CommandWritesOnlyItsDestination := fun _ _ _ h =>
  (exec_frame h).buf

/-- Settles O27: the files' part of `exec_frame`, and the law of each file. -/
theorem commandChangesOnlyItsInstance : Obligations.CommandChangesOnlyItsInstance := by
  refine ⟨fun i s t k h => ?_, bq_isFile, dl_isFile, mt_isFile, ap_isFile, vd_isFile, cp_isFile, cl_isFile, am_isFile,
    sy_isFile, zc_isFile, sm_isFile, at_isFile⟩
  have hf := exec_frame h
  exact ⟨hf.bq k, hf.dl k, hf.mt k, hf.ap k, hf.vd k, hf.cpr k,
    hf.cl k, hf.am k, hf.sy k, hf.zc k, hf.sm k, hf.trk k⟩

/-- In a program `END` is accepted and ends it (R135). -/
theorem exec_endProgram {s : State} (hp : s.phase = .program) : exec .endProgram s = .next (s.setPhase .store) :=
  issue_accepted (by simp [accepted, State.inProgram, hp, legal, programCommand])

/-- Settles O5: in a dispatch the machine is still in the program after every command but `END`. -/
theorem stepRunsTheDecodedCommand : Obligations.StepRunsTheDecodedCommand := by
  refine ⟨fun s d ws rest i hp hq hd => ?_, fun s t i hp hd h => ?_⟩
  · simp only [step, hp, drainStep, hq, hd]
  · have hstep : step s = .next (if t.inProgram then advance i.length t else t) := by
      simp only [step, hp, programStep, hd, h, advanceIfRunning]
    rw [hstep]
    by_cases hi : i = .endProgram
    · subst hi
      rw [exec_endProgram hp] at h
      cases h
      rfl
    · have ht : t.inProgram = true := by simp [State.inProgram, exec_phase h hi, hp]
      rw [if_pos ht, if_neg hi]
      rfl

end Settled

end Sys2Proof.Machine
end

section
/-! SUPPORT. The answer to a block arrival between and around its commands (`20_memory.md`): the host's event that a
step takes (`EventTaken`), the beginning of an answer (`arrive_cases`), the drain of the control queue, the load and the
store, and the end of an answer (`answerEnds_finish`), each said once. The control queue (O6, O7), the pass-through
(O10), the hand-off (O15) and the store (O23) are read off them. -/

namespace Sys2Proof.Machine
open Sys2Proof

-- One theorem at a time: Lean would give each proof that waits a thread, and there are many.
set_option Elab.async false

section AnswerEnd

/-! ## The end of an answer (R80, R414, R424) -/

variable {s : State} {out : Block}

theorem silence_eq_quiet (c : Config) : silence c = quiet c := rfl

/-- An answer ends alike wherever in it the machine stood. -/
@[simp] theorem finish_setPhase (out : Block) (s : State) (p : Phase) : finish out (s.setPhase p) = finish out s := by
  unfold finish
  rw [stage_setPhase, setStage_setPhase, setPhase_setPhase, cur_setPhase]

theorem answerEnds_finish (s : State) (st : Stage) (out : Block) :
    AnswerEnds s st out (finish out (s.setStage st)) := by
  refine ⟨by simp, by simp, ?_, by simp, by simp, by simp, by simp, by simp⟩
  rw [handoff_finish, cur_setStage, handoff_setStage]
  cases s.cur <;> rfl

theorem a_of_cur (h : s.cur = .A) : s.stage = s.a := by unfold State.stage; rw [h]

theorem b_of_cur (h : s.cur = .B) : s.stage = s.b := by unfold State.stage; rw [h]

/-- A named stage is the acting one or the other one. -/
theorem stageAt_eq (s : State) (id : StageId) : s.stageAt id = if id = s.cur then s.stage else s.other := by
  unfold State.stageAt State.stage State.other
  cases id <;> cases s.cur <;> rfl

end AnswerEnd

section Arrival

/-! ## The beginning of an answer (R414, R415) -/

/-- The acting stage has counted an arrival (R414). -/
def State.counted (s : State) : State := s.setStage { s.stage with blkIdx := s.stage.blkIdx + 1 }

/-- An Idle stage drains without a dispatch; any other latches the block, or overruns (R415). -/
theorem arrive_cases (late : Bool) (x : Block) (s : State) :
    (s.stage.fsm = .idle ∧ arrive late x s = s.counted.setPhase (.drain false)) ∨
      arrive late x s = (s.counted.setPhase (.drain true)).setLatch x ∨
      arrive late x s = overrun s.counted := by
  unfold arrive
  cases s.stage.fsm with
  | idle => exact .inl ⟨rfl, rfl⟩
  | armed => exact .inr (.inl rfl)
  | running | overrun => cases late; exacts [.inr (.inl rfl), .inr (.inr rfl)]

variable (late : Bool) (x : Block) (s : State)

@[simp] theorem stage_overrun :
    (overrun s).stage = { s.stage with fsm := .overrun, drops := satInc s.stage.drops, out := quiet s.cfg } := by
  simp [overrun, silence_eq_quiet]

@[simp] theorem cur_counted : s.counted.cur = s.cur := by simp [State.counted]
@[simp] theorem cfg_counted : s.counted.cfg = s.cfg := by simp [State.counted]
@[simp] theorem inputs_counted : s.counted.inputs = s.inputs := by simp [State.counted]
@[simp] theorem handoff_counted : s.counted.handoff = s.handoff := by simp [State.counted]
@[simp] theorem other_counted : s.counted.other = s.other := by simp [State.counted]
@[simp] theorem cq_counted : s.counted.stage.cq = s.stage.cq := by simp [State.counted]

@[simp] theorem cur_arrive : (arrive late x s).cur = s.cur := by
  rcases arrive_cases late x s with ⟨-, h⟩ | h | h <;> simp [h, overrun]

@[simp] theorem inputs_arrive : (arrive late x s).inputs = s.inputs := by
  rcases arrive_cases late x s with ⟨-, h⟩ | h | h <;> simp [h, overrun]

@[simp] theorem other_arrive : (arrive late x s).other = s.other := by
  rcases arrive_cases late x s with ⟨-, h⟩ | h | h <;> simp [h, overrun]

@[simp] theorem cq_stage_arrive : (arrive late x s).stage.cq = s.stage.cq := by
  rcases arrive_cases late x s with ⟨-, h⟩ | h | h <;> simp [h]

/-- An arrival touches no control queue. -/
theorem cq_arrive (id : StageId) : ((arrive late x s).stageAt id).cq = (s.stageAt id).cq := by
  simp only [stageAt_eq, cur_arrive, other_arrive]
  split
  · exact cq_stage_arrive late x s
  · rfl

end Arrival

section Events

/-! ## The event a step takes (R77, R414, R450) -/

/-- What a step between two answers makes of the machine, by the event it takes and the events that stay. -/
inductive EventTaken (s : State) : Option (Input × List Input) → State → Prop
  | waits : EventTaken s none s
  | enqueue (id : StageId) (ws : List Word) (rest : List Input) :
      EventTaken s (some (.enqueue id ws, rest)) (Machine.enqueue id ws { s with inputs := rest })
  | arrivalA (late : Bool) (x : Block) (rest : List Input) :
      EventTaken s (some (.arrivalA late x, rest)) (arrive late x { s with inputs := rest, cur := .A })
  | arrivalB (late : Bool) {x : Block} {xs : List Block} (rest : List Input) (h : s.handoff = x :: xs) :
      EventTaken s (some (.arrivalB late, rest)) (arrive late x { s with inputs := rest, cur := .B, handoff := xs })
  | reset (rest : List Input) :
      EventTaken s (some (.reset, rest)) { State.resetWith s.cfg with inputs := rest }

variable {s t : State}

theorem inputStep_takes (h : inputStep s = .next t) : EventTaken s (nextInput (portReady s) s.inputs) t := by
  unfold inputStep at h
  split at h
  · rename_i hn; cases h; rw [hn]; exact .waits
  · rename_i i rest hn
    rw [hn]
    cases i with
    | enqueue id ws => cases h; exact .enqueue id ws rest
    | arrivalA late x =>
      simp only [arriveA] at h
      split at h
      · split at h
        · cases h; exact .arrivalA late x rest
        · cases h
      · cases h
    | arrivalB late =>
      simp only [arriveB] at h
      split at h
      · cases h
      · rename_i x xs hx; cases h; exact .arrivalB late rest hx
    | reset => cases h; exact .reset rest

theorem step_between (hp : s.phase = .between) : step s = inputStep s := by unfold step; rw [hp]

theorem step_takes (hp : s.phase = .between) (h : step s = .next t) :
    EventTaken s (nextInput (portReady s) s.inputs) t := inputStep_takes (step_between hp ▸ h)

/-! ### The control port (R77, R410) -/

variable {id : StageId} {ws : List Word} {rest : List Input}

theorem portReady_iff : portReady s id = true ↔ (s.stageAt id).cq.length < s.cfg.cqDepth := by
  simp [portReady, cqFree]

theorem stageAt_enqueue : (enqueue id ws s).stageAt id = { s.stageAt id with cq := (s.stageAt id).cq ++ [ws] } := by
  cases id <;> rfl

theorem stageAt_enqueue_ne {id' : StageId} (h : id' ≠ id) : (enqueue id ws s).stageAt id' = s.stageAt id' := by
  cases id <;> cases id' <;> first | rfl | exact absurd rfl h

/-- With room in the queue an enqueue is taken. -/
theorem step_enqueue (hp : s.phase = .between) (hi : s.inputs = .enqueue id ws :: rest)
    (hr : (s.stageAt id).cq.length < s.cfg.cqDepth) : step s = .next (enqueue id ws { s with inputs := rest }) := by
  rw [step_between hp]
  simp [inputStep, hi, nextInput, portReady_iff.2 hr]

/-- A command appended takes one free slot. -/
theorem cqFree_enqueue (hr : (s.stageAt id).cq.length < s.cfg.cqDepth) :
    cqFree (enqueue id ws s).cfg ((enqueue id ws s).stageAt id) + 1 = cqFree s.cfg (s.stageAt id) := by
  have hc : (enqueue id ws s).cfg = s.cfg := by simp [enqueue]
  rw [hc, stageAt_enqueue]
  simp only [cqFree, List.length_append, List.length_singleton]
  omega

/-- With the queue full the host holds its command and an event of another agent is next. -/
theorem nextInput_held (hr : s.cfg.cqDepth ≤ (s.stageAt id).cq.length) :
    nextInput (portReady s) (.enqueue id ws :: rest) = nextEvent (.enqueue id ws :: rest) := by
  have : portReady s id ≠ true := by rw [Ne, portReady_iff]; omega
  simp [nextInput, this]

/-- The host's commands alone are no event of another agent. -/
theorem nextEvent_eq_none : ∀ {is : List Input}, (∀ x ∈ is, ∃ id ws, x = .enqueue id ws) → nextEvent is = none
  | [], _ => rfl
  | i :: is, h => by
    obtain ⟨id, ws, rfl⟩ := h i List.mem_cons_self
    simp [nextEvent, nextEvent_eq_none fun x hx => h x (List.mem_cons_of_mem _ hx)]

/-- A command the host holds stays the first of the events that stay. -/
theorem nextEvent_held {e : Input × List Input} (h : nextEvent (.enqueue id ws :: rest) = some e) :
    ∃ rest', e.2 = .enqueue id ws :: rest' := by
  unfold nextEvent at h
  split at h
  · cases h; exact ⟨_, rfl⟩
  · cases h

/-- The event that is taken leaves the events that stay. -/
theorem EventTaken.inputs_eq {e : Input × List Input} (h : EventTaken s (some e) t) : t.inputs = e.2 := by
  cases h <;> simp [Machine.enqueue]

/-- Only an enqueue and the reset change a control queue. -/
theorem EventTaken.cq_eq {e : Option (Input × List Input)} (h : EventTaken s e t)
    (he : ∀ id ws rest, e ≠ some (.enqueue id ws, rest)) (hr : ∀ rest, e ≠ some (.reset, rest)) (id : StageId) :
    (t.stageAt id).cq = (s.stageAt id).cq := by
  cases h with
  | waits => rfl
  | enqueue id ws rest => exact absurd rfl (he id ws rest)
  | arrivalA => rw [cq_arrive]; cases id <;> rfl
  | arrivalB => rw [cq_arrive]; cases id <;> rfl
  | reset rest => exact absurd rfl (hr rest)

end Events

section Queue

/-! ## The control queue (R77, R116 to R122, R410, R412) -/

variable {s t : State} {d : Bool} {ws : List Word} {rest : List (List Word)} {i : Instr}

theorem inProgram_of_drain (hp : s.phase = .drain d) : s.inProgram = false := by simp [State.inProgram, hp]

/-- Every meaning is issued first (R117 to R122). -/
theorem exec_issued (i : Instr) (s : State) : ∃ body, exec i s = issue i s body := by
  cases i <;> exact ⟨_, rfl⟩

/-- Words that are no command drain as `IllegalCommand` (R116, R122). -/
theorem step_drain_noCommand {e : DecodeError} (hp : s.phase = .drain d) (hq : s.stage.cq = ws :: rest)
    (hd : decodePort ws = .error e) : step s = .next (s.setStage { s.stage with cq := rest, res := 0x02 }) := by
  simp only [step, hp, drainStep, hq, hd, complete_eq]
  rw [answered_port _ _ (by rw [inProgram_setStage]; exact inProgram_of_drain hp), setStage_setStage, stage_setStage]
  rfl

theorem step_drain_empty (hp : s.phase = .drain d) (hq : s.stage.cq = []) :
    step s = .next (if d then beginDispatch s else finish (silence s.cfg) s) := by
  simp only [step, hp, drainStep, hq]

/-- Settles O6: every meaning is issued, and an issue that is not accepted answers at once. -/
theorem illegalCommandChangesOnlyRes : Obligations.IllegalCommandChangesOnlyRes := by
  refine ⟨fun s d ws rest e hp hq hd => step_drain_noCommand hp hq hd, fun i s hp ha => ?_⟩
  obtain ⟨body, hbody⟩ := exec_issued i s
  rw [hbody, issue_illegal hp ha, answered_port _ _ hp]
  rfl

/-- At the control port a command moves the machine to no other phase. -/
theorem exec_phase_port (h : exec i s = .next t) (hs : s.inProgram = false) : t.phase = s.phase := by
  rcases exec_answers h with ⟨-, hp, -⟩ | ⟨st, -, -, rfl⟩
  · rw [hs] at hp; cases hp
  · simp

/-- The queue decides no result code. -/
theorem resultOf_dequeued (i : Instr) (s : State) (q : List (List Word)) :
    resultOf i (s.setStage { s.stage with cq := q }) = resultOf i s := by
  have ha : accepted i (s.setStage { s.stage with cq := q }) = accepted i s := by simp [accepted]
  have hn : namedInit { s.stage with cq := q } i = namedInit s.stage i := rfl
  simp only [resultOf, ha, stage_setStage, hn, cfg_setStage]

/-- The front command taken out of the queue and executed (R412). -/
theorem step_drain_command (hp : s.phase = .drain d) (hq : s.stage.cq = ws :: rest) (hd : decodePort ws = .ok i)
    (h : step s = .next t) :
    t.phase = .drain d ∧ t.stage.cq = rest ∧ t.cur = s.cur ∧ t.stage.res = (resultOf i s).word := by
  rw [stepRunsTheDecodedCommand.1 s d ws rest i hp hq hd] at h
  have hs : (s.setStage { s.stage with cq := rest }).inProgram = false := by
    rw [inProgram_setStage]; exact inProgram_of_drain hp
  refine ⟨?_, ?_, ?_, ?_⟩
  · rw [exec_phase_port h hs, phase_setStage, hp]
  · rw [(exec_frame h).cq, stage_setStage]
  · rw [(exec_acts h).cur, cur_setStage]
  · rw [exec_res h, hs, resultOf_dequeued]; rfl

/-- The drain's last step leaves both `RES` as they are, and ends the drain. -/
theorem step_drained (hp : s.phase = .drain d) (hq : s.stage.cq = []) (h : step s = .next t) :
    t.a.res = s.a.res ∧ t.b.res = s.b.res ∧ t.phase ≠ .drain d := by
  have hkeeps : t.cur = s.cur ∧ t.stage.res = s.stage.res ∧ t.other = s.other ∧ t.phase ≠ .drain d := by
    rw [step_drain_empty hp hq] at h
    cases h
    cases d
    · simp
    · simp only [if_true, beginDispatch]
      split <;> simp
  obtain ⟨hcur, hres, hother, hphase⟩ := hkeeps
  have hres' (id : StageId) : (t.stageAt id).res = (s.stageAt id).res := by
    rw [stageAt_eq, stageAt_eq, hcur, hother]
    split
    · exact hres
    · rfl
  exact ⟨hres' .A, hres' .B, hphase⟩

/-- At a full queue nothing changes a queue but a reset, and the held command stays first (R77). -/
theorem step_held {id : StageId} {is : List Input} (hp : s.phase = .between) (hi : s.inputs = .enqueue id ws :: is)
    (hr : s.cfg.cqDepth ≤ (s.stageAt id).cq.length) (h : step s = .next t) :
    (∃ is', t.inputs = .enqueue id ws :: is')
      ∧ ((∀ id', (t.stageAt id').cq = (s.stageAt id').cq)
        ∨ ∃ is', nextEvent s.inputs = some (.reset, is')) := by
  have ht := step_takes hp h
  rw [hi, nextInput_held hr] at ht
  rw [hi]
  constructor
  · cases he : nextEvent (.enqueue id ws :: is) with
    | none => rw [he] at ht; cases ht; exact ⟨is, hi⟩
    | some e =>
      rw [he] at ht
      obtain ⟨is', he'⟩ := nextEvent_held he
      exact ⟨is', ht.inputs_eq.trans he'⟩
  · by_cases hreset : ∃ is', nextEvent (.enqueue id ws :: is) = some (.reset, is')
    · exact .inr hreset
    · exact .inl (ht.cq_eq (fun _ _ _ => nextEvent_ne_enqueue) (not_exists.1 hreset))

/-- With nothing but the host's own commands to come, the machine waits. -/
theorem step_waits {id : StageId} {is : List Input} (hp : s.phase = .between) (hi : s.inputs = .enqueue id ws :: is)
    (hr : s.cfg.cqDepth ≤ (s.stageAt id).cq.length) (his : ∀ x ∈ is, ∃ id' ws', x = .enqueue id' ws') :
    step s = .next s := by
  have hn : nextInput (portReady s) s.inputs = none := by
    rw [hi, nextInput_held hr]
    exact nextEvent_eq_none fun x hx => (List.mem_cons.1 hx).elim (fun h => ⟨id, ws, h⟩) (his x)
  rw [step_between hp, inputStep, hn]

/-- Settles O7: the drain by what a command answers (O5, O25), the port by the event the step takes. -/
theorem drainTakesOneCommand : Obligations.DrainTakesOneCommand := by
  refine ⟨fun s t d ws rest hp hq h => ?_, fun s d hp hq => ?_, fun s id ws rest hp hi hr => ?_,
    fun s id ws rest hp hi hr => ⟨step_waits hp hi hr, fun t => step_held hp hi hr⟩⟩
  · cases hd : decodePort ws with
    | ok i => exact step_drain_command hp hq hd h
    | error e =>
      rw [step_drain_noCommand hp hq hd] at h
      cases h
      exact ⟨by simp [hp], by simp, by simp, by simp⟩
  · have hstep := step_drain_empty hp hq
    exact ⟨_, hstep, step_drained hp hq hstep⟩
  · refine ⟨_, step_enqueue hp hi hr, ?_, cqFree_enqueue (s := { s with inputs := rest }) ?_,
      fun id' hne => (stageAt_enqueue_ne hne).trans ?_, ?_⟩
    · rw [stageAt_enqueue]; cases id <;> rfl
    · cases id <;> exact hr
    · cases id' <;> rfl
    · simp [enqueue, hp]

end Queue

section Store

/-! ## The load and the store (R416 to R419) -/

variable {s : State} {c : Config} {m : Memory} {x : Block}

/-- A store that can read every word puts out what it reads. -/
theorem bufStore_of_reads {b : Byte} {n i : Nat} {vs : List F32} (hl : vs.length = n)
    (h : ∀ k < n, bufRead m b (i + k) = vs[k]?) : bufStore m b n i = .ok vs := by
  obtain ⟨ws, hws⟩ := bufStore_of_written (m := m) (b := b) (n := n) (i := i) fun k hk => by
    rw [h k hk, List.getElem?_eq_getElem (by omega)]; rfl
  obtain ⟨hlen, hread⟩ := bufStore_ok hws
  have heq : ws = vs := by
    refine List.ext_getElem? fun k => ?_
    by_cases hk : k < n
    · rw [← hread k hk, h k hk]
    · rw [List.getElem?_eq_none (by omega), List.getElem?_eq_none (by omega)]
  rw [hws, heq]

theorem storeBlock_eq (h0 : bufStore m 0 c.blksz 0 = .ok x.ch0) (h1 : bufStore m 1 c.blksz 0 = .ok x.ch1) :
    storeBlock c m = .ok x := by
  unfold storeBlock
  rw [h0, h1]

/-- What a store that can read every word of the block puts out (R419). -/
theorem storeBlock_of_written (h : blockWritten c m = true) :
    ∃ out, storeBlock c m = .ok out ∧ out.ch0.length = c.blksz ∧ out.ch1.length = c.blksz
      ∧ ∀ i < c.blksz, out.ch0[i]? = bufRead m 0 i ∧ out.ch1[i]? = bufRead m 1 i := by
  have hw := blockWritten_iff.1 h
  obtain ⟨l0, h0⟩ := bufStore_of_written (m := m) (b := 0) (n := c.blksz) (i := 0) fun k hk => by
    rw [Nat.zero_add]; exact (hw k hk).1
  obtain ⟨l1, h1⟩ := bufStore_of_written (m := m) (b := 1) (n := c.blksz) (i := 0) fun k hk => by
    rw [Nat.zero_add]; exact (hw k hk).2
  obtain ⟨hl0, hr0⟩ := bufStore_ok h0
  obtain ⟨hl1, hr1⟩ := bufStore_ok h1
  simp only [Nat.zero_add] at hr0 hr1
  exact ⟨⟨l0, l1⟩, storeBlock_eq h0 h1, hl0, hl1, fun i hi => ⟨(hr0 i hi).symm, (hr1 i hi).symm⟩⟩

theorem blksz_le (h : Config.wf c = true) : c.blksz ≤ 65535 := by
  simp only [Config.wf, Config.sizesOk, Bool.and_eq_true, decide_eq_true_eq] at h
  casesm* _ ∧ _
  omega

/-- A block loaded and stored is the block, bit for bit (R418, R419). -/
theorem storeBlock_load (hc : Config.wf c = true) (hx : blockShaped c x = true) (m : Memory) :
    storeBlock c (loadBlock x m) = .ok x := by
  have hle := blksz_le hc
  simp only [blockShaped, Bool.and_eq_true, beq_iff_eq] at hx
  obtain ⟨hl0, hl1⟩ := hx
  refine storeBlock_eq (bufStore_of_reads hl0 fun k hk => ?_) (bufStore_of_reads hl1 fun k hk => ?_)
  · rw [loadBlock, bufRead_load _ _ _ _ _ _ (by omega) (by omega), if_neg (by simp),
      bufRead_load _ _ _ _ _ _ (by omega) (by omega), if_pos ⟨rfl, by omega, by omega⟩]
    simp
  · rw [loadBlock, bufRead_load _ _ _ _ _ _ (by omega) (by omega), if_pos ⟨rfl, by omega, by omega⟩]
    simp

theorem step_store (hp : s.phase = .store) {out : Block} (h : storeBlock s.cfg s.stage.buf = .ok out) :
    step s = .next (finish out (s.setStage { s.stage with fsm := .running })) := by
  simp only [step, hp, storeStep, h]

/-- Settles O23: on course every word of the block is written, so the store reads them all. -/
theorem storeAlwaysSucceeds : Obligations.StoreAlwaysSucceeds := by
  intro s hs hp
  simp only [State.onCourse, hp, Bool.and_eq_true] at hs
  obtain ⟨-, -, hwritten⟩ := hs
  obtain ⟨out, hout, hl0, hl1, hwords⟩ := storeBlock_of_written hwritten
  exact ⟨out, _, step_store hp hout, answerEnds_finish _ _ _, hl0, hl1, hwords⟩

/-! ## The dispatch of an effect that passes its block through (R385, R416, R417) -/

theorem effectReady_iff {st : Stage} : effectReady st = true ↔ st.effInit[st.effect.toNat]? = some true := by
  unfold effectReady
  cases st.effInit[st.effect.toNat]? <;> simp

theorem beginDispatch_ready (h : effectReady s.stage = true) :
    beginDispatch s =
      (s.setStage { s.stage with buf := loadBlock s.latch s.stage.buf, cp := 0 }).setPhase .program := by
  simp [beginDispatch, h, State.setBuf]

theorem beginDispatch_unready (h : effectReady s.stage = false) :
    beginDispatch s = (s.setStage { s.stage with buf := loadBlock s.latch s.stage.buf }).setPhase .store := by
  simp [beginDispatch, h, State.setBuf]

theorem decode_end : decode [0x00000000] = .ok .endProgram := by decide

/-- `END` met in a dispatch leads to the store and leaves `cp` (R135, R416). -/
theorem step_end (hp : s.phase = .program) (hw : programWords s = [0x00000000]) :
    step s = .next (s.setPhase .store) := by
  rw [stepRunsTheDecodedCommand.2 s _ .endProgram hp (hw ▸ decode_end) (exec_endProgram hp), if_pos rfl]

theorem run_step {u : State} (k : Nat) (h : step s = .next u) :
    Host.Core.run core (k + 1) s = Host.Core.run core k u := by
  have h' : core.step s = .next u := h
  simp only [Host.Core.run, h']

/-- A store that follows the load and changes nothing but the phase in between ends the answer with the input block. -/
theorem step_store_loaded (hc : Config.wf s.cfg = true) (hx : blockShaped s.cfg s.latch = true) {st : Stage}
    (hb : st.buf = loadBlock s.latch s.stage.buf) :
    ∃ t, step ((s.setStage st).setPhase .store) = .next t ∧ AnswerEnds s { st with fsm := .running } s.latch t := by
  have hout : storeBlock ((s.setStage st).setPhase .store).cfg ((s.setStage st).setPhase .store).stage.buf =
      .ok s.latch := by
    simpa [hb] using storeBlock_load hc hx s.stage.buf
  refine ⟨_, step_store rfl hout, ?_⟩
  rw [stage_setPhase, stage_setStage, setStage_setPhase, setStage_setStage, finish_setPhase]
  exact answerEnds_finish _ _ _

theorem step_drain_dispatch (hp : s.phase = .drain true) (hq : s.stage.cq = []) : step s = .next (beginDispatch s) :=
  step_drain_empty hp hq

/-- Settles O10: the load, `END` if there is a program, and the store that reads the loaded words. -/
theorem effectPassThrough : Obligations.EffectPassThrough := by
  refine ⟨fun s hp hq => ?_, fun s hc hp hq hx => ⟨fun hr => ?_, fun hr hprog => ?_⟩⟩
  · rw [step_drain_dispatch hp hq]
    cases hr : effectReady s.stage
    · rw [beginDispatch_unready hr, if_neg (by rw [← effectReady_iff, hr]; simp)]; rfl
    · rw [beginDispatch_ready hr, if_pos (effectReady_iff.1 hr)]; rfl
  · obtain ⟨t, hstore, hends⟩ :=
      step_store_loaded hc hx (st := { s.stage with buf := loadBlock s.latch s.stage.buf }) rfl
    refine ⟨t, ?_, hends⟩
    rw [run_step 1 (step_drain_dispatch hp hq), beginDispatch_unready hr, run_step 0 hstore]
    rfl
  · obtain ⟨t, hstore, hends⟩ :=
      step_store_loaded hc hx (st := { s.stage with buf := loadBlock s.latch s.stage.buf, cp := 0 }) rfl
    refine ⟨t, ?_, hends⟩
    have hwords : programWords (beginDispatch s) = [0x00000000] := by
      simp [beginDispatch_ready hr, programWords, hprog]
    have hphase : (beginDispatch s).phase = .program := by simp [beginDispatch_ready hr]
    rw [run_step 2 (step_drain_dispatch hp hq), run_step 1 (step_end hphase hwords), beginDispatch_ready hr,
      setPhase_setPhase, run_step 0 hstore]
    rfl

end Store

section Handoff

/-! ## The hand-off (R80, R424) -/

/-- Stage A's answer, where it ends, appends its output block to the hand-off; nothing else changes it. -/
def HandsOff (s t : State) : Prop :=
  t.handoff = if s.cur = .A ∧ t.phase = .between then s.handoff ++ [t.a.out] else s.handoff

variable {s t : State} {i : Instr}

theorem HandsOff.of_kept (hh : t.handoff = s.handoff) (hp : t.phase ≠ .between) : HandsOff s t := by
  rw [HandsOff, if_neg fun h => hp h.2, hh]

theorem handsOff_finish (s : State) (out : Block) : HandsOff s (finish out s) := by
  unfold HandsOff
  rw [handoff_finish, phase_finish]
  by_cases hc : s.cur = .A
  · have hout : (finish out s).a.out = out := by rw [← a_of_cur (by rw [cur_finish, hc]), stage_finish]
    rw [if_pos hc, if_pos ⟨hc, rfl⟩, hout]
  · rw [if_neg hc, if_neg fun h => hc h.1]

theorem HandsOff.of_eq {u : State} (h : HandsOff u t) (hcur : u.cur = s.cur) (hh : u.handoff = s.handoff) :
    HandsOff s t := by
  unfold HandsOff at h ⊢; rwa [hcur, hh] at h

theorem handsOff_arrive (late : Bool) (x : Block) (s : State) : HandsOff s (arrive late x s) := by
  rcases arrive_cases late x s with ⟨-, h⟩ | h | h <;> rw [h]
  · exact .of_kept (by simp) (by simp)
  · exact .of_kept (by simp) (by simp)
  · exact (handsOff_finish _ _).of_eq (by simp) (by simp)

/-- No command ends an answer: `END` leads to the store (R135, R416). -/
theorem exec_phase_ne_between (h : exec i s = .next t) (hp : s.phase ≠ .between) : t.phase ≠ .between := by
  rcases exec_answers h with ⟨-, -, rfl⟩ | ⟨st, -, -, rfl⟩
  · simp
  · simpa using hp

theorem advanceIfRunning_phase {n : Nat} {r : Result} (h : advanceIfRunning n r = .next t) :
    ∃ u, r = .next u ∧ t.phase = u.phase := by
  match r, h with
  | .next u, h =>
    cases h
    refine ⟨u, rfl, ?_⟩
    split <;> simp [advance]

theorem beginDispatch_phase_ne (s : State) : (beginDispatch s).phase ≠ .between := by
  unfold beginDispatch; split <;> simp

theorem drainStep_handsOff {d : Bool} (hp : s.phase = .drain d) (h : drainStep d s = .next t) : HandsOff s t := by
  have hne : s.phase ≠ .between := by rw [hp]; simp
  unfold drainStep at h
  split at h
  · cases h
    cases d
    · exact handsOff_finish _ _
    · exact .of_kept (beginDispatch_acts s).handoff (beginDispatch_phase_ne s)
  · simp only at h
    split at h
    · exact .of_kept ((exec_acts h).handoff.trans (by simp)) (exec_phase_ne_between h (by simpa using hne))
    · rw [complete_next h]
      exact .of_kept (by simp) (by simpa using hne)

theorem programStep_handsOff (hp : s.phase = .program) (h : programStep s = .next t) : HandsOff s t := by
  refine .of_kept (programStep_acts h).handoff ?_
  unfold programStep at h
  split at h
  · obtain ⟨u, hu, hphase⟩ := advanceIfRunning_phase h
    rw [hphase]
    exact exec_phase_ne_between hu (by rw [hp]; simp)
  · cases h

theorem storeStep_handsOff (h : storeStep s = .next t) : HandsOff s t := by
  unfold storeStep at h
  split at h
  · cases h; exact (handsOff_finish _ _).of_eq (by simp) (by simp)
  · cases h

/-- Every step within an answer (R424). -/
theorem step_handsOff (hp : s.phase ≠ .between) (h : step s = .next t) : HandsOff s t := by
  unfold step at h
  split at h
  · rename_i hb; exact absurd hb hp
  · rename_i d hd; exact drainStep_handsOff hd h
  · rename_i hprog; exact programStep_handsOff hprog h
  · exact storeStep_handsOff h

/-- Stage B latches the block it is given, is Idle, or is overrun (R415). -/
theorem arrive_at_B (late : Bool) (x : Block) (hc : s.cur = .B) :
    ((arrive late x s).phase = .drain true ∧ (arrive late x s).latch = x)
      ∨ ((arrive late x s).phase = .drain false ∧ s.b.fsm = .idle)
      ∨ ((arrive late x s).phase = .between ∧ (arrive late x s).b.fsm = .overrun
        ∧ (arrive late x s).b.out = quiet s.cfg) := by
  have hb : (arrive late x s).b = (arrive late x s).stage := (b_of_cur (by rw [cur_arrive, hc])).symm
  rcases arrive_cases late x s with ⟨hidle, h⟩ | h | h
  · exact .inr (.inl ⟨by rw [h, phase_setPhase], b_of_cur hc ▸ hidle⟩)
  · exact .inl ⟨by rw [h, phase_setLatch, phase_setPhase], by rw [h, latch_setLatch]⟩
  · refine .inr (.inr ?_)
    rw [hb, h]
    simp [overrun, silence_eq_quiet]

/-- Settles O15: between two answers by the event the step takes, within one by `step_handsOff`. -/
theorem handoffIsInOrder : Obligations.HandoffIsInOrder := by
  refine fun s t h => ⟨fun hp => ?_, fun hp => step_handsOff hp h⟩
  have ht := step_takes hp h
  generalize nextInput (portReady s) s.inputs = e at ht
  cases ht with
  | waits => rfl
  | enqueue id ws rest => simp [enqueue]
  | arrivalA late x rest =>
    refine ⟨cur_arrive _ _ _, (handsOff_arrive late x { s with inputs := rest, cur := .A }).trans ?_⟩
    simp
  | arrivalB late rest hx =>
    rename_i x xs
    have hh : (arrive late x { s with inputs := rest, cur := .B, handoff := xs }).handoff = xs :=
      (handsOff_arrive late x _).trans (if_neg (by simp))
    exact ⟨cur_arrive _ _ _, x, by rw [hh, hx], arrive_at_B late x rfl⟩
  | reset rest => rfl

end Handoff

end Sys2Proof.Machine
end

section
/-! SUPPORT. The command words (`30_encoding.md`): what the decoder reads from the words a command encodes to (O1), that it
reads a command from no other words (O2), that it reads none where the opcode is not in the table (O3), and the worked
encodings (O4). -/

namespace Sys2Proof

section DecodeEncode

/-! ## Decoding an encoding (R100 to R104) -/

theorem oneSource_sizeWord (n : BitVec 16) (ops : List Word) (k : BitVec 16 → Instr) :
    oneSource true (sizeWord 0 n :: ops) k = .ok (k n) := by
  simp only [oneSource, sizeZero_sizeWord, sizeBs2_sizeWord, sizeN_sizeWord]
  rfl

theorem twoSources_sizeWord (bs2 : Byte) (n : BitVec 16) (ops : List Word) (k : Byte → BitVec 16 → Instr) :
    twoSources true (sizeWord bs2 n :: ops) k = .ok (k bs2 n) := by
  simp only [twoSources, sizeZero_sizeWord, sizeBs2_sizeWord, sizeN_sizeWord]
  rfl

theorem encode_length (i : Instr) : (encode i).length = i.length := by cases i <;> rfl

/-- A command decodes from its own words, whatever follows them. -/
theorem decode_encode_append (i : Instr) (rest : List Word) : decode (encode i ++ rest) = .ok i := by
  cases i
  all_goals
    simp only [encode, List.cons_append, decode]
    unfold decodeHead
    rw [headOp_headWord, headInst_headWord, headBs_headWord, headBd_headWord]
  case mix2 | vdRead | amRead => exact twoSources_sizeWord _ _ _ _
  case copy | clear | gain | bqRead | dlRead | mtRead | apRead | cpRead | clRead | syRead | zcRead | smRead | atRead =>
    exact oneSource_sizeWord _ _ _
  all_goals rfl

/-- A command's words alone are one whole command (log 11). -/
theorem decodePort_encode (i : Instr) : decodePort (encode i) = .ok i := by
  have h := decode_encode_append i []
  rw [List.append_nil] at h
  simp only [decodePort, h, encode_length, if_true]

/-- Settles O1. -/
theorem everyCommandDecodesFromItsEncoding : Obligations.EveryCommandDecodesFromItsEncoding := fun i rest =>
  ⟨decode_encode_append i rest, decodePort_encode i⟩

/-- Settles O4: each row of words is the encoding of its command. -/
theorem workedEncodingsDecode : Obligations.WorkedEncodingsDecode :=
  ⟨decodePort_encode .endProgram, decodePort_encode (.copy 0 1 32), decodePort_encode (.mix2 0 2 1 32),
    decodePort_encode (.gain 0 0 8 0x3F000000), decodePort_encode (.bqRead 3 0 1 32),
    decodePort_encode (.bqSetup 0 0 10 0x447A0000 0x3F000000 0 0x473B8000),
    decodePort_encode (.bqModFreq 0 0x44FA0000), decodePort_encode (.dlSetup 1 4 0x3F000000 0x3F800000 0),
    decodePort_encode (.stSelect 2), decodePort_encode (.syStop 0)⟩

end DecodeEncode

section OneEncoding

/-! ## One encoding for each command (R102, R104, R117) -/

variable {w x : Word} {ops : List Word} {z : Bool} {i : Instr} {n : Nat}

/-! ### The head word, by the fields that must be zero -/

theorem headWord_full (hop : (headOp w).toNat = n) :
    headWord (BitVec.ofNat 8 n) (headInst w) (headBs w) (headBd w) = w := by
  rw [← hop, BitVec.ofNat_toNat, BitVec.setWidth_eq, headWord_fields]

theorem headWord_bare (hop : (headOp w).toNat = n) (hz : (headBs w == 0 && headBd w == 0) = true) :
    headWord (BitVec.ofNat 8 n) (headInst w) 0 0 = w := by
  have hw := headWord_full hop
  simp only [Bool.and_eq_true, beq_iff_eq] at hz
  obtain ⟨hbs, hbd⟩ := hz
  rwa [hbs, hbd] at hw

theorem headWord_noInst (hop : (headOp w).toNat = n) (hz : (headInst w == 0) = true) :
    headWord (BitVec.ofNat 8 n) 0 (headBs w) (headBd w) = w := by
  have hw := headWord_full hop
  rwa [beq_iff_eq.1 hz] at hw

theorem headWord_noBd (hop : (headOp w).toNat = n) (hz : (headBd w == 0) = true) :
    headWord (BitVec.ofNat 8 n) (headInst w) (headBs w) 0 = w := by
  have hw := headWord_full hop
  rwa [beq_iff_eq.1 hz] at hw

theorem headWord_noInst_noBs (hop : (headOp w).toNat = n) (hz : (headInst w == 0 && headBs w == 0) = true) :
    headWord (BitVec.ofNat 8 n) 0 0 (headBd w) = w := by
  rw [Bool.and_eq_true] at hz
  obtain ⟨hinst, hbs⟩ := hz
  have hw := headWord_noInst hop hinst
  rwa [beq_iff_eq.1 hbs] at hw

theorem headWord_blank (hop : (headOp w).toNat = n)
    (hz : (headInst w == 0 && (headBs w == 0 && headBd w == 0)) = true) : headWord (BitVec.ofNat 8 n) 0 0 0 = w := by
  rw [Bool.and_eq_true] at hz
  obtain ⟨hinst, hbare⟩ := hz
  have hw := headWord_bare hop hbare
  rwa [beq_iff_eq.1 hinst] at hw

/-! ### The words after it, by their number

Each says: if the zero fields make `w` the head word `x`, and `k` encodes with `x`, then what was read is what the words
begin with. -/

/-- The words begin with the encoding of the command. -/
def BeginsWith (ws : List Word) (i : Instr) : Prop := ∃ rest, ws = encode i ++ rest

theorem ifZero_ok {j : Instr} (h : ifZero z j = .ok i) : z = true ∧ j = i := by
  unfold ifZero at h
  split at h
  · cases h; exact ⟨‹_›, rfl⟩
  · cases h

theorem ifZero_begins {j : Instr} {args : List Word} (h : ifZero z j = .ok i) (hw : z = true → x = w)
    (rest : List Word) (henc : encode j = x :: args) : BeginsWith (w :: (args ++ rest)) i := by
  obtain ⟨hz, rfl⟩ := ifZero_ok h
  exact ⟨rest, by rw [henc, hw hz]; rfl⟩

theorem operands0_begins {j : Instr} (h : ifZero z j = .ok i) (hw : z = true → x = w)
    (henc : encode j = [x] := by intros; rfl) : BeginsWith (w :: ops) i := ifZero_begins h hw ops henc

theorem operands1_begins {k : Word → Instr} (h : operands1 z ops k = .ok i) (hw : z = true → x = w)
    (henc : ∀ a, encode (k a) = [x, a] := by intros; rfl) : BeginsWith (w :: ops) i := by
  match ops, h with
  | _ :: ops, h => exact ifZero_begins h hw ops (henc _)

theorem operands2_begins {k : Word → Word → Instr} (h : operands2 z ops k = .ok i) (hw : z = true → x = w)
    (henc : ∀ a b, encode (k a b) = [x, a, b] := by intros; rfl) : BeginsWith (w :: ops) i := by
  match ops, h with
  | _ :: _ :: ops, h => exact ifZero_begins h hw ops (henc _ _)

theorem operands3_begins {k : Word → Word → Word → Instr} (h : operands3 z ops k = .ok i) (hw : z = true → x = w)
    (henc : ∀ a b c, encode (k a b c) = [x, a, b, c] := by intros; rfl) : BeginsWith (w :: ops) i := by
  match ops, h with
  | _ :: _ :: _ :: ops, h => exact ifZero_begins h hw ops (henc _ _ _)

theorem operands4_begins {k : Word → Word → Word → Word → Instr} (h : operands4 z ops k = .ok i)
    (hw : z = true → x = w) (henc : ∀ a b c d, encode (k a b c d) = [x, a, b, c, d] := by intros; rfl) :
    BeginsWith (w :: ops) i := by
  match ops, h with
  | _ :: _ :: _ :: _ :: ops, h => exact ifZero_begins h hw ops (henc _ _ _ _)

theorem operands5_begins {k : Word → Word → Word → Word → Word → Instr} (h : operands5 z ops k = .ok i)
    (hw : z = true → x = w) (henc : ∀ a b c d e, encode (k a b c d e) = [x, a, b, c, d, e] := by intros; rfl) :
    BeginsWith (w :: ops) i := by
  match ops, h with
  | _ :: _ :: _ :: _ :: _ :: ops, h => exact ifZero_begins h hw ops (henc _ _ _ _ _)

theorem operands6_begins {k : Word → Word → Word → Word → Word → Word → Instr} (h : operands6 z ops k = .ok i)
    (hw : z = true → x = w)
    (henc : ∀ a b c d e f, encode (k a b c d e f) = [x, a, b, c, d, e, f] := by intros; rfl) :
    BeginsWith (w :: ops) i := by
  match ops, h with
  | _ :: _ :: _ :: _ :: _ :: _ :: ops, h => exact ifZero_begins h hw ops (henc _ _ _ _ _ _)

theorem operands7_begins {k : Word → Word → Word → Word → Word → Word → Word → Instr}
    (h : operands7 z ops k = .ok i) (hw : z = true → x = w)
    (henc : ∀ a b c d e f g, encode (k a b c d e f g) = [x, a, b, c, d, e, f, g] := by intros; rfl) :
    BeginsWith (w :: ops) i := by
  match ops, h with
  | _ :: _ :: _ :: _ :: _ :: _ :: _ :: ops, h => exact ifZero_begins h hw ops (henc _ _ _ _ _ _ _)

theorem operands8_begins {k : Word → Word → Word → Word → Word → Word → Word → Word → Instr}
    (h : operands8 z ops k = .ok i) (hw : z = true → x = w)
    (henc : ∀ a b c d e f g y, encode (k a b c d e f g y) = [x, a, b, c, d, e, f, g, y] := by intros; rfl) :
    BeginsWith (w :: ops) i := by
  match ops, h with
  | _ :: _ :: _ :: _ :: _ :: _ :: _ :: _ :: ops, h => exact ifZero_begins h hw ops (henc _ _ _ _ _ _ _ _)

theorem twoSources_begins {k : Byte → BitVec 16 → Instr} (h : twoSources z ops k = .ok i) (hw : z = true → x = w)
    (henc : ∀ bs2 m, encode (k bs2 m) = [x, sizeWord bs2 m] := by intros; rfl) : BeginsWith (w :: ops) i := by
  match ops, h with
  | w1 :: ops, h =>
    by_cases hz : sizeZero w1 = 0
    · rw [twoSources, beq_iff_eq.2 hz, Bool.and_true] at h
      exact ifZero_begins h hw ops (by rw [henc, sizeWord_fields w1 hz])
    · rw [twoSources, beq_eq_false_iff_ne.2 hz, Bool.and_false] at h
      cases h

/-- A size word without a second source, and `args` after it. -/
theorem oneSource_begins_of {k : BitVec 16 → Instr} {w1 : Word} {args : List Word}
    (h : oneSource z (w1 :: (args ++ ops)) k = .ok i) (hw : z = true → x = w)
    (henc : ∀ m, encode (k m) = x :: sizeWord 0 m :: args) : BeginsWith (w :: w1 :: (args ++ ops)) i := by
  obtain ⟨hzero, rfl⟩ := ifZero_ok h
  simp only [Bool.and_eq_true, beq_iff_eq] at hzero
  obtain ⟨⟨hz, h0⟩, h2⟩ := hzero
  have h1 := sizeWord_fields w1 h0
  rw [h2] at h1
  exact ⟨ops, by rw [henc, hw hz, h1]; rfl⟩

theorem oneSource_begins {k : BitVec 16 → Instr} (h : oneSource z ops k = .ok i) (hw : z = true → x = w)
    (henc : ∀ m, encode (k m) = [x, sizeWord 0 m] := by intros; rfl) : BeginsWith (w :: ops) i := by
  match ops, h with
  | _ :: _, h => exact oneSource_begins_of (args := []) h hw henc

/-- What is decoded at the front of a list of words is what they begin with. -/
theorem decode_begins {ws : List Word} (h : decode ws = .ok i) : BeginsWith ws i := by
  match ws, h with
  | w :: ops, h =>
    simp only [decode, decodeHead] at h
    split at h
    -- class 0
    next hop => exact operands0_begins h (headWord_blank hop)
    next hop => exact oneSource_begins h (headWord_noInst hop)
    next hop => exact oneSource_begins h (headWord_noInst_noBs hop)
    next hop => exact twoSources_begins h (headWord_noInst hop)
    next hop =>
      match ops, h with
      | _ :: g :: _, h => exact oneSource_begins_of (args := [g]) h (headWord_noInst hop) fun _ => rfl
    -- class 1
    next hop => exact operands6_begins h (headWord_bare hop)
    iterate 3 next hop => exact operands1_begins h (headWord_bare hop)
    next hop => exact oneSource_begins h fun _ => headWord_full hop
    -- class 2
    next hop => exact operands4_begins h (headWord_bare hop)
    iterate 4 next hop => exact operands1_begins h (headWord_bare hop)
    next hop => exact oneSource_begins h fun _ => headWord_full hop
    -- class 3
    next hop => exact operands1_begins h (headWord_bare hop)
    next hop => exact operands3_begins h (headWord_bare hop)
    next hop => exact oneSource_begins h fun _ => headWord_full hop
    -- class 4
    next hop => exact operands2_begins h (headWord_bare hop)
    next hop => exact oneSource_begins h fun _ => headWord_full hop
    -- class 5
    next hop => exact operands5_begins h (headWord_bare hop)
    iterate 4 next hop => exact operands1_begins h (headWord_bare hop)
    next hop => exact twoSources_begins h fun _ => headWord_full hop
    -- class 6
    next hop => exact operands7_begins h (headWord_bare hop)
    iterate 5 next hop => exact operands1_begins h (headWord_bare hop)
    next hop => exact oneSource_begins h fun _ => headWord_full hop
    -- class 7
    next hop => exact operands3_begins h (headWord_bare hop)
    next hop => exact operands1_begins h (headWord_bare hop)
    next hop => exact oneSource_begins h fun _ => headWord_full hop
    -- class 8
    next hop => exact operands3_begins h (headWord_blank hop)
    -- class 9
    next hop => exact operands4_begins h (headWord_bare hop)
    iterate 2 next hop => exact operands1_begins h (headWord_bare hop)
    next hop => exact twoSources_begins h fun _ => headWord_full hop
    -- class A
    next hop => exact operands8_begins h (headWord_bare hop)
    next hop => exact operands2_begins h (headWord_bare hop)
    next hop => exact operands0_begins h (headWord_bare hop)
    next hop => exact oneSource_begins h fun _ => headWord_full hop
    -- class B
    next hop => exact operands1_begins h (headWord_bare hop)
    next hop => exact oneSource_begins h (headWord_noBd hop)
    -- class C
    next hop => exact operands1_begins h (headWord_bare hop)
    next hop => exact oneSource_begins h fun _ => headWord_full hop
    -- class D
    next hop => exact operands2_begins h (headWord_bare hop)
    next hop => exact oneSource_begins h (headWord_noBd hop)
    -- class E
    next hop => exact operands0_begins h (headWord_blank hop)
    iterate 2 next hop => exact operands0_begins h (headWord_bare hop)
    next => cases h

/-- Settles O2: what the port decodes begins with the encoding and is no longer than it. -/
theorem everyCommandHasOneEncoding : Obligations.EveryCommandHasOneEncoding := by
  intro ws i h
  unfold decodePort at h
  split at h
  · cases h
  · rename_i j hj
    split at h
    · rename_i hlen
      cases h
      obtain ⟨rest, rfl⟩ := decode_begins hj
      rw [List.length_append, encode_length] at hlen
      rw [List.eq_nil_of_length_eq_zero (by omega : rest.length = 0), List.append_nil]
    · cases h

end OneEncoding

section UnknownOpcodes

/-! ## Opcodes outside the table (R104, R116) -/

/-- One command of each row of the opcode table (R104). -/
def tableRows : List Instr :=
  [.endProgram, .copy 0 0 0, .clear 0 0, .mix2 0 0 0 0, .gain 0 0 0 0, .bqSetup 0 0 0 0 0 0 0, .bqModFreq 0 0,
    .bqModQ 0 0, .bqModGain 0 0, .bqRead 0 0 0 0, .dlSetup 0 0 0 0 0, .dlModLen 0 0, .dlModFb 0 0, .dlModFt 0 0,
    .dlModDamp 0 0, .dlRead 0 0 0 0, .mtSetup 0 0, .mtSetTap 0 0 0 0, .mtRead 0 0 0 0, .apSetup 0 0 0, .apRead 0 0 0 0,
    .vdSetup 0 0 0 0 0 0, .vdModDepth 0 0, .vdModRate 0 0, .vdModFb 0 0, .vdModType 0 0, .vdRead 0 0 0 0 0,
    .cpSetup 0 0 0 0 0 0 0 0, .cpModThr 0 0, .cpModRatio 0 0, .cpModAtt 0 0, .cpModRel 0 0, .cpModGain 0 0,
    .cpRead 0 0 0 0, .clSetup 0 0 0 0, .clModThr 0 0, .clRead 0 0 0 0, .oscEval 0 0 0, .amSetup 0 0 0 0 0,
    .amModDepth 0 0, .amModRate 0 0, .amRead 0 0 0 0 0, .sySetup 0 0 0 0 0 0 0 0 0, .syPlay 0 0 0, .syStop 0,
    .syRead 0 0 0 0, .zcSetup 0 0, .zcRead 0 0 0, .smSetup 0 0, .smRead 0 0 0 0, .atSetup 0 0 0, .atRead 0 0 0, .stArm,
    .stSelect 0, .efSetup 0]

/-- The decoder has no row but those of commands (R116). -/
theorem decodeHead_unknown {w : Word} (ops : List Word)
    (hw : ∀ n ∈ tableRows.map (·.opcode.toNat), (headOp w).toNat ≠ n) :
    decodeHead w ops = .error .unknownOpcode := by
  simp only [decodeHead]
  split
  case h_56 => rfl
  all_goals exact absurd ‹(headOp w).toNat = _› (hw _ (by decide))

/-- No command is in class F (R105). -/
theorem opcode_lt (i : Instr) : i.opcode.toNat < 0xF0 := by
  unfold Instr.opcode
  split <;> decide

/-- Settles O3. -/
theorem unknownOpcodesDecodeToNothing : Obligations.UnknownOpcodesDecodeToNothing := by
  refine ⟨fun w ops hw => decodeHead_unknown ops fun n hn heq => ?_, opcode_lt⟩
  obtain ⟨i, -, rfl⟩ := List.mem_map.1 hn
  exact hw i (BitVec.eq_of_toNat_eq heq.symm)

end UnknownOpcodes

end Sys2Proof
end

section
/-! SUPPORT. The course of the machine (R120, R416 to R419): a command leaves written words written, no accepted command
is refused, and each phase of an answer leads to a state on course (O9, O22). -/

namespace Sys2Proof.Machine
open Sys2Proof

-- One theorem at a time: Lean would give each proof that waits a thread, and there are many.
set_option Elab.async false

section Written

/-! ## Written words stay written (R24, R25) -/

/-- Every buffer word written in `m` is written in `m'`. -/
def KeepsWritten (m m' : Memory) : Prop :=
  ∀ (b : Byte) (j : Nat), j < 65536 → (bufRead m b j).isSome → (bufRead m' b j).isSome

variable {α : Type} {bs bs2 bd : Byte} {n : BitVec 16} {m m' : Memory} {a a' : α}

theorem KeepsWritten.refl (m : Memory) : KeepsWritten m m := fun _ _ _ => id

theorem KeepsWritten.write (h : KeepsWritten m m') (b : Byte) (k : Nat) (v : Word) :
    KeepsWritten m (bufWrite m' b k v) := by
  intro c j hj hw
  unfold bufRead bufWrite
  rw [cellRead_write]
  split
  · rfl
  · exact h c j hj hw

/-- A loop whose every sample writes one word. -/
theorem forSamples_keepsWritten {β : Type} {body : Nat → β → Except Fault β} {mem : β → Memory} {k : Nat} {p q : β}
    (h : forSamples body k 0 p = .ok q) (hb : ∀ j p q, body j p = .ok q → ∃ v, mem q = bufWrite (mem p) bd j v) :
    KeepsWritten (mem p) (mem q) := by
  refine forSamples_inv (fun r => KeepsWritten (mem p) (mem r)) body k 0 p q (.refl _) (fun j r r' hr hs => ?_) h
  obtain ⟨v, hv⟩ := hb j r r' hs
  exact hv ▸ hr.write bd j v

theorem runThrough_keepsWritten {f : F32 → α → Except Fault (α × F32)} (h : runThrough bs bd n f a m = .ok (m', a')) :
    KeepsWritten m m' :=
  forSamples_keepsWritten (mem := Prod.fst) h fun _ _ _ hs =>
    let ⟨_, y, _, _, hw⟩ := sampleThrough_ok hs
    ⟨y, hw⟩

theorem runThrough2_keepsWritten {f : F32 → Option F32 → α → Except Fault (α × F32)}
    (h : runThrough2 bs bs2 bd n f a m = .ok (m', a')) : KeepsWritten m m' :=
  forSamples_keepsWritten (mem := Prod.fst) h fun _ _ _ hs =>
    let ⟨_, _, y, _, _, hw⟩ := sampleThrough2_ok hs
    ⟨y, hw⟩

theorem runFrom_keepsWritten {f : α → Except Fault (α × F32)} (h : runFrom bd n f a m = .ok (m', a')) :
    KeepsWritten m m' :=
  forSamples_keepsWritten (mem := Prod.fst) h fun _ _ _ hs =>
    let ⟨y, _, _, hw⟩ := sampleFrom_ok hs
    ⟨y, hw⟩

theorem copyBlock_keepsWritten (h : copyBlock bs bd n m = .ok m') : KeepsWritten m m' :=
  forSamples_keepsWritten (mem := id) h fun _ _ _ hs =>
    let ⟨x, _, hw⟩ := sampleCopy_ok hs
    ⟨x, hw⟩

theorem bqRun_keepsWritten {x y : Biquad} (h : bqRun bs bd n x m = .ok (m', y)) : KeepsWritten m m' := by
  unfold bqRun at h
  split at h
  · exact runThrough_keepsWritten h
  · cases h

variable {i : Instr} {s t : State}

/-- The answer touches no buffer. -/
@[simp] theorem buf_answered (code : ResultCode) (s : State) : (answered code s).stage.buf = s.stage.buf := by
  rcases answered_stage code s with h | h <;> rw [h]

theorem issue_keepsWritten {body : Result} (h : issue i s body = .next t)
    (hb : body = .next t → KeepsWritten s.stage.buf t.stage.buf) : KeepsWritten s.stage.buf t.stage.buf := by
  rcases issue_next h with ⟨-, hbody⟩ | ⟨-, -, rfl⟩
  · exact hb hbody
  · rw [buf_answered]; exact .refl _

/-- A command without an element that computes buffers. -/
theorem withBuffers_keepsWritten {r : Except Fault Memory}
    (h : issue i s (completeWith .ok s (withBuffers s.stage r)) = .next t)
    (hr : ∀ m, r = .ok m → KeepsWritten s.stage.buf m) : KeepsWritten s.stage.buf t.stage.buf := by
  refine issue_keepsWritten h fun hb => ?_
  obtain ⟨st, hst, rfl⟩ := completeWith_next hb
  match r, hst with
  | .ok m, rfl => simpa using hr m rfl

theorem buffersOf_keepsWritten {r : Except Fault (Memory × Unit)}
    (h : issue i s (completeWith .ok s (withBuffers s.stage (buffersOf r))) = .next t)
    (hr : ∀ m u, r = .ok (m, u) → KeepsWritten s.stage.buf m) : KeepsWritten s.stage.buf t.stage.buf := by
  refine withBuffers_keepsWritten h fun m hm => ?_
  match r, hm with
  | .ok (_, u), rfl => exact hr _ u rfl

/-- A read with a destination: the pass-through is a copy, and the element is put beside the buffers. -/
theorem readInto_keepsWritten {sl : Slot α} {inst : Byte} {run : α → Memory → Except Fault (Memory × α)}
    (h : issue i s (readElement sl inst (passCopy bs bd n) run s) = .next t)
    (hrun : ∀ x m m' y, run x m = .ok (m', y) → KeepsWritten m m')
    (hput : ∀ st x, (sl.put st inst x).buf = st.buf := by intros; rfl) : KeepsWritten s.stage.buf t.stage.buf := by
  refine issue_keepsWritten h fun hb => ?_
  rcases readElement_next hb with ⟨m, -, hp, rfl⟩ | ⟨x, m, -, -, hp, rfl⟩ | ⟨x, m, y, -, -, hr, rfl⟩
  · simpa using copyBlock_keepsWritten hp
  · simpa using copyBlock_keepsWritten hp
  · simpa [hput] using hrun x _ m y hr

/-- A command whose destination is not a buffer leaves the buffers; the others write words of theirs and erase none. -/
theorem exec_keepsWritten (h : exec i s = .next t) : KeepsWritten s.stage.buf t.stage.buf := by
  cases hd : destination i with
  | none =>
    intro b j hj hw
    rwa [(exec_frame h).buf b j hj fun bd k he => by rw [hd] at he; cases he]
  | some d =>
    cases i with
    | copy => exact withBuffers_keepsWritten h fun _ => copyBlock_keepsWritten
    | clear => exact buffersOf_keepsWritten h fun _ _ => runFrom_keepsWritten
    | mix2 => exact buffersOf_keepsWritten h fun _ _ => runThrough2_keepsWritten
    | gain => exact buffersOf_keepsWritten h fun _ _ => runThrough_keepsWritten
    | bqRead => exact readInto_keepsWritten h fun _ _ _ _ => bqRun_keepsWritten
    | dlRead | mtRead | apRead | cpRead | clRead | smRead =>
      exact readInto_keepsWritten h fun _ _ _ _ => runThrough_keepsWritten
    | vdRead | amRead => exact readInto_keepsWritten h fun _ _ _ _ => runThrough2_keepsWritten
    | syRead => exact readInto_keepsWritten h fun _ _ _ _ => runFrom_keepsWritten
    | _ => cases hd

theorem KeepsWritten.block {c : Config} (h : KeepsWritten m m') (hc : Config.wf c = true)
    (hw : blockWritten c m = true) : blockWritten c m' = true := by
  have hle := blksz_le hc
  rw [blockWritten_iff] at hw ⊢
  intro k hk
  exact ⟨h 0 k (by omega) (hw k hk).1, h 1 k (by omega) (hw k hk).2⟩

/-- What a store has read has been written (R419). -/
theorem blockWritten_of_storeBlock {c : Config} {out : Block} (h : storeBlock c m = .ok out) :
    blockWritten c m = true := by
  unfold storeBlock at h
  split at h
  · cases h
  · rename_i l0 h0
    split at h
    · cases h
    · rename_i l1 h1
      obtain ⟨hl0, hr0⟩ := bufStore_ok h0
      obtain ⟨hl1, hr1⟩ := bufStore_ok h1
      simp only [Nat.zero_add] at hr0 hr1
      refine blockWritten_iff.2 fun k hk => ?_
      rw [hr0 k hk, hr1 k hk]
      simp [hl0, hl1, hk]

end Written

section Refused

/-! ## No accepted command is refused (R120, R122) -/

variable {i : Instr} {s t : State} {r : Refusal}

theorem completeWith_ne_refused {code : ResultCode} {x : Except Fault Stage} : completeWith code s x ≠ .refused r := by
  cases x <;> nofun

section Contracts

variable {α : Type} {sl : Slot α} {inst : Byte}

theorem readElement_ne_refused {pass : Memory → Except Fault Memory} {run : α → Memory → Except Fault (Memory × α)} :
    readElement sl inst pass run s ≠ .refused r := by
  simp only [readElement]
  split
  · exact completeWith_ne_refused
  · split <;> exact completeWith_ne_refused

theorem setupElement_ne_refused {checks : List (Bool × ResultCode)} {build : α → Except Fault α} :
    setupElement sl inst checks build s ≠ .refused r := by
  simp only [setupElement]
  split
  · nofun
  · split
    · nofun
    · exact completeWith_ne_refused

theorem modifyElement_ne_refused {code : ResultCode} {apply : α → Except Fault α} :
    modifyElement sl inst code apply s ≠ .refused r := by
  simp only [modifyElement]
  split
  · nofun
  · split
    · exact completeWith_ne_refused
    · nofun

end Contracts

/-- A command is refused at its issue or not at all. -/
theorem exec_issues (i : Instr) (s : State) (r : Refusal) : ∃ body, exec i s = issue i s body ∧ body ≠ .refused r := by
  cases i with
  | endProgram => exact ⟨_, rfl, nofun⟩
  | copy | clear | mix2 | gain => exact ⟨_, rfl, completeWith_ne_refused⟩
  | oscEval =>
    refine ⟨_, rfl, ?_⟩
    split
    · nofun
    · split
      · nofun
      · exact completeWith_ne_refused
  | stArm => exact ⟨_, rfl, by split <;> nofun⟩
  | stSelect | efSetup => exact ⟨_, rfl, by split <;> nofun⟩
  | bqSetup | dlSetup | mtSetup | apSetup | vdSetup | cpSetup | clSetup | amSetup | sySetup | zcSetup | smSetup
  | atSetup => exact ⟨_, rfl, setupElement_ne_refused⟩
  | bqModFreq | bqModQ | bqModGain | dlModLen | dlModFb | dlModFt | dlModDamp | mtSetTap | vdModDepth | vdModRate
  | vdModFb | vdModType | cpModThr | cpModRatio | cpModAtt | cpModRel | cpModGain | clModThr | amModDepth | amModRate
  | syPlay | syStop => exact ⟨_, rfl, modifyElement_ne_refused⟩
  | bqRead | dlRead | mtRead | apRead | vdRead | cpRead | clRead | amRead | syRead | zcRead | smRead | atRead =>
    exact ⟨_, rfl, readElement_ne_refused⟩

/-- Only a program command that is not accepted is refused (R119, R120). -/
theorem exec_ne_refused (ha : s.inProgram = true → accepted i s = true) : exec i s ≠ .refused r := by
  obtain ⟨body, hexec, hbody⟩ := exec_issues i s r
  rw [hexec]
  cases hacc : accepted i s
  · have hport : s.inProgram = false := by
      by_contra hp
      rw [ha (by simpa using hp)] at hacc
      cases hacc
    rw [issue_illegal hport hacc]
    nofun
  · rwa [issue_accepted hacc]

end Refused

section Course

/-! ## What on course means, phase by phase (R416, R418, R419, R424) -/

/-- What on course says in every phase: a legal configuration, each stage at an effect of its own, and blocks in the
hand-off. -/
structure Footing (s : State) : Prop where
  legal : Config.wf s.cfg = true
  a : s.a.effect.toNat < s.cfg.nEffects
  b : s.b.effect.toNat < s.cfg.nEffects
  handoff : ∀ x ∈ s.handoff, blockShaped s.cfg x = true

/-- What on course says of each phase. -/
def PhaseOk (s : State) : Phase → Prop
  | .between => True
  | .drain false => s.stage.fsm = .idle ∨ s.stage.fsm = .armed
  | .drain true => blockShaped s.cfg s.latch = true ∧ s.stage.fsm ≠ .idle
  | .program => s.stage.fsm ≠ .idle ∧ programFrom s.cfg (programWords s).length (programWords s) = true
      ∧ blockWritten s.cfg s.stage.buf = true ∧ s.stage.cp.toNat + (programWords s).length ≤ 65535
  | .store => s.stage.fsm ≠ .idle ∧ blockWritten s.cfg s.stage.buf = true

variable {s t u : State} {i : Instr} {x : Block} {late d : Bool}

theorem Footing.iff_stages : Footing s ↔ Config.wf s.cfg = true ∧ s.stage.effect.toNat < s.cfg.nEffects
    ∧ s.other.effect.toNat < s.cfg.nEffects ∧ ∀ x ∈ s.handoff, blockShaped s.cfg x = true := by
  rcases stages_of_cur s with ⟨-, hs, ho⟩ | ⟨-, hs, ho⟩ <;> rw [hs, ho]
  · exact ⟨fun ⟨hc, ha, hb, hh⟩ => ⟨hc, ha, hb, hh⟩, fun ⟨hc, ha, hb, hh⟩ => ⟨hc, ha, hb, hh⟩⟩
  · exact ⟨fun ⟨hc, ha, hb, hh⟩ => ⟨hc, hb, ha, hh⟩, fun ⟨hc, hb, ha, hh⟩ => ⟨hc, ha, hb, hh⟩⟩

theorem onCourse_iff : s.onCourse = true ↔ Footing s ∧ PhaseOk s s.phase := by
  rw [Footing.iff_stages]
  unfold State.onCourse PhaseOk
  simp only [Bool.and_eq_true, decide_eq_true_eq, List.all_eq_true, and_assoc]
  refine and_congr_right fun _ => and_congr_right fun _ => and_congr_right fun _ => and_congr_right fun _ => ?_
  cases s.phase with
  | drain d => cases d <;> simp
  | between | program | store => simp [and_assoc]

/-- An effect index of a legal configuration names a well-formed program (R120, R376). -/
theorem Footing.program (hs : Footing s) :
    ∃ p, s.programs[s.stage.effect.toNat]? = some p ∧ programOk s.cfg p = true := by
  obtain ⟨hc, heffect, -, -⟩ := Footing.iff_stages.1 hs
  simp only [Config.wf, Config.programsOk, Bool.and_eq_true, decide_eq_true_eq, List.all_eq_true] at hc
  obtain ⟨-, ⟨⟨hlenA, hlenB⟩, hokA⟩, hokB⟩ := hc
  have hprograms : s.programs.length = s.cfg.nEffects ∧ ∀ p ∈ s.programs, programOk s.cfg p = true := by
    unfold State.programs
    cases s.cur
    exacts [⟨hlenA, hokA⟩, ⟨hlenB, hokB⟩]
  obtain ⟨hlen, hok⟩ := hprograms
  have hlt : s.stage.effect.toNat < s.programs.length := hlen.symm ▸ heffect
  exact ⟨_, List.getElem?_eq_getElem hlt, hok _ (List.getElem_mem hlt)⟩

/-- The first command of a well-formed program and what follows it (R120). -/
theorem programFrom_front {c : Config} {ws : List Word} (h : programFrom c ws.length ws = true) :
    ∃ i, decode ws = .ok i ∧ programCommand i = true ∧ legal c i = true
      ∧ (i ≠ .endProgram → programFrom c (ws.drop i.length).length (ws.drop i.length) = true) := by
  cases hk : ws.length with
  | zero => rw [hk] at h; cases h
  | succ k =>
    rw [hk] at h
    unfold programFrom at h
    split at h
    · cases h
    · rename_i i hi
      simp only [Bool.and_eq_true] at h
      obtain ⟨⟨hcommand, hlegal⟩, hrest⟩ := h
      refine ⟨i, hi, hcommand, hlegal, fun hne => ?_⟩
      rw [if_neg hne] at hrest
      exact programFrom_fuel hrest _ le_rfl

/-! ## What keeps the footing -/

/-- What moves the acting stage alone, to an effect of its own, and puts blocks in the hand-off. -/
theorem Footing.of_stages (hs : Footing s) (hcfg : t.cfg = s.cfg) (heffect : t.stage.effect.toNat < s.cfg.nEffects)
    (hother : t.other = s.other) (hh : ∀ x ∈ t.handoff, blockShaped s.cfg x = true) : Footing t := by
  obtain ⟨hc, -, ho, -⟩ := Footing.iff_stages.1 hs
  rw [Footing.iff_stages, hcfg, hother]
  exact ⟨hc, heffect, ho, hh⟩

theorem Footing.effect (hs : Footing s) : s.stage.effect.toNat < s.cfg.nEffects := (Footing.iff_stages.1 hs).2.1

theorem StageActs.footing (h : StageActs s t) (hs : Footing s) : Footing t :=
  hs.of_stages h.cfg (h.stage.effect hs.legal hs.effect) h.other fun x hx => hs.handoff x (h.handoff ▸ hx)

/-- An answer that ends with a block of the right shape. -/
theorem Footing.finish (hs : Footing s) {st : Stage} {out : Block} (he : st.effect = s.stage.effect)
    (hout : blockShaped s.cfg out = true) : (finish out (s.setStage st)).onCourse = true := by
  refine onCourse_iff.2 ⟨hs.of_stages (by simp) (by simpa [he] using hs.effect) (by simp) fun y hy => ?_,
    by rw [phase_finish]; trivial⟩
  rw [handoff_finish, cur_setStage, handoff_setStage] at hy
  split at hy
  · rcases List.mem_append.1 hy with hy | hy
    · exact hs.handoff y hy
    · rw [List.mem_singleton.1 hy]; exact hout
  · exact hs.handoff y hy

/-! ## The beginning of an answer -/

/-- Only a block of the right shape arrives at stage A (R79, log 13). -/
theorem arrivalA_shaped {rest : List Input} (hn : nextInput (portReady s) s.inputs = some (.arrivalA late x, rest))
    (h : inputStep s = .next t) : blockShaped s.cfg x = true := by
  simp only [inputStep, hn, arriveA] at h
  split at h
  · assumption
  · cases h

theorem arrive_idle (h : s.stage.fsm = .idle) : arrive late x s = s.counted.setPhase (.drain false) := by
  simp [arrive, h, State.counted]

/-- An arrival that overruns ends the answer with silence; any other begins the drain (R415). -/
theorem arrive_onCourse (late : Bool) (hs : Footing s) (hx : blockShaped s.cfg x = true) :
    (arrive late x s).onCourse = true := by
  have hcounted : Footing s.counted :=
    hs.of_stages (by simp) (by simpa [State.counted] using hs.effect) (by simp) (by simpa using hs.handoff)
  by_cases hidle : s.stage.fsm = .idle
  · rw [arrive_idle hidle]
    refine onCourse_iff.2 ⟨hcounted.of_stages rfl hcounted.effect rfl hcounted.handoff, .inl ?_⟩
    simpa [State.counted] using hidle
  · rcases arrive_cases late x s with ⟨he, -⟩ | he | he
    · exact absurd he hidle
    · rw [he]
      refine onCourse_iff.2 ⟨hcounted.of_stages rfl hcounted.effect rfl hcounted.handoff, ?_, ?_⟩
      · simpa using hx
      · simpa [State.counted] using hidle
    · rw [he]
      exact hcounted.finish rfl (blockShaped_silence _)

/-- Between two answers, by the event the step takes. -/
theorem inputStep_onCourse (hs : Footing s) (hp : s.phase = .between) (h : inputStep s = .next t) :
    t.onCourse = true := by
  have ht := inputStep_takes h
  cases hn : nextInput (portReady s) s.inputs with
  | none => rw [hn] at ht; cases ht; exact onCourse_iff.2 ⟨hs, by rw [hp]; trivial⟩
  | some e =>
    rw [hn] at ht
    cases ht with
    | enqueue id ws rest =>
      refine onCourse_iff.2 ⟨?_, by simp [enqueue, hp, PhaseOk]⟩
      cases id <;> exact ⟨hs.legal, hs.a, hs.b, hs.handoff⟩
    | arrivalA late x rest => exact arrive_onCourse late ⟨hs.legal, hs.a, hs.b, hs.handoff⟩ (arrivalA_shaped (s := s) hn h)
    | arrivalB late rest hx =>
      have hall := hs.handoff
      rw [hx, List.forall_mem_cons] at hall
      obtain ⟨hfirst, hrest⟩ := hall
      exact arrive_onCourse late ⟨hs.legal, hs.a, hs.b, hrest⟩ hfirst
    | reset rest => exact resetWith_onCourse hs.legal

/-! ## The drain -/

/-- Only `ST.ARM` changes `FSM`, and only from Idle to Armed (R156). -/
theorem exec_fsm (h : exec i s = .next t) :
    t.stage.fsm = s.stage.fsm ∨ (s.stage.fsm = .idle ∧ t.stage.fsm = .armed) := by
  by_cases hi : i = .stArm
  · subst hi
    have hanswered (code : ResultCode) (u : State) : (answered code u).stage.fsm = u.stage.fsm := by
      rcases answered_stage code u with e | e <;> rw [e]
    rcases issue_next h with ⟨-, hb⟩ | ⟨-, -, rfl⟩
    · split at hb
      · rename_i hidle
        rw [complete_next hb, hanswered, stage_setStage]
        exact .inr ⟨hidle, rfl⟩
      all_goals rw [complete_next hb, hanswered]; exact .inl rfl
    · exact .inl (hanswered _ _)
  · exact .inl ((exec_frame h).fsm hi)

/-- A drain step that takes a command moves the acting stage, and `FSM` at most from Idle to Armed (R412). -/
theorem step_drain_acts {ws : List Word} {rest : List (List Word)} (hp : s.phase = .drain d)
    (hq : s.stage.cq = ws :: rest) (h : step s = .next t) :
    StageActs s t ∧ (t.stage.fsm = s.stage.fsm ∨ (s.stage.fsm = .idle ∧ t.stage.fsm = .armed)) := by
  cases hd : decodePort ws with
  | ok i =>
    rw [stepRunsTheDecodedCommand.1 s d ws rest i hp hq hd] at h
    exact ⟨.of_dequeued hq (exec_acts h), by simpa using exec_fsm h⟩
  | error e =>
    simp only [step, hp, drainStep, hq, hd] at h
    refine ⟨complete_next h ▸ .of_dequeued hq ((StageActs.refl _).answered _), .inl ?_⟩
    rw [complete_next h]
    rcases answered_stage .illegalCommand (s.setStage { s.stage with cq := rest }) with he | he <;> rw [he] <;> simp

/-- A load writes every word of the block (R418). -/
theorem blockWritten_load (hs : Footing s) (hx : blockShaped s.cfg x = true) (m : Memory) :
    blockWritten s.cfg (loadBlock x m) = true :=
  blockWritten_of_storeBlock (storeBlock_load hs.legal hx m)

/-- A dispatch begins at the first command of a well-formed program, or at the store (R416, R417). -/
theorem beginDispatch_onCourse (hs : Footing s) (hx : blockShaped s.cfg s.latch = true) (hf : s.stage.fsm ≠ .idle) :
    (beginDispatch s).onCourse = true := by
  have hfoot := (beginDispatch_acts s).footing hs
  refine onCourse_iff.2 ⟨hfoot, ?_⟩
  have hwritten := blockWritten_load hs hx s.stage.buf
  cases hr : effectReady s.stage
  · rw [beginDispatch_unready hr]
    simpa [PhaseOk] using ⟨hf, hwritten⟩
  · obtain ⟨p, hp, hok⟩ := hs.program
    simp only [programOk, Bool.and_eq_true, decide_eq_true_eq] at hok
    obtain ⟨hprogram, hlen⟩ := hok
    have hwords : programWords (beginDispatch s) = p := by simp [beginDispatch_ready hr, programWords, hp]
    have hphase : (beginDispatch s).phase = .program := by simp [beginDispatch_ready hr]
    rw [hphase, PhaseOk, hwords]
    simpa [beginDispatch_ready hr] using ⟨hf, hprogram, hwritten, hlen⟩

theorem drainStep_onCourse (hs : Footing s) (hp : s.phase = .drain d) (hok : PhaseOk s (.drain d))
    (h : step s = .next t) : t.onCourse = true := by
  cases hq : s.stage.cq with
  | nil =>
    rw [step_drain_empty hp hq] at h
    cases h
    cases d with
    | false =>
      have hf := hs.finish (st := s.stage) rfl (blockShaped_silence s.cfg)
      rwa [setStage_stage] at hf
    | true =>
      obtain ⟨hlatch, hfsm⟩ := hok
      exact beginDispatch_onCourse hs hlatch hfsm
  | cons ws rest =>
    obtain ⟨hacts, hfsm⟩ := step_drain_acts hp hq h
    obtain ⟨hphase, -⟩ := drainTakesOneCommand.1 s t d ws rest hp hq h
    refine onCourse_iff.2 ⟨hacts.footing hs, ?_⟩
    rw [hphase]
    cases d with
    | false =>
      rcases hfsm with he | ⟨-, he⟩
      · exact (he.symm ▸ hok : t.stage.fsm = .idle ∨ t.stage.fsm = .armed)
      · exact .inr he
    | true =>
      obtain ⟨hlatch, hne⟩ := hok
      refine ⟨by rw [hacts.cfg, hacts.latch]; exact hlatch, ?_⟩
      rcases hfsm with he | ⟨-, he⟩ <;> rw [he]
      · exact hne
      · nofun

/-! ## The dispatch and the store -/

/-- What a step of a dispatch has done (R416). -/
theorem step_program_next (hp : s.phase = .program) (hd : decode (programWords s) = .ok i) (h : step s = .next t) :
    ∃ u, exec i s = .next u ∧ t = if i = .endProgram then u
      else u.setStage { u.stage with cp := u.stage.cp + BitVec.ofNat 16 i.length } := by
  cases he : exec i s with
  | next u =>
    rw [stepRunsTheDecodedCommand.2 s u i hp hd he] at h
    cases h
    exact ⟨u, rfl, rfl⟩
  | fault f => simp [step, hp, programStep, hd, he, advanceIfRunning] at h
  | refused r => simp [step, hp, programStep, hd, he, advanceIfRunning] at h

/-- After a command of a program the words from `cp` on are those behind the command. -/
theorem programWords_advanced (h : exec i s = .next u) (hi : programCommand i = true)
    (hlen : i.length ≤ (programWords s).length) (hcp : s.stage.cp.toNat + (programWords s).length ≤ 65535) :
    (u.stage.cp + BitVec.ofNat 16 i.length).toNat = s.stage.cp.toNat + i.length
      ∧ programWords (u.setStage { u.stage with cp := u.stage.cp + BitVec.ofNat 16 i.length }) =
        (programWords s).drop i.length := by
  have hframe := exec_frame h
  have hacts := exec_acts h
  have hadd : (u.stage.cp + BitVec.ofNat 16 i.length).toNat = s.stage.cp.toNat + i.length := by
    rw [hframe.cp, BitVec.toNat_add, BitVec.toNat_ofNat]
    omega
  have heffect : u.stage.effect = s.stage.effect := hframe.effect fun e he => by rw [he] at hi; cases hi
  have hprograms : u.programs = s.programs := by unfold State.programs; rw [hacts.cur, hacts.cfg]
  refine ⟨hadd, ?_⟩
  simp only [programWords, programs_setStage, stage_setStage, hprograms, heffect, hadd, List.drop_drop]

theorem programStep_onCourse (hs : Footing s) (hp : s.phase = .program) (hok : PhaseOk s .program)
    (h : step s = .next t) : t.onCourse = true := by
  obtain ⟨hf, hprogram, hwritten, hcp⟩ := hok
  obtain ⟨i, hd, hcommand, -, hrest⟩ := programFrom_front hprogram
  obtain ⟨u, he, rfl⟩ := step_program_next hp hd h
  have hu := (exec_acts he).footing hs
  have hcfg := (exec_acts he).cfg
  have hfsm : u.stage.fsm = s.stage.fsm := (exec_frame he).fsm fun hi => by rw [hi] at hcommand; cases hcommand
  have hwritten' : blockWritten u.cfg u.stage.buf = true := by
    rw [hcfg]; exact (exec_keepsWritten he).block hs.legal hwritten
  by_cases hi : i = .endProgram
  · subst hi
    rw [exec_endProgram hp] at he
    cases he
    exact onCourse_iff.2 ⟨hu, hf, hwritten⟩
  · obtain ⟨-, hlen⟩ := decode_length hd
    obtain ⟨hadd, hwords⟩ := programWords_advanced he hcommand hlen hcp
    rw [if_neg hi]
    refine onCourse_iff.2 ⟨hu.of_stages (by simp) (by simpa using hu.effect) (by simp) (by simpa using hu.handoff), ?_⟩
    rw [phase_setStage, exec_phase he hi, hp, PhaseOk, hwords]
    simp only [stage_setStage, cfg_setStage, hfsm, hadd, List.length_drop]
    exact ⟨hf, by rw [hcfg, ← List.length_drop]; exact hrest hi, hwritten', by omega⟩

theorem storeStep_onCourse (hs : Footing s) (hp : s.phase = .store) (h : step s = .next t) : t.onCourse = true := by
  simp only [step, hp, storeStep] at h
  split at h
  · rename_i out hout
    cases h
    exact hs.finish rfl (blockShaped_storeBlock hout)
  · cases h

/-- Settles O22, phase by phase. -/
theorem stepKeepsTheCourse : Obligations.StepKeepsTheCourse := by
  intro s t hc h
  obtain ⟨hs, hok⟩ := onCourse_iff.1 hc
  cases hp : s.phase with
  | between => exact inputStep_onCourse hs hp (step_between hp ▸ h)
  | drain d => exact drainStep_onCourse hs hp (hp ▸ hok) h
  | program => exact programStep_onCourse hs hp (hp ▸ hok) h
  | store => exact storeStep_onCourse hs hp h

/-! ## What can be refused (R79, R120, R425) -/

theorem inputStep_refused {r : Refusal} (h : inputStep s = .refused r) : r = .handoffNotReady ∨ r = .malformedBlock := by
  unfold inputStep at h
  split at h
  · cases h
  · rename_i i rest hi
    cases i with
    | enqueue => cases h
    | reset => cases h
    | arrivalA =>
      simp only [arriveA] at h
      split at h
      · split at h <;> cases h
      · cases h; exact .inr rfl
    | arrivalB =>
      simp only [arriveB] at h
      split at h
      · cases h; exact .inl rfl
      · cases h

theorem step_drain_ne_refused {r : Refusal} (hp : s.phase = .drain d) : step s ≠ .refused r := by
  cases hq : s.stage.cq with
  | nil => rw [step_drain_empty hp hq]; nofun
  | cons ws rest =>
    cases hd : decodePort ws with
    | ok i =>
      rw [stepRunsTheDecodedCommand.1 s d ws rest i hp hq hd]
      exact exec_ne_refused fun hprog => by rw [inProgram_setStage, inProgram_of_drain hp] at hprog; cases hprog
    | error e => rw [step_drain_noCommand hp hq hd]; nofun

/-- The command at `cp` of a well-formed program is accepted. -/
theorem step_program_ne_refused {r : Refusal} (hp : s.phase = .program) (hok : PhaseOk s .program) :
    step s ≠ .refused r := by
  obtain ⟨-, hprogram, -, -⟩ := hok
  obtain ⟨i, hd, hcommand, hlegal, -⟩ := programFrom_front hprogram
  have hne := exec_ne_refused (s := s) (i := i) (r := r) fun hprog => by simp [accepted, hprog, hcommand, hlegal]
  intro h
  simp only [step, hp, programStep, hd] at h
  cases he : exec i s with
  | next u => rw [he] at h; cases h
  | fault f => rw [he] at h; cases h
  | refused r' => rw [he] at h; cases h; exact hne he

theorem step_store_ne_refused {r : Refusal} (hp : s.phase = .store) : step s ≠ .refused r := by
  simp only [step, hp, storeStep]
  split <;> nofun

/-- Settles O9, phase by phase. -/
theorem onlyArrivalsAreRefused : Obligations.OnlyArrivalsAreRefused := by
  intro s r hc h
  obtain ⟨-, hok⟩ := onCourse_iff.1 hc
  cases hp : s.phase with
  | between => exact ⟨rfl, inputStep_refused (step_between hp ▸ h)⟩
  | drain d => exact absurd h (step_drain_ne_refused hp)
  | program => exact absurd h (step_program_ne_refused hp (hp ▸ hok))
  | store => exact absurd h (step_store_ne_refused hp)

end Course

end Sys2Proof.Machine
end

section
/-! SUPPORT. The reading commands and the buffer utilities (`40_control_and_buffer.md` to `48_synth.md`): one sample of
each class is its recurrence where the recurrence faults nowhere, and one lemma for each kind of block loop carries that
over the block (R131). The reads (O47 to O58), the buffer utilities (O31) and the gain of 1.0 (O32) are read off them. -/

namespace Sys2Proof.Machine
open Sys2Proof

-- One theorem at a time: Lean would give each proof that waits a thread, and there are many.
set_option Elab.async false

section Runs

/-! ## A block of samples by its recurrence (R131) -/

/-- A per-sample function is the recurrence `rule`, with a finite output, wherever the recurrence is fine. -/
def Follows {α : Type} (f : F32 → α → Except Fault (α × F32)) (rule : F32 → α → α × F32) (ok : F32 → α → Bool) : Prop :=
  ∀ v a, ok v a = true → f v a = .ok (rule v a) ∧ isFinite (rule v a).2 = true

/-- The same with a second source, whose word `w` the function need have only where `needs` says it reads it. -/
def Follows2 {α : Type} (f : F32 → Option F32 → α → Except Fault (α × F32)) (rule : F32 × F32 → α → α × F32)
    (ok : F32 × F32 → α → Bool) (needs : α → Bool) : Prop :=
  ∀ v w o a, ok (v, w) a = true → (needs a = true → o = some w) →
    f v o a = .ok (rule (v, w) a) ∧ isFinite (rule (v, w) a).2 = true

variable {α : Type} {sl : Slot α} {i : Instr} {s : State} {inst bs bs2 bd : Byte} {n : BitVec 16} {x y : α}
  {xs ws : List F32} {m : Memory} {pass : Memory → Except Fault Memory}
  {run : α → Memory → Except Fault (Memory × α)}

theorem runThrough_eq {f : F32 → α → Except Fault (α × F32)} {rule : F32 → α → α × F32} {ok : F32 → α → Bool}
    (hf : Follows f rule ok) (hs : bufStore m bs n.toNat 0 = .ok xs) (hok : always rule ok xs x = true) :
    runThrough bs bd n f x m = .ok (bufLoad bd 0 (scan rule xs x).2 m, (scan rule xs x).1) :=
  runThrough_loop bs bd f rule ok hf n.toNat 0 xs m x (by have := n.isLt; omega) hs hok

theorem runThrough2_eq {f : F32 → Option F32 → α → Except Fault (α × F32)} {rule : F32 × F32 → α → α × F32}
    {ok : F32 × F32 → α → Bool} {needs : α → Bool} (hf : Follows2 f rule ok needs)
    (hneeds : ∀ v a, needs (rule v a).1 = needs a) (hs : bufStore m bs n.toNat 0 = .ok xs) (hl : ws.length = n.toNat)
    (hw : needs x = true → bufStore m bs2 n.toNat 0 = .ok ws) (hok : always rule ok (xs.zip ws) x = true) :
    runThrough2 bs bs2 bd n f x m =
      .ok (bufLoad bd 0 (scan rule (xs.zip ws) x).2 m, (scan rule (xs.zip ws) x).1) :=
  runThrough2_loop bs bs2 bd f rule ok needs hf hneeds n.toNat 0 xs ws m x (by have := n.isLt; omega) hs hl hw hok

theorem runInto_eq {f : F32 → α → Except Fault α} {rule : F32 → α → α × F32} {ok : F32 → α → Bool}
    (hf : ∀ v a, ok v a = true → f v a = .ok (rule v a).1) (hs : bufStore m bs n.toNat 0 = .ok xs)
    (hok : always rule ok xs x = true) : runInto bs n f x m = .ok (scan rule xs x).1 :=
  runInto_loop bs f rule ok hf n.toNat 0 xs m x hs hok

theorem runFrom_eq {f : α → Except Fault (α × F32)} {rule : Unit → α → α × F32} {ok : Unit → α → Bool}
    (hf : ∀ a, ok () a = true → f a = .ok (rule () a) ∧ isFinite (rule () a).2 = true)
    (hok : always rule ok (List.replicate n.toNat ()) x = true) :
    runFrom bd n f x m =
      .ok (bufLoad bd 0 (scan rule (List.replicate n.toNat ()) x).2 m, (scan rule (List.replicate n.toNat ()) x).1) :=
  runFrom_loop bd f rule ok hf n.toNat 0 m x hok

/-- An accepted read of an element that is set up, by what its run computes (R132). -/
theorem issue_read (ha : accepted i s = true) (hx : sl.get s.stage inst = some x) (hr : sl.ready x = true)
    (hrun : run x s.stage.buf = .ok (m, y)) :
    issue i s (readElement sl inst pass run s) =
      .next (answered .ok (s.setStage (sl.put { s.stage with buf := m } inst y))) :=
  (issue_accepted ha).trans (readElement_run hx hr hrun)

/-- A condition on the element that every fine sample keeps holds at every sample. -/
theorem always_and {β : Type} {rule : β → α → α × F32} {ok : β → α → Bool} {good : α → Bool}
    (hkeep : ∀ v a, ok v a = true → good a = true → good (rule v a).1 = true) {vs : List β} {a : α}
    (hok : always rule ok vs a = true) (ha : good a = true) :
    always rule (fun v a => ok v a && good a) vs a = true := by
  induction vs generalizing a with
  | nil => rfl
  | cons v vs ih =>
    simp only [always, Bool.and_eq_true] at hok ⊢
    obtain ⟨hv, hvs⟩ := hok
    exact ⟨⟨hv, ha⟩, ih hvs (hkeep v a hv ha)⟩

/-- A quantity that no sample changes is after the block what it was before. -/
theorem scan_keeps {β γ : Type} {rule : β → α → α × F32} {q : α → γ} (hkeep : ∀ v a, q (rule v a).1 = q a)
    (vs : List β) (a : α) : q (scan rule vs a).1 = q a := by
  induction vs generalizing a with
  | nil => rfl
  | cons v vs ih => rw [scan_cons, ih, hkeep]

end Runs

section BufferCommands

/-! ## The buffer utilities (R136 to R140) -/

/-- The recurrence of a command without an element: each output is `g` of its inputs. -/
def stateless {β : Type} (g : β → F32) (v : β) (u : Unit) : Unit × F32 := (u, g v)

theorem scan_stateless {β : Type} (g : β → F32) (vs : List β) : (scan (stateless g) vs ()).2 = vs.map g := by
  induction vs with
  | nil => rfl
  | cons v vs ih => rw [scan_cons, List.map_cons, ← ih]; rfl

theorem always_stateless {β : Type} {g : β → F32} {vs : List β} (h : (vs.map g).all isFinite = true) :
    always (stateless g) (fun v _ => isFinite (g v)) vs () = true := by
  induction vs with
  | nil => rfl
  | cons v vs ih =>
    simp only [List.map_cons, List.all_cons, Bool.and_eq_true] at h
    obtain ⟨hv, hvs⟩ := h
    simp only [always, Bool.and_eq_true]
    exact ⟨hv, ih hvs⟩

variable {s : State} {bs bs2 bd : Byte} {n : BitVec 16} {xs ys : List F32}

theorem exec_copy (ha : accepted (.copy bs bd n) s = true) (hs : bufStore s.stage.buf bs n.toNat 0 = .ok xs) :
    exec (.copy bs bd n) s = .next (answered .ok (s.setBuf (bufLoad bd 0 xs s.stage.buf))) := by
  have hrun : copyBlock bs bd n s.stage.buf = .ok (bufLoad bd 0 xs s.stage.buf) := passCopy_ok hs
  refine (issue_accepted ha).trans ?_
  rw [hrun]; rfl

theorem exec_clear (ha : accepted (.clear bd n) s = true) :
    exec (.clear bd n) s =
      .next (answered .ok (s.setBuf (bufLoad bd 0 (List.replicate n.toNat 0x00000000) s.stage.buf))) := by
  have hzero : ((List.replicate n.toNat ()).map fun _ => fzero).all isFinite = true := by
    rw [List.map_replicate, List.all_replicate, show isFinite fzero = true by decide, ite_self]
  have hrun := runFrom_eq (bd := bd) (n := n) (m := s.stage.buf) (f := fun u => .ok (u, fzero))
    (fun _ h => ⟨rfl, h⟩) (always_stateless hzero)
  rw [scan_stateless, List.map_replicate] at hrun
  refine (issue_accepted ha).trans ?_
  rw [hrun]; rfl

/-- Two sources are added pairwise (R138). -/
theorem mixSample_follows :
    Follows2 mixSample (stateless fun p => fadd p.1 p.2) (fun p _ => isFinite (fadd p.1 p.2)) (fun _ => true) := by
  intro v w o u h ho
  rw [ho rfl]
  exact ⟨rfl, h⟩

theorem exec_mix2 (ha : accepted (.mix2 bs bs2 bd n) s = true) (hs : bufStore s.stage.buf bs n.toNat 0 = .ok xs)
    (hs2 : bufStore s.stage.buf bs2 n.toNat 0 = .ok ys) (hfin : (List.zipWith fadd xs ys).all isFinite = true) :
    exec (.mix2 bs bs2 bd n) s =
      .next (answered .ok (s.setBuf (bufLoad bd 0 (List.zipWith fadd xs ys) s.stage.buf))) := by
  have hzip : (xs.zip ys).map (fun p => fadd p.1 p.2) = List.zipWith fadd xs ys := List.map_zip_eq_zipWith
  rw [← hzip] at hfin
  obtain ⟨hlen, -⟩ := bufStore_ok hs2
  have hrun := runThrough2_eq (bd := bd) mixSample_follows (fun _ _ => rfl) hs hlen (fun _ => hs2) (always_stateless hfin)
  rw [scan_stateless, hzip] at hrun
  refine (issue_accepted ha).trans ?_
  rw [hrun]; rfl

theorem gainSample_follows (g : F32) :
    Follows (gainSample g) (stateless fun x => fmul x g) (fun x _ => isFinite (fmul x g)) :=
  fun _ _ h => ⟨rfl, h⟩

theorem exec_gain {g : F32} (ha : accepted (.gain bs bd n g) s = true)
    (hs : bufStore s.stage.buf bs n.toNat 0 = .ok xs) (hfin : (xs.map fun x => fmul x g).all isFinite = true) :
    exec (.gain bs bd n g) s =
      .next (answered .ok (s.setBuf (bufLoad bd 0 (xs.map fun x => fmul x g) s.stage.buf))) := by
  have hrun := runThrough_eq (bd := bd) (gainSample_follows g) hs (always_stateless hfin)
  rw [scan_stateless] at hrun
  refine (issue_accepted ha).trans ?_
  rw [hrun]; rfl

/-- Settles O31: each utility is a loop without an element. -/
theorem bufferUtilities : Obligations.BufferUtilities :=
  ⟨fun _ _ _ _ _ => exec_copy, fun _ _ _ => exec_clear, fun _ _ _ _ _ _ _ => exec_mix2,
    fun _ _ _ _ _ _ => exec_gain⟩

/-- Multiplication by 1.0 rounds nothing: the significand is shifted by 23 and the exponent lowered by as much. -/
theorem fmul_fone {x : F32} (hx : isFinite x = true) : fmul x fone = x := by
  have h1 : isFinite fone = true := by decide
  have hsign : (fsign x != fsign fone) = fsign x := by
    rw [show fsign fone = false by decide, Bool.bne_false]
  have hscale : (fscale x : Int) + (fscale fone : Int) - 300 = (fscale x : Int) - 150 - (23 : Nat) := by
    rw [show fscale fone = 127 by decide]; omega
  unfold fmul
  simp only [not_isNaN hx, not_isNaN h1, not_isInf hx, not_isInf h1, Bool.or_false, Bool.false_eq_true, if_false]
  rw [hsign, hscale, show fmant fone = 2 ^ 23 by decide]
  exact roundPack_exact hx 23

/-- Settles O32: every product with 1.0 is its other factor. -/
theorem gainByOneIsACopy : Obligations.GainByOneIsACopy := by
  intro bs bd n s xs ha hs hfin
  have hid : xs.map (fun x => fmul x 0x3F800000) = xs :=
    (List.map_congr_left fun x hx => fmul_fone (List.all_eq_true.1 hfin x hx)).trans (List.map_id xs)
  have hexec := exec_gain ha hs (by rw [hid]; exact hfin)
  rwa [hid] at hexec

end BufferCommands

section Reads

/-! ## One sample of each class is its recurrence

The recurrence of a class is finite at a sample exactly where the meaning's guard lets it through. -/

variable {v : F32} {cap : Nat}

theorem guardFinite_one {α : Type} {w : F32} {a : α} (h : isFinite w = true) : guardFinite [w] a = .ok a :=
  guardFinite_ok _ _ (by simpa using h)

theorem all_isFinite_pair {v w : F32} (h1 : isFinite v = true) (h2 : isFinite w = true) :
    [v, w].all isFinite = true := by simp [h1, h2]

/-! ### Smoother and tracker (R146, R148, R151) -/

theorem smSample_follows : Follows smSample smRule smFine :=
  fun _ _ h => ⟨guardFinite_one h, h⟩

/-- Settles O47. -/
theorem smReadSmooths : Obligations.SmReadSmooths := fun _ _ _ _ _ _ _ ha hx hr hs hok =>
  issue_read (sl := smSlot) ha hx hr (runThrough_eq smSample_follows hs hok)

theorem atSample_eq {k : Tracker} (h : atFine v k = true) : atSample v k = .ok (atRule v k).1 := by
  have hguard : atSample v k = guardFinite [(atRule v k).1.acc] (atRule v k).1 := by
    unfold atSample atRule
    cases k.mode
    · rfl
    · simp only [onepole_eq_smoothed]
  rw [hguard]
  exact guardFinite_one h

theorem atRule_mode (v : F32) (k : Tracker) : (atRule v k).1.mode = k.mode := by
  unfold atRule; split <;> rfl

theorem atLevel_eq (k : Tracker) : atLevel k = if k.mode = .peak then k.acc else fsqrt k.acc := by
  unfold atLevel; cases k.mode <;> simp

/-- The loop keeps the mode, so the level after it is that of the element's own mode (R151). -/
theorem atRun_eq {bs : Byte} {n : BitVec 16} {x : Tracker} {xs : List F32} {m : Memory} {level : F32}
    (hs : bufStore m bs n.toNat 0 = .ok xs) (hok : always atRule atFine xs x = true)
    (hlevel : level = if x.mode = .peak then (scan atRule xs x).1.acc else fsqrt (scan atRule xs x).1.acc)
    (hfin : isFinite level = true) : atRun bs n x m = .ok (m, { (scan atRule xs x).1 with level := level }) := by
  have hl : atLevel (scan atRule xs x).1 = level := by
    rw [atLevel_eq, scan_keeps (q := Tracker.mode) atRule_mode, hlevel]
  unfold atRun
  rw [runInto_eq (fun _ _ => atSample_eq) hs hok]
  simp only [hl]
  exact guardFinite_one hfin

/-- Settles O48. -/
theorem atReadTracks : Obligations.AtReadTracks := fun _ _ _ _ _ _ ha hx hr hs hok hfin =>
  issue_read (sl := atSlot) ha hx hr (atRun_eq hs hok rfl hfin)

/-! ### Biquad (R191, R197, R198) -/

theorem bqSample_follows : Follows bqSample bqRule bqFine := by
  intro v b h
  simp only [bqFine, Bool.and_eq_true] at h
  obtain ⟨hw, hy⟩ := h
  exact ⟨guardFinite_ok _ _ (all_isFinite_pair hw hy), hy⟩

/-- The glide of R197 and the coefficients of what it reaches. -/
theorem bqStep_of_running {x : Biquad} (hc : x.count ≠ 0) :
    withCoeffs (bqGlide x) (bqCoeffs (bqGlide x).ty (bqGlide x).freq (bqGlide x).q (bqGlide x).gain (bqGlide x).fs) =
      bqStep x := by
  unfold bqStep bqGlide
  rw [if_neg hc]
  simp only [approach_eq_glided, bqCoeffs_eq_coeffsOf]
  split <;> rfl

theorem bqTransition_eq {x : Biquad}
    (h : x.count = 0 ∨ [(bqStep x).freq, (bqStep x).q, (bqStep x).gain, (bqStep x).A1, (bqStep x).A2, (bqStep x).B1,
      (bqStep x).B2, (bqStep x).scale].all isFinite = true) : bqTransition x = .ok (bqStep x) := by
  by_cases hc : x.count = 0
  · rw [bqTransition, bqStep, if_pos hc, if_pos hc]
  · have hfin := h.resolve_left hc
    rw [← bqStep_of_running hc] at hfin ⊢
    rw [bqTransition, if_neg hc]
    exact guardFinite_ok _ _ hfin

/-- Settles O49: one transition step, then the loop of the section. -/
theorem bqReadFilters : Obligations.BqReadFilters := by
  intro inst bs bd n s x xs ha hx hr hs y hstep hok
  have hrun : bqRun bs bd n x s.stage.buf = .ok (bufLoad bd 0 (scan bqRule xs y).2 s.stage.buf, (scan bqRule xs y).1) := by
    rw [bqRun, bqTransition_eq hstep]
    exact runThrough_eq bqSample_follows hs hok
  exact issue_read (sl := bqSlot) ha hx hr hrun

/-! ### Feedback delay (R217, R222) -/

theorem dlRamp_eq {x : FeedbackDelay} (h : x.rem = 0 ∨ (trunc (dlStep x).tapf).isSome = true) :
    dlRamp x = .ok (dlStep x) := by
  unfold dlRamp
  unfold dlStep at h ⊢
  by_cases hr : x.rem = 0
  · rw [if_pos hr, if_pos hr]
  · have htap : dlRampTap x (x.rem - 1) =
        if x.rem - 1 = 0 then u2f x.target.toNat else glided x.tapf x.tinc (u2f x.target.toNat) := by
      unfold dlRampTap; rw [approach_eq_glided]
    rw [if_neg hr] at h
    rw [if_neg hr, if_neg hr, htap]
    obtain ⟨k, hk⟩ := Option.isSome_iff_exists.1 (h.resolve_left hr)
    simp only at hk ⊢
    rw [hk]
    rfl

theorem ringBack_eq {wp t : Nat} (ht : 1 ≤ t) (hcap : t ≤ cap) (hwp : wp < cap) :
    ringBack cap wp t = some ((wp + cap - t) % cap) := if_pos ⟨ht, hcap, hwp⟩

theorem dlStep_ring (x : FeedbackDelay) : (dlStep x).ring = x.ring := by unfold dlStep; split <;> rfl

theorem dlStep_wp (x : FeedbackDelay) : (dlStep x).wp = x.wp := by unfold dlStep; split <;> rfl

/-- The recurrence is the line fed with the delayed value (R217). -/
theorem dlRule_eq (cap : Nat) (v : F32) (x : FeedbackDelay) :
    let y := dlStep x
    let r := dlFeed y v (ringRead y.ring ((y.wp.toNat + cap - y.tap.toNat) % cap))
    dlRule cap v x =
      ({ y with ring := ringWrite y.ring y.wp.toNat r.1, lp := r.2.1, wp := ringNext cap y.wp }, r.2.2) := by
  unfold dlRule dlFeed
  simp only [onepole_eq_smoothed]
  split <;> rfl

/-- A ring in canonical form stays so, the write pointer being below its capacity (R71, R72). -/
theorem dlRule_ringWf {x : FeedbackDelay} (hwp : x.wp.toNat < cap) (hring : x.ring.ringWf cap = true) :
    (dlRule cap v x).1.ring.ringWf cap = true := by
  rw [dlRule_eq]
  exact ringWf_write (by rwa [dlStep_ring]) (by rwa [dlStep_wp]) _

theorem dlSample_follows (cap : Nat) :
    Follows (dlSample cap) (dlRule cap) (fun v x => dlFine cap v x && x.ring.ringWf cap) := by
  intro v x h
  simp only [dlFine, Bool.and_eq_true, Bool.or_eq_true, decide_eq_true_eq] at h
  obtain ⟨⟨⟨⟨⟨⟨⟨hramp, htap⟩, hcap⟩, hwp⟩, hline⟩, hlp⟩, hout⟩, hring⟩ := h
  refine ⟨?_, hout⟩
  rw [← dlStep_ring] at hring
  rw [dlRule_eq] at hline hlp hout ⊢
  simp only [ringRead_write hring, dlStep_wp, if_true] at hline hlp hout ⊢
  unfold dlSample
  simp only [dlRamp_eq hramp, dlStep_wp, ringBack_eq htap hcap hwp]
  exact guardFinite_ok _ _ (by simp [hline, hlp, hout])

/-- Settles O50: the ring stays in canonical form, so the cell read back is the one written. -/
theorem dlReadDelays : Obligations.DlReadDelays := by
  intro inst bs bd n s x xs ha hx hr hs rule hring hok
  refine issue_read (sl := dlSlot) ha hx hr (runThrough_eq (dlSample_follows _) hs
    (always_and (good := fun y => y.ring.ringWf (capOf s.cfg.dlCap inst)) (fun v y hfine => dlRule_ringWf ?_) hok hring))
  simp only [dlFine, Bool.and_eq_true, decide_eq_true_eq] at hfine
  obtain ⟨⟨⟨⟨-, hwp⟩, -⟩, -⟩, -⟩ := hfine
  exact hwp

/-! ### Multitap delay (R232) -/

theorem mtSum_eq {wp : Nat} {ring : Memory} (hwp : wp < cap) {taps : List (Word × F32)}
    (ht : ∀ t ∈ taps, 1 ≤ t.1.toNat ∧ t.1.toNat ≤ cap) (acc : F32) :
    mtSum cap wp ring taps acc =
      .ok (taps.foldl (fun acc t => fadd acc (fmul t.2 (ringRead ring ((wp + cap - t.1.toNat) % cap)))) acc) := by
  induction taps generalizing acc with
  | nil => rfl
  | cons t taps ih =>
    obtain ⟨⟨hlo, hhi⟩, hrest⟩ := List.forall_mem_cons.1 ht
    rw [mtSum, ringBack_eq hlo hhi hwp, List.foldl_cons]
    exact ih hrest _

theorem mtSample_follows (cap : Nat) : Follows (mtSample cap) (mtRule cap) (mtFine cap) := by
  intro v x h
  simp only [mtFine, Bool.and_eq_true, List.all_eq_true, decide_eq_true_eq] at h
  obtain ⟨⟨⟨htaps, hwp⟩, hv⟩, hsum⟩ := h
  refine ⟨?_, hsum⟩
  unfold mtSample
  rw [mtSum_eq hwp htaps]
  simp only [if_pos hwp]
  exact guardFinite_ok _ _ (all_isFinite_pair hv hsum)

/-- Settles O51. -/
theorem mtReadSumsTheTaps : Obligations.MtReadSumsTheTaps := fun _ _ _ _ _ _ _ ha hx hr hs hok =>
  issue_read (sl := mtSlot) ha hx hr (runThrough_eq (mtSample_follows _) hs hok)

/-! ### Allpass filter (R239, R241) -/

theorem apSample_follows (cap : Nat) : Follows (apSample cap) apRule (apFine cap) := by
  intro v x h
  simp only [apFine, Bool.and_eq_true, decide_eq_true_eq] at h
  obtain ⟨⟨⟨hidx, hlen⟩, hline⟩, hout⟩ := h
  refine ⟨?_, hout⟩
  unfold apSample
  rw [if_pos ⟨hidx, hlen⟩]
  exact guardFinite_ok _ _ (all_isFinite_pair hline hout)

/-- Settles O52. -/
theorem apReadIsTheRecurrence : Obligations.ApReadIsTheRecurrence := fun _ _ _ _ _ _ _ ha hx hr hs hok =>
  issue_read (sl := apSlot) ha hx hr (runThrough_eq (apSample_follows _) hs hok)

/-! ### Variable delay (R256, R258) -/

/-- The external type reads the word of the modulation buffer, the others their oscillator (R256). -/
theorem modulator_eq {ty : ModType} {phase w : F32} {o : Option F32} (ho : ty = .ext → o = some w) :
    modulator ty phase o = .ok (modValue ty phase w) := by
  cases ty with
  | ext => rw [ho rfl]; rfl
  | sine | tri | square | ramp => simp only [modulator, modValue, osc_eq_oscOf]

theorem vdPosition_eq (cap : Nat) (x : VariableDelay) (m : F32) :
    vdPosition cap x.wp.toNat (vdDelay cap x.depth m) = vdRead cap x m := by
  unfold vdPosition vdDelay vdRead
  rw [clampf_eq_clamped]

/-- A position below twice the capacity wraps to a cell of the ring, and the value there is interpolated (R258). -/
theorem vdCells_eq {r : F32} {k : Nat} (hk : trunc r = some k) (hlt : k < 2 * cap) :
    ∃ i0 i1 fr, vdCells cap r = some (i0, i1, fr) ∧ ∀ ring, vdInterpolate ring i0 i1 fr = vdValue cap ring r := by
  have hi : (if cap ≤ k then k - cap else k) < cap := by split <;> omega
  have hcells : vdCells cap r = some ((if cap ≤ k then k - cap else k),
      ((if cap ≤ k then k - cap else k) + 1) % cap, fsub r (u2f k)) := by
    unfold vdCells
    simp only [hk]
    rw [if_pos hi]
  refine ⟨_, _, _, hcells, fun ring => ?_⟩
  unfold vdValue
  rw [hk]
  rfl

theorem vdSample_follows (cap : Nat) :
    Follows2 (vdSample cap) (vdRule cap) (vdFine cap) (fun x => decide (x.ty = .ext)) := by
  intro v w o x h ho
  simp only [vdFine, Bool.and_eq_true, decide_eq_true_eq] at h
  obtain ⟨⟨⟨⟨hpos, hwp⟩, hline⟩, hout⟩, hphase⟩ := h
  refine ⟨?_, hout⟩
  split at hpos
  · rename_i k hk
    obtain ⟨i0, i1, fr, hcells, hvalue⟩ := vdCells_eq hk (by simpa using hpos)
    unfold vdSample
    simp only [modulator_eq (fun hty => ho (by simpa using hty)), vdPosition_eq, hcells, if_pos hwp, hvalue, modPhase_eq]
    exact guardFinite_ok _ _ (by simpa [vdRule] using ⟨hline, hout, hphase⟩)
  · cases hpos

/-- Settles O53. -/
theorem vdReadInterpolates : Obligations.VdReadInterpolates := fun _ _ _ _ _ _ _ _ _ ha hx hr hs hl hext hok =>
  issue_read (sl := vdSlot) ha hx hr
    (runThrough2_eq (vdSample_follows _) (fun _ _ => rfl) hs hl (fun hty => hext (of_decide_eq_true hty)) hok)

/-! ### Compressor (R278) -/

theorem cpSample_follows : Follows cpSample cpRule cpFine := by
  intro v x h
  simp only [cpFine, Bool.and_eq_true] at h
  obtain ⟨⟨hms, henv⟩, hout⟩ := h
  have hguard : cpSample v x = guardFinite [(cpRule v x).1.ms, (cpRule v x).1.env, (cpRule v x).2] (cpRule v x) := rfl
  rw [hguard]
  exact ⟨guardFinite_ok _ _ (by simp [hms, henv, hout]), hout⟩

/-- Settles O54. -/
theorem cpReadCompresses : Obligations.CpReadCompresses := fun _ _ _ _ _ _ _ ha hx hr hs hok =>
  issue_read (sl := cpSlot) ha hx hr (runThrough_eq cpSample_follows hs hok)

/-! ### Clipper (R301, R304 to R306) -/

theorem firSum_eq_foldl (taps z : List F32) (acc : F32) :
    firSum taps z acc = (taps.zip z).foldl (fun acc t => fadd acc (fmul t.1 t.2)) acc := by
  induction taps generalizing z acc with
  | nil => simp [firSum]
  | cons t taps ih =>
    cases z with
    | nil => simp [firSum]
    | cons w z => simp [firSum, ih]

variable {up dn : List F32}

theorem clSub_eq {x : Clipper} (h : clSubFine up v x = true) : clSub up dn v x = .ok (clSubRule up dn v x) := by
  simp only [clSubFine, Bool.and_eq_true] at h
  obtain ⟨⟨hv, hq⟩, hb⟩ := h
  have hu : firSum up (firShift x.zu v) fzero = (push up x.zu v).2 := firSum_eq_foldl _ _ _
  unfold clSub
  simp only [hu, shape_eq_shapeOf hq, firSum_eq_foldl]
  exact guardFinite_ok _ _ (all_isFinite_pair hv hb)

/-- The stuffed zeros are a run of the sub-sample, whose last output is kept (R305). -/
theorem clZeros_eq (k : Nat) (p : Clipper × F32)
    (h : always (clSubRule up dn) (clSubFine up) (List.replicate k fzero) p.1 = true) :
    clZeros up dn k p =
      .ok ((scan (clSubRule up dn) (List.replicate k fzero) p.1).1,
        (scan (clSubRule up dn) (List.replicate k fzero) p.1).2.getLastD p.2) := by
  induction k generalizing p with
  | zero => rfl
  | succ k ih =>
    simp only [List.replicate_succ, always, Bool.and_eq_true] at h
    obtain ⟨hfirst, hrest⟩ := h
    rw [clZeros, clSub_eq hfirst]
    simp only [List.replicate_succ, scan_cons, List.getLastD_cons]
    exact ih _ hrest

theorem clSample_follows (up dn : List F32) : Follows (clSample up dn) (clRule up dn) (clFine up dn) := by
  intro v x h
  simp only [clFine, Bool.and_eq_true] at h
  obtain ⟨hpath, hout⟩ := h
  refine ⟨?_, hout⟩
  unfold clSample clRule
  cases hos : x.os
  · rw [hos, if_neg (by simp)] at hpath
    simp only [Bool.false_eq_true, if_false, shape_eq_shapeOf hpath]
  · rw [hos, if_pos rfl] at hpath
    simp only [if_true]
    change always _ _ (v :: List.replicate 7 fzero) x = true at hpath
    simp only [always, Bool.and_eq_true] at hpath
    obtain ⟨hfirst, hzeros⟩ := hpath
    rw [clOversampled, clSub_eq hfirst]
    simp only [clZeros_eq 7 _ hzeros]
    change _ = Except.ok ((scan (clSubRule up dn) (v :: List.replicate 7 fzero) x).1,
      (scan (clSubRule up dn) (v :: List.replicate 7 fzero) x).2.getLastD fzero)
    rw [scan_cons, List.getLastD_cons]

/-- Settles O55. -/
theorem clReadClips : Obligations.ClReadClips := fun _ _ _ _ _ _ _ ha hx hr hs hok =>
  issue_read (sl := clSlot) ha hx hr (runThrough_eq (clSample_follows _ _) hs hok)

/-! ### Amplitude modulator (R321, R323) -/

theorem amSample_follows : Follows2 amSample amRule amFine (fun x => decide (x.ty = .ext)) := by
  intro v w o x h ho
  simp only [amFine, Bool.and_eq_true] at h
  obtain ⟨hout, hphase⟩ := h
  refine ⟨?_, hout⟩
  unfold amSample
  simp only [modulator_eq (fun hty => ho (by simpa using hty)), modPhase_eq]
  exact guardFinite_ok _ _ (all_isFinite_pair hout hphase)

/-- Settles O56. -/
theorem amReadModulates : Obligations.AmReadModulates := fun _ _ _ _ _ _ _ _ _ ha hx hr hs hl hext hok =>
  issue_read (sl := amSlot) ha hx hr
    (runThrough2_eq amSample_follows (fun _ _ => rfl) hs hl (fun hty => hext (of_decide_eq_true hty)) hok)

/-! ### Synth voice (R356, R361) -/

theorem sySample_eq {y : Synth} (h : syFine () y = true) :
    sySample y = .ok (syRule () y) ∧ isFinite (syRule () y).2 = true := by
  unfold syFine at h
  unfold sySample
  cases hp : y.playing
  · simp only [syRule, hp, Bool.false_eq_true, if_false]
    exact ⟨trivial, by decide⟩
  · simp only [hp, Bool.not_true, Bool.false_or, Bool.and_eq_true] at h
    obtain ⟨hout, hphase⟩ := h
    refine ⟨?_, hout⟩
    simp only [syRule, hp, if_true] at hout hphase ⊢
    simp only [syOut, osc_eq_oscOf, syEnv_eq_envOf, phaseAdv_eq_advanced, syB4]
    exact guardFinite_ok _ _ (all_isFinite_pair hout hphase)

/-- Settles O57. -/
theorem syReadGenerates : Obligations.SyReadGenerates := fun _ _ _ _ _ _ ha hx hr hok =>
  issue_read (sl := sySlot) ha hx hr (runFrom_eq (fun _ => sySample_eq) hok)

/-! ### Pitch detector (R338, R339) -/

theorem zcSample_eq {c : Config} {z : ZeroCross} (h : zcFine c v z = true) :
    zcSample c v z = .ok (zcRule c v z).1 := by
  have hguard : zcSample c v z =
      guardFinite [(zcRule c v z).1.hp, (zcRule c v z).1.lpf, (zcRule c v z).1.ppk, (zcRule c v z).1.npk,
        (zcRule c v z).1.freq] (zcRule c v z).1 := by
    rw [zcRule_eq]; rfl
  rw [hguard]
  refine guardFinite_ok _ _ ?_
  simp only [zcFine, Bool.and_eq_true] at h
  obtain ⟨⟨⟨⟨hhp, hlpf⟩, hppk⟩, hnpk⟩, hfreq⟩ := h
  simp [hhp, hlpf, hppk, hnpk, hfreq]

/-- Settles O58. -/
theorem zcReadDetects : Obligations.ZcReadDetects := by
  intro inst bs n s x xs ha hx hr hs hok
  have hrun : zcRun s.cfg bs n x s.stage.buf = .ok (s.stage.buf, (scan (zcRule s.cfg) xs x).1) := by
    rw [zcRun, runInto_eq (fun _ _ => zcSample_eq) hs hok]
  exact issue_read (sl := zcSlot) ha hx hr hrun

end Reads

end Sys2Proof.Machine
end

section
/-! SUPPORT. The setups and the modifies (`40_control_and_buffer.md` R133, R134): the checks of a setup as an if chain in
their order, and a clamp as the value it applies and the code it reports, each said once. The setups (O35 to O38, O40)
and the modifies (O41 to O45) are read off them. -/

namespace Sys2Proof.Machine
open Sys2Proof

-- One theorem at a time: Lean would give each proof that waits a thread, and there are many.
set_option Elab.async false

section Enumerations

/-! ## The enumerations by their numbers (R124) -/

theorem modType_eq (w : Word) : modType w.toNat = modTypeOf w := by
  unfold modTypeOf
  simp only [← BitVec.toNat_inj]
  generalize w.toNat = k
  match k with
  | 0 | 1 | 2 | 3 => rfl
  | k + 4 => simp [modType]

theorem waveType_eq (w : Word) : waveType w.toNat = waveTypeOf w := by
  unfold waveTypeOf
  simp only [← BitVec.toNat_inj]
  generalize w.toNat = k
  match k with
  | 0 | 1 | 2 | 3 => rfl
  | k + 4 => simp [waveType]

theorem filterType_eq (w : Word) : filterType w.toNat = filterTypeOf w := by
  unfold filterTypeOf
  simp only [← BitVec.toNat_inj]
  generalize w.toNat = k
  match k with
  | 0 | 1 | 2 | 3 | 4 | 5 => rfl
  | k + 6 => simp [filterType]

theorem trackMode_eq (w : Word) : trackMode w.toNat = if w = 0 then .peak else .rms := by
  simp only [← BitVec.toNat_inj]
  generalize w.toNat = k
  match k with
  | 0 => rfl
  | k + 1 => simp [trackMode]

theorem clipMode_eq (w : Word) : clipMode w.toNat = if w = 0 then .smooth else .smoother := by
  simp only [← BitVec.toNat_inj]
  generalize w.toNat = k
  match k with
  | 0 => rfl
  | k + 1 => simp [clipMode]

/-- A legal flag operand is 0 or 1 (R103). -/
theorem flag_eq {w : Word} (h : enumOk 1 w = true) : (w != 0) = decide (w = 1) := by
  have hle : w.toNat ≤ 1 := of_decide_eq_true h
  have h01 : w = 0 ∨ w = 1 := by
    simp only [← BitVec.toNat_inj]
    exact Nat.le_one_iff_eq_zero_or_eq_one.1 hle
  rcases h01 with rfl | rfl <;> rfl

end Enumerations

section Checks

/-! ## The checks of a setup, one after the other (R133, R403) -/

variable {α : Type} {sl : Slot α} {inst : Byte} {s : State} {x y : α} {build : α → Except Fault α} {code : ResultCode}
  {rest : List (Bool × ResultCode)} {P : Prop} [Decidable P] {good : Bool} {r : Result}

/-- The first check of a setup: if it holds the others follow, else `init` is cleared and its code answered. -/
theorem setupElement_check (hx : sl.get s.stage inst = some x) (hgood : good = true ↔ P)
    (hrest : P → setupElement sl inst rest build s = r) :
    setupElement sl inst ((good, code) :: rest) build s =
      if P then r else .next (answered code (s.setStage (sl.put s.stage inst (sl.clear x)))) := by
  by_cases h : P
  · rw [if_pos h, ← hrest h]
    simp only [setupElement, hx, firstFailure_cons, hgood.2 h, if_true]
  · rw [if_neg h]
    refine setupElement_fail hx ?_
    rw [firstFailure_cons, if_neg fun hg => h (hgood.1 hg)]

/-- Every check has held. -/
theorem setupElement_done (hx : sl.get s.stage inst = some x) (hb : build x = .ok y) :
    setupElement sl inst [] build s = .next (answered .ok (s.setStage (sl.put s.stage inst y))) :=
  setupElement_run hx firstFailure_nil hb

end Checks

section Setups

/-! ## The setups -/

/-! ### Smoother, tracker, clipper, pitch detector (R147, R150, R302, R337) -/

/-- Settles O35: one check, or none. -/
theorem setupsWithAtMostOneCheck : Obligations.SetupsWithAtMostOneCheck := by
  refine ⟨fun inst c s x ha hx => ?_, fun inst mode c s x ha hx => ?_, fun inst thr mode os s x ha hx => ?_,
    fun inst fs s x ha hx => ?_⟩
  · exact (issue_accepted ha).trans
      (setupElement_check (sl := smSlot) hx .rfl fun _ => setupElement_done (sl := smSlot) hx rfl)
  · rw [← trackMode_eq]
    exact (issue_accepted ha).trans
      (setupElement_check (sl := atSlot) hx .rfl fun _ => setupElement_done (sl := atSlot) hx rfl)
  · have hl := legal_of_accepted ha
    simp only [legal, Bool.and_eq_true] at hl
    obtain ⟨-, hos⟩ := hl
    rw [← clipMode_eq, ← flag_eq hos]
    exact (issue_accepted ha).trans
      (setupElement_check (sl := clSlot) hx .rfl fun _ => setupElement_done (sl := clSlot) hx rfl)
  · exact (issue_accepted ha).trans (setupElement_done (sl := zcSlot) hx rfl)

/-! ### Delays (R216, R230, R240) -/

/-- Settles O36. -/
theorem delaySetups : Obligations.DelaySetups := by
  refine ⟨fun inst len fb ft damp s x ha hx => ?_, fun inst ntaps s x ha hx => ?_, fun inst len gain s x ha hx => ?_⟩
  · simp only [ite_not]
    exact (issue_accepted ha).trans
      (setupElement_check (sl := dlSlot) hx decide_eq_true_iff fun _ =>
        setupElement_check (sl := dlSlot) hx .rfl fun _ =>
          setupElement_check (sl := dlSlot) hx .rfl fun _ => setupElement_done (sl := dlSlot) hx rfl)
  · exact (issue_accepted ha).trans (setupElement_done (sl := mtSlot) hx rfl)
  · simp only [ite_not]
    exact (issue_accepted ha).trans
      (setupElement_check (sl := apSlot) hx decide_eq_true_iff fun _ =>
        setupElement_check (sl := apSlot) hx .rfl fun _ => setupElement_done (sl := apSlot) hx rfl)

/-! ### Modulated elements (R257, R322) -/

/-- Settles O37: the rate has been checked when its increment is formed. -/
theorem modulatedSetups : Obligations.ModulatedSetups := by
  refine ⟨fun inst ty depth rate fb fs s x ha hx hfin => ?_, fun inst ty depth rate fs s x ha hx hfin => ?_⟩
  · simp only [ite_not]
    rw [← modType_eq]
    exact (issue_accepted ha).trans
      (setupElement_check (sl := vdSlot) hx .rfl fun _ => setupElement_check (sl := vdSlot) hx .rfl fun hrate =>
        setupElement_check (sl := vdSlot) hx .rfl fun _ =>
          setupElement_done (sl := vdSlot) hx (guardFinite_one (hfin hrate)))
  · simp only [ite_not]
    rw [← modType_eq]
    exact (issue_accepted ha).trans
      (setupElement_check (sl := amSlot) hx .rfl fun _ => setupElement_check (sl := amSlot) hx .rfl fun hrate =>
        setupElement_done (sl := amSlot) hx (guardFinite_one (hfin hrate)))

/-! ### Biquad (R188 to R190) -/

/-- Settles O38. -/
theorem bqSetupChecksThenWrites : Obligations.BqSetupChecksThenWrites := by
  intro inst ty speed freq q gainDb fs s x ha hx k hfin
  simp only [ite_not]
  have hfresh : bqFresh (filterType ty.toNat) (speed.setWidth 16) freq q gainDb fs =
      { init := true, ty := filterTypeOf ty, speed := speed.setWidth 16, fs := fs
        freq := freq, q := q, gain := gainDb, dfreq := freq, dq := q, dgain := gainDb
        finc := 0, qinc := 0, ginc := 0, count := 0, w0 := 0, w1 := 0, w2 := 0
        A1 := k.A1, A2 := k.A2, B1 := k.B1, B2 := k.B2, scale := k.scale } := by
    unfold bqFresh
    rw [filterType_eq, bqCoeffs_eq_coeffsOf]
    rfl
  refine (issue_accepted ha).trans
    (setupElement_check (sl := bqSlot) hx .rfl fun hq => setupElement_check (sl := bqSlot) hx .rfl fun hfreq =>
      setupElement_check (sl := bqSlot) hx .rfl fun hgain => setupElement_done (sl := bqSlot) hx ?_)
  rw [hfresh]
  exact guardFinite_ok _ _ (hfin hq hfreq hgain)

/-! ### Synth voice (R357) -/

/-- Only a pulse has a duty to check (R357). -/
theorem dutyOk_iff {ty : Word} (hty : ty.toNat ≤ 4) (duty : F32) :
    (waveType ty.toNat != .pulse || (flt fzero duty && flt duty fone)) = true ↔
      ¬ (ty = 4 ∧ ¬ (flt 0x00000000 duty = true ∧ flt duty 0x3F800000 = true)) := by
  rw [← waveType_pulse_iff hty, Bool.or_eq_true, Bool.and_eq_true, bne_iff_ne, not_and_not_right, ne_eq,
    ← imp_iff_not_or]
  rfl

/-- Settles O40. -/
theorem sySetupChecksThenWrites : Obligations.SySetupChecksThenWrites := by
  intro inst a d su r ty duty sl fs s x ha hx
  have hl := legal_of_accepted ha
  simp only [legal, enumOk, Bool.and_eq_true, decide_eq_true_eq] at hl
  obtain ⟨⟨⟨hty, -⟩, -⟩, -⟩ := hl
  rw [ite_not, ← ite_not (ty = 4 ∧ _), ite_not (inRange _ _ _ = true), ← waveType_eq]
  exact (issue_accepted ha).trans
    (setupElement_check (sl := sySlot) hx decide_eq_true_iff fun _ =>
      setupElement_check (sl := sySlot) hx (dutyOk_iff hty duty) fun _ =>
        setupElement_check (sl := sySlot) hx .rfl fun _ => setupElement_done (sl := sySlot) hx rfl)

end Setups

section Clamps

/-! ## A modify on an element that is set up (R134) -/

variable {α : Type} {sl : Slot α} {i : Instr} {inst : Byte} {s : State} {x y : α} {code : ResultCode}

/-- At the control port every command but `END` is accepted if its operands are legal (R119). -/
theorem accepted_port (hp : s.inProgram = false) (hl : legal s.cfg i = true) (hi : portCommand i = true := by rfl) :
    accepted i s = true := by simp [accepted, hp, hl, hi]

theorem issue_modify {apply : α → Except Fault α} (ha : accepted i s = true) (hx : sl.get s.stage inst = some x)
    (hr : sl.ready x = true) (hy : apply x = .ok y) :
    issue i s (modifyElement sl inst code apply s) = .next (answered code (s.setStage (sl.put s.stage inst y))) :=
  (issue_accepted ha).trans (modifyElement_run hx hr hy)

/-- A clamped parameter: the clamped value is applied, and the clamp reported if it changed the value. -/
theorem issue_clamped (apply : F32 → α → Except Fault α) {lo v hi : F32} (ha : accepted i s = true)
    (hx : sl.get s.stage inst = some x) (hr : sl.ready x = true) (hy : apply (clamped v lo hi) x = .ok y) :
    issue i s (modifyElement sl inst (clampReport lo v hi code).2 (apply (clampReport lo v hi code).1) s) =
      .next (answered (if flt v lo || fgt v hi then code else .ok) (s.setStage (sl.put s.stage inst y))) := by
  rw [clampReport_eq]
  exact issue_modify ha hx hr hy

/-- A clamped length: the same with the bounds `1` and `cap` (R218, R231). -/
theorem issue_clampedLength (apply : Nat → α → Except Fault α) {v cap : Nat} (ha : accepted i s = true)
    (hx : sl.get s.stage inst = some x) (hr : sl.ready x = true)
    (hy : apply (if v < 1 then 1 else if cap < v then cap else v) x = .ok y) :
    issue i s (modifyElement sl inst (clampLength v cap code).2 (apply (clampLength v cap code).1) s) =
      .next (answered (if v < 1 ∨ cap < v then code else .ok) (s.setStage (sl.put s.stage inst y))) := by
  have hclamp : clampLength v cap code =
      (if v < 1 then 1 else if cap < v then cap else v, if v < 1 ∨ cap < v then code else .ok) := by
    unfold clampLength
    by_cases h1 : v < 1
    · simp [h1]
    · by_cases h2 : cap < v <;> simp [h1, h2]
  rw [hclamp]
  exact issue_modify ha hx hr hy

/-- What a clamp to bounds in order gives lies between them. -/
theorem inRange_clamped {lo v hi : F32} (hv : isFinite v = true) (hle : fle lo hi = true) :
    inRange lo (clamped v lo hi) hi = true := by
  obtain ⟨hlo, hhi, hkey⟩ := fle_iff.1 hle
  have hrefl {w : F32} (hw : isNaN w = false) : fle w w = true := fle_iff.2 ⟨hw, hw, le_refl _⟩
  unfold clamped
  rw [inRange_iff]
  cases h1 : flt v lo
  · cases h2 : flt hi v
    · exact ⟨fle_of_not_flt hlo (not_isNaN hv) h1, fle_of_not_flt (not_isNaN hv) hhi h2⟩
    · exact ⟨hle, hrefl hhi⟩
  · exact ⟨hrefl hlo, hle⟩

end Clamps

section Modifies

/-! ## The modifies -/

/-! ### Biquad (R193 to R196) -/

theorem bqRetarget_eq {x : Biquad}
    (h : [(retargeted x).finc, (retargeted x).qinc, (retargeted x).ginc].all isFinite = true) :
    bqRetarget x = .ok (retargeted x) := guardFinite_ok _ _ h

/-- Settles O41. -/
theorem biquadModifiesRetarget : Obligations.BiquadModifiesRetarget := fun _ _ _ _ hp hv hx hr =>
  ⟨fun hfin => issue_clamped (sl := bqSlot) (fun r x => bqRetarget { x with dfreq := r }) (accepted_port hp hv) hx hr
      (bqRetarget_eq hfin),
    fun hfin => issue_clamped (sl := bqSlot) (fun r x => bqRetarget { x with dq := r }) (accepted_port hp hv) hx hr
      (bqRetarget_eq hfin),
    fun hfin => issue_clamped (sl := bqSlot) (fun r x => bqRetarget { x with dgain := r }) (accepted_port hp hv) hx hr
      (bqRetarget_eq hfin)⟩

/-! ### Delays (R218 to R221, R231) -/

/-- Settles O42. -/
theorem delayModifies : Obligations.DelayModifies := by
  refine ⟨fun inst len s x hp hx hr hfin => ?_, fun inst v s x hp hv hx hr => ⟨?_, ?_, ?_⟩,
    fun inst tap off gain s x ha hx hr => ?_⟩
  · exact issue_clampedLength (sl := dlSlot) (dlRetarget s.cfg.dlRampSteps) (accepted_port hp rfl) hx hr
      (guardFinite_one hfin)
  · exact issue_clamped (sl := dlSlot) (fun r x => .ok { x with fb := r }) (accepted_port hp hv) hx hr rfl
  · exact issue_modify (sl := dlSlot) (accepted_port hp hv) hx hr rfl
  · exact issue_clamped (sl := dlSlot) (fun r x => .ok { x with damp := r }) (accepted_port hp hv) hx hr rfl
  · exact issue_clampedLength (sl := mtSlot)
      (fun r x => .ok { x with off := x.off.set tap.toNat (BitVec.ofNat 32 r), g := x.g.set tap.toNat gain }) ha hx hr rfl

/-! ### Variable delay (R259 to R262) -/

/-- Settles O43. -/
theorem variableDelayModifies : Obligations.VariableDelayModifies := by
  refine ⟨fun inst v s x hp hv hx hr => ⟨?_, fun hfin => ?_, ?_⟩, fun inst ty s x hp hty hx hr => ?_⟩
  · exact issue_clamped (sl := vdSlot) (fun r x => .ok { x with depth := r }) (accepted_port hp hv) hx hr rfl
  · exact issue_clamped (sl := vdSlot) (fun r x => guardFinite [fdiv r x.fs] { x with rate := r, pinc := fdiv r x.fs })
      (accepted_port hp hv) hx hr (guardFinite_one hfin)
  · exact issue_clamped (sl := vdSlot) (fun r x => .ok { x with fb := r }) (accepted_port hp hv) hx hr rfl
  · rw [← modType_eq]
    exact issue_modify (sl := vdSlot) (accepted_port hp (decide_eq_true hty)) hx hr rfl

/-! ### Compressor (R276, R279 to R283) -/

/-- The bounds of the compressor's ratio and times in a legal configuration are in order (R8). -/
structure Config.CompressorBounds (c : Config) : Prop where
  ratio : fle Config.cpRatioMin c.cpRatioMax = true
  att : fle c.cpAttMinMs c.cpAttMaxMs = true
  rel : fle c.cpRelMinMs c.cpRelMaxMs = true

theorem Config.compressorBounds {c : Config} (h : Config.wf c = true) : Config.CompressorBounds c := by
  simp only [Config.wf, Config.valuesOk, boundsOk, Bool.and_eq_true] at h
  casesm* _ ∧ _
  constructor <;> assumption

/-- The coefficient of a clamped time is finite (R13, R276). -/
theorem isFinite_tcOf_clamped {lo v hi fs : F32} (hlo : flt fzero lo = true)
    (hbounds : isFinite lo = true ∧ isFinite hi = true) (hle : fle lo hi = true) (hv : isFinite v = true)
    (hfs : isFinite fs = true) (hrate : inRange 0x472C4400 fs 0x48435000 = true) :
    isFinite (tcOf (clamped v lo hi) fs) = true := by
  have hin := inRange_clamped hv hle
  exact isFinite_of_unit (tcOf_unit (isFinite_of_inRange hbounds.1 hbounds.2 hin)
    (flt_of_flt_of_fle hlo (inRange_iff.1 hin).1) hfs (fs_pos hrate))

/-- Settles O44: in a legal configuration the clamped parameter gives a finite derived field. -/
theorem compressorModifies : Obligations.CompressorModifies := by
  intro inst v s x hp hv hx hr
  refine ⟨?_, fun hfin => ?_, fun hfin => ?_, fun hfin => ?_, ?_⟩
  · have hfin := isFinite_cpThrL2 (inRange_clamped (lo := 0xC2C80000) (hi := 0x41F00000) hv (by decide))
    exact issue_clamped (sl := cpSlot) (fun r x => guardFinite [cpThrL2 r] { x with thr := r, thrL2 := cpThrL2 r })
      (accepted_port hp hv) hx hr (guardFinite_one hfin)
  · have hslope : isFinite (cpSlope (clamped v 0x3F800000 s.cfg.cpRatioMax)) = true := by
      refine hfin.elim (fun hw => ?_) id
      have hin := inRange_clamped hv (Config.compressorBounds hw).ratio
      exact isFinite_cpSlope (isFinite_of_inRange (by decide) (Config.values hw).cpRatio hin) (inRange_iff.1 hin).1
    exact issue_clamped (sl := cpSlot) (fun r x => guardFinite [cpSlope r] { x with ratio := r, slope := cpSlope r })
      (accepted_port hp hv) hx hr (guardFinite_one hslope)
  · have htc : isFinite (timeCoeff (clamped v s.cfg.cpAttMinMs s.cfg.cpAttMaxMs) x.fs) = true :=
      hfin.elim (fun ⟨hw, hfs, hrate⟩ => isFinite_tcOf_clamped (Config.values hw).cpAtt_pos (Config.values hw).cpAtt
        (Config.compressorBounds hw).att hv hfs hrate) id
    exact issue_clamped (sl := cpSlot)
      (fun r x => guardFinite [timeCoeff r x.fs] { x with att := r, attC := timeCoeff r x.fs })
      (accepted_port hp hv) hx hr (guardFinite_one htc)
  · have htc : isFinite (timeCoeff (clamped v s.cfg.cpRelMinMs s.cfg.cpRelMaxMs) x.fs) = true :=
      hfin.elim (fun ⟨hw, hfs, hrate⟩ => isFinite_tcOf_clamped (Config.values hw).cpRel_pos (Config.values hw).cpRel
        (Config.compressorBounds hw).rel hv hfs hrate) id
    exact issue_clamped (sl := cpSlot)
      (fun r x => guardFinite [timeCoeff r x.fs] { x with rel := r, relC := timeCoeff r x.fs })
      (accepted_port hp hv) hx hr (guardFinite_one htc)
  · exact issue_clamped (sl := cpSlot) (fun r x => .ok { x with gain := r }) (accepted_port hp hv) hx hr rfl

/-! ### Clipper and amplitude modulator (R303, R324, R325) -/

/-- Settles O45. -/
theorem clipperAndModulatorModifies : Obligations.ClipperAndModulatorModifies := by
  refine ⟨fun inst v s x hp hv hx hr => ?_, fun inst v s x hp hv hx hr => ⟨?_, fun hfin => ?_⟩⟩
  · exact issue_clamped (sl := clSlot) (fun r x => .ok { x with thr := r }) (accepted_port hp hv) hx hr rfl
  · exact issue_clamped (sl := amSlot) (fun r x => .ok { x with depth := r }) (accepted_port hp hv) hx hr rfl
  · exact issue_clamped (sl := amSlot) (fun r x => guardFinite [fdiv r x.fs] { x with rate := r, pinc := fdiv r x.fs })
      (accepted_port hp hv) hx hr (guardFinite_one hfin)

end Modifies

end Sys2Proof.Machine
end

section
/-! SUPPORT. Control (`40_control_and_buffer.md` R132 to R135, R156 to R158, `60_exceptions.md` R423): what a command does
on an element that was never set up, class by class (O29); `END` and the pipeline commands (O30, O33); and what one step
makes of `FSM`, phase by phase (O13). -/

namespace Sys2Proof.Machine
open Sys2Proof

-- One theorem at a time: Lean would give each proof that waits a thread, and there are many.
set_option Elab.async false

section Uninitialized

/-! ## An element never set up (R132, R134) -/

/-- What a command other than a setup does on an element that was never set up: without a source it answers its
parameters' code, with one it answers `OK`, having copied the source to its destination if it has one. -/
structure PassesThrough (i : Instr) (s : State) : Prop where
  modify : source i = none → exec i s = .next (answered (parameterCode s.cfg i) s)
  detect : ∀ bs n, source i = some (bs, n) → destination i = none → exec i s = .next (answered .ok s)
  copy : ∀ (bs bd : Byte) (n : BitVec 16) (k : Nat) (xs : List F32), source i = some (bs, n) →
    destination i = some (bd, k) → bufStore s.stage.buf bs n.toNat 0 = .ok xs →
    exec i s = .next (answered .ok (s.setBuf (bufLoad bd 0 xs s.stage.buf)))

variable {i : Instr} {s : State}

namespace ElementClass

variable {α : Type} {sl : Slot α} {cls : Nat} {step : Config → Nat → α → α → Prop} {inst : Byte}

/-- A command that names an element never set up finds it in its slot. -/
theorem get_of_namedInit (hc : ElementClass sl cls step) (hcls : classOf i = cls) (hi : instanceOf i = some inst)
    {b : Bool} (hn : namedInit s.stage i = some b) : ∃ x, sl.get s.stage inst = some x ∧ sl.ready x = b := by
  rw [hc.namedInit_eq hcls hi] at hn
  exact Option.map_eq_some_iff.1 hn

theorem modify_passesThrough (hc : ElementClass sl cls step) (ha : accepted i s = true)
    (hn : namedInit s.stage i = some false) {code : ResultCode} {apply : α → Except Fault α}
    (hexec : exec i s = issue i s (modifyElement sl inst code apply s))
    (hcode : legal s.cfg i = true → parameterCode s.cfg i = code)
    (hs : source i = none := by rfl)
    (hcls : classOf i = cls := by simp [classOf, Instr.opcode])
    (hi : instanceOf i = some inst := by rfl) : PassesThrough i s := by
  obtain ⟨x, hx, hr⟩ := hc.get_of_namedInit hcls hi hn
  refine ⟨fun _ => ?_, fun bs n h => ?_, fun bs bd n k xs h => ?_⟩
  · rw [hexec, issue_accepted ha, modifyElement_unready hx hr, hcode (legal_of_accepted ha)]
  · rw [hs] at h; cases h
  · rw [hs] at h; cases h

theorem detect_passesThrough (hc : ElementClass sl cls step) (ha : accepted i s = true)
    (hn : namedInit s.stage i = some false) {run : α → Memory → Except Fault (Memory × α)}
    (hexec : exec i s = issue i s (readElement sl inst passNothing run s))
    (hs : (source i).isSome = true := by rfl) (hd : destination i = none := by rfl)
    (hcls : classOf i = cls := by simp [classOf, Instr.opcode])
    (hi : instanceOf i = some inst := by rfl) : PassesThrough i s := by
  obtain ⟨x, hx, hr⟩ := hc.get_of_namedInit hcls hi hn
  refine ⟨fun h => ?_, fun bs n _ _ => ?_, fun bs bd n k xs _ h => ?_⟩
  · rw [h] at hs; cases hs
  · have hpass : passNothing s.stage.buf = .ok s.stage.buf := rfl
    rw [hexec, issue_accepted ha, readElement_unready hx hr hpass]
    exact congrArg (fun u : State => (Host.Outcome.next (answered .ok u) : Result)) (setStage_stage s)
  · rw [hd] at h; cases h

theorem read_passesThrough (hc : ElementClass sl cls step) (ha : accepted i s = true)
    (hn : namedInit s.stage i = some false) {bs bd : Byte} {n : BitVec 16}
    {run : α → Memory → Except Fault (Memory × α)}
    (hexec : exec i s = issue i s (readElement sl inst (passCopy bs bd n) run s))
    (hs : source i = some (bs, n) := by rfl) (hd : destination i = some (bd, n.toNat) := by rfl)
    (hcls : classOf i = cls := by simp [classOf, Instr.opcode])
    (hi : instanceOf i = some inst := by rfl) : PassesThrough i s := by
  obtain ⟨x, hx, hr⟩ := hc.get_of_namedInit hcls hi hn
  refine ⟨fun h => ?_, fun _ _ _ h => ?_, fun bs' bd' n' k xs hs' hd' hxs => ?_⟩
  · rw [hs] at h; cases h
  · rw [hd] at h; cases h
  · rw [hs] at hs'; cases hs'
    rw [hd] at hd'; cases hd'
    rw [hexec, issue_accepted ha, readElement_unready hx hr (passCopy_ok hxs)]
    rfl

end ElementClass

/-- Every command on an element never set up, by its class and its contract. -/
theorem exec_passesThrough (ha : accepted i s = true) (hn : namedInit s.stage i = some false)
    (hsetup : isSetup i = false) : PassesThrough i s := by
  cases i with
  | endProgram | copy | clear | mix2 | gain | oscEval | stArm | stSelect | efSetup => cases hn
  | bqSetup | dlSetup | mtSetup | apSetup | vdSetup | cpSetup | clSetup | amSetup | sySetup | zcSetup | smSetup
  | atSetup => simp [isSetup, instanceOf, Instr.opcode] at hsetup
  | bqModFreq | bqModQ | bqModGain => exact bqClass.modify_passesThrough ha hn rfl fun _ => clampReport_code _ _ _ _
  | bqRead => exact bqClass.read_passesThrough ha hn rfl
  | dlModLen => exact dlClass.modify_passesThrough ha hn rfl fun _ => clampLength_code _ _ _
  | dlModFb | dlModDamp => exact dlClass.modify_passesThrough ha hn rfl fun _ => clampReport_code _ _ _ _
  | dlModFt => exact dlClass.modify_passesThrough ha hn rfl fun _ => rfl
  | dlRead => exact dlClass.read_passesThrough ha hn rfl
  | mtSetTap => exact mtClass.modify_passesThrough ha hn rfl fun _ => clampLength_code _ _ _
  | mtRead => exact mtClass.read_passesThrough ha hn rfl
  | apRead => exact apClass.read_passesThrough ha hn rfl
  | vdModDepth | vdModRate | vdModFb => exact vdClass.modify_passesThrough ha hn rfl fun _ => clampReport_code _ _ _ _
  | vdModType => exact vdClass.modify_passesThrough ha hn rfl fun _ => rfl
  | vdRead => exact vdClass.read_passesThrough ha hn rfl
  | cpModThr | cpModRatio | cpModAtt | cpModRel | cpModGain =>
    exact cpClass.modify_passesThrough ha hn rfl fun _ => clampReport_code _ _ _ _
  | cpRead => exact cpClass.read_passesThrough ha hn rfl
  | clModThr => exact clClass.modify_passesThrough ha hn rfl fun _ => clampReport_code _ _ _ _
  | clRead => exact clClass.read_passesThrough ha hn rfl
  | amModDepth | amModRate => exact amClass.modify_passesThrough ha hn rfl fun _ => clampReport_code _ _ _ _
  | amRead => exact amClass.read_passesThrough ha hn rfl
  | syPlay =>
    refine syClass.modify_passesThrough ha hn rfl fun hl => ?_
    simp only [legal, Bool.and_eq_true] at hl
    obtain ⟨hfreq, hvol⟩ := hl
    exact syPlayCode_eq hfreq hvol
  | syStop => exact syClass.modify_passesThrough ha hn rfl fun _ => rfl
  | syRead => exact syClass.read_passesThrough ha hn rfl
  | zcRead => exact zcClass.detect_passesThrough ha hn rfl
  | smRead => exact smClass.read_passesThrough ha hn rfl
  | atRead => exact atClass.detect_passesThrough ha hn rfl

/-- Settles O29. -/
theorem uninitializedInstance : Obligations.UninitializedInstance := fun _ _ ha hn hsetup =>
  have h := exec_passesThrough ha hn hsetup
  ⟨h.modify, h.detect, h.copy⟩

end Uninitialized

section Control

/-! ## `END` and the pipeline commands (R135, R156 to R158) -/

/-- Settles O30. -/
theorem endStopsTheDispatch : Obligations.EndStopsTheDispatch := fun _ hp =>
  exec_endProgram (of_decide_eq_true hp)

variable {s : State} {e : Byte}

/-- An answer at the control port to a command that has moved the stage. -/
theorem complete_setStage_port (hp : s.inProgram = false) (code : ResultCode) (st : Stage) :
    complete code (s.setStage st) = .next (s.setStage { st with res := code.word }) := by
  rw [complete_eq, answered_port _ _ (by rw [inProgram_setStage, hp]), setStage_setStage, stage_setStage]

theorem exec_stArm_port (hp : s.inProgram = false) :
    exec .stArm s =
      .next (s.setStage { s.stage with fsm := (if s.stage.fsm = .idle then .armed else s.stage.fsm), res := 0x00 }) := by
  have hkept := complete_setStage_port hp .ok s.stage
  rw [setStage_stage] at hkept
  refine (issue_accepted (accepted_port hp rfl)).trans ?_
  split
  · rename_i hidle
    rw [if_pos hidle]
    exact complete_setStage_port hp .ok _
  all_goals
    rename_i hfsm
    rw [if_neg (by rw [hfsm]; nofun)]
    exact hkept

theorem exec_stSelect_port (hp : s.inProgram = false) :
    exec (.stSelect e) s =
      .next (s.setStage
        (if s.cfg.nEffects ≤ e.toNat then { s.stage with effect := BitVec.ofNat 8 (s.cfg.nEffects - 1), res := 0x03 }
         else { s.stage with effect := e, res := 0x00 })) := by
  refine (issue_accepted (accepted_port hp rfl)).trans ?_
  rw [complete_setStage_port hp, complete_setStage_port hp]
  split <;> rfl

theorem exec_efSetup_port (hp : s.inProgram = false) :
    exec (.efSetup e) s =
      .next (s.setStage
        (if s.cfg.nEffects ≤ e.toNat then { s.stage with res := 0x03 }
         else { s.stage with effInit := s.stage.effInit.set e.toNat true, res := 0x00 })) := by
  refine (issue_accepted (accepted_port hp rfl)).trans ?_
  rw [complete_setStage_port hp, complete_eq, answered_port _ _ hp]
  split <;> rfl

/-- Settles O33. -/
theorem pipelineCommands : Obligations.PipelineCommands := fun _ _ hp =>
  ⟨exec_stArm_port hp, exec_stSelect_port hp, exec_efSetup_port hp⟩

end Control

section Fsm

/-! ## What one step makes of `FSM` (R156, R415, R423) -/

variable {s t : State} {i : Instr} {x : Block} {late d : Bool}

/-- An arrival changes `FSM` only from Running to Overrun, with silence and one more drop (R415, R421). -/
theorem arrive_fsm (late : Bool) (x : Block) (s : State) :
    (arrive late x s).stage.fsm = s.stage.fsm ∨
      (s.stage.fsm = .running ∧ (arrive late x s).stage.fsm = .overrun
        ∧ (arrive late x s).stage.out = silence s.cfg ∧ (arrive late x s).stage.drops = satInc s.stage.drops) := by
  have hcounted : s.counted.stage.fsm = s.stage.fsm := by simp [State.counted]
  have hover : (overrun s.counted).stage.fsm = .overrun ∧ (overrun s.counted).stage.out = silence s.cfg
      ∧ (overrun s.counted).stage.drops = satInc s.stage.drops := by
    simp [silence_eq_quiet, State.counted]
  cases hf : s.stage.fsm with
  | idle => rw [arrive_idle hf]; exact .inl (hcounted.trans hf)
  | armed =>
    have harrive : arrive late x s = (s.counted.setPhase (.drain true)).setLatch x := by
      unfold arrive; rw [hf]; rfl
    rw [harrive]; exact .inl (hcounted.trans hf)
  | running =>
    rcases arrive_cases late x s with ⟨hidle, -⟩ | h | h
    · rw [hf] at hidle; cases hidle
    · rw [h]; exact .inl (hcounted.trans hf)
    · rw [h]; exact .inr ⟨rfl, hover⟩
  | overrun =>
    rcases arrive_cases late x s with ⟨hidle, -⟩ | h | h
    · rw [hf] at hidle; cases hidle
    · rw [h]; exact .inl (hcounted.trans hf)
    · rw [h]; exact .inl hover.1

/-- One step as `FSM` of the stage `id` shows it: the transitions of R423. -/
def FsmStep (s t : State) (id : StageId) : Prop :=
  (t.stageAt id).fsm = (s.stageAt id).fsm
    ∨ ((s.stageAt id).fsm = .idle ∧ (t.stageAt id).fsm = .armed ∧ s.cur = id ∧ ∃ d, s.phase = .drain d)
    ∨ ((s.stageAt id).fsm = .armed ∧ (t.stageAt id).fsm = .running ∧ s.cur = id ∧ s.phase = .store)
    ∨ ((s.stageAt id).fsm = .running ∧ (t.stageAt id).fsm = .overrun ∧ (t.stageAt id).out = silence s.cfg
      ∧ (t.stageAt id).drops = satInc (s.stageAt id).drops)
    ∨ ((s.stageAt id).fsm = .overrun ∧ (t.stageAt id).fsm = .running ∧ s.cur = id ∧ s.phase = .store)
    ∨ ((t.stageAt id).fsm = .idle ∧ ∃ rest, nextInput (portReady s) s.inputs = some (.reset, rest))

/-- The stage an arrival is for, overrun or not; the other stage stays. -/
theorem fsmStep_arrive {u : State} (hcfg : u.cfg = s.cfg) (hstages : ∀ id, u.stageAt id = s.stageAt id) (id : StageId) :
    FsmStep s (arrive late x u) id := by
  unfold FsmStep
  rw [← hstages id, ← hcfg, stageAt_eq (arrive late x u), stageAt_eq u, cur_arrive, other_arrive]
  split
  · exact (arrive_fsm late x u).imp_right fun h => .inr (.inr (.inl h))
  · exact .inl rfl

theorem fsmStep_between (hp : s.phase = .between) (h : step s = .next t) (id : StageId) : FsmStep s t id := by
  have ht := step_takes hp h
  generalize he : nextInput (portReady s) s.inputs = e at ht
  cases ht with
  | waits => exact .inl rfl
  | enqueue id' ws rest =>
    left
    by_cases hid : id = id'
    · subst hid; rw [stageAt_enqueue]; cases id <;> rfl
    · rw [stageAt_enqueue_ne hid]; cases id <;> rfl
  | arrivalA late x rest =>
    exact fsmStep_arrive (s := s) (u := { s with inputs := rest, cur := .A }) rfl (fun id => by cases id <;> rfl) id
  | arrivalB late rest hx =>
    rename_i x xs
    exact fsmStep_arrive (s := s) (u := { s with inputs := rest, cur := .B, handoff := xs }) rfl
      (fun id => by cases id <;> rfl) id
  | reset rest => exact .inr (.inr (.inr (.inr (.inr ⟨by cases id <;> rfl, rest, he⟩))))

/-- A step within an answer, by what it makes of the acting stage. -/
theorem FsmStep.of_acting (hcur : t.cur = s.cur) (hother : t.other = s.other)
    (h : t.stage.fsm = s.stage.fsm
      ∨ (s.stage.fsm = .idle ∧ t.stage.fsm = .armed ∧ ∃ d, s.phase = .drain d)
      ∨ ((s.stage.fsm = .armed ∨ s.stage.fsm = .overrun) ∧ t.stage.fsm = .running ∧ s.phase = .store))
    (id : StageId) : FsmStep s t id := by
  unfold FsmStep
  rw [stageAt_eq, stageAt_eq, hcur, hother]
  split
  · rename_i hid
    rcases h with h | ⟨h1, h2, h3⟩ | ⟨h1 | h1, h2, h3⟩
    · exact .inl h
    · exact .inr (.inl ⟨h1, h2, hid.symm, h3⟩)
    · exact .inr (.inr (.inl ⟨h1, h2, hid.symm, h3⟩))
    · exact .inr (.inr (.inr (.inr (.inl ⟨h1, h2, hid.symm, h3⟩))))
  · exact .inl rfl

theorem fsm_beginDispatch (s : State) : (beginDispatch s).stage.fsm = s.stage.fsm := by
  unfold beginDispatch; split <;> simp

/-- Only `ST.ARM` in a drain changes `FSM` (R156). -/
theorem fsmStep_drain (hp : s.phase = .drain d) (h : step s = .next t) (id : StageId) : FsmStep s t id := by
  cases hq : s.stage.cq with
  | nil =>
    rw [step_drain_empty hp hq] at h
    cases h
    cases d
    · exact .of_acting (by simp) (by simp) (.inl (by simp)) id
    · have hacts := beginDispatch_acts s
      exact .of_acting hacts.cur hacts.other (.inl (fsm_beginDispatch s)) id
  | cons ws rest =>
    obtain ⟨hacts, hfsm⟩ := step_drain_acts hp hq h
    exact .of_acting hacts.cur hacts.other (hfsm.imp_right fun ⟨h1, h2⟩ => .inl ⟨h1, h2, d, hp⟩) id

/-- No program command changes `FSM` of a stage that dispatches. -/
theorem fsmStep_program (hp : s.phase = .program) (hok : PhaseOk s .program) (h : step s = .next t) (id : StageId) :
    FsmStep s t id := by
  obtain ⟨hidle, hprogram, -, -⟩ := hok
  obtain ⟨i, hd, -, -, -⟩ := programFrom_front hprogram
  obtain ⟨u, he, ht⟩ := step_program_next hp hd h
  have hacts := exec_acts he
  have hfsm : u.stage.fsm = s.stage.fsm := (exec_fsm he).resolve_right fun h => hidle h.1
  have hu : t.cur = u.cur ∧ t.other = u.other ∧ t.stage.fsm = u.stage.fsm := by
    rw [ht]; split <;> simp
  obtain ⟨hcur, hother, hfsm'⟩ := hu
  exact .of_acting (hcur.trans hacts.cur) (hother.trans hacts.other) (.inl (hfsm'.trans hfsm)) id

/-- The store leaves the stage Running (R419). -/
theorem fsmStep_store (hp : s.phase = .store) (hidle : s.stage.fsm ≠ .idle) (h : step s = .next t) (id : StageId) :
    FsmStep s t id := by
  simp only [step, hp, storeStep] at h
  split at h
  · rename_i out hout
    cases h
    have hrun : (finish out (s.setStage { s.stage with fsm := .running })).stage.fsm = .running := by
      rw [stage_finish, stage_setStage]
    refine .of_acting (by simp) (by simp) ?_ id
    cases hf : s.stage.fsm with
    | idle => exact absurd hf hidle
    | armed => exact .inr (.inr ⟨.inl rfl, hrun, hp⟩)
    | running => exact .inl hrun
    | overrun => exact .inr (.inr ⟨.inr rfl, hrun, hp⟩)
  · cases h

/-- Settles O13, phase by phase. -/
theorem fsmTransitions : Obligations.FsmTransitions := by
  intro s t hc h id
  show FsmStep s t id
  obtain ⟨-, hok⟩ := onCourse_iff.1 hc
  cases hp : s.phase with
  | between => exact fsmStep_between hp h id
  | drain d => exact fsmStep_drain hp h id
  | program => exact fsmStep_program hp (hp ▸ hok) h id
  | store =>
    rw [hp] at hok
    obtain ⟨hidle, -⟩ := hok
    exact fsmStep_store hp hidle h id

end Fsm

end Sys2Proof.Machine
end

section
/-! SUPPORT. The oscillator bank (`41_oscillator.md` R171, R173): over a period no waveform leaves the finite numbers,
so `OSC.EVAL` of a legal phase and duty never meets the stage fault of R14 (O34). -/

namespace Sys2Proof.Machine
open Sys2Proof

-- One theorem at a time: Lean would give each proof that waits a thread, and there are many.
set_option Elab.async false

section Waveforms

/-! ## The value of a waveform is a finite number (R14, R171) -/

variable {p w : F32}

theorem fexpo_fmul_of_unit {c : F32} (hc : fexpo c ≤ 129) (hp : fexpo p ≤ 127) : fexpo (fmul c p) ≤ 133 :=
  fexpo_fmul_le (isFinite_of_fexpo (by omega)) (isFinite_of_fexpo (by omega)) (by omega) (by omega) (by omega)

theorem isFinite_fsub {x y : F32} (hx : fexpo x ≤ 250) (hy : fexpo y ≤ 250) : isFinite (fsub x y) = true :=
  isFinite_fadd hx ((fexpo_fneg y).trans_le hy)

/-- The sine is bounded by R13, the square and the pulse are ±1, and the triangle and the ramp are at most 4 times a
phase of magnitude below 2, up to a small constant. -/
theorem isFinite_osc (t : Wave) (hp : fexpo p ≤ 127) : isFinite (osc t p w) = true := by
  have h2 : fexpo ftwo = 128 := by decide
  have h4 : fexpo ffour = 129 := by decide
  have h2p : fexpo (fmul ftwo p) ≤ 133 := fexpo_fmul_of_unit (by omega) hp
  have h4p : fexpo (fmul ffour p) ≤ 133 := fexpo_fmul_of_unit (by omega) hp
  cases t with
  | sine => exact isFinite_of_fexpo ((fexpo_unit (fsin_inRange _)).trans (by decide))
  | tri =>
    simp only [osc]
    split_ifs
    · exact isFinite_of_fexpo (by omega)
    · exact isFinite_fsub (by omega) (by omega)
    · exact isFinite_fsub (by omega) (by omega)
  | square => simp only [osc]; split <;> decide
  | ramp => exact isFinite_fsub (by omega) (by decide)
  | pulse => simp only [osc]; split <;> decide

/-- A phase that passes the check of R173 has a magnitude below 2. -/
theorem fexpo_of_legalPhase (hf : isFinite p = true) (h0 : flt p fzero = false) (h1 : fge p fone = false) :
    fexpo p ≤ 127 := by
  have hn := not_isNaN hf
  have hlo : fle fnegOne p = true := fle_trans (by decide) (fle_of_not_flt (x := fzero) (by decide) hn h0)
  have hhi : fle p fone = true := by
    rw [fle_iff]
    refine ⟨hn, by decide, ?_⟩
    by_contra hlt
    exact absurd (fle_iff.2 ⟨by decide, hn, by omega⟩) (Bool.eq_false_iff.1 h1)
  exact fexpo_unit (by simp only [inRange, hlo, hhi, Bool.and_self])

theorem fexpo_evalPhase (t : Wave) (hp : fexpo p ≤ 127) : fexpo (evalPhase t p) ≤ 127 := by
  unfold evalPhase
  split
  · decide
  · exact hp

end Waveforms

section OscEval

/-! ## `OSC.EVAL` (R173) -/

variable {ty : Word} {phase duty : F32} {s : State}

theorem oscEval_operands (ha : accepted (.oscEval ty phase duty) s = true) :
    ty.toNat ≤ 4 ∧ isFinite phase = true := by
  have hl := legal_of_accepted ha
  simp only [legal, enumOk, Bool.and_eq_true, decide_eq_true_eq] at hl
  exact hl.1

/-- `OSC.EVAL` as its two checks in their order and the value; R14's guard on the value always lets it through. -/
theorem exec_oscEval (ha : accepted (.oscEval ty phase duty) s = true) :
    exec (.oscEval ty phase duty) s =
      if flt phase fzero = true ∨ fge phase fone = true then .next (answered .oscInvalidPhase s)
      else if ty = 4 ∧ (fle duty fzero = true ∨ fge duty fone = true) then .next (answered .oscInvalidDuty s)
      else .next (answered .ok (s.setStage { s.stage with oscval := waveform ty phase duty })) := by
  obtain ⟨hty, hfin⟩ := oscEval_operands ha
  refine (issue_accepted ha).trans ?_
  simp only [Bool.or_eq_true, Bool.and_eq_true, beq_iff_eq, waveType_pulse_iff hty, complete_eq]
  split_ifs with hphase hduty
  · rfl
  · rfl
  · rw [not_or, Bool.not_eq_true, Bool.not_eq_true] at hphase
    obtain ⟨h0, h1⟩ := hphase
    have hvalue : isFinite (waveform ty phase duty) = true := by
      rw [← osc_evalPhase ty hty]
      exact isFinite_osc _ (fexpo_evalPhase _ (fexpo_of_legalPhase hfin h0 h1))
    rw [osc_evalPhase ty hty, guardFinite_one hvalue, completeWith_ok]

/-- Settles O34: the clauses are the branches of `exec_oscEval`. -/
theorem oscEvalIsTheWaveform : Obligations.OscEvalIsTheWaveform := by
  intro ty phase duty s ha
  rw [exec_oscEval ha]
  refine ⟨fun hphase => if_pos hphase, fun h0 h1 hty hduty => ?_, fun h0 h1 hduty => ?_⟩
  · rw [if_neg (by simp [h0, h1]), if_pos ⟨hty, hduty⟩]
  · have hlegal : ¬ (ty = 4 ∧ (fle duty fzero = true ∨ fge duty fone = true)) := by
      rintro ⟨hty, hbad⟩
      obtain ⟨hd0, hd1⟩ := hduty hty
      simp [hd0, hd1] at hbad
    rw [if_neg (by simp [h0, h1]), if_neg hlegal]

end OscEval

end Sys2Proof.Machine
end

section
/-! SUPPORT. The compressor at ratio 1 (`45_compressor.md` R285). Its slope is a zero, so the target of the gain reduction
is a zero at every sample, the reduction stays one, and 2 to the power of it is 1.0: only the named property of `fexp2` is
used. That the target is a zero needs its finiteness, which the finiteness of the smoothed reduction gives. -/

namespace Sys2Proof.Machine
open Sys2Proof

section FiniteOperands

/-! ## The operands of a finite result (R12) -/

variable {x y : F32}

theorem isFinite_of_not_isNaN_of_not_isInf (hn : isNaN x = false) (hi : isInf x = false) : isFinite x = true :=
  (finite_or_inf hn).resolve_right (by simp [hi])

theorem not_isFinite_withSign_inf (neg : Bool) : isFinite (withSign neg 0x7F800000) = false := by cases neg <;> rfl

/-- The factors of a finite product are finite. -/
theorem isFinite_of_fmul (h : isFinite (fmul x y) = true) : isFinite x = true ∧ isFinite y = true := by
  unfold fmul at h
  split_ifs at h with hnan hinf hzero
  · exact absurd h (by decide)
  · exact absurd h (by decide)
  · rw [not_isFinite_withSign_inf] at h; cases h
  · simp only [Bool.or_eq_true, not_or, Bool.not_eq_true] at hnan hinf
    obtain ⟨hxn, hyn⟩ := hnan
    obtain ⟨hxi, hyi⟩ := hinf
    exact ⟨isFinite_of_not_isNaN_of_not_isInf hxn hxi, isFinite_of_not_isNaN_of_not_isInf hyn hyi⟩

/-- The summands of a finite sum are finite. -/
theorem isFinite_of_fadd (h : isFinite (fadd x y) = true) : isFinite x = true ∧ isFinite y = true := by
  unfold fadd at h
  split_ifs at h with hnan hx hopposite hy
  · exact absurd h (by decide)
  · exact absurd h (by decide)
  · rw [not_isInf h] at hx; cases hx
  · rw [not_isInf h] at hy; cases hy
  · simp only [Bool.or_eq_true, not_or, Bool.not_eq_true] at hnan hx hy
    obtain ⟨hxn, hyn⟩ := hnan
    exact ⟨isFinite_of_not_isNaN_of_not_isInf hxn hx, isFinite_of_not_isNaN_of_not_isInf hyn hy⟩

end FiniteOperands

section Zeros

/-! ## Zeros and products with 1.0 (R12) -/

variable {c x y : F32}

/-- A finite number times a zero is a zero. -/
theorem isZero_fmul (hx : isFinite x = true) (hy : isZero y = true) : isZero (fmul x y) = true := by
  have hfin : isFinite y = true ∧ fmant y = 0 := by rcases eq_of_isZero hy with rfl | rfl <;> decide
  obtain ⟨hyf, hmant⟩ := hfin
  unfold fmul
  simp only [not_isNaN hx, not_isNaN hyf, not_isInf hx, not_isInf hyf, Bool.or_false, Bool.false_eq_true, if_false]
  rw [hmant, Nat.mul_zero, roundPack, if_pos rfl]
  cases fsign x != fsign y <;> rfl

theorem isZero_fadd (hx : isZero x = true) (hy : isZero y = true) : isZero (fadd x y) = true := by
  rcases eq_of_isZero hx with rfl | rfl <;> rcases eq_of_isZero hy with rfl | rfl <;> decide

/-- The target of a smoothing step is finite if the result is (R146). -/
theorem isFinite_of_smoothed (h : isFinite (smoothed c y x) = true) : isFinite x = true :=
  (isFinite_of_fmul (isFinite_of_fadd h).2).2

/-- Smoothing from a zero towards a zero stays there (R146). -/
theorem isZero_smoothed (h : isFinite (smoothed c y x) = true) (hy : isZero y = true) (hx : isZero x = true) :
    isZero (smoothed c y x) = true := by
  obtain ⟨hkept, hmoved⟩ := isFinite_of_fadd h
  obtain ⟨hc, -⟩ := isFinite_of_fmul hkept
  obtain ⟨hc', -⟩ := isFinite_of_fmul hmoved
  exact isZero_fadd (isZero_fmul hc hy) (isZero_fmul hc' hx)

theorem fmul_comm (x y : F32) : fmul x y = fmul y x := by
  simp only [fmul, Bool.or_comm (isNaN x), Bool.or_comm (isInf x), Bool.or_comm (isZero x), bne_comm (a := fsign x),
    Nat.mul_comm (fmant x), Int.add_comm (fscale x : Int)]

theorem fone_fmul (hx : isFinite x = true) : fmul fone x = x := (fmul_comm fone x).trans (fmul_fone hx)

end Zeros

section RatioOne

/-! ## The recurrence at slope 0 (R278, R285) -/

variable {v : F32} {x : Compressor} {xs : List F32}

/-- The target of the gain reduction (R278). -/
def cpTarget (v : F32) (x : Compressor) : F32 :=
  fmul (cpOver x.thrL2 (smoothed x.rmsC x.ms (fmul v v))) x.slope

/-- The reduction is smoothed towards its target, whichever of the two coefficients is taken (R278). -/
theorem cpRule_env_smoothed (v : F32) (x : Compressor) :
    ∃ c, (cpRule v x).1.env = smoothed c x.env (cpTarget v x) := by
  have henv : (cpRule v x).1.env = if flt (cpTarget v x) x.env
      then smoothed x.attC x.env (cpTarget v x) else smoothed x.relC x.env (cpTarget v x) := rfl
  rw [henv]
  split
  · exact ⟨_, rfl⟩
  · exact ⟨_, rfl⟩

theorem cpRule_out (v : F32) (x : Compressor) :
    (cpRule v x).2 = fmul v (fmul (fexp2 (cpRule v x).1.env) x.gain) := rfl

/-- The input and the gain of a fine sample are finite. -/
theorem isFinite_of_cpFine (h : cpFine v x = true) : isFinite v = true ∧ isFinite x.gain = true := by
  simp only [cpFine, Bool.and_eq_true, cpRule_out] at h
  obtain ⟨-, hout⟩ := h
  obtain ⟨hv, hfactor⟩ := isFinite_of_fmul hout
  exact ⟨hv, (isFinite_of_fmul hfactor).2⟩

/-- The reduction stays a zero (R285). -/
theorem isZero_cpRule_env (hslope : isZero x.slope = true) (henv : isZero x.env = true) (h : cpFine v x = true) :
    isZero (cpRule v x).1.env = true := by
  simp only [cpFine, Bool.and_eq_true] at h
  obtain ⟨⟨-, hfin⟩, -⟩ := h
  obtain ⟨c, hc⟩ := cpRule_env_smoothed v x
  rw [hc] at hfin ⊢
  obtain ⟨hover, -⟩ := isFinite_of_fmul (isFinite_of_smoothed hfin)
  exact isZero_smoothed hfin henv (isZero_fmul hover hslope)

/-- The output is the input times the gain (R285). -/
theorem cpRule_out_of_slope_zero (hslope : isZero x.slope = true) (henv : isZero x.env = true) (h : cpFine v x = true) :
    (cpRule v x).2 = fmul v x.gain := by
  rw [cpRule_out, fexp2_zero (isZero_cpRule_env hslope henv h), fone_fmul (isFinite_of_cpFine h).2]

/-- Over a block: every sample times the gain, and the reduction is a zero after it. -/
theorem scan_cpRule_of_slope_zero (hslope : isZero x.slope = true) (henv : isZero x.env = true)
    (hok : always cpRule cpFine xs x = true) :
    (scan cpRule xs x).2 = xs.map (fun v => fmul v x.gain) ∧ isZero (scan cpRule xs x).1.env = true := by
  induction xs generalizing x with
  | nil => exact ⟨rfl, henv⟩
  | cons v vs ih =>
    simp only [always, Bool.and_eq_true] at hok
    obtain ⟨hv, hvs⟩ := hok
    obtain ⟨houts, hlast⟩ := ih (x := (cpRule v x).1) hslope (isZero_cpRule_env hslope henv hv) hvs
    rw [scan_cons, List.map_cons, cpRule_out_of_slope_zero hslope henv hv]
    exact ⟨congrArg _ houts, hlast⟩

/-- The inputs of a fine run are finite. -/
theorem isFinite_of_always_cpFine (hok : always cpRule cpFine xs x = true) : ∀ v ∈ xs, isFinite v = true := by
  induction xs generalizing x with
  | nil => exact List.forall_mem_nil _
  | cons v vs ih =>
    simp only [always, Bool.and_eq_true] at hok
    obtain ⟨hv, hvs⟩ := hok
    exact List.forall_mem_cons.2 ⟨(isFinite_of_cpFine hv).1, ih hvs⟩

theorem map_fmul_fone (h : ∀ v ∈ xs, isFinite v = true) : xs.map (fun v => fmul v fone) = xs :=
  (List.map_congr_left fun v hv => fmul_fone (h v hv)).trans (List.map_id xs)

/-- The compressor file is untouched by the answer. -/
@[simp] theorem cpr_answered (code : ResultCode) (s : State) : (answered code s).stage.cpr = s.stage.cpr := by
  rcases answered_stage code s with h | h <;> rw [h]

@[simp] theorem buf_put_cpSlot (st : Stage) (inst : Byte) (y : Compressor) : (cpSlot.put st inst y).buf = st.buf := rfl

/-- The compressor found after a read is the one it put (R34). -/
theorem eq_of_cpr_put {st : Stage} {m : Memory} {inst : Byte} {y z : Compressor} (hx : st.cpr[inst.toNat]? = some x)
    (hz : (cpSlot.put { st with buf := m } inst y).cpr[inst.toNat]? = some z) : z = y := by
  obtain ⟨-, -, -, hput⟩ := cp_isFile { st with buf := m } inst y
  obtain ⟨hlt, -⟩ := List.getElem?_eq_some_iff.1 hx
  rw [hput, if_pos ⟨rfl, hlt⟩] at hz
  exact (Option.some.inj hz).symm

/-- `1 − 1 ÷ 1` is +0.0. -/
theorem slope_at_ratio_one : fsub 0x3F800000 (fdiv 0x3F800000 0x3F800000) = fzero := by decide

/-- Settles O59: the read is the recurrence (O54), read off at slope 0. -/
theorem compressorAtRatioOneIsACopy : Obligations.CompressorAtRatioOneIsACopy := by
  intro inst bs bd n s x xs ha hx hr hslope henv hs hok
  have hzero : isZero x.slope = true := by rw [hslope, slope_at_ratio_one]; rfl
  obtain ⟨houts, hlast⟩ := scan_cpRule_of_slope_zero hzero henv hok
  refine ⟨_, cpReadCompresses inst bs bd n s x xs ha hx hr hs hok, ?_⟩
  rw [buf_answered, cpr_answered, stage_setStage, houts, buf_put_cpSlot]
  refine ⟨rfl, fun y hy => ?_, fun hgain => ?_⟩
  · rw [eq_of_cpr_put hx hy]
    exact hlast
  · have hcopy : xs.map (fun v => fmul v 0x3F800000) = xs := map_fmul_fone (isFinite_of_always_cpFine hok)
    rw [hgain, hcopy]

end RatioOne

end Sys2Proof.Machine
end

section
/-! SUPPORT. Note-on and note-off of the synth voice (`48_synth.md` R358, R359): the note-on is a modify like those of
O41 to O45; of the note-off only the new position is to be said, for the release breakpoint fits a word by the bound on
the segment lengths (R357). -/

namespace Sys2Proof.Machine
open Sys2Proof

section NoteOff

/-! ## The note-off (R359) -/

variable {y : Synth}

/-- A note-off writes the position only. -/
theorem syStopped_eq_with_pos (y : Synth) : syStopped y = { y with pos := (syStopped y).pos } := by
  unfold syStopped
  split <;> rfl

/-- The release breakpoint of segments within `SY_LEN_MAX` is a word (R357). -/
theorem toNat_ofNat_syB3 (hA : y.A.toNat ≤ Config.syLenMax) (hD : y.D.toNat ≤ Config.syLenMax)
    (hS : y.S.toNat ≤ Config.syLenMax) : (BitVec.ofNat 32 (syB3 y)).toNat = syB3 y := by
  rw [BitVec.toNat_ofNat]
  refine Nat.mod_eq_of_lt ?_
  unfold Config.syLenMax at hA hD hS
  unfold syB3
  omega

/-- The position after a note-off: the release breakpoint for a voice that sounds before it, else the old one. -/
theorem toNat_syStopped_pos (hA : y.A.toNat ≤ Config.syLenMax) (hD : y.D.toNat ≤ Config.syLenMax)
    (hS : y.S.toNat ≤ Config.syLenMax) :
    (syStopped y).pos.toNat = if y.playing = true ∧ y.pos.toNat < syB3 y then syB3 y else y.pos.toNat := by
  simp only [syStopped, Bool.and_eq_true, decide_eq_true_eq]
  split
  · exact toNat_ofNat_syB3 hA hD hS
  · rfl

/-- A note-off never moves the position back. -/
theorem pos_le_syStopped_pos (hA : y.A.toNat ≤ Config.syLenMax) (hD : y.D.toNat ≤ Config.syLenMax)
    (hS : y.S.toNat ≤ Config.syLenMax) : y.pos.toNat ≤ (syStopped y).pos.toNat := by
  rw [toNat_syStopped_pos hA hD hS]
  split
  next hbefore =>
    obtain ⟨-, hlt⟩ := hbefore
    exact hlt.le
  next => exact le_rfl

end NoteOff

section NoteOnAndNoteOff

/-- Settles O46. -/
theorem noteOnAndNoteOff : Obligations.NoteOnAndNoteOff := by
  refine ⟨fun inst freq vol s y ha hy hr hfin => ?_, fun inst s y hp hy hr hA hD hS => ?_⟩
  · exact issue_modify (sl := sySlot) ha hy hr (guardFinite_one hfin)
  · have hstop : exec (.syStop inst) s =
        .next (answered .ok (s.setStage (sySlot.put s.stage inst (syStopped y)))) :=
      issue_modify (sl := sySlot) (accepted_port hp rfl) hy hr rfl
    exact ⟨syStopped y, hstop, syStopped_eq_with_pos y, pos_le_syStopped_pos hA hD hS, toNat_syStopped_pos hA hD hS⟩

end NoteOnAndNoteOff

end Sys2Proof.Machine
end

section
/-! SUPPORT. A dispatch ends (O8): every command of a well-formed program leaves fewer program words from `cp` on, so
the number of those words is a measure that falls with each step until `END` leads to the store (R120, R385, R416). -/

namespace Sys2Proof.Machine
open Sys2Proof

section Termination

/-! ## The words left are a measure of a dispatch (R27, R416) -/

variable {s t : State}

theorem phaseOk_program (hc : s.onCourse = true) (hp : s.phase = .program) : PhaseOk s .program := by
  obtain ⟨-, hok⟩ := onCourse_iff.1 hc
  exact hp ▸ hok

/-- A step of a dispatch leads to the store, at `END`, or goes on in the program with fewer words left. -/
theorem step_program_store_or_shortens (hc : s.onCourse = true) (hp : s.phase = .program) (h : step s = .next t) :
    t.phase = .store ∨ (t.phase = .program ∧ (programWords t).length < (programWords s).length) := by
  obtain ⟨-, hprogram, -, hcp⟩ := phaseOk_program hc hp
  obtain ⟨i, hd, hcommand, -, -⟩ := programFrom_front hprogram
  obtain ⟨u, he, rfl⟩ := step_program_next hp hd h
  by_cases hi : i = .endProgram
  · subst hi
    rw [exec_endProgram hp] at he
    cases he
    exact .inl rfl
  · obtain ⟨hpos, hlen⟩ := decode_length hd
    obtain ⟨-, hwords⟩ := programWords_advanced he hcommand hlen hcp
    rw [if_neg hi]
    refine .inr ⟨by rw [phase_setStage, exec_phase he hi, hp], ?_⟩
    rw [hwords, List.length_drop]
    omega

/-- A program that can go on has a word left: `END` at least (R120). -/
theorem programWords_pos (hc : s.onCourse = true) (hp : s.phase = .program) : 1 ≤ (programWords s).length := by
  obtain ⟨-, hprogram, -, -⟩ := phaseOk_program hc hp
  obtain ⟨i, hd, -, -, -⟩ := programFrom_front hprogram
  obtain ⟨hpos, hlen⟩ := decode_length hd
  exact hpos.trans hlen

theorem run_one_of_fault {f : Fault} (h : step s = .fault f) : Host.Core.run core 1 s = .fault f := by
  have h' : core.step s = .fault f := h
  simp only [Host.Core.run, h']

/-- At most `n` steps lead from `s` to the store or to a command that faults. -/
def EndsWithin (n : Nat) (s : State) : Prop :=
  ∃ k ≤ n, (∃ t, Host.Core.run core k s = .next t ∧ t.phase = .store) ∨ ∃ f, Host.Core.run core k s = .fault f

theorem endsWithin_of_store {n : Nat} (h : s.phase = .store) : EndsWithin n s :=
  ⟨0, n.zero_le, .inl ⟨s, rfl, h⟩⟩

theorem endsWithin_of_fault {n : Nat} {f : Fault} (h : step s = .fault f) : EndsWithin (n + 1) s :=
  ⟨1, Nat.le_add_left 1 n, .inr ⟨f, run_one_of_fault h⟩⟩

theorem EndsWithin.of_step {n : Nat} (h : step s = .next t) (ht : EndsWithin n t) : EndsWithin (n + 1) s := by
  obtain ⟨k, hk, hend⟩ := ht
  refine ⟨k + 1, Nat.succ_le_succ hk, ?_⟩
  rwa [run_step k h]

/-- A dispatch ends within any bound on its words, by induction on the bound. -/
theorem endsWithin_of_program {n : Nat} (hc : s.onCourse = true) (hp : s.phase = .program)
    (hn : (programWords s).length ≤ n) : EndsWithin n s := by
  induction n generalizing s with
  | zero => exact absurd ((programWords_pos hc hp).trans hn) (by decide)
  | succ n ih =>
    cases hstep : step s with
    | next t =>
      refine .of_step hstep ?_
      rcases step_program_store_or_shortens hc hp hstep with hstore | ⟨hprog, hless⟩
      · exact endsWithin_of_store hstore
      · exact ih (stepKeepsTheCourse s t hc hstep) hprog (Nat.le_of_lt_succ (hless.trans_le hn))
    | fault f => exact endsWithin_of_fault hstep
    | refused r => exact absurd hstep (step_program_ne_refused hp (phaseOk_program hc hp))

/-- Settles O8: the words left fall with every step, and the course is kept (O22). -/
theorem dispatchTerminates : Obligations.DispatchTerminates :=
  fun _ hc hp => endsWithin_of_program hc hp le_rfl

end Termination

end Sys2Proof.Machine
end

section
/-! SUPPORT. Loads, arrivals, drops and null elements (`20_memory.md` R418, `40_control_and_buffer.md` R132,
`60_exceptions.md` R404, R415, R421, R431): the words a load leaves in the buffers (O11), the step a block arrival takes
at either stage (O12), what one step makes of `DROPS` (O14), and what a command on the null element does, class by
class (O28). -/

namespace Sys2Proof.Machine
open Sys2Proof

-- One theorem at a time: Lean would give each proof that waits a thread, and there are many.
set_option Elab.async false

section Load

/-! ## The words a load leaves (R418) -/

variable {x : Block} {i : Nat}

/-- The second channel is loaded over the first, into another buffer. -/
theorem bufRead_loadBlock (h0 : x.ch0.length ≤ 65536) (h1 : x.ch1.length ≤ 65536) (hi : i < 65536) (b : Byte)
    (m : Memory) :
    bufRead (loadBlock x m) b i =
      if b = 0 ∧ i < x.ch0.length then x.ch0[i]?
      else if b = 1 ∧ i < x.ch1.length then x.ch1[i]? else bufRead m b i := by
  rw [loadBlock, bufRead_load _ _ _ _ _ _ (by omega) hi, bufRead_load _ _ _ _ _ _ (by omega) hi]
  by_cases hb : b = 0
  · subst hb; simp
  · simp [show ¬ b = 0#8 from hb]

/-- Settles O11: both channels of a block of the right shape are `BLKSZ` words long. -/
theorem loadWritesOnlyTheBlock : Obligations.LoadWritesOnlyTheBlock := by
  intro c x m hc hx b i hi
  have hle := blksz_le hc
  simp only [blockShaped, Bool.and_eq_true, beq_iff_eq] at hx
  obtain ⟨h0, h1⟩ := hx
  rw [bufRead_loadBlock (by omega) (by omega) hi, h0, h1]

end Load

section ArrivalSteps

/-! ## The step a block arrival takes (R411, R414, R415, R421) -/

variable {s : State} {late : Bool} {x : Block} {rest : List Input}

theorem step_arrivalA (hp : s.phase = .between) (hi : s.inputs = .arrivalA late x :: rest)
    (hx : blockShaped s.cfg x = true) (hf : blockFinite x = true) :
    step s = .next (arrive late x { s with inputs := rest, cur := .A }) := by
  simp only [step_between hp, inputStep, hi, nextInput, arriveA, hx, hf, if_true]

theorem step_arrivalB {xs : List Block} (hp : s.phase = .between) (hi : s.inputs = .arrivalB late :: rest)
    (hh : s.handoff = x :: xs) :
    step s = .next (arrive late x { s with inputs := rest, cur := .B, handoff := xs }) := by
  simp only [step_between hp, inputStep, hi, nextInput, arriveB, hh]

/-- A stage that dispatches latches the block and drains; `late` counts in Running and Overrun only (R415). -/
theorem arrive_latches
    (h : s.stage.fsm = .armed ∨ (late = false ∧ (s.stage.fsm = .running ∨ s.stage.fsm = .overrun))) :
    arrive late x s = (s.counted.setPhase (.drain true)).setLatch x := by
  unfold arrive
  rcases h with h | ⟨rfl, h | h⟩ <;> rw [h] <;> rfl

theorem arrive_overruns (hl : late = true) (h : s.stage.fsm = .running ∨ s.stage.fsm = .overrun) :
    arrive late x s = overrun s.counted := by
  unfold arrive
  rcases h with h | h <;> rw [h, hl] <;> rfl

/-- The count stays at its top (R431). -/
theorem satInc_eq_top (w : Word) : satInc w = if w = 0xFFFFFFFF then 0xFFFFFFFF else w + 1 := by
  unfold satInc
  split
  · assumption
  · rfl

/-- An overrun between two answers: the acting stage and the hand-off are all that changes (R421, R431). -/
theorem overrun_eq (hp : s.phase = .between) :
    overrun s =
      (s.setStage { s.stage with out := quiet s.cfg, fsm := .overrun, drops := satInc s.stage.drops }).setHandoff
        (match s.cur with | .A => s.handoff ++ [quiet s.cfg] | .B => s.handoff) := by
  obtain ⟨cfg, a, b, handoff, cur, phase, latch, inputs⟩ := s
  cases hp
  cases cur <;> rfl

/-- The three answers to an arrival, told apart by `FSM` and `late` (R415). -/
theorem arrive_answers (late : Bool) (x : Block) (hp : s.phase = .between) :
    (late = true → (s.stage.fsm = .running ∨ s.stage.fsm = .overrun) →
      arrive late x s =
        (s.counted.setStage { s.counted.stage with
          out := quiet s.cfg, fsm := .overrun, drops := satInc s.stage.drops }).setHandoff
          (match s.cur with | .A => s.handoff ++ [quiet s.cfg] | .B => s.handoff))
    ∧ (s.stage.fsm = .idle → arrive late x s = s.counted.setPhase (.drain false))
    ∧ (s.stage.fsm = .armed ∨ (late = false ∧ (s.stage.fsm = .running ∨ s.stage.fsm = .overrun)) →
      arrive late x s = (s.counted.setPhase (.drain true)).setLatch x) := by
  refine ⟨fun hl hf => ?_, arrive_idle, arrive_latches⟩
  have hcounted : s.counted.phase = .between := by simpa [State.counted] using hp
  rw [arrive_overruns hl hf, overrun_eq hcounted]
  simp [State.counted]

/-- Settles O12: the arrival's step for each stage, then the drain of an Idle stage that has no command left. -/
theorem overrunIsSilenceAndOneDrop : Obligations.OverrunIsSilenceAndOneDrop := by
  simp only [Obligations.OverrunIsSilenceAndOneDrop, ← satInc_eq_top]
  refine ⟨fun s late x rest hp hi hx hf => ?_, fun s late x xs rest hp hi hh => ?_, fun s hp hq => ?_⟩
  · rw [step_arrivalA hp hi hx hf]
    obtain ⟨hover, hidle, hlatch⟩ := arrive_answers (s := { s with inputs := rest, cur := .A }) late x hp
    exact ⟨fun hl hf => congrArg _ (hover hl hf), fun hf => congrArg _ (hidle hf), fun hf => congrArg _ (hlatch hf)⟩
  · rw [step_arrivalB hp hi hh]
    obtain ⟨hover, hidle, hlatch⟩ :=
      arrive_answers (s := { s with inputs := rest, cur := .B, handoff := xs }) late x hp
    exact ⟨fun hl hf => congrArg _ (hover hl hf), fun hf => congrArg _ (hidle hf), fun hf => congrArg _ (hlatch hf)⟩
  · have hends := answerEnds_finish s s.stage (silence s.cfg)
    rw [setStage_stage] at hends
    exact ⟨_, step_drain_empty hp hq, hends⟩

end ArrivalSteps

section Drops

/-! ## What one step makes of `DROPS` (R421, R431) -/

variable {s t : State} {d : Bool}

theorem toNat_le_satInc (w : Word) : w.toNat ≤ (satInc w).toNat := by
  rw [satInc_eq]
  split
  · bv_omega
  · exact le_rfl

/-- One step as `DROPS` of the stage `id` shows it: kept, or one overrun counted. -/
def DropsStep (s t : State) (id : StageId) : Prop :=
  (t.stageAt id).drops = (s.stageAt id).drops
    ∨ ((t.stageAt id).drops = satInc (s.stageAt id).drops ∧ (t.stageAt id).fsm = .overrun)

theorem DropsStep.le {id : StageId} (h : DropsStep s t id) :
    (s.stageAt id).drops.toNat ≤ (t.stageAt id).drops.toNat := by
  rcases h with h | ⟨h, -⟩ <;> rw [h]
  exact toNat_le_satInc _

theorem arrive_drops (late : Bool) (x : Block) (s : State) :
    (arrive late x s).stage.drops = s.stage.drops
      ∨ ((arrive late x s).stage.drops = satInc s.stage.drops ∧ (arrive late x s).stage.fsm = .overrun) := by
  rcases arrive_cases late x s with ⟨-, h⟩ | h | h <;> rw [h]
  · exact .inl (by simp [State.counted])
  · exact .inl (by simp [State.counted])
  · exact .inr (by simp [State.counted])

/-- The stage an arrival is for counts an overrun or nothing; the other stage stays. -/
theorem dropsStep_arrive {u : State} (late : Bool) (x : Block) (hstages : ∀ id, u.stageAt id = s.stageAt id)
    (id : StageId) : DropsStep s (arrive late x u) id := by
  unfold DropsStep
  rw [← hstages id, stageAt_eq (arrive late x u), stageAt_eq u, cur_arrive, other_arrive]
  split
  · exact arrive_drops late x u
  · exact .inl rfl

/-- Between two answers: a reset clears both counters, an arrival may overrun, no other event counts (R431, R451). -/
theorem drops_between (hp : s.phase = .between) (h : step s = .next t) :
    (∃ rest, nextInput (portReady s) s.inputs = some (.reset, rest) ∧ t.a.drops = 0 ∧ t.b.drops = 0)
      ∨ ∀ id, DropsStep s t id := by
  have ht := step_takes hp h
  generalize nextInput (portReady s) s.inputs = e at ht ⊢
  cases ht with
  | waits => exact .inr fun _ => .inl rfl
  | enqueue id' ws rest => exact .inr fun id => .inl (by cases id' <;> cases id <;> rfl)
  | arrivalA late x rest => exact .inr (dropsStep_arrive late x fun id => by cases id <;> rfl)
  | arrivalB late rest hx => exact .inr (dropsStep_arrive late _ fun id => by cases id <;> rfl)
  | reset rest => exact .inl ⟨rest, rfl, rfl, rfl⟩

/-- The step is the acting stage's own, and counts no drop. -/
structure KeepsDrops (s t : State) : Prop where
  cur : t.cur = s.cur
  other : t.other = s.other
  drops : t.stage.drops = s.stage.drops

theorem StageActs.keepsDrops (h : StageActs s t) (hd : t.stage.drops = s.stage.drops) : KeepsDrops s t :=
  ⟨h.cur, h.other, hd⟩

theorem KeepsDrops.dropsStep (h : KeepsDrops s t) (id : StageId) : DropsStep s t id := by
  left
  rw [stageAt_eq, stageAt_eq, h.cur, h.other]
  split
  · exact h.drops
  · rfl

theorem keepsDrops_finish {st : Stage} (out : Block) (h : st.drops = s.stage.drops) :
    KeepsDrops s (finish out (s.setStage st)) := ⟨by simp, by simp, by simpa using h⟩

theorem drops_beginDispatch (s : State) : (beginDispatch s).stage.drops = s.stage.drops := by
  unfold beginDispatch; split <;> simp

theorem keepsDrops_drain (hp : s.phase = .drain d) (h : step s = .next t) : KeepsDrops s t := by
  cases hq : s.stage.cq with
  | nil =>
    rw [step_drain_empty hp hq] at h
    cases h
    cases d
    · have hf := keepsDrops_finish (s := s) (st := s.stage) (silence s.cfg) rfl
      rwa [setStage_stage] at hf
    · exact (beginDispatch_acts s).keepsDrops (drops_beginDispatch s)
  | cons ws rest =>
    obtain ⟨hacts, -⟩ := step_drain_acts hp hq h
    refine hacts.keepsDrops ?_
    cases hd : decodePort ws with
    | ok i =>
      rw [stepRunsTheDecodedCommand.1 s d ws rest i hp hq hd] at h
      rw [(exec_frame h).drops, stage_setStage]
    | error e =>
      rw [step_drain_noCommand hp hq hd] at h
      cases h
      rw [stage_setStage]

theorem keepsDrops_program (hp : s.phase = .program) (h : step s = .next t) : KeepsDrops s t := by
  have hstep : programStep s = .next t := by simpa only [step, hp] using h
  refine (programStep_acts hstep).keepsDrops ?_
  cases hd : decode (programWords s) with
  | ok i =>
    obtain ⟨u, he, rfl⟩ := step_program_next hp hd h
    rw [← (exec_frame he).drops]
    split
    · rfl
    · rw [stage_setStage]
  | error e => simp [programStep, hd] at hstep

theorem keepsDrops_store (hp : s.phase = .store) (h : step s = .next t) : KeepsDrops s t := by
  simp only [step, hp, storeStep] at h
  split at h
  · cases h; exact keepsDrops_finish _ rfl
  · cases h

/-- Within an answer no step counts a drop: only an arrival overruns (R421). -/
theorem step_keepsDrops (hp : s.phase ≠ .between) (h : step s = .next t) : KeepsDrops s t := by
  cases hphase : s.phase with
  | between => exact absurd hphase hp
  | drain d => exact keepsDrops_drain hphase h
  | program => exact keepsDrops_program hphase h
  | store => exact keepsDrops_store hphase h

/-- Settles O14. -/
theorem dropsAreMonotonic : Obligations.DropsAreMonotonic := by
  intro s t h
  by_cases hp : s.phase = .between
  · rcases drops_between hp h with ⟨rest, he, ha, hb⟩ | hd
    · exact .inl ⟨rest, he, hp, ha, hb⟩
    · exact .inr fun id => ⟨hd id, (hd id).le⟩
  · have hd := (step_keepsDrops hp h).dropsStep
    exact .inr fun id => ⟨hd id, (hd id).le⟩

end Drops

section NullInstance

/-! ## How many elements a class has (R8, R33, R404) -/

variable {i : Instr} {s : State} {inst : Byte}

theorem length_initBits {c : Config} {st : Stage} (h : Stage.formed c st = true) (cls : Nat) :
    (initBits st cls).length = classCount c cls := by
  simp only [Stage.formed, Bool.and_eq_true, decide_eq_true_eq, ringsOk_iff, and_assoc] at h
  obtain ⟨-, -, -, -, hbq, hdl, -, hmt, -, hap, -, hvd, -, hcpr, hcl, ham, hsy, hzc, hsm, htrk⟩ := h
  simp only [initBits, classCount, apply_ite List.length, List.length_map, List.length_nil,
    hbq, hdl, hmt, hap, hvd, hcpr, hcl, ham, hsy, hzc, hsm, htrk]

theorem namedInit_eq_none_iff (hi : instanceOf i = some inst) (st : Stage) :
    namedInit st i = none ↔ (initBits st (classOf i)).length ≤ inst.toNat := by
  unfold namedInit
  rw [hi]
  exact List.getElem?_eq_none_iff

/-! ## A command on the null element (R132 to R134, R404) -/

/-- What a command on the null element does: it answers `InvalidInstancePointer`, having copied the source to its
destination if it has one. -/
structure AnswersNull (i : Instr) (s : State) : Prop where
  unchanged : destination i = none → exec i s = .next (answered .invalidInstancePointer s)
  copied : ∀ (bs bd : Byte) (n : BitVec 16) (k : Nat) (xs : List F32), source i = some (bs, n) →
    destination i = some (bd, k) → bufStore s.stage.buf bs n.toNat 0 = .ok xs →
    exec i s = .next (answered .invalidInstancePointer (s.setBuf (bufLoad bd 0 xs s.stage.buf)))

/-- A read without a destination has nothing to copy. -/
theorem readNothing_null {α : Type} {sl : Slot α} {run : α → Memory → Except Fault (Memory × α)}
    (hg : sl.get s.stage inst = none) :
    readElement sl inst passNothing run s = .next (answered .invalidInstancePointer s) := by
  have hpass : passNothing s.stage.buf = .ok s.stage.buf := rfl
  rw [readElement_null hg hpass]
  exact congrArg (fun u : State => (Host.Outcome.next (answered .invalidInstancePointer u) : Result)) (setStage_stage s)

namespace ElementClass

variable {α : Type} {sl : Slot α} {cls : Nat} {step : Config → Nat → α → α → Prop}

/-- The null element is no element of the slot. -/
theorem get_of_null (hc : ElementClass sl cls step) (hcls : classOf i = cls) (hi : instanceOf i = some inst)
    (hn : namedInit s.stage i = none) : sl.get s.stage inst = none := by
  rw [hc.namedInit_eq hcls hi] at hn
  exact Option.map_eq_none_iff.1 hn

/-- A command without a destination, by what its contract says of the null element. -/
theorem null_unchanged (hc : ElementClass sl cls step) (ha : accepted i s = true) (hn : namedInit s.stage i = none)
    {body : Result} (hexec : exec i s = issue i s body)
    (hbody : sl.get s.stage inst = none → body = .next (answered .invalidInstancePointer s))
    (hd : destination i = none := by rfl)
    (hcls : classOf i = cls := by simp [classOf, Instr.opcode])
    (hi : instanceOf i = some inst := by rfl) : AnswersNull i s := by
  refine ⟨fun _ => ?_, fun bs bd n k xs _ h => ?_⟩
  · rw [hexec, issue_accepted ha, hbody (hc.get_of_null hcls hi hn)]
  · rw [hd] at h; cases h

/-- A read with a destination copies its source there. -/
theorem null_copied (hc : ElementClass sl cls step) (ha : accepted i s = true) (hn : namedInit s.stage i = none)
    {bs bd : Byte} {n : BitVec 16} {run : α → Memory → Except Fault (Memory × α)}
    (hexec : exec i s = issue i s (readElement sl inst (passCopy bs bd n) run s))
    (hs : source i = some (bs, n) := by rfl) (hd : destination i = some (bd, n.toNat) := by rfl)
    (hcls : classOf i = cls := by simp [classOf, Instr.opcode])
    (hi : instanceOf i = some inst := by rfl) : AnswersNull i s := by
  refine ⟨fun h => ?_, fun bs' bd' n' k xs hs' hd' hxs => ?_⟩
  · rw [hd] at h; cases h
  · rw [hs] at hs'; cases hs'
    rw [hd] at hd'; cases hd'
    rw [hexec, issue_accepted ha, readElement_null (hc.get_of_null hcls hi hn) (passCopy_ok hxs)]
    rfl

end ElementClass

/-- Every command with an element index, by its class and its contract. -/
theorem exec_answersNull (ha : accepted i s = true) (hi : instanceOf i = some inst)
    (hn : namedInit s.stage i = none) : AnswersNull i s := by
  cases i with
  | endProgram | copy | clear | mix2 | gain | oscEval | stArm | stSelect | efSetup => cases hi
  | bqSetup => exact bqClass.null_unchanged ha hn rfl setupElement_null
  | bqModFreq | bqModQ | bqModGain => exact bqClass.null_unchanged ha hn rfl modifyElement_null
  | bqRead => exact bqClass.null_copied ha hn rfl
  | dlSetup => exact dlClass.null_unchanged ha hn rfl setupElement_null
  | dlModLen | dlModFb | dlModFt | dlModDamp => exact dlClass.null_unchanged ha hn rfl modifyElement_null
  | dlRead => exact dlClass.null_copied ha hn rfl
  | mtSetup => exact mtClass.null_unchanged ha hn rfl setupElement_null
  | mtSetTap => exact mtClass.null_unchanged ha hn rfl modifyElement_null
  | mtRead => exact mtClass.null_copied ha hn rfl
  | apSetup => exact apClass.null_unchanged ha hn rfl setupElement_null
  | apRead => exact apClass.null_copied ha hn rfl
  | vdSetup => exact vdClass.null_unchanged ha hn rfl setupElement_null
  | vdModDepth | vdModRate | vdModFb | vdModType => exact vdClass.null_unchanged ha hn rfl modifyElement_null
  | vdRead => exact vdClass.null_copied ha hn rfl
  | cpSetup => exact cpClass.null_unchanged ha hn rfl setupElement_null
  | cpModThr | cpModRatio | cpModAtt | cpModRel | cpModGain =>
    exact cpClass.null_unchanged ha hn rfl modifyElement_null
  | cpRead => exact cpClass.null_copied ha hn rfl
  | clSetup => exact clClass.null_unchanged ha hn rfl setupElement_null
  | clModThr => exact clClass.null_unchanged ha hn rfl modifyElement_null
  | clRead => exact clClass.null_copied ha hn rfl
  | amSetup => exact amClass.null_unchanged ha hn rfl setupElement_null
  | amModDepth | amModRate => exact amClass.null_unchanged ha hn rfl modifyElement_null
  | amRead => exact amClass.null_copied ha hn rfl
  | sySetup => exact syClass.null_unchanged ha hn rfl setupElement_null
  | syPlay | syStop => exact syClass.null_unchanged ha hn rfl modifyElement_null
  | syRead => exact syClass.null_copied ha hn rfl
  | zcSetup => exact zcClass.null_unchanged ha hn rfl setupElement_null
  | zcRead => exact zcClass.null_unchanged ha hn rfl readNothing_null
  | smSetup => exact smClass.null_unchanged ha hn rfl setupElement_null
  | smRead => exact smClass.null_copied ha hn rfl
  | atSetup => exact atClass.null_unchanged ha hn rfl setupElement_null
  | atRead => exact atClass.null_unchanged ha hn rfl readNothing_null

/-- Settles O28: an index has 8 bits, so none is beyond a class of 256. -/
theorem nullInstance : Obligations.NullInstance := by
  refine ⟨fun c st i inst hst hi => ?_, fun i s inst ha hi hn => ?_⟩
  · have hnone : namedInit st i = none ↔ classCount c (classOf i) ≤ inst.toNat := by
      rw [namedInit_eq_none_iff hi, length_initBits hst]
    refine ⟨hnone, fun hfull hnull => ?_⟩
    have hbyte : inst.toNat < 256 := inst.isLt
    have hbeyond := hnone.1 hnull
    omega
  · have h := exec_answersNull ha hi hn
    exact ⟨h.unchanged, h.copied⟩

end NullInstance

end Sys2Proof.Machine
end

section
/-! SUPPORT. Reset (`70_reset_and_hazards.md` R450, R451): what it leaves in a stage (O16), and that it is one step
(O17). -/

namespace Sys2Proof.Machine
open Sys2Proof

section ResetStage

/-! ## A stage after reset (R451) -/

variable {c : Config}

/-- The bits of a file that holds copies of one uninitialized element. -/
theorem map_init_replicate {α : Type} {init : α → Bool} {x : α} (hx : init x = false) (n : Nat) :
    ∀ b ∈ (List.replicate n x).map init, b = false := by
  rw [List.map_replicate, hx]
  exact fun _ => List.eq_of_mem_replicate

/-- None of the twelve classes has an initialized element, and a class beyond them has no element (R33). -/
theorem initBits_reset (cls : Nat) : ∀ b ∈ initBits (Stage.reset c) cls, b = false := by
  unfold initBits
  iterate 12
    refine iteInduction (motive := fun bits => ∀ b ∈ bits, b = false) (fun _ => map_init_replicate rfl _) fun _ => ?_
  exact fun _ hb => absurd hb List.not_mem_nil

theorem cqFree_reset : cqFree c (Stage.reset c) = c.cqDepth := Nat.sub_zero _

/-- Settles O16: both stages are `Stage.reset`, and every file of it holds copies of one element. -/
theorem resetValues : Obligations.ResetValues := by
  intro c st hst
  obtain rfl : st = Stage.reset c := hst.elim id id
  refine ⟨rfl, rfl, rfl, rfl, rfl, rfl, cqFree_reset, List.length_replicate, fun _ => List.eq_of_mem_replicate,
    rfl, rfl, initBits_reset, fun x hx => ?_, fun x hx => ?_, fun x hx => ?_⟩
  · rw [List.eq_of_mem_replicate hx]; rfl
  · rw [List.eq_of_mem_replicate hx]; exact ⟨rfl, rfl⟩
  · rw [List.eq_of_mem_replicate hx]; rfl

end ResetStage

section ResetStep

/-! ## The step a reset takes (R450) -/

/-- Settles O17: no port holds a reset back, so the first event is the one taken, and taking it is `resetAll`. -/
theorem resetIsOneStep : Obligations.ResetIsOneStep := by
  intro s rest hp hi
  have htaken : nextInput (portReady s) s.inputs = some (.reset, rest) := by rw [hi]; rfl
  rw [step_between hp, inputStep, htaken]
  rfl

end ResetStep

end Sys2Proof.Machine
end
